-- ==== Sys2Proof/Word.lean ====
section
/-! DEFINITION. The word types and the five instruction formats as records of bit fields (03_encoding, R58 to R67). -/

namespace Sys2Proof

/-- A 64-bit doubleword: an instruction word, a clause header, an x register. -/
abbrev Word := BitVec 64

/-- A 32-bit element: one v register of one VP. -/
abbrev Lane := BitVec 32

abbrev Byte := BitVec 8

/-- CLASS of a clause header (R52); code 0b11 is illegal and has no constructor. -/
inductive Cls where
  | c | v | s
  deriving DecidableEq, Repr

/-- Format A (R61) with the predicate bits of R58. -/
structure FmtA where
  pn : Bool
  ps : BitVec 3
  d : BitVec 8
  a : BitVec 8
  b : BitVec 8
  c : BitVec 8
  ty : BitVec 4
  rnd : BitVec 3
  sat : Bool
  ta : Bool
  tb : Bool
  tc : Bool
  md : BitVec 5
  deriving DecidableEq, Repr

/-- Format I (R64). -/
structure FmtI where
  pn : Bool
  ps : BitVec 3
  d : BitVec 8
  a : BitVec 8
  imm : BitVec 32
  deriving DecidableEq, Repr

/-- Format M (R65). -/
structure FmtM where
  pn : Bool
  ps : BitVec 3
  data : BitVec 8
  base : BitVec 8
  index : BitVec 8
  off : BitVec 16
  scope : BitVec 2
  sz5 : Bool
  sz : BitVec 2
  ff : Bool
  tbase : Bool
  nt : Bool
  deriving DecidableEq, Repr

/-- Format B (R66). -/
structure FmtB where
  pn : Bool
  ps : BitVec 3
  a : BitVec 8
  off : BitVec 40
  deriving DecidableEq, Repr

/-- Format E (R67). -/
structure FmtE where
  pn : Bool
  ps : BitVec 3
  queue : BitVec 4
  acq : Bool
  rel : Bool
  escope : BitVec 2
  a : BitVec 8
  b : BitVec 8
  c : BitVec 8
  imm : BitVec 16
  deriving DecidableEq, Repr

/-- Format L (R67, R155). -/
structure FmtL where
  pn : Bool
  ps : BitVec 3
  tile : BitVec 3
  rsv : BitVec 5
  kreg : BitVec 8
  asrc : BitVec 8
  baddr : BitVec 8
  msel : BitVec 3
  sparse : Bool
  sbyte : BitVec 2
  bcast : BitVec 2
  incA : BitVec 4
  incB : BitVec 4
  deriving DecidableEq, Repr

/-- The element types of R62, the extension codes included. -/
inductive ElemTy where
  | i8 | i16 | i32 | i64 | n8 | n16 | n32 | n64
  | f64 | f32 | f16 | bf16 | e4m3 | e5m2 | e2m1 | e8m0 | i4 | t2
  deriving DecidableEq, Repr

end Sys2Proof
end

