-- ==== Sys2Proof/Syntax.lean ====
section
/-! DEFINITION. Every operation and event of the opcode table, one constructor each (03_encoding R69 to R71, 95_what_each_step_holds). -/

namespace Sys2Proof

/-- One indivisible step of the device. An instruction carries its decoded format fields; an event or a command names the
unit it concerns (core in device, group slot, cluster, yard, virtual function) and its arguments. Addresses and unit numbers
are natural numbers; an event that names a unit the device does not have is not well formed. The management commands of R343
take their argument doublewords from the request that the Farrier is executing, so they carry none; constructors without
arguments stand last. -/
inductive Instr where
  /-- ISSUE_CHOICE (R254): At a clause boundary the core's issue slot chooses a ready candidate by the yard's issue policy, then fetches, translates and decodes that candidate's clause and begins issuing it. -/
  | issueChoice (core : Nat)
  /-- STARVATION_CAP (R254): A ready candidate's unchosen-cycle count reaches 4,096, so it is chosen at the next choice. -/
  | starvationCap (core slot : Nat) (vec : Bool)
  /-- CLAUSE_WAKE (R256): The blocking condition of a suspended clause, parked VP or held instruction clears, and its candidate becomes ready again. -/
  | clauseWake (core slot : Nat) (vec : Bool)
  /-- CLAIM_FILL (R33): A claiming producer completes; in one indivisible step it writes the value and sets the full bit of its claimed destination. -/
  | claimFill (core slot n : Nat)
  /-- LINE_FILL (R23): A fill from an HBM stack arrives at the line's home L2 bank, which installs the line and serves the waiting request. -/
  | lineFill (pa : Nat)
  /-- LOGICAL_CLOCK_TICK (R197): A core's logical clock advances by one tick, at least every 32 cycles, which ages its leases. -/
  | logicalClockTick (core : Nat)
  /-- BALER_WINDOW (R220): The Baler's collection window of up to 32 cycles ends, and it sends its merged line requests. -/
  | balerWindow (core : Nat)
  /-- COMBINING_BUFFER (R201): A cluster combining-buffer entry reaches its 32-cycle limit and forwards its combined atomic operands to the executing unit. -/
  | combiningBuffer (cluster entry : Nat)
  /-- VGL_LINK_DROP (R202): An executing unit drops a vgl link for want of space, so that link is no longer intact. -/
  | vglLinkDrop (core slot n : Nat)
  /-- LATTICE_STEP (R139): The Lattice sequencer issues one K-step, or a sparse pair of steps, of an accepted loop whose operands are available. -/
  | latticeStep (cluster : Nat)
  /-- MLOOP_COMPLETE (R139): A loop's tile becomes ready 16 cycles after the cycle of its last step. -/
  | mloopComplete (core tile : Nat)
  /-- TILE_FAULT (R166): The Lattice save sequencer serves a use of a tile by a context that is not its holder: it saves the holder's image, restores or zeroes the tile and transfers ownership. -/
  | tileFault (core slot tile : Nat)
  /-- TILE_FILL_COMPLETE (R150): The last byte of a tfill or tdrain is transferred, and the tile becomes ready or empty. -/
  | tileFillComplete (core entry : Nat)
  /-- MLOAD_COMPLETE (R153): An mload finishes writing its Hayloft lines, marks each line valid or invalid and completes. -/
  | mloadComplete (core slot : Nat)
  /-- GLAZE_CREDIT (R176): A credit from the parent's Lattice unit reaches a waiting sender, which then transmits its tile on the Glaze class. -/
  | glazeCredit (core tile : Nat)
  /-- CONTRIBUTION_LANDING (R181): A Glaze contribution lands in its reserved receive slot; the send's outcome becomes SENT and the sending tile becomes empty. -/
  | contributionLanding (core tile : Nat)
  /-- GLAZE_ADD (R177): The cluster's Glaze adder adds one landed contribution into its receiver's tile, frees the slot and passes the next credit on. -/
  | glazeAdd (cluster : Nat)
  /-- DRAY_COMMAND_START (R41): The Dray engine starts a queued command, performing any acquire and handle resolution first. -/
  | drayCommandStart (core job : Nat)
  /-- DRAY_CHUNK (R237): The Dray engine translates, reads and writes one chunk of a command's stream. -/
  | drayChunk (core job : Nat)
  /-- DRAY_RESULT (R238): A command ends; it performs any barrier increment and places its result word in its queue's result FIFO. -/
  | drayResult (core job : Nat)
  /-- PUSH_REGISTER_MOVE (R231): A destination register of a vpush is open in every target VP, so the source register is read and written into the target. -/
  | pushRegisterMove (core slot n : Nat)
  /-- PACKER_TIMER (R277): A stall's packer timer expires, so the packer starts a group from that stall. -/
  | packerTimer (cluster stall : Nat)
  /-- PACKED_GROUP_START (R278): A group slot frees on a qualifying core, and a full or timed-out stall starts its packed group. -/
  | packedGroupStart (cluster stall : Nat)
  /-- OVERFLOW_REFILL (R278): The cluster unit moves spawned items from the spawn overflow area back into stalls in FIFO order. -/
  | overflowRefill (cluster vf : Nat)
  /-- LAUNCH_GROUP_START (R282): A group slot of the record's G becomes free, and the next instance of an accepted launch record starts as a group. -/
  | launchGroupStart (vf n : Nat)
  /-- HOST_ACCESS (R211): A host access through the bridging port is performed at its home bank in the order the host sent it. -/
  | hostAccess (wr : Bool) (pa size : Nat) (data : Word)
  /-- PEER_ACCESS (R211): A peer device's access that arrived over the links is performed at its home bank in per-source order. -/
  | peerAccess (dev : Nat) (wr : Bool) (pa size : Nat) (data : Word)
  /-- FLIT_CRC_ERROR (R341): A Kealen flit fails its CRC check; the link layer counts the failure and resends the flit. -/
  | flitCrcError (link : Nat)
  /-- LINK_RETRAIN_FAILURE (R346): A link fails its third retraining attempt and is retired; routes are recomputed and its outstanding accesses are abandoned. -/
  | linkRetrainFailure (link : Nat)
  /-- UNCORRECTABLE (R335): An uncorrectable memory error faults the owning virtual function in class 3. -/
  | uncorrectable (unit pa : Nat) (grp : Option (Nat × Nat))
  /-- SLOT_EDGE_GUARD (R304): At E minus GUARD the outgoing virtual function stops issuing, and drain steps 1 to 5 begin. -/
  | slotEdgeGuard (yard : Nat)
  /-- DRAIN_COMPLETE (R304): The drain completes, so the context is saved, the yard is flushed and scrubbed, and the incoming context is restored. -/
  | drainComplete (yard : Nat)
  /-- INCOMING_START (R307): At E plus S_y the incoming virtual function begins issuing. -/
  | incomingStart (yard : Nat)
  /-- CFGSEM_ACQUIRE (R344): A port writes 1 to CFGSEM to acquire or renew the configuration semaphore. -/
  | cfgsemAcquire (port : Nat)
  /-- CFGSEM_RELEASE (R344): A port writes 2 to CFGSEM to release the semaphore. -/
  | cfgsemRelease (port : Nat)
  /-- DOORBELL (R342): A write of 1 to a port's doorbell submits the request in its buffer to the Farrier. -/
  | doorbell (port : Nat)
  /-- START (R332): The driver command that checks a launch record and starts a virtual function's root group. -/
  | start (vf rec tsbase : Nat)
  /-- HALT (R332): The driver command that halts a group or a virtual function under R322. -/
  | halt (vf : Nat) (grp : Option (Nat × Nat))
  /-- RESUME (R332): The driver command that resumes a group halted in class 2 or by the driver. -/
  | resume (vf core slot : Nat)
  /-- RESUMEVF (R332): The driver command that resumes every class-3 halted group of a virtual function. -/
  | resumeVf (vf : Nat)
  /-- STEP (R332): The driver command that resumes a group, which then halts after one clause. -/
  | stepGroup (vf core slot : Nat)
  /-- REPLAY (R332): The driver command that replays an operand-log entry. -/
  | replay (core entry : Nat)
  /-- DISCARD (R327): The driver command that turns a logged instruction into an in-flight record and halts its group with XLATE-HALT. -/
  | discard (core entry : Nat)
  /-- GETVP (R332): The driver command that copies per-VP records to host memory. -/
  | getvp (vf core slot first count addr : Nat)
  /-- SETVP (R332): The driver command that writes per-VP records from host memory. -/
  | setvp (vf core slot first count addr : Nat)
  /-- WRCTX (R332): The driver command that writes an allowed field of a halted group's context block. -/
  | wrctx (vf core slot off : Nat) (val : Word)
  /-- CLEARREC (R330): The driver command that frees a virtual function's engine fault records. -/
  | clearrec (core vf : Nat)
  /-- RESETVF (R331): The driver command that ends every group of a virtual function at once and releases its resources. -/
  | resetvf (vf : Nat)
  /-- CLOSECHAIN (R185): The driver command that carries out gclose for a virtual function. -/
  | closechain (vf : Nat) (id : Word)
  /-- VOPEN_WRITE (R36): A write to vopen makes the selected v registers open in every VP. -/
  | vopenWrite (val : Word)
  /-- XOPEN_WRITE (R36): A write to xopen makes the selected x registers open. -/
  | xopenWrite (val : Word)
  /-- QIN_WRITE (R42): A write to qin pushes the low 32 bits onto qin, blocking while qin is full. -/
  | qinWrite (val : Word)
  /-- QOUT_READ (R42): A read of qout pops one entry, zero-extended; an empty qout is an empty source. -/
  | qoutRead (d : BitVec 8)
  /-- TILEOWN_WRITE (R44): A write to tileown claims or releases accumulator tiles, saving another holder's image on release. -/
  | tileownWrite (val : Word)
  /-- FMODE_WRITE (R46): A write to fmode stores FTZ and DRM, leaving DRM unchanged for codes 0b110 and 0b111. -/
  | fmodeWrite (val : Word)
  /-- VSTART_WRITE (R45): A write to vstart stores values of 1,024 or more as 1,024. -/
  | vstartWrite (val : Word)
  /-- VDIRTY_CLEAR (R45): A write to vdirty clears each bit written as 1. -/
  | vdirtyClear (val : Word)
  /-- FFLAGS_CLEAR (R46): A write to fflags clears each flag written as 1. -/
  | fflagsClear (val : Word)
  /-- TILE_TABLE_WRITE (R146): A write to an LS tile-table entry takes effect only while the entry is empty. -/
  | tileTableWrite (core entry : Nat) (val : Word)
  /-- PACKER_TIMER_WRITE (R277): A write to the cluster's TIMER register stores values below 64 as 64. -/
  | packerTimerWrite (cluster : Nat) (val : Word)
  /-- CNTSEL_WRITE (R315): A write to CNTSEL selects a counter's event and zeroes that counter. -/
  | cntselWrite (vf i : Nat) (val : Word)
  /-- REGISTER_WRITE (R12): A write to a register that has no row of its own acts by its Access code. -/
  | registerWrite (pa : Nat) (val : Word)
  /-- ADD (R109): Integer add of two x registers. -/
  | add (f : FmtA)
  /-- SUB (R109): Integer subtract. -/
  | sub (f : FmtA)
  /-- MUL (R109): Integer multiply, low 64 bits. -/
  | mul (f : FmtA)
  /-- MULH (R109): Upper 64 bits of the 128-bit product. -/
  | mulh (f : FmtA)
  /-- DIV (R109): Integer divide truncated toward zero, without fault. -/
  | div (f : FmtA)
  /-- REM (R109): Integer remainder. -/
  | rem (f : FmtA)
  /-- AND (R109): Bitwise AND. -/
  | and (f : FmtA)
  /-- OR (R109): Bitwise OR. -/
  | or (f : FmtA)
  /-- XOR (R109): Bitwise XOR. -/
  | xor (f : FmtA)
  /-- ANDN (R109): A AND NOT B. -/
  | andn (f : FmtA)
  /-- SHL (R109): Shift left. -/
  | shl (f : FmtA)
  /-- SHR (R109): Logical shift right. -/
  | shr (f : FmtA)
  /-- SRA (R109): Arithmetic shift right. -/
  | sra (f : FmtA)
  /-- ROT (R109): Rotate left. -/
  | rot (f : FmtA)
  /-- MIN (R109): Lesser of two values. -/
  | min (f : FmtA)
  /-- MAX (R109): Greater of two values. -/
  | max (f : FmtA)
  /-- CLZ (R110): Count of leading zero bits. -/
  | clz (f : FmtA)
  /-- POPC (R110): Count of one bits. -/
  | popc (f : FmtA)
  /-- SEXT (R110): Sign-extend from 8, 16 or 32 bits. -/
  | sext (f : FmtA)
  /-- ZEXT (R110): Zero-extend from 8, 16 or 32 bits. -/
  | zext (f : FmtA)
  /-- SEL (R110): Select A or B by a predicate. -/
  | sel (f : FmtA)
  /-- LEA (R110): A plus B shifted left. -/
  | lea (f : FmtA)
  /-- ADD_IMM (R111): Add of a sign-extended immediate. -/
  | addImm (f : FmtI)
  /-- MUL_IMM (R111): Multiply by an immediate. -/
  | mulImm (f : FmtI)
  /-- AND_IMM (R111): AND with an immediate. -/
  | andImm (f : FmtI)
  /-- OR_IMM (R111): OR with an immediate. -/
  | orImm (f : FmtI)
  /-- XOR_IMM (R111): XOR with an immediate. -/
  | xorImm (f : FmtI)
  /-- SHL_IMM (R111): Shift left by an immediate. -/
  | shlImm (f : FmtI)
  /-- SHR_IMM (R111): Logical shift right by an immediate. -/
  | shrImm (f : FmtI)
  /-- SRA_IMM (R111): Arithmetic shift right by an immediate. -/
  | sraImm (f : FmtI)
  /-- ROT_IMM (R111): Rotate left by an immediate. -/
  | rotImm (f : FmtI)
  /-- MOVI (R111): Write a sign-extended immediate. -/
  | movi (f : FmtI)
  /-- MOVHI (R111): Set the high half of a register from an immediate. -/
  | movhi (f : FmtI)
  /-- CMP (R112): Compare two x registers into a predicate. -/
  | cmp (cond : BitVec 4) (f : FmtA)
  /-- CMP_IMM (R112): Compare an x register with an immediate into a predicate. -/
  | cmpImm (cond : BitVec 4) (f : FmtI)
  /-- PAND (R113): Predicate AND. -/
  | pand (f : FmtA)
  /-- POR (R113): Predicate OR. -/
  | por (f : FmtA)
  /-- PXOR (R113): Predicate XOR. -/
  | pxor (f : FmtA)
  /-- PNOT (R113): Predicate NOT. -/
  | pnot (f : FmtA)
  /-- FADD (R115): Scalar floating-point add. -/
  | fadd (f : FmtA)
  /-- FMUL (R115): Scalar floating-point multiply. -/
  | fmul (f : FmtA)
  /-- FFMA (R115): Scalar fused multiply-add. -/
  | ffma (f : FmtA)
  /-- FCVT (R116): Scalar format conversion. -/
  | fcvt (f : FmtA)
  /-- BR (R271): Relative branch. -/
  | br (f : FmtB)
  /-- CALL (R271): Relative call that writes a link. -/
  | call (f : FmtB)
  /-- LOOP (R271): Counted loop branch. -/
  | loop (f : FmtB)
  /-- JMPR (R271): Jump to a register address. -/
  | jmpr (f : FmtA)
  /-- RET (R271): Return to a register address. -/
  | ret (f : FmtA)
  /-- STOP (R273): End the group once its runs, claims and children are done. -/
  | stop (f : FmtA)
  /-- YIELD (R274): Give the group the youngest age and yield the issue slot. -/
  | yield (f : FmtA)
  /-- SETVL (R258): Set the vector length. -/
  | setvl (f : FmtA)
  /-- VREGS (R259): Change the declared register count once the group is quiescent. -/
  | vregs (f : FmtI)
  /-- VF (R260): Start a run of V clauses. -/
  | vf (f : FmtB)
  /-- VFWAIT (R268): Wait until the group's run has ended. -/
  | vfwait (f : FmtA)
  /-- FORK (R279): Split the group's lane set into a parent and a child. -/
  | fork (f : FmtA)
  /-- JOIN (R280): Reunite a parent with its ended child, or end a child. -/
  | join (f : FmtA)
  /-- SPAWN (R276): Place one item in the cluster's stalls. -/
  | spawn (f : FmtA)
  /-- LAUNCH (R281): Read, check and accept a launch record. -/
  | launch (f : FmtA)
  /-- VLD (R217): Unit-stride vector load. -/
  | vld (f : FmtM)
  /-- VLDFF (R219): First-fault vector load. -/
  | vldff (f : FmtM)
  /-- VST (R217): Unit-stride vector store. -/
  | vst (f : FmtM)
  /-- VLDS (R217): Strided vector load. -/
  | vlds (f : FmtM)
  /-- VSTS (R217): Strided vector store. -/
  | vsts (f : FmtM)
  /-- VLDX (R217): Indexed gather. -/
  | vldx (f : FmtM)
  /-- VSTX (R217): Indexed scatter. -/
  | vstx (f : FmtM)
  /-- VGL (R222): Gather that sets links. -/
  | vgl (f : FmtM)
  /-- VSC (R222): Scatter-conditional that writes a success mask. -/
  | vsc (f : FmtM)
  /-- VAMO (R224): Vector atomic read-modify-write. -/
  | vamo (op : BitVec 3) (f : FmtM)
  /-- VPUSH (R229): Push registers into another group. -/
  | vpush (f : FmtA)
  /-- LD (R225): Scalar load. -/
  | ld (f : FmtM)
  /-- ST (R225): Scalar store. -/
  | st (f : FmtM)
  /-- AMO (R225): Scalar atomic. -/
  | amo (op : BitVec 3) (f : FmtM)
  /-- FENCE_X (R209): Fence between instruction and engine accesses. -/
  | fenceX (f : FmtA)
  /-- FENCE_SYS (R209): Fence that also covers system-scope accesses and every earlier command. -/
  | fenceSys (f : FmtA)
  /-- MAND (R117): Mask AND. -/
  | mand (f : FmtA)
  /-- MOR (R117): Mask OR. -/
  | mor (f : FmtA)
  /-- MNOT (R117): Mask NOT. -/
  | mnot (f : FmtA)
  /-- MSET (R117): Set mask bits below a count. -/
  | mset (f : FmtA)
  /-- MCOUNT (R117): Count mask bits. -/
  | mcount (f : FmtA)
  /-- MFIRST (R117): Mask up to the first set bit. -/
  | mfirst (f : FmtA)
  /-- MPREFIX (R117): Exclusive prefix count of a mask into v. -/
  | mprefix (f : FmtA)
  /-- VRED_ADD (R132): Tree-ordered reduction sum. -/
  | vredAdd (f : FmtA)
  /-- VRED_MIN (R132): Reduction minimum. -/
  | vredMin (f : FmtA)
  /-- VRED_MAX (R132): Reduction maximum. -/
  | vredMax (f : FmtA)
  /-- VSCAN (R133): Inclusive left-to-right scan. -/
  | vscan (f : FmtA)
  /-- VCOMPRESS (R134): Pack selected elements to the front. -/
  | vcompress (f : FmtA)
  /-- VSLIDEUP (R135): Slide elements up by an offset. -/
  | vslideup (f : FmtA)
  /-- VSLIDEDOWN (R135): Slide elements down by an offset. -/
  | vslidedown (f : FmtA)
  /-- VMEXP (R136): Compute block scale bytes. -/
  | vmexp (f : FmtA)
  /-- VQUANT (R136): Quantise elements by block scales. -/
  | vquant (f : FmtA)
  /-- VUNION (R137): Merge two sorted index-and-value streams. -/
  | vunion (f : FmtA)
  /-- DCOPY (R239): Push a copy command. -/
  | dcopy (f : FmtE)
  /-- DCOPY2D (R240): Push a two-dimensional copy command. -/
  | dcopy2d (f : FmtE)
  /-- DFILL (R239): Push a fill command. -/
  | dfill (f : FmtE)
  /-- DCOMPACT (R241): Push a segment-compaction command. -/
  | dcompact (f : FmtE)
  /-- DHALO (R242): Push a local-store halo copy command. -/
  | dhalo (f : FmtE)
  /-- DTILE (R243): Push an LS tile fill command. -/
  | dtile (f : FmtE)
  /-- DCOPY_BAR (R244): Copy command with a completion barrier. -/
  | dcopyBar (f : FmtE)
  /-- DCOPY2D_BAR (R244): 2D copy command with a completion barrier. -/
  | dcopy2dBar (f : FmtE)
  /-- DFILL_BAR (R244): Fill command with a completion barrier. -/
  | dfillBar (f : FmtE)
  /-- DCOMPACT_BAR (R244): Compaction command with a completion barrier. -/
  | dcompactBar (f : FmtE)
  /-- DHALO_BAR (R244): Halo command with a completion barrier. -/
  | dhaloBar (f : FmtE)
  /-- DTILE_BAR (R244): Tile fill command with a completion barrier. -/
  | dtileBar (f : FmtE)
  /-- TFILL (R150): Copy a tile from memory. -/
  | tfill (f : FmtA)
  /-- TDRAIN (R150): Copy a tile to memory. -/
  | tdrain (f : FmtA)
  /-- TFREE (R151): Make a tile empty. -/
  | tfree (f : FmtA)
  /-- TWAIT (R151): Wait until a tile leaves filling or draining. -/
  | twait (f : FmtA)
  /-- QPOP (R246): Pop an engine result word. -/
  | qpop (f : FmtA)
  /-- MLOOP (R156): Place a matrix loop in the Lattice sequencer. -/
  | mloop (fmt : BitVec 3) (f : FmtL)
  /-- MLOAD (R152): Load bytes into the Hayloft. -/
  | mload (f : FmtA)
  /-- MZERO (R163): Zero an accumulator tile and make it ready. -/
  | mzero (f : FmtA)
  /-- MREAD (R164): Copy tile elements into a v register. -/
  | mread (f : FmtA)
  /-- GCHAIN (R179): Create a Glaze chain from a descriptor. -/
  | gchain (f : FmtA)
  /-- GOPEN (R180): Open a tile as a receiver for a round. -/
  | gopen (f : FmtA)
  /-- GSEND (R181): Send a tile to its parent. -/
  | gsend (f : FmtA)
  /-- GWAIT (R182): Report the outcome of a receive or send. -/
  | gwait (f : FmtA)
  /-- GCLOSE (R185): End a Glaze chain. -/
  | gclose (f : FmtA)
  /-- BARR (R284): Arrive at a barrier. -/
  | barr (f : FmtA)
  /-- BWAIT (R284): Wait for a barrier phase to pass. -/
  | bwait (f : FmtA)
  /-- BSYNC (R284): Arrive at a barrier and wait. -/
  | bsync (f : FmtA)
  /-- SLOTYIELD (R309): Donate the rest of the slot. -/
  | slotyield (f : FmtA)
  /-- CNTRD (R313): Read a per-tenant counter. -/
  | cntrd (f : FmtA)
  /-- SRSEED (R95): Seed every VP's rounding state. -/
  | srseed (f : FmtA)
  /-- TRAP (R328): Halt the group with code TRAP. -/
  | trap (f : FmtA)
  /-- BRK (R328): Halt the group with code BREAK. -/
  | brk (f : FmtA)
  /-- TLBINV (R316): Invalidate one page's translations. -/
  | tlbinv (f : FmtA)
  /-- TLBINV_ALL (R316): Invalidate all translations. -/
  | tlbinvAll (f : FmtA)
  /-- CSR_RD (R315): Read a privileged register. -/
  | csrRd (f : FmtI)
  /-- CSR_WR (R315): Write a privileged register. -/
  | csrWr (f : FmtI)
  /-- REPLACK (R329): Request replay of an operand-log entry. -/
  | replack (f : FmtI)
  /-- VADD (R119): Lane integer add. -/
  | vadd (f : FmtA)
  /-- VSUB (R119): Lane integer subtract. -/
  | vsub (f : FmtA)
  /-- VMUL (R119): Lane integer multiply. -/
  | vmul (f : FmtA)
  /-- VMULH (R119): Lane high multiply. -/
  | vmulh (f : FmtA)
  /-- VMAD (R119): Lane multiply-add. -/
  | vmad (f : FmtA)
  /-- VAND (R119): Lane bitwise AND. -/
  | vand (f : FmtA)
  /-- VOR (R119): Lane bitwise OR. -/
  | vor (f : FmtA)
  /-- VXOR (R119): Lane bitwise XOR. -/
  | vxor (f : FmtA)
  /-- VSHL (R119): Lane shift left. -/
  | vshl (f : FmtA)
  /-- VSHR (R119): Lane logical shift right. -/
  | vshr (f : FmtA)
  /-- VSRA (R119): Lane arithmetic shift right. -/
  | vsra (f : FmtA)
  /-- VMIN (R119): Lane minimum. -/
  | vmin (f : FmtA)
  /-- VMAX (R119): Lane maximum. -/
  | vmax (f : FmtA)
  /-- VCLZ (R119): Lane leading-zero count. -/
  | vclz (f : FmtA)
  /-- VPOPC (R119): Lane one-bit count. -/
  | vpopc (f : FmtA)
  /-- VSEL (R119): Lane select by a c register. -/
  | vsel (f : FmtA)
  /-- VMOV (R119): Lane register move. -/
  | vmov (f : FmtA)
  /-- VMOVI (R120): Lane move of a 32-bit immediate. -/
  | vmovi (f : FmtI)
  /-- VFADD (R122): Lane FP add. -/
  | vfadd (f : FmtA)
  /-- VFSUB (R122): Lane FP subtract. -/
  | vfsub (f : FmtA)
  /-- VFMUL (R122): Lane FP multiply. -/
  | vfmul (f : FmtA)
  /-- VFMA (R122): Lane fused multiply-add. -/
  | vfma (f : FmtA)
  /-- VFMS (R122): Lane fused multiply-subtract. -/
  | vfms (f : FmtA)
  /-- VFNMA (R122): Lane negated fused multiply-add. -/
  | vfnma (f : FmtA)
  /-- VFMIN (R123): Lane FP minimum. -/
  | vfmin (f : FmtA)
  /-- VFMAX (R123): Lane FP maximum. -/
  | vfmax (f : FmtA)
  /-- VFRCP (R124): Lane reciprocal. -/
  | vfrcp (f : FmtA)
  /-- VFRSQ (R124): Lane reciprocal square root. -/
  | vfrsq (f : FmtA)
  /-- VFSQRT (R124): Lane square root. -/
  | vfsqrt (f : FmtA)
  /-- VFEXP2 (R124): Lane base-2 exponential. -/
  | vfexp2 (f : FmtA)
  /-- VFLOG2 (R124): Lane base-2 logarithm. -/
  | vflog2 (f : FmtA)
  /-- VFCMP (R125): Lane FP compare into a c register. -/
  | vfcmp (f : FmtA)
  /-- VFCLASS (R126): Lane FP classification. -/
  | vfclass (f : FmtA)
  /-- VCVT (R127): Lane format conversion. -/
  | vcvt (f : FmtA)
  /-- VPACK (R128): Convert several registers into one. -/
  | vpack (f : FmtA)
  /-- VUNPACK (R128): Convert one register into several. -/
  | vunpack (f : FmtA)
  /-- QPUT (R129): Push onto qnext or qout. -/
  | qput (f : FmtA)
  /-- VFETCH (R266): Per-VP transfer that diverges the run. -/
  | vfetch (f : FmtB)
  /-- VBRU (R267): Uniform branch of the executing VPs. -/
  | vbru (f : FmtB)
  /-- V_STOP (R268): Make the executing VPs idle. -/
  | vStop (f : FmtA)
  /-- V_SPAWN (R276): Place one spawn item per executing VP. -/
  | vSpawn (f : FmtA)
  /-- PLD (R226): VP-issued load. -/
  | pld (f : FmtM)
  /-- PST (R226): VP-issued store. -/
  | pst (f : FmtM)
  /-- PAMO (R226): VP-issued atomic. -/
  | pamo (op : BitVec 3) (f : FmtM)
  /-- EARLY_EDGE (R309): The early edge E' reaches its time: now plus GUARD after a slotyield, or arrival plus GUARD after EN is cleared. Step 6 starts there, and a drain that is not complete is stopped with OVERRUN. -/
  | earlyEdge (yard : Nat)
  /-- ACCESS_PERFORMED (R212): An instruction store, atomic or load request reaches the line's home bank or owning unit and is performed, taking its place in T and in the coherence order. -/
  | accessPerformed (core slot op elem : Nat)
  /-- SYSTEM_SCOPE_ACK (R210): A host or peer destination acknowledges a system-scope write or atomic, and the access is complete at its destination. -/
  | systemScopeAck (core slot n : Nat)
  /-- SINGLE_BIT_ERROR (R333): A single-bit ECC error, or an uncorrectable error in a clean cached copy, is corrected and counted, and the unit is retired when its corrected errors exceed 1,000 in an hour. -/
  | singleBitError (unit pa : Nat) (vf : Option Nat)
  /-- LINK_DOWN (R346): A Kealen link loses training; its status becomes down and retraining begins. -/
  | linkDown (link : Nat)
  /-- LINK_RETRAINED (R346): A retraining attempt that is not the third failure ends; the link returns up, or the failure is counted and another attempt begins. -/
  | linkRetrained (link : Nat) (ok : Bool)
  /-- ROW_BOUNDARY (R306): A slot-table row boundary arrives; table writes and shares take effect, buckets refill, and a drain that has not ended is stopped with OVERRUN. -/
  | rowBoundary
  /-- CFGSEM_TIMEOUT (R344): The semaphore's 1 s timer expires, and HOLDER becomes none. -/
  | cfgsemTimeout
  /-- RESYNC (R345): The management command that writes a 56 KiB configuration summary to host memory. -/
  | resync
  /-- TELEMETRY (R351): The management command that returns power, temperature, clock and error telemetry. -/
  | telemetry
  /-- ATTEST (R349): The management command that returns signed hashes of the firmware and tables with the nonce. -/
  | attest
  /-- YARDSET (R295): The management command that validates and installs the yard table. -/
  | yardset
  /-- VFSET (R299): The management command that writes a virtual-function table entry, including enabling, disabling and segment changes. -/
  | vfset
  /-- SLOTSET (R302): The management command that validates and writes a slot-table row. -/
  | slotset
  /-- SLOTCTL (R301): The management command that writes SLOTCTL and GUARD. -/
  | slotctl
  /-- SEEDSET (R298): The management command that flushes a virtual function's lines and installs a new slice-hash seed. -/
  | seedset
  /-- RETIRE (R346): The management command that retires a unit. -/
  | retire
  /-- POWERCAP (R351): The management command that sets the module power limit. -/
  | powercap
  /-- FWSTAGE (R349): The management command that verifies a firmware image and writes it to the inactive copy. -/
  | fwstage
  /-- RESET (R350): The management command RESET with argument 0, equivalent to a cold reset. -/
  | resetDevice
  /-- FARRIER_RESTART (R350): The management command RESET with argument 1, which re-runs the Farrier alone and keeps tables and contexts. -/
  | farrierRestart
  /-- CLEARALERT (R347): The management command that clears ALERT. -/
  | clearalert
  /-- WINBASE (R341): The management command that sets the base of the BAR2 HBM window. -/
  | winbase
  /-- COLD_RESET (R350): Power-on or PERST# resets every table, clears storage, and verifies firmware in the boot ROM. -/
  | coldReset
  /-- THERMAL_THROTTLE (R351): The junction temperature reaches 95 °C, and the clocks are lowered in 5 % steps. -/
  | thermalThrottle
  /-- THERMAL_TRIP (R351): The junction temperature reaches 110 °C; every yard takes an edge to idle and ALERT is raised. -/
  | thermalTrip
  /-- POWER_THROTTLE (R351): Power exceeds the POWERCAP limit, and the clocks are lowered in 5 % steps. -/
  | powerThrottle
  /-- FARRIER_READY (R350): A Farrier re-run started by RESET with argument 1 finishes, and the mailbox becomes available again within 200 ms. -/
  | farrierReady
  deriving DecidableEq, Repr

end Sys2Proof
end

