-- ==== Sys2Proof/WellFormed.lean ====
section
/-! DEFINITION. Which instruction words are legal: the field kinds of R68, the type, rounding and size codes each instruction
accepts, and the rules of R59, R60, R72. Events and commands are well formed when the units they name exist (R15). -/

namespace Sys2Proof

/-! Kinds of register field (R68, R45, R107). -/

def isX (r : BitVec 8) : Bool := r.toNat < 0x80
/-- A readable scalar source: x, or a system register that is not write-only (R45). -/
def isXsSrc (r : BitVec 8) : Bool :=
  isX r || (0xC0 ≤ r.toNat && r.toNat ≤ 0xD1 && r != 0xC6 && r != 0xC7 && r != 0xC8)
/-- A writable scalar destination: x, or a system register that is not read-only (R45). -/
def isXsDst (r : BitVec 8) : Bool :=
  isX r || r == 0xC2 || r == 0xC3 || r == 0xC5 || r == 0xC6 || r == 0xC7 || r == 0xC8 || r == 0xCA || r == 0xCB
def isP (r : BitVec 8) : Bool := 0x80 ≤ r.toNat && r.toNat < 0x88
def isM (r : BitVec 8) : Bool := 0x88 ≤ r.toNat && r.toNat < 0x90
def isK (r : BitVec 8) : Bool := 0x90 ≤ r.toNat && r.toNat < 0xA0
def isT (r : BitVec 8) : Bool := 0xA0 ≤ r.toNat && r.toNat < 0xA8
def isV (r : BitVec 8) : Bool := r.toNat < 0x40
def isC (r : BitVec 8) : Bool := 0x40 ≤ r.toNat && r.toNat < 0x48
def isNone (r : BitVec 8) : Bool := r == 0xFF
def isUniform (r : BitVec 8) : Bool := 0x80 ≤ r.toNat && r.toNat < 0xFF
def isEvenV (r : BitVec 8) : Bool := isV r && r.toNat % 2 == 0
/-- V-class destination (R68); a 64-bit element takes an even register (R31, R118). -/
def isVd (wide : Bool) (r : BitVec 8) : Bool :=
  if wide then isEvenV r else isV r || r == 0x49 || r == 0x4B
/-- V-class source (R68, R118). -/
def isVs (wide : Bool) (r : BitVec 8) : Bool :=
  if wide then isEvenV r || isUniform r
  else isV r || r == 0x48 || r == 0x4A || r == 0x4B || isUniform r
/-- C-class v field holding elements of 32 or 64 bits (R31). -/
def isVw (wide : Bool) (r : BitVec 8) : Bool := if wide then isEvenV r else isV r
/-- Address or item operand of a VP-issued instruction: an even pair or a uniform x (R226, R276). -/
def isPairOrUniform (r : BitVec 8) : Bool := isEvenV r || isUniform r

/-! Types (R62). -/

/-- The element type of a code and its extension; extension 0b11 of code 0xF names no type. -/
def tyOf (code : BitVec 4) (ext : BitVec 2) : Option ElemTy :=
  match code.toNat with
  | 0 => some .i8 | 1 => some .i16 | 2 => some .i32 | 3 => some .i64
  | 4 => some .n8 | 5 => some .n16 | 6 => some .n32 | 7 => some .n64
  | 8 => some .f64 | 9 => some .f32 | 10 => some .f16 | 11 => some .bf16
  | 12 => some .e4m3 | 13 => some .e5m2 | 14 => some .e2m1
  | _ => match ext.toNat with
    | 0 => some .e8m0 | 1 => some .i4 | 2 => some .t2 | _ => none

def ElemTy.width : ElemTy → Nat
  | .i8 | .n8 | .e4m3 | .e5m2 | .e8m0 => 8
  | .i16 | .n16 | .f16 | .bf16 => 16
  | .i32 | .n32 | .f32 => 32
  | .i64 | .n64 | .f64 => 64
  | .e2m1 | .i4 => 4
  | .t2 => 2

def ElemTy.isFp : ElemTy → Bool
  | .f64 | .f32 | .f16 | .bf16 | .e4m3 | .e5m2 | .e2m1 | .e8m0 => true
  | _ => false

/-- Result type of format A: TYPE, extended by MOD[4:3] (R62). -/
def FmtA.resTy (f : FmtA) : Option ElemTy := tyOf f.ty (f.md.extractLsb' 3 2)
/-- Source type of a conversion: field C (R62). -/
def FmtA.srcTy (f : FmtA) : Option ElemTy := tyOf (f.c.extractLsb' 0 4) (f.c.extractLsb' 4 2)

/-! Rounding (R63, R94). -/

def rndNone (r : BitVec 3) : Bool := r == 0
/-- Every mode but SR. -/
def rndNoSr (r : BitVec 3) : Bool := r != 5 && r != 6
def rndAll (r : BitVec 3) : Bool := r != 6

/-- R59: PS = 0 with PN = 1 is illegal. -/
def predOk (pn : Bool) (ps : BitVec 3) : Bool := !(pn && ps == 0)

/-- Format A with its four register fields checked by kind, its type code, its rounding code, and the optional fields
named true when the instruction uses them. -/
structure ARule where
  d : BitVec 8 → Bool := isNone
  a : BitVec 8 → Bool := isNone
  b : BitVec 8 → Bool := isNone
  c : BitVec 8 → Bool := isNone
  ty : BitVec 4 → Bool := (· == 0)
  rnd : BitVec 3 → Bool := rndNone
  sat : Bool := false
  ta : Bool := false
  tb : Bool := false
  tc : Bool := false
  md : BitVec 5 → Bool := (· == 0)

/-- R60, R61: every field holds what the rule of its instruction allows. -/
def ARule.ok (r : ARule) (f : FmtA) : Bool :=
  predOk f.pn f.ps && r.d f.d && r.a f.a && r.b f.b && r.c f.c && r.ty f.ty && r.rnd f.rnd
    && (r.sat || !f.sat) && (r.ta || !f.ta) && (r.tb || !f.tb) && (r.tc || !f.tc) && r.md f.md

def tyInt64 (t : BitVec 4) : Bool := t == 3 || t == 7
def tyFp (t : BitVec 4) : Bool := 8 ≤ t.toNat && t.toNat ≤ 11
def tyInt (t : BitVec 4) : Bool := t.toNat ≤ 7
/-- A 32- or 64-bit code. -/
def tyW (t : BitVec 4) : Bool := t == 2 || t == 3 || t == 6 || t == 7 || t == 8 || t == 9
def tyWide (t : BitVec 4) : Bool := t == 3 || t == 7 || t == 8

/-- R109. -/
def wfInt2 (sat : Bool) (f : FmtA) : Bool :=
  ({ d := isXsDst, a := isXsSrc, b := isXsSrc, ty := tyInt64, sat := sat, ta := true, tb := true } : ARule).ok f
/-- R110, the one-source rows. -/
def wfInt1 (ty : BitVec 4 → Bool) (f : FmtA) : Bool :=
  ({ d := isXsDst, a := isXsSrc, ty := ty, ta := true } : ARule).ok f
def wfSel (f : FmtA) : Bool :=
  ({ d := isXsDst, a := isXsSrc, b := isXsSrc, c := isP, ta := true, tb := true, tc := true } : ARule).ok f
def wfLea (f : FmtA) : Bool :=
  ({ d := isXsDst, a := isXsSrc, b := isXsSrc, ta := true, tb := true, md := fun m => m.toNat < 8 } : ARule).ok f
/-- R111. -/
def wfImm (f : FmtI) : Bool := predOk f.pn f.ps && isXsDst f.d && isXsSrc f.a
def wfMovi (f : FmtI) : Bool := predOk f.pn f.ps && isXsDst f.d && isNone f.a
/-- R112: conditions 6 and 7 are unassigned. -/
def condOk (c : BitVec 4) : Bool := c.toNat % 8 < 6
def wfCmp (c : BitVec 4) (f : FmtA) : Bool :=
  condOk c && ({ d := isP, a := isX, b := isX, ta := true, tb := true } : ARule).ok f
def wfCmpImm (c : BitVec 4) (f : FmtI) : Bool := condOk c && predOk f.pn f.ps && isP f.d && isX f.a
/-- R113. -/
def wfP2 (f : FmtA) : Bool := ({ d := isP, a := isP, b := isP, ta := true, tb := true } : ARule).ok f
def wfP1 (f : FmtA) : Bool := ({ d := isP, a := isP, ta := true } : ARule).ok f
/-- R115. -/
def wfFp2 (f : FmtA) : Bool :=
  ({ d := isX, a := isX, b := isX, ty := tyFp, rnd := rndNoSr, sat := true, ta := true, tb := true } : ARule).ok f
def wfFfma (f : FmtA) : Bool :=
  ({ d := isX, a := isX, b := isX, c := isX, ty := tyFp, rnd := rndNoSr, sat := true, ta := true, tb := true,
     tc := true } : ARule).ok f

/-- R62, R98, R116: both types exist, C[23:22] is zero, MOD[2:0] is zero, MOD[4:3] only with code 0xF, and SAT only where
the conversion accepts it; T2 counts as an integer source (log entry 126). -/
def cvtOk (f : FmtA) : Bool :=
  match f.resTy, f.srcTy with
  | some t, some s =>
    f.c.toNat < 64 && (f.c.extractLsb' 0 4 == 15 || f.c.toNat < 16) && f.md.toNat % 8 == 0 && (f.ty == 15 || f.md == 0)
      && (!f.sat || (t != .t2 && (t.isFp || !s.isFp)))
  | _, _ => false
def wfFcvt (f : FmtA) : Bool :=
  cvtOk f && ({ d := isX, a := isX, c := fun _ => true, ty := fun _ => true, rnd := rndNoSr, sat := true, ta := true,
                md := fun _ => true } : ARule).ok f

/-- R66. -/
def wfB (a : BitVec 8 → Bool) (f : FmtB) : Bool := predOk f.pn f.ps && a f.a
/-- Format A with A of kind x alone, or no field at all. -/
def wfXSrc (f : FmtA) : Bool := ({ a := isX, ta := true } : ARule).ok f
def wfBare (f : FmtA) : Bool := ({} : ARule).ok f
def wfXX (f : FmtA) : Bool := ({ d := isX, a := isX, ta := true } : ARule).ok f
def wfVregs (f : FmtI) : Bool :=
  predOk f.pn f.ps && isNone f.d && isNone f.a && (f.imm == 8 || f.imm == 16 || f.imm == 32 || f.imm == 64)
def wfFork (f : FmtA) : Bool := ({ d := isP } : ARule).ok f
def wfSpawn (f : FmtA) : Bool := ({ a := isX, b := isX, ta := true, tb := true } : ARule).ok f
def wfLaunch (f : FmtA) : Bool := ({ d := isP, a := isX, ta := true } : ARule).ok f

/-- Format M (R65): data, base and index kinds; SCOPE, SZ[5] and FF only where the instruction uses them. -/
def wfM (data base index : BitVec 8 → Bool) (scope : BitVec 2 → Bool) (ff : Bool) (f : FmtM) : Bool :=
  predOk f.pn f.ps && data f.data && base f.base && index f.index && scope f.scope && !f.sz5 && (f.ff == ff)
/-- R31, R214: a 64-bit element names an even register. -/
def isVData (f : FmtM) (r : BitVec 8) : Bool := isVw (f.sz == 3) r
/-- R223: sizes 32 and 64; SZ[5] only for add, min and max. -/
def wfAmo (op : BitVec 3) (data base index : BitVec 8 → Bool) (f : FmtM) : Bool :=
  predOk f.pn f.ps && data f.data && base f.base && index f.index && 2 ≤ f.sz.toNat && !f.ff
    && (!f.sz5 || op.toNat ≤ 2)
def scopeNone (s : BitVec 2) : Bool := s == 0
def scopeLink (s : BitVec 2) : Bool := s != 3

/-- R229. -/
def wfVpush (f : FmtA) : Bool :=
  ({ a := isX, b := isV, ta := true, tb := true, md := fun _ => true } : ARule).ok f

/-- R117. -/
def wfM2 (f : FmtA) : Bool := ({ d := isM, a := isM, b := isM, ta := true, tb := true } : ARule).ok f
def wfM1 (f : FmtA) : Bool := ({ d := isM, a := isM, ta := true } : ARule).ok f
def wfMset (f : FmtA) : Bool := ({ d := isM, a := isX, ta := true } : ARule).ok f
def wfMcount (f : FmtA) : Bool := ({ d := isX, a := isM, ta := true } : ARule).ok f
def wfMprefix (f : FmtA) : Bool := ({ d := isV, a := isM, ta := true } : ARule).ok f

/-- R131: an integer reduction does not round. -/
def rndRed (f : FmtA) (r : BitVec 3) : Bool := if f.ty == 8 || f.ty == 9 then rndNoSr r else rndNone r
def wfVred (rounds : Bool) (f : FmtA) : Bool :=
  ({ d := isX, a := isVw (tyWide f.ty), ty := tyW, rnd := if rounds then rndRed f else rndNone, ta := true } : ARule).ok f
def wfVscan (f : FmtA) : Bool :=
  ({ d := isVw (tyWide f.ty), a := isVw (tyWide f.ty), ty := tyW, rnd := rndRed f, ta := true } : ARule).ok f
def wfVcompress (f : FmtA) : Bool :=
  ({ d := isVw (tyWide f.ty), a := isVw (tyWide f.ty), b := isM, ty := tyW, ta := true, tb := true } : ARule).ok f
def wfVslide (f : FmtA) : Bool :=
  ({ d := isVw (tyWide f.ty), a := isVw (tyWide f.ty), b := isX, ty := tyW, ta := true, tb := true } : ARule).ok f
def wfVmexp (f : FmtA) : Bool :=
  ({ d := isV, a := isV, ty := fun t => t == 12 || t == 13 || t == 14, ta := true, md := fun m => m.toNat < 4 } : ARule).ok f
def wfVunion (f : FmtA) : Bool :=
  ({ d := fun r => isV r && r.toNat % 4 == 0, a := isEvenV, b := isEvenV, c := isX, ty := (· == 9), rnd := rndNoSr,
     ta := true, tb := true, md := fun m => m.toNat < 2 } : ARule).ok f
/-- R136: FP targets accept SAT, integer targets do not. -/
def wfVquant (f : FmtA) : Bool :=
  let int := f.ty == 0 || f.ty == 15
  ({ d := isV, a := isV, b := isV, c := fun r => r == 9 || r == 10 || r == 11,
     ty := fun t => t == 12 || t == 13 || t == 14 || t == 0 || t == 15, rnd := rndAll, sat := !int, ta := true, tb := true,
     md := fun m => m.toNat % 8 < 4 && m.toNat / 8 == (if f.ty == 15 then 1 else 0) } : ARule).ok f

/-- R233. -/
def wfE (bar : Bool) (f : FmtE) : Bool :=
  predOk f.pn f.ps && isX f.a && isX f.b && isX f.c && (if bar then f.imm.toNat < 0x8000 else f.imm.toNat < 0x100)

/-- R149. -/
def wfTileX (f : FmtA) : Bool := ({ a := isX, ta := true, md := fun _ => true } : ARule).ok f
def wfTile (f : FmtA) : Bool := ({ md := fun _ => true } : ARule).ok f
def wfQpop (f : FmtA) : Bool := ({ d := isX, a := isK, ta := true } : ARule).ok f
/-- R152: TYPE names a Lattice B element; .t2 is code 0xF with extension 0b10. -/
def wfMload (f : FmtA) : Bool :=
  ({ a := isX, b := isX, c := isX,
     ty := fun t => t == 11 || t == 10 || t == 12 || t == 13 || t == 14 || t == 0 || t == 15,
     ta := true, tb := true, tc := true, md := fun m => m.toNat == (if f.ty == 15 then 16 else 0) } : ARule).ok f
def wfMzero (f : FmtA) : Bool := ({ d := isT } : ARule).ok f
def wfMread (f : FmtA) : Bool :=
  ({ d := isV, a := isT, b := isX, ty := fun t => t == 9 || t == 2, tb := true } : ARule).ok f
/-- R155. -/
def wfMloop (fmt : BitVec 3) (f : FmtL) : Bool :=
  predOk f.pn f.ps && fmt != 7 && f.rsv == 0 && isX f.kreg && (if f.incA == 0 then isV f.asrc else isX f.asrc)
    && isX f.baddr && (f.sparse || f.msel == 0) && (f.sbyte == 0 || fmt == 2 || fmt == 3 || fmt == 4)
    && f.incA.toNat ≤ 2 && f.incB.toNat ≤ 1
/-- R178. -/
def wfGopen (f : FmtA) : Bool := ({ d := isT, a := isX, ta := true } : ARule).ok f
def wfGsend (f : FmtA) : Bool := ({ a := isT, b := isX, tb := true } : ARule).ok f
def wfGwait (f : FmtA) : Bool := ({ d := isX, a := isT } : ARule).ok f
/-- R284: SCOPE .system is illegal. -/
def wfBarr (f : FmtA) : Bool := ({ d := isX, a := isX, ta := true, md := fun m => m.toNat < 3 } : ARule).ok f
def wfBwait (f : FmtA) : Bool :=
  ({ a := isX, b := isX, ta := true, tb := true, md := fun m => m.toNat < 3 } : ARule).ok f
def wfBsync (f : FmtA) : Bool := ({ a := isX, ta := true, md := fun m => m.toNat < 3 } : ARule).ok f
def wfTrap (f : FmtA) : Bool := ({ md := fun _ => true } : ARule).ok f
/-- R315: the privileged register numbers. -/
def csrOk (n : BitVec 32) : Bool := (0x40 ≤ n.toNat && n.toNat ≤ 0x44) || (0x50 ≤ n.toNat && n.toNat < 0x60)
def wfCsrRd (f : FmtI) : Bool := predOk f.pn f.ps && isX f.d && isNone f.a && csrOk f.imm
def wfCsrWr (f : FmtI) : Bool := predOk f.pn f.ps && isNone f.d && isX f.a && csrOk f.imm && f.imm != 0x44
def wfReplack (f : FmtI) : Bool := predOk f.pn f.ps && isNone f.d && isX f.a && f.imm == 0

/-- R119. -/
def wfVInt (n : Nat) (sat : Bool) (f : FmtA) : Bool :=
  let s := isVs (tyWide f.ty)
  ({ d := isVd (tyWide f.ty), a := s, b := if 2 ≤ n then s else isNone, c := if 3 ≤ n then s else isNone, ty := tyInt,
     sat := sat, ta := true, tb := 2 ≤ n, tc := 3 ≤ n } : ARule).ok f
def wfVsel (f : FmtA) : Bool :=
  let s := isVs (tyWide f.ty)
  ({ d := isVd (tyWide f.ty), a := s, b := s, c := isC, ty := tyW, ta := true, tb := true, tc := true } : ARule).ok f
def wfVmov (f : FmtA) : Bool :=
  ({ d := isVd (tyWide f.ty), a := isVs (tyWide f.ty), ty := tyW, ta := true } : ARule).ok f
def wfVmovi (f : FmtI) : Bool := predOk f.pn f.ps && isVd false f.d && isNone f.a
/-- R121 to R126. -/
def wfVFp (n : Nat) (rnd : BitVec 3 → Bool) (sat : Bool) (f : FmtA) : Bool :=
  let s := isVs (f.ty == 8)
  ({ d := isVd (f.ty == 8), a := s, b := if 2 ≤ n then s else isNone, c := if 3 ≤ n then s else isNone, ty := tyFp,
     rnd := rnd, sat := sat, ta := true, tb := 2 ≤ n, tc := 3 ≤ n } : ARule).ok f
def wfVfcmp (f : FmtA) : Bool :=
  let s := isVs (f.ty == 8)
  ({ d := isC, a := s, b := s, ty := tyFp, ta := true, tb := true, md := fun m => m.toNat ≤ 6 } : ARule).ok f
def is64 (t : Option ElemTy) : Bool := (t.map ElemTy.width) == some 64
def wfVcvt (f : FmtA) : Bool :=
  cvtOk f && ({ d := isVd (is64 f.resTy), a := isVs (is64 f.srcTy), c := fun _ => true, ty := fun _ => true, rnd := rndAll,
                sat := true, ta := true, md := fun _ => true } : ARule).ok f
/-- R128: no 64-bit type; vpack does not widen and vunpack does not narrow. -/
def packOk (pack : Bool) (f : FmtA) : Bool :=
  match f.resTy, f.srcTy with
  | some t, some s => t.width != 64 && s.width != 64 && (if pack then t.width ≤ s.width else s.width ≤ t.width)
  | _, _ => false
def wfVpack (pack : Bool) (f : FmtA) : Bool :=
  cvtOk f && packOk pack f && ({ d := isV, a := isV, c := fun _ => true, ty := fun _ => true, rnd := rndAll, sat := true,
                                 ta := true, md := fun _ => true } : ARule).ok f
def wfQput (f : FmtA) : Bool :=
  ({ d := fun r => r == 0x49 || r == 0x4B, a := isVs (tyWide f.ty), ty := tyW, ta := true } : ARule).ok f
def wfVSpawn (f : FmtA) : Bool :=
  ({ a := isPairOrUniform, b := isPairOrUniform, ta := true, tb := true } : ARule).ok f

/-! Units that events name (R14, R15). -/

def coreOk (c : Nat) : Bool := c < 384
def slotOk (s : Nat) : Bool := s < 64
def clusterOk (c : Nat) : Bool := c < 96
def yardOk (y : Nat) : Bool := y < 32
def vfOk (v : Nat) : Bool := v < 512
def linkOk (l : Nat) : Bool := l < 18
def groupOk (c s : Nat) : Bool := coreOk c && slotOk s
def sizeOk (n : Nat) : Bool := n == 1 || n == 2 || n == 4 || n == 8
def portOk (p : Nat) : Bool := p == 1 || p == 2

/-- A legal instruction word's fields, or an event that names units the device has. -/
def Instr.wellFormed : Instr → Bool
  | .issueChoice c | .logicalClockTick c | .balerWindow c => coreOk c
  | .starvationCap c s _ | .clauseWake c s _ | .claimFill c s _ | .vglLinkDrop c s _ | .pushRegisterMove c s _ => groupOk c s
  | .lineFill pa => pa < 2 ^ 52
  | .combiningBuffer k _ | .latticeStep k | .glazeAdd k | .packerTimerWrite k _ => clusterOk k
  | .mloopComplete c t | .glazeCredit c t | .contributionLanding c t => coreOk c && t < 8
  | .tileFault c s t => groupOk c s && t < 8
  | .tileFillComplete c e | .tileTableWrite c e _ => coreOk c && e < 32
  | .mloadComplete c s => groupOk c s
  | .drayCommandStart c _ | .drayChunk c _ | .drayResult c _ => coreOk c
  | .packerTimer k s | .packedGroupStart k s => clusterOk k && s < 32
  | .overflowRefill k v => clusterOk k && vfOk v
  | .launchGroupStart v _ => vfOk v
  | .hostAccess _ pa n _ | .peerAccess _ _ pa n _ => sizeOk n && pa % n == 0 && pa < 2 ^ 52
  | .flitCrcError l | .linkRetrainFailure l | .linkDown l | .linkRetrained l _ => linkOk l
  | .uncorrectable u pa g => 1 ≤ u && u ≤ 7 && pa < 2 ^ 52 && (match g with | some (c, s) => groupOk c s | none => true)
  | .singleBitError u pa v => 1 ≤ u && u ≤ 7 && pa < 2 ^ 52 && (match v with | some n => vfOk n | none => true)
  | .rowBoundary | .cfgsemTimeout | .farrierReady => true
  | .slotEdgeGuard y | .drainComplete y | .incomingStart y | .earlyEdge y => yardOk y
  | .cfgsemAcquire p | .cfgsemRelease p | .doorbell p => portOk p
  | .start v _ _ | .resumeVf v | .resetvf v | .closechain v _ => vfOk v
  | .halt v g => vfOk v && (match g with | some (c, s) => groupOk c s | none => true)
  | .resume v c s | .stepGroup v c s | .getvp v c s _ _ _ | .setvp v c s _ _ _ | .wrctx v c s _ _ => vfOk v && groupOk c s
  | .replay c e | .discard c e => coreOk c && e < 16
  | .clearrec c v => coreOk c && vfOk v
  | .resync | .telemetry | .attest | .clearalert | .resetDevice | .farrierRestart | .coldReset => true
  | .thermalThrottle | .thermalTrip | .powerThrottle => true
  | .yardset | .vfset | .slotset | .slotctl | .seedset | .retire | .powercap | .fwstage | .winbase => true
  | .vopenWrite _ | .xopenWrite _ | .qinWrite _ | .tileownWrite _ | .fmodeWrite _ | .vstartWrite _ | .vdirtyClear _
  | .fflagsClear _ => true
  | .qoutRead d => isXsDst d
  | .cntselWrite v i _ => vfOk v && i < 16
  | .registerWrite pa _ => pa < 2 ^ 52
  | .accessPerformed c s _ _ | .systemScopeAck c s _ => groupOk c s
  | .add f | .sub f | .mul f => wfInt2 true f
  | .mulh f | .div f | .rem f | .and f | .or f | .xor f | .andn f | .shl f | .shr f | .sra f | .rot f | .min f
  | .max f => wfInt2 false f
  | .clz f | .popc f => wfInt1 tyInt64 f
  | .sext f => wfInt1 (fun t => t.toNat ≤ 2) f
  | .zext f => wfInt1 (fun t => 4 ≤ t.toNat && t.toNat ≤ 6) f
  | .sel f => wfSel f
  | .lea f => wfLea f
  | .addImm f | .mulImm f | .andImm f | .orImm f | .xorImm f | .shlImm f | .shrImm f | .sraImm f | .rotImm f
  | .movhi f => wfImm f
  | .movi f => wfMovi f
  | .cmp c f => wfCmp c f
  | .cmpImm c f => wfCmpImm c f
  | .pand f | .por f | .pxor f => wfP2 f
  | .pnot f => wfP1 f
  | .fadd f | .fmul f => wfFp2 f
  | .ffma f => wfFfma f
  | .fcvt f => wfFcvt f
  | .br f | .vf f | .vfetch f => wfB isNone f
  | .call f | .loop f => wfB isX f
  | .vbru f => wfB isC f
  | .jmpr f | .ret f | .gclose f | .slotyield f | .srseed f | .tlbinv f => wfXSrc f
  | .stop f | .yield f | .vfwait f | .join f | .fenceX f | .fenceSys f | .tlbinvAll f | .vStop f => wfBare f
  | .setvl f | .gchain f | .cntrd f => wfXX f
  | .vregs f => wfVregs f
  | .fork f => wfFork f
  | .spawn f => wfSpawn f
  | .launch f => wfLaunch f
  | .vld f => wfM (isVData f) isX isNone scopeNone false f
  | .vldff f => wfM (isVData f) isX isNone scopeNone true f
  | .vst f => wfM (isVData f) isX isNone scopeNone false f
  | .vlds f | .vsts f => wfM (isVData f) isX isX scopeNone false f
  | .vldx f | .vstx f => wfM (isVData f) isX isV scopeNone false f
  | .vgl f => wfM (isVData f) isX isV scopeLink false f
  | .vsc f => wfM (isVData f) isX isV scopeLink false f && f.ps != 0 && !f.pn
  | .vamo op f => wfAmo op (isVData f) isX isV f
  | .vpush f => wfVpush f
  | .ld f | .st f => wfM isX isX isNone scopeNone false f
  | .amo op f => wfAmo op isX isX (if op == 7 then isX else isNone) f
  | .mand f | .mor f => wfM2 f
  | .mnot f | .mfirst f => wfM1 f
  | .mset f => wfMset f
  | .mcount f => wfMcount f
  | .mprefix f => wfMprefix f
  | .vredAdd f => wfVred true f
  | .vredMin f | .vredMax f => wfVred false f
  | .vscan f => wfVscan f
  | .vcompress f => wfVcompress f
  | .vslideup f | .vslidedown f => wfVslide f
  | .vmexp f => wfVmexp f
  | .vquant f => wfVquant f
  | .vunion f => wfVunion f
  | .dcopy f | .dcopy2d f | .dfill f | .dcompact f | .dhalo f | .dtile f => wfE false f
  | .dcopyBar f | .dcopy2dBar f | .dfillBar f | .dcompactBar f | .dhaloBar f | .dtileBar f => wfE true f
  | .tfill f | .tdrain f => wfTileX f
  | .tfree f | .twait f => wfTile f
  | .qpop f => wfQpop f
  | .mloop fmt f => wfMloop fmt f
  | .mload f => wfMload f
  | .mzero f => wfMzero f
  | .mread f => wfMread f
  | .gopen f => wfGopen f
  | .gsend f => wfGsend f
  | .gwait f => wfGwait f
  | .barr f => wfBarr f
  | .bwait f => wfBwait f
  | .bsync f => wfBsync f
  | .trap f | .brk f => wfTrap f
  | .csrRd f => wfCsrRd f
  | .csrWr f => wfCsrWr f
  | .replack f => wfReplack f
  | .vadd f | .vsub f | .vmul f => wfVInt 2 true f
  | .vmulh f | .vand f | .vor f | .vxor f | .vshl f | .vshr f | .vsra f | .vmin f | .vmax f => wfVInt 2 false f
  | .vmad f => wfVInt 3 true f
  | .vclz f | .vpopc f => wfVInt 1 false f
  | .vsel f => wfVsel f
  | .vmov f => wfVmov f
  | .vmovi f => wfVmovi f
  | .vfadd f | .vfsub f | .vfmul f => wfVFp 2 rndAll true f
  | .vfma f | .vfms f | .vfnma f => wfVFp 3 rndAll true f
  | .vfmin f | .vfmax f => wfVFp 2 rndNone false f
  | .vfrcp f | .vfrsq f | .vfsqrt f | .vfexp2 f | .vflog2 f => wfVFp 1 rndAll true f
  | .vfcmp f => wfVfcmp f
  | .vfclass f => wfVFp 1 rndNone false f
  | .vcvt f => wfVcvt f
  | .vpack f => wfVpack true f
  | .vunpack f => wfVpack false f
  | .qput f => wfQput f
  | .vSpawn f => wfVSpawn f
  | .pld f | .pst f => wfM (isVData f) isPairOrUniform isNone scopeNone false f
  | .pamo op f => wfAmo op (isVData f) isPairOrUniform (if op == 7 then isVData f else isNone) f

end Sys2Proof
end

