-- ==== Sys2Proof/Decode.lean ====
section
/-! DEFINITION. From words to instructions and back: the formats of R61 to R67, the opcode maps of R69 to R71, clause
headers (R52), whole clauses (R53, R54, R73), and the encoder. -/

namespace Sys2Proof

/-- Little-endian value of a list of bytes (R10). -/
def leNat : List Byte → Nat
  | [] => 0
  | b :: bs => b.toNat + 256 * leNat bs
/-- The n little-endian bytes of a value (R10). -/
def leBytes : Nat → Nat → List Byte
  | 0, _ => []
  | n + 1, v => BitVec.ofNat 8 v :: leBytes n (v / 256)

/-- R58. -/
def majorOf (w : Word) : BitVec 6 := w.extractLsb' 58 6
def funcOf (w : Word) : BitVec 6 := w.extractLsb' 52 6

/-- R61. -/
def FmtA.ofWord (w : Word) : FmtA :=
  { pn := w.getLsbD 51, ps := w.extractLsb' 48 3, d := w.extractLsb' 40 8, a := w.extractLsb' 32 8,
    b := w.extractLsb' 24 8, c := w.extractLsb' 16 8, ty := w.extractLsb' 12 4, rnd := w.extractLsb' 9 3,
    sat := w.getLsbD 8, ta := w.getLsbD 7, tb := w.getLsbD 6, tc := w.getLsbD 5, md := w.extractLsb' 0 5 }
def FmtA.toWord (maj fn : BitVec 6) (f : FmtA) : Word :=
  maj ++ fn ++ BitVec.ofBool f.pn ++ f.ps ++ f.d ++ f.a ++ f.b ++ f.c ++ f.ty ++ f.rnd ++ BitVec.ofBool f.sat
    ++ BitVec.ofBool f.ta ++ BitVec.ofBool f.tb ++ BitVec.ofBool f.tc ++ f.md
/-- R64. -/
def FmtI.ofWord (w : Word) : FmtI :=
  { pn := w.getLsbD 51, ps := w.extractLsb' 48 3, d := w.extractLsb' 40 8, a := w.extractLsb' 32 8,
    imm := w.extractLsb' 0 32 }
def FmtI.toWord (maj fn : BitVec 6) (f : FmtI) : Word :=
  maj ++ fn ++ BitVec.ofBool f.pn ++ f.ps ++ f.d ++ f.a ++ f.imm
/-- R65. -/
def FmtM.ofWord (w : Word) : FmtM :=
  { pn := w.getLsbD 51, ps := w.extractLsb' 48 3, data := w.extractLsb' 40 8, base := w.extractLsb' 32 8,
    index := w.extractLsb' 24 8, off := w.extractLsb' 8 16, scope := w.extractLsb' 6 2, sz5 := w.getLsbD 5,
    sz := w.extractLsb' 3 2, ff := w.getLsbD 2, tbase := w.getLsbD 1, nt := w.getLsbD 0 }
def FmtM.toWord (maj fn : BitVec 6) (f : FmtM) : Word :=
  maj ++ fn ++ BitVec.ofBool f.pn ++ f.ps ++ f.data ++ f.base ++ f.index ++ f.off ++ f.scope ++ BitVec.ofBool f.sz5
    ++ f.sz ++ BitVec.ofBool f.ff ++ BitVec.ofBool f.tbase ++ BitVec.ofBool f.nt
/-- R66. -/
def FmtB.ofWord (w : Word) : FmtB :=
  { pn := w.getLsbD 51, ps := w.extractLsb' 48 3, a := w.extractLsb' 40 8, off := w.extractLsb' 0 40 }
def FmtB.toWord (maj fn : BitVec 6) (f : FmtB) : Word := maj ++ fn ++ BitVec.ofBool f.pn ++ f.ps ++ f.a ++ f.off
/-- R67, engine commands. -/
def FmtE.ofWord (w : Word) : FmtE :=
  { pn := w.getLsbD 51, ps := w.extractLsb' 48 3, queue := w.extractLsb' 44 4, acq := w.getLsbD 43, rel := w.getLsbD 42,
    escope := w.extractLsb' 40 2, a := w.extractLsb' 32 8, b := w.extractLsb' 24 8, c := w.extractLsb' 16 8,
    imm := w.extractLsb' 0 16 }
def FmtE.toWord (maj fn : BitVec 6) (f : FmtE) : Word :=
  maj ++ fn ++ BitVec.ofBool f.pn ++ f.ps ++ f.queue ++ BitVec.ofBool f.acq ++ BitVec.ofBool f.rel ++ f.escope ++ f.a
    ++ f.b ++ f.c ++ f.imm
/-- R67, Lattice loops; R155 splits INC into its two codes. -/
def FmtL.ofWord (w : Word) : FmtL :=
  { pn := w.getLsbD 51, ps := w.extractLsb' 48 3, tile := w.extractLsb' 45 3, rsv := w.extractLsb' 40 5,
    kreg := w.extractLsb' 32 8, asrc := w.extractLsb' 24 8, baddr := w.extractLsb' 16 8, msel := w.extractLsb' 13 3,
    sparse := w.getLsbD 12, sbyte := w.extractLsb' 10 2, bcast := w.extractLsb' 8 2, incA := w.extractLsb' 4 4,
    incB := w.extractLsb' 0 4 }
def FmtL.toWord (maj fn : BitVec 6) (f : FmtL) : Word :=
  maj ++ fn ++ BitVec.ofBool f.pn ++ f.ps ++ f.tile ++ f.rsv ++ f.kreg ++ f.asrc ++ f.baddr ++ f.msel
    ++ BitVec.ofBool f.sparse ++ f.sbyte ++ f.bcast ++ f.incA ++ f.incB

/-- One row of an opcode map: MAJOR, FUNC and the instruction the word then is. -/
abbrev OpRow := Nat × Nat × (Word → Instr)

/-- R69: the C-class map, major 0x01. -/
def cOps01 : List OpRow :=
  [(0x01, 0x00, fun w => .add (FmtA.ofWord w)),
   (0x01, 0x01, fun w => .sub (FmtA.ofWord w)),
   (0x01, 0x02, fun w => .mul (FmtA.ofWord w)),
   (0x01, 0x03, fun w => .mulh (FmtA.ofWord w)),
   (0x01, 0x04, fun w => .div (FmtA.ofWord w)),
   (0x01, 0x05, fun w => .rem (FmtA.ofWord w)),
   (0x01, 0x06, fun w => .and (FmtA.ofWord w)),
   (0x01, 0x07, fun w => .or (FmtA.ofWord w)),
   (0x01, 0x08, fun w => .xor (FmtA.ofWord w)),
   (0x01, 0x09, fun w => .andn (FmtA.ofWord w)),
   (0x01, 0x0A, fun w => .shl (FmtA.ofWord w)),
   (0x01, 0x0B, fun w => .shr (FmtA.ofWord w)),
   (0x01, 0x0C, fun w => .sra (FmtA.ofWord w)),
   (0x01, 0x0D, fun w => .rot (FmtA.ofWord w)),
   (0x01, 0x0E, fun w => .min (FmtA.ofWord w)),
   (0x01, 0x0F, fun w => .max (FmtA.ofWord w)),
   (0x01, 0x10, fun w => .clz (FmtA.ofWord w)),
   (0x01, 0x11, fun w => .popc (FmtA.ofWord w)),
   (0x01, 0x12, fun w => .sext (FmtA.ofWord w)),
   (0x01, 0x13, fun w => .zext (FmtA.ofWord w)),
   (0x01, 0x14, fun w => .sel (FmtA.ofWord w)),
   (0x01, 0x15, fun w => .lea (FmtA.ofWord w))]
/-- R69: the C-class map, major 0x02. -/
def cOps02 : List OpRow :=
  [(0x02, 0x00, fun w => .addImm (FmtI.ofWord w)),
   (0x02, 0x02, fun w => .mulImm (FmtI.ofWord w)),
   (0x02, 0x06, fun w => .andImm (FmtI.ofWord w)),
   (0x02, 0x07, fun w => .orImm (FmtI.ofWord w)),
   (0x02, 0x08, fun w => .xorImm (FmtI.ofWord w)),
   (0x02, 0x0A, fun w => .shlImm (FmtI.ofWord w)),
   (0x02, 0x0B, fun w => .shrImm (FmtI.ofWord w)),
   (0x02, 0x0C, fun w => .sraImm (FmtI.ofWord w)),
   (0x02, 0x0D, fun w => .rotImm (FmtI.ofWord w)),
   (0x02, 0x20, fun w => .movi (FmtI.ofWord w)),
   (0x02, 0x21, fun w => .movhi (FmtI.ofWord w))]
/-- R69: the C-class map, major 0x03. -/
def cOps03 : List OpRow :=
  [(0x03, 0x00, fun w => .cmp 0 (FmtA.ofWord w)),
   (0x03, 0x01, fun w => .cmp 1 (FmtA.ofWord w)),
   (0x03, 0x02, fun w => .cmp 2 (FmtA.ofWord w)),
   (0x03, 0x03, fun w => .cmp 3 (FmtA.ofWord w)),
   (0x03, 0x04, fun w => .cmp 4 (FmtA.ofWord w)),
   (0x03, 0x05, fun w => .cmp 5 (FmtA.ofWord w)),
   (0x03, 0x08, fun w => .cmp 8 (FmtA.ofWord w)),
   (0x03, 0x09, fun w => .cmp 9 (FmtA.ofWord w)),
   (0x03, 0x0A, fun w => .cmp 10 (FmtA.ofWord w)),
   (0x03, 0x0B, fun w => .cmp 11 (FmtA.ofWord w)),
   (0x03, 0x0C, fun w => .cmp 12 (FmtA.ofWord w)),
   (0x03, 0x0D, fun w => .cmp 13 (FmtA.ofWord w))]
/-- R69: the C-class map, major 0x04. -/
def cOps04 : List OpRow :=
  [(0x04, 0x00, fun w => .cmpImm 0 (FmtI.ofWord w)),
   (0x04, 0x01, fun w => .cmpImm 1 (FmtI.ofWord w)),
   (0x04, 0x02, fun w => .cmpImm 2 (FmtI.ofWord w)),
   (0x04, 0x03, fun w => .cmpImm 3 (FmtI.ofWord w)),
   (0x04, 0x04, fun w => .cmpImm 4 (FmtI.ofWord w)),
   (0x04, 0x05, fun w => .cmpImm 5 (FmtI.ofWord w)),
   (0x04, 0x08, fun w => .cmpImm 8 (FmtI.ofWord w)),
   (0x04, 0x09, fun w => .cmpImm 9 (FmtI.ofWord w)),
   (0x04, 0x0A, fun w => .cmpImm 10 (FmtI.ofWord w)),
   (0x04, 0x0B, fun w => .cmpImm 11 (FmtI.ofWord w)),
   (0x04, 0x0C, fun w => .cmpImm 12 (FmtI.ofWord w)),
   (0x04, 0x0D, fun w => .cmpImm 13 (FmtI.ofWord w))]
/-- R69: the C-class map, major 0x05. -/
def cOps05 : List OpRow :=
  [(0x05, 0x00, fun w => .pand (FmtA.ofWord w)),
   (0x05, 0x01, fun w => .por (FmtA.ofWord w)),
   (0x05, 0x02, fun w => .pxor (FmtA.ofWord w)),
   (0x05, 0x03, fun w => .pnot (FmtA.ofWord w))]
/-- R69: the C-class map, major 0x06. -/
def cOps06 : List OpRow :=
  [(0x06, 0x00, fun w => .fadd (FmtA.ofWord w)),
   (0x06, 0x01, fun w => .fmul (FmtA.ofWord w)),
   (0x06, 0x02, fun w => .ffma (FmtA.ofWord w)),
   (0x06, 0x03, fun w => .fcvt (FmtA.ofWord w))]
/-- R69: the C-class map, major 0x08. -/
def cOps08 : List OpRow :=
  [(0x08, 0x00, fun w => .br (FmtB.ofWord w)),
   (0x08, 0x01, fun w => .call (FmtB.ofWord w)),
   (0x08, 0x02, fun w => .loop (FmtB.ofWord w))]
/-- R69: the C-class map, major 0x09. -/
def cOps09 : List OpRow :=
  [(0x09, 0x00, fun w => .jmpr (FmtA.ofWord w)),
   (0x09, 0x01, fun w => .ret (FmtA.ofWord w)),
   (0x09, 0x02, fun w => .stop (FmtA.ofWord w)),
   (0x09, 0x03, fun w => .yield (FmtA.ofWord w))]
/-- R69: the C-class map, major 0x0A. -/
def cOps0A : List OpRow :=
  [(0x0A, 0x00, fun w => .setvl (FmtA.ofWord w)),
   (0x0A, 0x01, fun w => .vregs (FmtI.ofWord w)),
   (0x0A, 0x02, fun w => .vf (FmtB.ofWord w)),
   (0x0A, 0x03, fun w => .vfwait (FmtA.ofWord w)),
   (0x0A, 0x04, fun w => .fork (FmtA.ofWord w)),
   (0x0A, 0x05, fun w => .join (FmtA.ofWord w)),
   (0x0A, 0x06, fun w => .spawn (FmtA.ofWord w)),
   (0x0A, 0x07, fun w => .launch (FmtA.ofWord w))]
/-- R69: the C-class map, major 0x0C. -/
def cOps0C : List OpRow :=
  [(0x0C, 0x00, fun w => if (FmtM.ofWord w).ff then .vldff (FmtM.ofWord w) else .vld (FmtM.ofWord w)),
   (0x0C, 0x01, fun w => .vst (FmtM.ofWord w)),
   (0x0C, 0x02, fun w => .vlds (FmtM.ofWord w)),
   (0x0C, 0x03, fun w => .vsts (FmtM.ofWord w)),
   (0x0C, 0x04, fun w => .vldx (FmtM.ofWord w)),
   (0x0C, 0x05, fun w => .vstx (FmtM.ofWord w)),
   (0x0C, 0x06, fun w => .vgl (FmtM.ofWord w)),
   (0x0C, 0x07, fun w => .vsc (FmtM.ofWord w)),
   (0x0C, 0x08, fun w => .vamo 0 (FmtM.ofWord w)),
   (0x0C, 0x09, fun w => .vamo 1 (FmtM.ofWord w)),
   (0x0C, 0x0A, fun w => .vamo 2 (FmtM.ofWord w)),
   (0x0C, 0x0B, fun w => .vamo 3 (FmtM.ofWord w)),
   (0x0C, 0x0C, fun w => .vamo 4 (FmtM.ofWord w)),
   (0x0C, 0x0D, fun w => .vamo 5 (FmtM.ofWord w)),
   (0x0C, 0x0E, fun w => .vamo 6 (FmtM.ofWord w)),
   (0x0C, 0x0F, fun w => .vamo 7 (FmtM.ofWord w))]
/-- R69: the C-class map, major 0x0D. -/
def cOps0D : List OpRow :=
  [(0x0D, 0x00, fun w => .vpush (FmtA.ofWord w))]
/-- R69: the C-class map, major 0x0E. -/
def cOps0E : List OpRow :=
  [(0x0E, 0x00, fun w => .ld (FmtM.ofWord w)),
   (0x0E, 0x01, fun w => .st (FmtM.ofWord w)),
   (0x0E, 0x08, fun w => .amo 0 (FmtM.ofWord w)),
   (0x0E, 0x09, fun w => .amo 1 (FmtM.ofWord w)),
   (0x0E, 0x0A, fun w => .amo 2 (FmtM.ofWord w)),
   (0x0E, 0x0B, fun w => .amo 3 (FmtM.ofWord w)),
   (0x0E, 0x0C, fun w => .amo 4 (FmtM.ofWord w)),
   (0x0E, 0x0D, fun w => .amo 5 (FmtM.ofWord w)),
   (0x0E, 0x0E, fun w => .amo 6 (FmtM.ofWord w)),
   (0x0E, 0x0F, fun w => .amo 7 (FmtM.ofWord w))]
/-- R69: the C-class map, major 0x0F. -/
def cOps0F : List OpRow :=
  [(0x0F, 0x00, fun w => .fenceX (FmtA.ofWord w)),
   (0x0F, 0x01, fun w => .fenceSys (FmtA.ofWord w))]
/-- R69: the C-class map, major 0x10. -/
def cOps10 : List OpRow :=
  [(0x10, 0x00, fun w => .mand (FmtA.ofWord w)),
   (0x10, 0x01, fun w => .mor (FmtA.ofWord w)),
   (0x10, 0x02, fun w => .mnot (FmtA.ofWord w)),
   (0x10, 0x03, fun w => .mset (FmtA.ofWord w)),
   (0x10, 0x04, fun w => .mcount (FmtA.ofWord w)),
   (0x10, 0x05, fun w => .mfirst (FmtA.ofWord w)),
   (0x10, 0x06, fun w => .mprefix (FmtA.ofWord w))]
/-- R69: the C-class map, major 0x11. -/
def cOps11 : List OpRow :=
  [(0x11, 0x00, fun w => .vredAdd (FmtA.ofWord w)),
   (0x11, 0x01, fun w => .vredMin (FmtA.ofWord w)),
   (0x11, 0x02, fun w => .vredMax (FmtA.ofWord w)),
   (0x11, 0x03, fun w => .vscan (FmtA.ofWord w)),
   (0x11, 0x04, fun w => .vcompress (FmtA.ofWord w)),
   (0x11, 0x05, fun w => .vslideup (FmtA.ofWord w)),
   (0x11, 0x06, fun w => .vslidedown (FmtA.ofWord w)),
   (0x11, 0x07, fun w => .vmexp (FmtA.ofWord w)),
   (0x11, 0x08, fun w => .vunion (FmtA.ofWord w)),
   (0x11, 0x09, fun w => .vquant (FmtA.ofWord w))]
/-- R69: the C-class map, major 0x14. -/
def cOps14 : List OpRow :=
  [(0x14, 0x00, fun w => .dcopy (FmtE.ofWord w)),
   (0x14, 0x01, fun w => .dcopy2d (FmtE.ofWord w)),
   (0x14, 0x02, fun w => .dfill (FmtE.ofWord w)),
   (0x14, 0x03, fun w => .dcompact (FmtE.ofWord w)),
   (0x14, 0x04, fun w => .dhalo (FmtE.ofWord w)),
   (0x14, 0x05, fun w => .dtile (FmtE.ofWord w)),
   (0x14, 0x20, fun w => .dcopyBar (FmtE.ofWord w)),
   (0x14, 0x21, fun w => .dcopy2dBar (FmtE.ofWord w)),
   (0x14, 0x22, fun w => .dfillBar (FmtE.ofWord w)),
   (0x14, 0x23, fun w => .dcompactBar (FmtE.ofWord w)),
   (0x14, 0x24, fun w => .dhaloBar (FmtE.ofWord w)),
   (0x14, 0x25, fun w => .dtileBar (FmtE.ofWord w))]
/-- R69: the C-class map, major 0x15. -/
def cOps15 : List OpRow :=
  [(0x15, 0x00, fun w => .tfill (FmtA.ofWord w)),
   (0x15, 0x01, fun w => .tdrain (FmtA.ofWord w)),
   (0x15, 0x02, fun w => .tfree (FmtA.ofWord w)),
   (0x15, 0x03, fun w => .twait (FmtA.ofWord w))]
/-- R69: the C-class map, major 0x16. -/
def cOps16 : List OpRow :=
  [(0x16, 0x00, fun w => .qpop (FmtA.ofWord w))]
/-- R69: the C-class map, major 0x18. -/
def cOps18 : List OpRow :=
  [(0x18, 0x00, fun w => .mloop 0 (FmtL.ofWord w)),
   (0x18, 0x01, fun w => .mloop 1 (FmtL.ofWord w)),
   (0x18, 0x02, fun w => .mloop 2 (FmtL.ofWord w)),
   (0x18, 0x03, fun w => .mloop 3 (FmtL.ofWord w)),
   (0x18, 0x04, fun w => .mloop 4 (FmtL.ofWord w)),
   (0x18, 0x05, fun w => .mloop 5 (FmtL.ofWord w)),
   (0x18, 0x06, fun w => .mloop 6 (FmtL.ofWord w))]
/-- R69: the C-class map, major 0x19. -/
def cOps19 : List OpRow :=
  [(0x19, 0x00, fun w => .mload (FmtA.ofWord w)),
   (0x19, 0x01, fun w => .mzero (FmtA.ofWord w)),
   (0x19, 0x02, fun w => .mread (FmtA.ofWord w))]
/-- R69: the C-class map, major 0x1A. -/
def cOps1A : List OpRow :=
  [(0x1A, 0x00, fun w => .gchain (FmtA.ofWord w)),
   (0x1A, 0x01, fun w => .gopen (FmtA.ofWord w)),
   (0x1A, 0x02, fun w => .gsend (FmtA.ofWord w)),
   (0x1A, 0x03, fun w => .gwait (FmtA.ofWord w)),
   (0x1A, 0x04, fun w => .gclose (FmtA.ofWord w))]
/-- R69: the C-class map, major 0x1B. -/
def cOps1B : List OpRow :=
  [(0x1B, 0x00, fun w => .barr (FmtA.ofWord w)),
   (0x1B, 0x01, fun w => .bwait (FmtA.ofWord w)),
   (0x1B, 0x02, fun w => .bsync (FmtA.ofWord w))]
/-- R69: the C-class map, major 0x1C. -/
def cOps1C : List OpRow :=
  [(0x1C, 0x00, fun w => .slotyield (FmtA.ofWord w)),
   (0x1C, 0x01, fun w => .cntrd (FmtA.ofWord w)),
   (0x1C, 0x02, fun w => .srseed (FmtA.ofWord w)),
   (0x1C, 0x03, fun w => .trap (FmtA.ofWord w)),
   (0x1C, 0x04, fun w => .brk (FmtA.ofWord w))]
/-- R69: the C-class map. -/
def cOps : List OpRow := cOps01 ++ cOps02 ++ cOps03 ++ cOps04 ++ cOps05 ++ cOps06 ++ cOps08 ++ cOps09 ++ cOps0A ++ cOps0C ++ cOps0D ++ cOps0E ++ cOps0F ++ cOps10 ++ cOps11 ++ cOps14 ++ cOps15 ++ cOps16 ++ cOps18 ++ cOps19 ++ cOps1A ++ cOps1B ++ cOps1C

/-- R70: the S-class majors, major 0x3C. -/
def sOps3C : List OpRow :=
  [(0x3C, 0x00, fun w => .tlbinv (FmtA.ofWord w)),
   (0x3C, 0x01, fun w => .tlbinvAll (FmtA.ofWord w))]
/-- R70: the S-class majors, major 0x3D. -/
def sOps3D : List OpRow :=
  [(0x3D, 0x00, fun w => .csrRd (FmtI.ofWord w)),
   (0x3D, 0x01, fun w => .csrWr (FmtI.ofWord w))]
/-- R70: the S-class majors, major 0x3E. -/
def sOps3E : List OpRow :=
  [(0x3E, 0x00, fun w => .replack (FmtI.ofWord w))]
/-- R70: the S-class majors. -/
def sOps : List OpRow := sOps3C ++ sOps3D ++ sOps3E

/-- R71: the V-class map, major 0x01. -/
def vOps01 : List OpRow :=
  [(0x01, 0x00, fun w => .vadd (FmtA.ofWord w)),
   (0x01, 0x01, fun w => .vsub (FmtA.ofWord w)),
   (0x01, 0x02, fun w => .vmul (FmtA.ofWord w)),
   (0x01, 0x03, fun w => .vmulh (FmtA.ofWord w)),
   (0x01, 0x04, fun w => .vmad (FmtA.ofWord w)),
   (0x01, 0x05, fun w => .vand (FmtA.ofWord w)),
   (0x01, 0x06, fun w => .vor (FmtA.ofWord w)),
   (0x01, 0x07, fun w => .vxor (FmtA.ofWord w)),
   (0x01, 0x08, fun w => .vshl (FmtA.ofWord w)),
   (0x01, 0x09, fun w => .vshr (FmtA.ofWord w)),
   (0x01, 0x0A, fun w => .vsra (FmtA.ofWord w)),
   (0x01, 0x0B, fun w => .vmin (FmtA.ofWord w)),
   (0x01, 0x0C, fun w => .vmax (FmtA.ofWord w)),
   (0x01, 0x0D, fun w => .vclz (FmtA.ofWord w)),
   (0x01, 0x0E, fun w => .vpopc (FmtA.ofWord w)),
   (0x01, 0x0F, fun w => .vsel (FmtA.ofWord w)),
   (0x01, 0x10, fun w => .vmov (FmtA.ofWord w))]
/-- R71: the V-class map, major 0x02. -/
def vOps02 : List OpRow :=
  [(0x02, 0x00, fun w => .vmovi (FmtI.ofWord w))]
/-- R71: the V-class map, major 0x04. -/
def vOps04 : List OpRow :=
  [(0x04, 0x00, fun w => .vfadd (FmtA.ofWord w)),
   (0x04, 0x01, fun w => .vfsub (FmtA.ofWord w)),
   (0x04, 0x02, fun w => .vfmul (FmtA.ofWord w)),
   (0x04, 0x03, fun w => .vfma (FmtA.ofWord w)),
   (0x04, 0x04, fun w => .vfms (FmtA.ofWord w)),
   (0x04, 0x05, fun w => .vfnma (FmtA.ofWord w)),
   (0x04, 0x06, fun w => .vfmin (FmtA.ofWord w)),
   (0x04, 0x07, fun w => .vfmax (FmtA.ofWord w)),
   (0x04, 0x08, fun w => .vfrcp (FmtA.ofWord w)),
   (0x04, 0x09, fun w => .vfrsq (FmtA.ofWord w)),
   (0x04, 0x0A, fun w => .vfsqrt (FmtA.ofWord w)),
   (0x04, 0x0B, fun w => .vfexp2 (FmtA.ofWord w)),
   (0x04, 0x0C, fun w => .vflog2 (FmtA.ofWord w)),
   (0x04, 0x0D, fun w => .vfcmp (FmtA.ofWord w)),
   (0x04, 0x0E, fun w => .vfclass (FmtA.ofWord w))]
/-- R71: the V-class map, major 0x05. -/
def vOps05 : List OpRow :=
  [(0x05, 0x00, fun w => .vcvt (FmtA.ofWord w)),
   (0x05, 0x01, fun w => .vpack (FmtA.ofWord w)),
   (0x05, 0x02, fun w => .vunpack (FmtA.ofWord w))]
/-- R71: the V-class map, major 0x06. -/
def vOps06 : List OpRow :=
  [(0x06, 0x00, fun w => .qput (FmtA.ofWord w))]
/-- R71: the V-class map, major 0x08. -/
def vOps08 : List OpRow :=
  [(0x08, 0x00, fun w => .vfetch (FmtB.ofWord w)),
   (0x08, 0x01, fun w => .vbru (FmtB.ofWord w))]
/-- R71: the V-class map, major 0x09. -/
def vOps09 : List OpRow :=
  [(0x09, 0x00, fun w => .vStop (FmtA.ofWord w)),
   (0x09, 0x01, fun w => .vSpawn (FmtA.ofWord w))]
/-- R71: the V-class map, major 0x0C. -/
def vOps0C : List OpRow :=
  [(0x0C, 0x00, fun w => .pld (FmtM.ofWord w)),
   (0x0C, 0x01, fun w => .pst (FmtM.ofWord w)),
   (0x0C, 0x08, fun w => .pamo 0 (FmtM.ofWord w)),
   (0x0C, 0x09, fun w => .pamo 1 (FmtM.ofWord w)),
   (0x0C, 0x0A, fun w => .pamo 2 (FmtM.ofWord w)),
   (0x0C, 0x0B, fun w => .pamo 3 (FmtM.ofWord w)),
   (0x0C, 0x0C, fun w => .pamo 4 (FmtM.ofWord w)),
   (0x0C, 0x0D, fun w => .pamo 5 (FmtM.ofWord w)),
   (0x0C, 0x0E, fun w => .pamo 6 (FmtM.ofWord w)),
   (0x0C, 0x0F, fun w => .pamo 7 (FmtM.ofWord w))]
/-- R71: the V-class map. -/
def vOps : List OpRow := vOps01 ++ vOps02 ++ vOps04 ++ vOps05 ++ vOps06 ++ vOps08 ++ vOps09 ++ vOps0C

/-- The row of a map for one MAJOR and FUNC. -/
def findOp (maj fn : Nat) : List OpRow → Option (Word → Instr)
  | [] => none
  | (m, f, k) :: rs => if m == maj && f == fn then some k else findOp maj fn rs

/-- Why a word or a header is an ILLEGAL-INSTRUCTION encoding (R72). -/
inductive DecodeErr where
  /-- MAJOR or FUNC that no row of the class's map lists. -/
  | unassigned
  /-- An S-class major outside an S clause (R55). -/
  | privilegedMajor
  /-- A field content that R59, R60, R62, R63 or R68 forbids. -/
  | badField
  /-- A terminator that is not last (R54). -/
  | terminator
  /-- A header of class 0b11, of a class the fetch does not accept, or with a reserved bit set. -/
  | badHeader
  deriving DecidableEq, Repr

/-- The map an instruction word of a class is looked up in; an S clause holds every C-class instruction as well (R55). -/
def opsOf : Cls → List OpRow
  | .c => cOps
  | .s => cOps ++ sOps
  | .v => vOps

/-- The instruction of one word of a clause, or why it is illegal (R72). -/
def decodeWord (cls : Cls) (w : Word) : Except DecodeErr Instr :=
  match findOp (majorOf w).toNat (funcOf w).toNat (opsOf cls) with
  | some k => if (k w).wellFormed then .ok (k w) else .error .badField
  | none => if (findOp (majorOf w).toNat (funcOf w).toNat sOps).isSome then .error .privilegedMajor else .error .unassigned

/-- A clause header (R52). -/
structure Header where
  cls : Cls
  count : BitVec 4
  y : Bool
  ewDray : Bool
  ewLat : Bool
  ewBaler : Bool
  ewGlaze : Bool
  waits : List Byte
  deriving DecidableEq, Repr

/-- R52, R72: class 0b11 and a nonzero reserved bit are illegal. -/
def decodeHeader (w : Word) : Option Header :=
  let cls : Option Cls := match (w.extractLsb' 62 2).toNat with
    | 0 => some .c | 1 => some .v | 2 => some .s | _ => none
  if w.getLsbD 56 || w.extractLsb' 48 4 != 0 then none
  else cls.map fun k =>
    { cls := k, count := w.extractLsb' 58 4, y := w.getLsbD 57, ewDray := w.getLsbD 55, ewLat := w.getLsbD 54,
      ewBaler := w.getLsbD 53, ewGlaze := w.getLsbD 52,
      waits := [w.extractLsb' 40 8, w.extractLsb' 32 8, w.extractLsb' 24 8, w.extractLsb' 16 8, w.extractLsb' 8 8,
        w.extractLsb' 0 8] }

def clsCode : Cls → BitVec 2
  | .c => 0 | .v => 1 | .s => 2
/-- A header with no hints (R52, R56). -/
def plainHeader (cls : Cls) (count : BitVec 4) : Word :=
  clsCode cls ++ count ++ (0 : BitVec 10) ++ (0xFFFFFFFFFFFF : BitVec 48)

/-- R54: the instructions that transfer control. -/
def isTerminator : Instr → Bool
  | .br _ | .call _ | .loop _ | .jmpr _ | .ret _ | .stop _ | .yield _ | .vfetch _ | .vbru _ | .vStop _ => true
  | _ => false

/-- R73: the words decoded in order; the index (1 to 16) of the first offending word, and why. -/
def decodeWords (cls : Cls) : Nat → List Word → Except (Nat × DecodeErr) (List Instr)
  | _, [] => .ok []
  | n, w :: ws =>
    match decodeWord cls w with
    | .error e => .error (n, e)
    | .ok i =>
      if isTerminator i && !ws.isEmpty then .error (n, .terminator)
      else match decodeWords cls (n + 1) ws with
        | .error e => .error e
        | .ok is => .ok (i :: is)

/-- R73: a whole clause, once its header's class has been accepted by the fetch (R55). -/
def decodeClause (accept : Cls → Bool) (hdr : Word) (ws : List Word) : Except (Nat × DecodeErr) (Header × List Instr) :=
  match decodeHeader hdr with
  | none => .error (0, .badHeader)
  | some h =>
    if !accept h.cls then .error (0, .badHeader)
    else match decodeWords h.cls 1 ws with
      | .error e => .error e
      | .ok is => .ok (h, is)

/-- The instruction that the table word stands for: with at most 64 bits, the instruction word alone, read in an S clause
(which holds the C-class map as well) and, where that map has no such word, in a V clause; with more, a clause header
followed by its first word. -/
def decodeTableWord (nbits w : Nat) : Option Instr :=
  if nbits ≤ 64 then
    match decodeWord .s (BitVec.ofNat 64 w) with
    | .ok i => some i
    | .error _ => match decodeWord .v (BitVec.ofNat 64 w) with
      | .ok i => some i
      | .error _ => none
  else
    match decodeHeader (BitVec.ofNat 64 w) with
    | none => none
    | some h => match decodeWord h.cls (BitVec.ofNat 64 (w / 2 ^ 64)) with
      | .ok i => some i
      | .error _ => none

/-- The class whose map holds an instruction and the word that encodes it (R58 to R71); events and commands have no
encoding. An instruction of the C-class map is also legal in an S clause. -/
def encode : Instr → Option (Cls × Word)
  | .add f => some (.c, f.toWord 0x01 0x00)
  | .sub f => some (.c, f.toWord 0x01 0x01)
  | .mul f => some (.c, f.toWord 0x01 0x02)
  | .mulh f => some (.c, f.toWord 0x01 0x03)
  | .div f => some (.c, f.toWord 0x01 0x04)
  | .rem f => some (.c, f.toWord 0x01 0x05)
  | .and f => some (.c, f.toWord 0x01 0x06)
  | .or f => some (.c, f.toWord 0x01 0x07)
  | .xor f => some (.c, f.toWord 0x01 0x08)
  | .andn f => some (.c, f.toWord 0x01 0x09)
  | .shl f => some (.c, f.toWord 0x01 0x0A)
  | .shr f => some (.c, f.toWord 0x01 0x0B)
  | .sra f => some (.c, f.toWord 0x01 0x0C)
  | .rot f => some (.c, f.toWord 0x01 0x0D)
  | .min f => some (.c, f.toWord 0x01 0x0E)
  | .max f => some (.c, f.toWord 0x01 0x0F)
  | .clz f => some (.c, f.toWord 0x01 0x10)
  | .popc f => some (.c, f.toWord 0x01 0x11)
  | .sext f => some (.c, f.toWord 0x01 0x12)
  | .zext f => some (.c, f.toWord 0x01 0x13)
  | .sel f => some (.c, f.toWord 0x01 0x14)
  | .lea f => some (.c, f.toWord 0x01 0x15)
  | .addImm f => some (.c, f.toWord 0x02 0x00)
  | .mulImm f => some (.c, f.toWord 0x02 0x02)
  | .andImm f => some (.c, f.toWord 0x02 0x06)
  | .orImm f => some (.c, f.toWord 0x02 0x07)
  | .xorImm f => some (.c, f.toWord 0x02 0x08)
  | .shlImm f => some (.c, f.toWord 0x02 0x0A)
  | .shrImm f => some (.c, f.toWord 0x02 0x0B)
  | .sraImm f => some (.c, f.toWord 0x02 0x0C)
  | .rotImm f => some (.c, f.toWord 0x02 0x0D)
  | .movi f => some (.c, f.toWord 0x02 0x20)
  | .movhi f => some (.c, f.toWord 0x02 0x21)
  | .cmp k f => some (.c, f.toWord 0x03 ((0 : BitVec 2) ++ k))
  | .cmpImm k f => some (.c, f.toWord 0x04 ((0 : BitVec 2) ++ k))
  | .pand f => some (.c, f.toWord 0x05 0x00)
  | .por f => some (.c, f.toWord 0x05 0x01)
  | .pxor f => some (.c, f.toWord 0x05 0x02)
  | .pnot f => some (.c, f.toWord 0x05 0x03)
  | .fadd f => some (.c, f.toWord 0x06 0x00)
  | .fmul f => some (.c, f.toWord 0x06 0x01)
  | .ffma f => some (.c, f.toWord 0x06 0x02)
  | .fcvt f => some (.c, f.toWord 0x06 0x03)
  | .br f => some (.c, f.toWord 0x08 0x00)
  | .call f => some (.c, f.toWord 0x08 0x01)
  | .loop f => some (.c, f.toWord 0x08 0x02)
  | .jmpr f => some (.c, f.toWord 0x09 0x00)
  | .ret f => some (.c, f.toWord 0x09 0x01)
  | .stop f => some (.c, f.toWord 0x09 0x02)
  | .yield f => some (.c, f.toWord 0x09 0x03)
  | .setvl f => some (.c, f.toWord 0x0A 0x00)
  | .vregs f => some (.c, f.toWord 0x0A 0x01)
  | .vf f => some (.c, f.toWord 0x0A 0x02)
  | .vfwait f => some (.c, f.toWord 0x0A 0x03)
  | .fork f => some (.c, f.toWord 0x0A 0x04)
  | .join f => some (.c, f.toWord 0x0A 0x05)
  | .spawn f => some (.c, f.toWord 0x0A 0x06)
  | .launch f => some (.c, f.toWord 0x0A 0x07)
  | .vld f => some (.c, f.toWord 0x0C 0x00)
  | .vldff f => some (.c, f.toWord 0x0C 0x00)
  | .vst f => some (.c, f.toWord 0x0C 0x01)
  | .vlds f => some (.c, f.toWord 0x0C 0x02)
  | .vsts f => some (.c, f.toWord 0x0C 0x03)
  | .vldx f => some (.c, f.toWord 0x0C 0x04)
  | .vstx f => some (.c, f.toWord 0x0C 0x05)
  | .vgl f => some (.c, f.toWord 0x0C 0x06)
  | .vsc f => some (.c, f.toWord 0x0C 0x07)
  | .vamo k f => some (.c, f.toWord 0x0C ((1 : BitVec 3) ++ k))
  | .vpush f => some (.c, f.toWord 0x0D 0x00)
  | .ld f => some (.c, f.toWord 0x0E 0x00)
  | .st f => some (.c, f.toWord 0x0E 0x01)
  | .amo k f => some (.c, f.toWord 0x0E ((1 : BitVec 3) ++ k))
  | .fenceX f => some (.c, f.toWord 0x0F 0x00)
  | .fenceSys f => some (.c, f.toWord 0x0F 0x01)
  | .mand f => some (.c, f.toWord 0x10 0x00)
  | .mor f => some (.c, f.toWord 0x10 0x01)
  | .mnot f => some (.c, f.toWord 0x10 0x02)
  | .mset f => some (.c, f.toWord 0x10 0x03)
  | .mcount f => some (.c, f.toWord 0x10 0x04)
  | .mfirst f => some (.c, f.toWord 0x10 0x05)
  | .mprefix f => some (.c, f.toWord 0x10 0x06)
  | .vredAdd f => some (.c, f.toWord 0x11 0x00)
  | .vredMin f => some (.c, f.toWord 0x11 0x01)
  | .vredMax f => some (.c, f.toWord 0x11 0x02)
  | .vscan f => some (.c, f.toWord 0x11 0x03)
  | .vcompress f => some (.c, f.toWord 0x11 0x04)
  | .vslideup f => some (.c, f.toWord 0x11 0x05)
  | .vslidedown f => some (.c, f.toWord 0x11 0x06)
  | .vmexp f => some (.c, f.toWord 0x11 0x07)
  | .vunion f => some (.c, f.toWord 0x11 0x08)
  | .vquant f => some (.c, f.toWord 0x11 0x09)
  | .dcopy f => some (.c, f.toWord 0x14 0x00)
  | .dcopy2d f => some (.c, f.toWord 0x14 0x01)
  | .dfill f => some (.c, f.toWord 0x14 0x02)
  | .dcompact f => some (.c, f.toWord 0x14 0x03)
  | .dhalo f => some (.c, f.toWord 0x14 0x04)
  | .dtile f => some (.c, f.toWord 0x14 0x05)
  | .dcopyBar f => some (.c, f.toWord 0x14 0x20)
  | .dcopy2dBar f => some (.c, f.toWord 0x14 0x21)
  | .dfillBar f => some (.c, f.toWord 0x14 0x22)
  | .dcompactBar f => some (.c, f.toWord 0x14 0x23)
  | .dhaloBar f => some (.c, f.toWord 0x14 0x24)
  | .dtileBar f => some (.c, f.toWord 0x14 0x25)
  | .tfill f => some (.c, f.toWord 0x15 0x00)
  | .tdrain f => some (.c, f.toWord 0x15 0x01)
  | .tfree f => some (.c, f.toWord 0x15 0x02)
  | .twait f => some (.c, f.toWord 0x15 0x03)
  | .qpop f => some (.c, f.toWord 0x16 0x00)
  | .mloop k f => some (.c, f.toWord 0x18 ((0 : BitVec 3) ++ k))
  | .mload f => some (.c, f.toWord 0x19 0x00)
  | .mzero f => some (.c, f.toWord 0x19 0x01)
  | .mread f => some (.c, f.toWord 0x19 0x02)
  | .gchain f => some (.c, f.toWord 0x1A 0x00)
  | .gopen f => some (.c, f.toWord 0x1A 0x01)
  | .gsend f => some (.c, f.toWord 0x1A 0x02)
  | .gwait f => some (.c, f.toWord 0x1A 0x03)
  | .gclose f => some (.c, f.toWord 0x1A 0x04)
  | .barr f => some (.c, f.toWord 0x1B 0x00)
  | .bwait f => some (.c, f.toWord 0x1B 0x01)
  | .bsync f => some (.c, f.toWord 0x1B 0x02)
  | .slotyield f => some (.c, f.toWord 0x1C 0x00)
  | .cntrd f => some (.c, f.toWord 0x1C 0x01)
  | .srseed f => some (.c, f.toWord 0x1C 0x02)
  | .trap f => some (.c, f.toWord 0x1C 0x03)
  | .brk f => some (.c, f.toWord 0x1C 0x04)
  | .tlbinv f => some (.s, f.toWord 0x3C 0x00)
  | .tlbinvAll f => some (.s, f.toWord 0x3C 0x01)
  | .csrRd f => some (.s, f.toWord 0x3D 0x00)
  | .csrWr f => some (.s, f.toWord 0x3D 0x01)
  | .replack f => some (.s, f.toWord 0x3E 0x00)
  | .vadd f => some (.v, f.toWord 0x01 0x00)
  | .vsub f => some (.v, f.toWord 0x01 0x01)
  | .vmul f => some (.v, f.toWord 0x01 0x02)
  | .vmulh f => some (.v, f.toWord 0x01 0x03)
  | .vmad f => some (.v, f.toWord 0x01 0x04)
  | .vand f => some (.v, f.toWord 0x01 0x05)
  | .vor f => some (.v, f.toWord 0x01 0x06)
  | .vxor f => some (.v, f.toWord 0x01 0x07)
  | .vshl f => some (.v, f.toWord 0x01 0x08)
  | .vshr f => some (.v, f.toWord 0x01 0x09)
  | .vsra f => some (.v, f.toWord 0x01 0x0A)
  | .vmin f => some (.v, f.toWord 0x01 0x0B)
  | .vmax f => some (.v, f.toWord 0x01 0x0C)
  | .vclz f => some (.v, f.toWord 0x01 0x0D)
  | .vpopc f => some (.v, f.toWord 0x01 0x0E)
  | .vsel f => some (.v, f.toWord 0x01 0x0F)
  | .vmov f => some (.v, f.toWord 0x01 0x10)
  | .vmovi f => some (.v, f.toWord 0x02 0x00)
  | .vfadd f => some (.v, f.toWord 0x04 0x00)
  | .vfsub f => some (.v, f.toWord 0x04 0x01)
  | .vfmul f => some (.v, f.toWord 0x04 0x02)
  | .vfma f => some (.v, f.toWord 0x04 0x03)
  | .vfms f => some (.v, f.toWord 0x04 0x04)
  | .vfnma f => some (.v, f.toWord 0x04 0x05)
  | .vfmin f => some (.v, f.toWord 0x04 0x06)
  | .vfmax f => some (.v, f.toWord 0x04 0x07)
  | .vfrcp f => some (.v, f.toWord 0x04 0x08)
  | .vfrsq f => some (.v, f.toWord 0x04 0x09)
  | .vfsqrt f => some (.v, f.toWord 0x04 0x0A)
  | .vfexp2 f => some (.v, f.toWord 0x04 0x0B)
  | .vflog2 f => some (.v, f.toWord 0x04 0x0C)
  | .vfcmp f => some (.v, f.toWord 0x04 0x0D)
  | .vfclass f => some (.v, f.toWord 0x04 0x0E)
  | .vcvt f => some (.v, f.toWord 0x05 0x00)
  | .vpack f => some (.v, f.toWord 0x05 0x01)
  | .vunpack f => some (.v, f.toWord 0x05 0x02)
  | .qput f => some (.v, f.toWord 0x06 0x00)
  | .vfetch f => some (.v, f.toWord 0x08 0x00)
  | .vbru f => some (.v, f.toWord 0x08 0x01)
  | .vStop f => some (.v, f.toWord 0x09 0x00)
  | .vSpawn f => some (.v, f.toWord 0x09 0x01)
  | .pld f => some (.v, f.toWord 0x0C 0x00)
  | .pst f => some (.v, f.toWord 0x0C 0x01)
  | .pamo k f => some (.v, f.toWord 0x0C ((1 : BitVec 3) ++ k))
  | _ => none

end Sys2Proof
end

