-- ==== Sys2Proof/Machine/Map.lean ====
section
/-! DEFINITION. Sparse maps with a default, the byte memory in canonical form, and the block read and write every other
memory operation is built from (R10, R191). -/

namespace Sys2Proof.Machine

/-- A table indexed by natural numbers: entries with strictly rising keys, none equal to the table's default. -/
abbrev Map (α : Type) := List (Nat × α)

/-- The entry of a key, or the default d. -/
def mget {α : Type} (d : α) : Map α → Nat → α
  | [], _ => d
  | (k, a) :: r, n => if n == k then a else mget d r n

/-- Removes a key. -/
def mdel {α : Type} (n : Nat) : Map α → Map α
  | [] => []
  | (k, a) :: r => if n == k then mdel n r else (k, a) :: mdel n r

/-- Puts an entry in its place in the order of keys. -/
def mput {α : Type} (n : Nat) (b : α) : Map α → Map α
  | [] => [(n, b)]
  | (k, a) :: r => if n == k then (n, b) :: r else if n < k then (n, b) :: (k, a) :: r else (k, a) :: mput n b r

/-- Sets one entry; setting the default removes it. -/
def mset {α : Type} [DecidableEq α] (d : α) (m : Map α) (n : Nat) (b : α) : Map α := if b = d then mdel n m else mput n b m

/-- Changes one entry. -/
def mmod {α : Type} [DecidableEq α] (d : α) (m : Map α) (n : Nat) (f : α → α) : Map α :=
  mset d m n (f (mget d m n))

/-- Sets a list of entries. -/
def msetAll {α : Type} [DecidableEq α] (d : α) (m : Map α) : List (Nat × α) → Map α
  | [] => m
  | (k, a) :: r => msetAll d (mset d m k a) r

/-- Pointwise maximum of two tables of counts, merged by key: the union of two visible sets (R205). -/
def mmax : Map Nat → Map Nat → Map Nat
  | [], b => b
  | (k, a) :: r, b =>
    let hi := b.dropWhile (·.1 < k)
    b.takeWhile (·.1 < k) ++ (match hi with
      | (j, c) :: t => if j == k then (k, max a c) :: mmax r t else (k, a) :: mmax r hi
      | [] => (k, a) :: r)

/-! Byte memory: pairs of physical address and byte, addresses strictly rising, no byte zero. An unlisted address reads
zero: R350 clears HBM and on-chip storage; host and peer memory by log entry 2. -/

abbrev Memory := List Host.Cell

/-- Strictly rising addresses above a bound, and no entry equal to what an unlisted address reads as. -/
def cellsWf : Option Nat → Memory → Bool
  | _, [] => true
  | lo, (a, b) :: r => (match lo with | none => true | some l => l < a) && b != 0 && cellsWf (some a) r

/-- The canonical form of a memory. -/
def Memory.wf (m : Memory) : Bool := cellsWf none m

/-- One byte. -/
def readByte : Memory → Nat → Byte
  | [], _ => 0
  | (k, b) :: r, a => if a == k then b else if a < k then 0 else readByte r a

/-- The entries below an address, in front of a tail. -/
def cellsBelow (a : Nat) (tail : Memory) : Memory → Memory
  | [] => tail
  | (k, b) :: r => if k < a then (k, b) :: cellsBelow a tail r else tail

/-- The entries at and above an address. -/
def cellsFrom (a : Nat) : Memory → Memory
  | [] => []
  | (k, b) :: r => if k < a then cellsFrom a r else (k, b) :: r

/-- Bytes laid from an address upward, zero bytes left out, in front of a tail. -/
def layCells (tail : Memory) : Nat → List Byte → Memory
  | _, [] => tail
  | a, b :: bs => if b == 0 then layCells tail (a + 1) bs else (a, b) :: layCells tail (a + 1) bs

/-- Writes a block of bytes; every write of memory is one of these. -/
def writeBytes (m : Memory) (a : Nat) (bs : List Byte) : Memory :=
  cellsBelow a (layCells (cellsFrom (a + bs.length) m) a bs) m

/-- Reads n bytes from ascending addresses. -/
def readBytes (m : Memory) (a : Nat) : Nat → List Byte
  | 0 => []
  | n + 1 => readByte m a :: readBytes m (a + 1) n

/-- Removes every byte of a range: the range then reads zero. -/
def zeroRange (m : Memory) (a n : Nat) : Memory := cellsBelow a (cellsFrom (a + n) m) m

/-- The nonzero bytes of a range, as offsets from its start. -/
def rangeCells (m : Memory) (a n : Nat) : Memory :=
  ((cellsFrom a m).filter fun c => c.1 < a + n).map fun c => (c.1 - a, c.2)

/-- Lays saved cells of a range back at a base. -/
def layRange (m : Memory) (base : Nat) : Memory → Memory
  | [] => m
  | (o, b) :: r => layRange (writeBytes m (base + o) [b]) base r

/-- A little-endian value of n bytes (R10). -/
def readLe (m : Memory) (a n : Nat) : Nat := leNat (readBytes m a n)
def writeLe (m : Memory) (a n v : Nat) : Memory := writeBytes m a (leBytes n v)

end Sys2Proof.Machine
end

