-- ==== Sys2Proof/Machine/State.lean ====
section
/-! DEFINITION. The whole state of the device as plain data, the outcomes that stop a step, and the state after reset. -/

namespace Sys2Proof.Machine

/-! ## Registers and what blocks them -/

/-- Full, or one of the two conditions of an empty register (R33); failing: full, in storage whose check bits fail (R335). -/
inductive FE where
  | full | claimed | opened | failing
  deriving DecidableEq, Repr

/-- One register with a full/empty bit; v and c registers are named with their VP (R28). -/
inductive Reg where
  | x (i : Nat) | p (i : Nat) | v (i e : Nat) | c (i e : Nat)
  deriving DecidableEq, Repr

/-- A visible set, or any other floor of the memory model: for each byte, the place of the latest write to it in the set, counted in the
coherence order of its aligned doubleword; the earlier writes to the byte are in the set too (R205 rule 4). -/
abbrev Vis := Map Nat

/-- A fill that a claiming producer makes when it completes; both halves of a pair are filled together (R33). -/
structure Fill where
  reg : Reg
  val : Word
  hi : Option (Reg × Word) := none
  /-- The access came through the Baler (R56, R220). -/
  baler : Bool := false
  deriving DecidableEq, Repr

/-- A place in program order, as the control stream had it: the group's seq, its next access, and the run in progress (R192). -/
structure Mark where
  seq : Nat
  opId : Nat
  live : Option Nat
  deriving DecidableEq, Repr

/-- What a suspended clause waits for; when it clears, the candidate is ready again (R256). -/
inductive Wait where
  /-- Every register is full (R34). -/
  | full (rs : List Reg)
  /-- Registers are full, queue sources hold as many entries as an instruction pops, uniform x registers are captured (R34). -/
  | sources (rs : List Reg) (qs us : List Nat)
  /-- No register is claimed (R35). -/
  | unclaimed (rs : List Reg)
  /-- Uniform x register i has been captured (R263). -/
  | uniform (i : Nat)
  /-- A lane instruction in VP e (R42, R118, R129): the link into it, or qin for e = 0, holds ls entries and qin qs more, and the link
  out of it has room for out entries, or qout where onQout says so or e is the last VP of the run. -/
  | lane (e ls qs out : Nat) (onQout : Bool)
  | qinRoom | qoutFilled
  /-- Result FIFO q holds a word; command FIFO q has room (R41). -/
  | kFilled (q : Nat)
  | kRoom (q : Nat)
  /-- Tile-table entry t has left filling and draining (R148). -/
  | tile (t : Nat)
  /-- Tile t is held by the issuing context (R165, R166). -/
  | tileFault (t : Nat)
  | lockStep | runEnd | quiescent
  /-- Every access of the group issued before is performed (R209, R316). -/
  | accesses
  /-- The earlier accesses of the control stream, or of a VP, are performed (R196, R275). -/
  | own (e : Option Nat)
  /-- No byte of a window range belongs to a claimed register (R51). -/
  | window (pa n : Nat)
  /-- Held access op has been performed. -/
  | op (id : Nat)
  /-- The group's logged instruction has been replayed (R228). -/
  | replayed
  | logRoom | recRoom | pushRoom | loopRoom
  /-- The logged instruction has been replayed (R326). -/
  | logRead (i : Nat)
  /-- A pushed source register has been read (R231). -/
  | pushRead (i : Nat)
  /-- No loop of the group reads the register, or the LS tile (R157). -/
  | loopReg (i : Nat)
  | loopTile (e : Nat)
  /-- The group's loops have completed (R153). -/
  | loops
  /-- C stop: run, claims and children have ended (R273). -/
  | ending
  /-- The child of a fork has ended (R280). -/
  | child
  /-- fence.sys: system-scope accesses and commands are done (R209). -/
  | systemScope
  /-- tlbinv: the accesses translated under removed entries are done (R316). -/
  | translated
  /-- gclose: the chain has closed (R185). -/
  | chain (n : Nat)
  /-- bwait: the barrier's phase has passed (R284). -/
  | barrier (pa : Nat) (phase : Nat)
  deriving DecidableEq, Repr

/-! ## Accesses -/

/-- The kind of place an address names (R212). -/
inductive Loc where
  | hbm | window | system
  deriving DecidableEq, Repr

/-- One element access of an instruction (R191): index, address, place, data. -/
structure Elem where
  e : Nat
  va : Nat
  pa : Nat
  loc : Loc
  size : Nat
  uc : Bool
  data : Word
  cmp : Word
  deriving DecidableEq, Repr

/-- A use of an accumulator tile that waits in the operand log for the image it needs (R166, R228): the tile, the captured x sources,
the mask read at issue with its register, the claimed destinations, and vl and vstart. -/
structure TileUse where
  tile : Nat
  xs : List (Nat × Word)
  msel : Nat
  mask : Nat
  dsts : List Reg
  vl : Nat
  vstart : Nat
  /-- The instruction stores (tdrain). -/
  stores : Bool
  deriving DecidableEq, Repr

/-- What an access does when it is performed. -/
inductive AccKind where
  /-- A load into a claimed register. -/
  | load
  | store
  /-- An atomic operation (R223) with its operand class SZ[5]. -/
  | amo (op : BitVec 3) (cls5 : Bool)
  | vgl | vsc
  /-- Doublewords read into the group's held words (launch R86, gchain R179). -/
  | held
  /-- A barrier word read at its unit (R284). -/
  | poll
  /-- tfill, tdrain of an entry (R150); mload at a Hayloft offset with the .t2 check (R153). -/
  | tfill (entry : Nat)
  | tdrain (entry : Nat)
  | mload (off : Nat) (t2 : Bool)
  /-- The arrival of barr or bsync (R284). -/
  | arrive
  /-- The read of a saved tile image for a use of its tile, which then executes (R166). -/
  | use (u : TileUse)
  deriving DecidableEq, Repr

/-- Where a loaded or old value goes. -/
inductive Dst where
  | none
  | x (i : Nat)
  | v (i : Nat)
  deriving DecidableEq, Repr

/-- The accesses of one instruction that are not performed yet, with its place in program order (R192): control
instructions stand at key (seq, 0), lock-step instructions at the seq of their vf. -/
structure MemOp where
  id : Nat
  kind : AccKind
  dst : Dst
  /-- Sign of the returned old value (R225). -/
  signed : Bool
  size : Nat
  scope : BitVec 2
  /-- m register of vldff and vsc; of vldff with a mask, the bit that makes an element inactive (R219). -/
  mask : Nat
  ff : Option Bool
  /-- v sources, which later instructions do not write while the instruction is logged (R326). -/
  srcs : List Nat
  elems : List Elem
  seq : Nat
  sub : Nat
  /-- Diverged accesses: element e is VP e's own (R192 rule 2). -/
  div : Bool
  run : Nat
  /-- The run that was in progress when a control instruction issued. -/
  live : Option Nat
  vec : Bool
  clause : Nat
  word : Nat
  instr : Word
  opA : Word
  opB : Word
  opC : Word
  /-- First element, and the greatest element already performed plus one. -/
  first : Nat
  prog : Nat
  logged : Bool
  /-- It was logged: accesses issued after it, which waited for its replay, are performed after it (R228, R327). -/
  held : Bool
  deriving DecidableEq, Repr

/-- A link of the latest vgl (R202). -/
structure Link where
  e : Nat
  line : Nat
  scope : BitVec 2
  intact : Bool
  /-- Cycle at which it was set. -/
  since : Nat
  deriving DecidableEq, Repr

/-- An outstanding vpush (R229 to R232). -/
structure Push where
  core : Nat
  slot : Nat
  uid : Nat
  dreg : Nat
  src : Nat
  count : Nat
  moved : Nat
  first : Nat
  vl : Nat
  at_ : Mark
  deriving DecidableEq, Repr

/-- A push whose sender has ended: the sender's v registers as it left them (R273). -/
structure Orphan where
  core : Nat
  slot : Nat
  uid : Nat
  vf : Nat
  push : Push
  v : Map (Map Lane)
  vis : Vis
  deriving DecidableEq, Repr

/-- Doublewords read so far by an instruction that holds its clause, and its phase. -/
structure Held where
  op : Nat
  phase : Nat
  words : List Word
  deriving DecidableEq, Repr

/-! ## Tiles and the Lattice unit -/

inductive TState where
  | empty | filling | ready | draining
  deriving DecidableEq, Repr

/-- A tile-table entry (R146). -/
structure TileEnt where
  st : TState := .empty
  ty : BitVec 4 := 0
  text : BitVec 2 := 0
  rows : Nat := 0
  cols : Nat := 0
  lsoff : Nat := 0
  deriving DecidableEq, Repr

/-- A context: a virtual function with a group slot (R44); uid tells which group of the slot it was. -/
structure Ctx where
  vf : Nat
  slot : Nat
  uid : Nat
  deriving DecidableEq, Repr

/-- The owner, the holder and the holder's recorded save address of an accumulator tile (R165 to R167). -/
structure TileOwn where
  owner : Option Ctx := none
  holder : Option Ctx := none
  save : Nat := 0
  deriving DecidableEq, Repr

/-- A of a loop: v registers from a base, or an LS tile from a column (R140, R141). -/
inductive ASrc where
  | regs (a : Nat)
  | tile (entry p0 : Nat)
  deriving DecidableEq, Repr

/-- An accepted matrix loop (R155, R156). -/
structure Loop where
  id : Nat
  core : Nat
  slot : Nat
  uid : Nat
  vf : Nat
  tile : Nat
  fmt : BitVec 3
  steps : Nat
  done : Nat
  a : ASrc
  baddr : Nat
  sparse : Bool
  /-- Bit p set: position p contributes (R144). -/
  mask : Nat
  sbyte : Nat
  bcast : BitVec 2
  /-- An INC code that R161 requires to be zero in a non-source participant. -/
  incA : Nat
  incB : Nat
  /-- Place among the loops of its cluster with the row bit, and with the column bit (R161). -/
  rowK : Nat
  colK : Nat
  /-- Clusters that take part in its row broadcast, and in its column broadcast, lowest first; none where the bus bit has no effect
  (R161). -/
  rowP : List Nat
  colP : List Nat
  clause : Nat
  word : Nat
  /-- Its place in program order (R192). -/
  seq : Nat
  /-- Declared count of the group, and its v registers as they stood when it ended (R273). -/
  nregs : Nat
  left : Option (Map (Map Lane))
  deriving DecidableEq, Repr

/-- A saved tile image's state and stopped loop (R166). -/
structure TileImg where
  st : TState
  loops : List Loop
  deriving DecidableEq, Repr

/-- Which Glaze instruction last named a tile, and its outcome (R182). -/
structure GOut where
  /-- 0 none, 1 gopen, 2 gsend. -/
  kind : Nat := 0
  done : Bool := false
  status : Word := 0
  chain : Nat := 0
  member : Nat := 0
  deriving DecidableEq, Repr

/-! ## Groups -/

/-- STATE of the context block (R323). -/
inductive GStatus where
  | free | running | halted | ending
  /-- Ended, with accesses still to be performed: kept apart from the slots (R273). -/
  | gone
  deriving DecidableEq, Repr

/-- A VP's position, its idle mark, and what it is parked for (R264), the state GETVP shows. -/
structure VpPos where
  pc : Nat
  w : Nat
  idle : Bool
  parked : Option Wait
  deriving DecidableEq, Repr

/-- A register filled by another party and not written since: the filler's visible set (R196). -/
structure PendKnow where
  isX : Bool
  reg : Nat
  e : Nat
  vis : Vis
  deriving DecidableEq, Repr

/-- A run (R260 to R264). -/
structure Run where
  num : Nat
  vl : Nat
  seq : Nat
  /-- Uniform x values captured at the vf; registers still waiting for the fill of their claim, and those that were open (R36, R263). -/
  ux : Map Word
  uwait : List Nat
  uopen : List Nat
  /-- What came with the fills of captured registers (R196). -/
  upend : List PendKnow
  diverged : Bool
  /-- The one position of the lock-step phase. -/
  pc : Nat
  w : Nat
  rp : Option Nat
  /-- First VP that has not completed the current instruction of a lock-step clause, and the place to which the VPs below it go on (R262). -/
  from_ : Nat
  past : Nat × Nat := (0, 1)
  deriving DecidableEq, Repr

/-- The frame description (R352). -/
structure Frame where
  x7 : Nat := 0
  x8 : Nat := 0
  fpart : Nat := 0
  spart : Nat := 0
  deriving DecidableEq, Repr

/-- The fault report (R323). -/
structure Report where
  cls : Nat := 0
  code : Nat := 0
  word : Nat := 0
  clause : Nat := 0
  addr : Nat := 0
  elem : Nat := 0
  info : Nat := 0
  /-- The chain id that a Glaze fault reports; the context block has no field for it (R187, log entry 116). -/
  chain : Word := 0
  deriving DecidableEq, Repr

/-- An in-flight record (R325): a vector or logged memory instruction with the accesses it has still to make. -/
structure Rec where
  op : MemOp
  prog : Nat
  deriving DecidableEq, Repr

/-- One result word of a command FIFO, with the writes that its pop makes visible when it carried REL (R207, R209). -/
structure Result where
  val : Word
  rel : Vis
  writes : Vis
  deriving DecidableEq, Repr

/-- A fork not joined yet (R279, R280): the parent's lanes, VLMAX and vl before it, the child, and once the child has ended the
per-VP state and the visible set it left. -/
structure ForkRec where
  b : Nat
  l : Nat
  vlmax : Nat
  vl : Nat
  slot : Nat
  uid : Nat
  done : Bool
  v : Map (Map Lane)
  c : Map (Map Bool)
  srs : Map Lane
  vis : Vis
  /-- The full/empty bits, the fills not consumed and the save map that the child left (R196, R280, R305). -/
  vfe : Map (Map FE)
  cfe : Map (Map FE)
  pend : List PendKnow
  saveMap : Word
  /-- The clause addresses of the child's VPs (R47). -/
  pcs : Map Nat
  deriving DecidableEq, Repr

/-- A vscan that has written some of its elements: its place, the word, the first element not done and the running value (R102,
R130, R325). -/
structure Scan where
  clause : Nat
  word : Nat
  instr : Word
  prog : Nat
  val : Option Word
  deriving DecidableEq, Repr

structure Group where
  status : GStatus := .free
  vf : Nat := 0
  priv : Bool := false
  uid : Nat := 0
  /-- G, first lane, lane count, declared count, VLMAX (R38). -/
  gcount : Nat := 1
  laneB : Nat := 0
  laneL : Nat := 16
  nregs : Nat := 64
  vlmax : Nat := 0
  age : Nat := 0
  frame : Frame := {}
  entry : Nat := 0
  /-- First group slot of its yard on the core. -/
  slot0 : Nat := 0
  x : Map Word := []
  xfe : Map FE := []
  p : Map Bool := []
  pfe : Map FE := []
  /-- v register, then VP. -/
  v : Map (Map Lane) := []
  vfe : Map (Map FE) := []
  c : Map (Map Bool) := []
  cfe : Map (Map FE) := []
  res : Map (List Result) := []
  links : Map (List Lane) := []
  qin : List Lane := []
  qout : List Lane := []
  vl : Nat := 0
  vstart : Nat := 0
  /-- The group's own vstart while the register shows where a stopped instruction's record stands (R322, R325). -/
  vkept : Option Nat := none
  vdirty : Word := 0
  fflags : BitVec 5 := 0
  ftz : Bool := false
  drm : BitVec 3 := 0
  /-- Stochastic-rounding state per VP; 1 until srseed (R37, R95). -/
  srs : Map Lane := []
  run : Option Run := none
  runs : Nat := 0
  vps : Map VpPos := []
  /-- The program-counter vector outside a run; a VP that is not listed stands at the entry clause (R37, R47). -/
  pcs : Map Nat := []
  pc : Nat := 0
  pcword : Nat := 1
  waitC : Option Wait := none
  waitV : Option Wait := none
  /-- Cycles each stream has been ready without being chosen (R254). -/
  cntC : Nat := 0
  cntV : Nat := 0
  /-- The next choice prefers other groups (R274). -/
  yielded : Bool := false
  /-- The clause at the stream's place has begun to issue. -/
  begunC : Bool := false
  begunV : Bool := false
  rep : Report := {}
  log : Option Nat := none
  tsaved : BitVec 8 := 0
  tlost : BitVec 8 := 0
  tsave : Nat := 0
  imgs : Map (Option TileImg) := []
  /-- A TILE-SPILL to halt with before the group next issues: tile and address (R320). -/
  spill : Option (Nat × Nat) := none
  recs : List Rec := []
  /-- The vscan in progress (R102). -/
  scan : Option Scan := none
  gout : Map GOut := []
  /-- gwait destinations still to be filled: tile, x register (R182). -/
  gwaits : List (Nat × Nat) := []
  saveMap : Word := 0xFFFFFFFFFFFFFFFF
  /-- Forks not joined yet, latest first (R279, R280). -/
  forks : List ForkRec := []
  /-- The parent's slot and uid, in a forked child. -/
  parent : Option (Nat × Nat) := none
  seq : Nat := 0
  nextOp : Nat := 0
  acc : List MemOp := []
  fills : List Fill := []
  pushes : List Push := []
  linkset : List Link := []
  /-- The latest vgl among the group's accesses, whose links alone the group holds (R202). -/
  linkOp : Nat := 0
  vis : Vis := []
  fetchFloor : Vis := []
  cmdFloor : Vis := []
  /-- Place of the latest fence (R209). -/
  fence : Option Mark := none
  /-- Slot of an ended group (R273). -/
  was : Nat := 0
  /-- Writes of commands whose completion is known to the group (R209). -/
  known : Vis := []
  pend : List PendKnow := []
  held : Option Held := none
  /-- STEP: halt after one clause (R332). -/
  stepping : Bool := false
  hayErr : Bool := false
  hayOff : Nat := 0
  deriving DecidableEq, Repr

/-! ## Cores -/

/-- The clause a core's issue slot is issuing (R256). -/
structure Issue where
  /-- First lane of the lane-set yard served, 0 in a cluster yard. -/
  key : Nat
  slot : Nat
  vec : Bool
  cls : Cls
  clause : Nat
  y : Bool
  words : List Word
  next : Nat
  vps : List Nat
  /-- Some VP of the clause parked, or took a transfer to or below the clause (R264). -/
  back : Bool
  deriving DecidableEq, Repr

/-- The candidate that ended the last clause, and whether the next choice skips it (Y, R254). -/
structure Last where
  slot : Nat
  uid : Nat
  vec : Bool
  skip : Bool
  deriving DecidableEq, Repr

/-- An operand-log entry (R326). -/
structure LogEnt where
  used : Bool := false
  rpl : Bool := false
  vf : Nat := 0
  slot : Nat := 0
  uid : Nat := 0
  elem : Nat := 0
  level : Nat := 0
  cause : Nat := 0
  word : Nat := 0
  clause : Nat := 0
  instr : Word := 0
  faultVa : Nat := 0
  opA : Word := 0
  opB : Word := 0
  opC : Word := 0
  op : Nat := 0
  deriving DecidableEq, Repr

/-- An engine fault record (R330). -/
structure EngRec where
  used : Bool := false
  ovf : Bool := false
  vf : Nat := 0
  slot : Nat := 0
  queue : Nat := 0
  tag : Nat := 0
  status : Nat := 0
  faultVa : Nat := 0
  done : Nat := 0
  level : Nat := 0
  cause : Nat := 0
  deriving DecidableEq, Repr

inductive JobState where
  | queued | running | stopped
  deriving DecidableEq, Repr

/-- The command a Dray job performs (R233). -/
inductive JobKind where
  | copy | copy2d | fill | compact | halo | tile
  deriving DecidableEq, Repr

/-- A Dray command in a queue (R41, R233 to R245). -/
structure Job where
  id : Nat
  vf : Nat
  slot : Nat
  uid : Nat
  queue : Nat
  kind : JobKind
  acq : Bool
  rel : Bool
  escope : BitVec 2
  bar : Bool
  a : Word
  b : Word
  c : Word
  barAddr : Word
  tag : Nat
  /-- Clause and word of the instruction that queued it (R323). -/
  clause : Nat
  word : Nat
  st : JobState
  /-- Its place in program order, and that of the latest fence before it (R192, R206, R209). -/
  at_ : Mark
  fence : Option Mark
  /-- The floor of its reads, and of its reads of handle entries (R206, R209, R236). -/
  floor : Vis
  hfloor : Vis
  /-- Start addresses of destination, source and descriptor once the command has started, and the descriptor's header. -/
  dst : Nat := 0
  src : Nat := 0
  desc : Nat := 0
  hdr : Word := 0
  /-- Bytes written in transfer order, chunks done; segment and place in it (dcompact). -/
  done : Nat := 0
  chunks : Nat := 0
  seg : Nat := 0
  segLen : Option Nat := none
  segPos : Nat := 0
  status : Nat := 0
  writes : Vis := []
  seen : Vis := []
  /-- The result of a command that is complete and waits for room in its FIFO (R41). -/
  ended : Bool := false
  deriving DecidableEq, Repr

structure Core where
  issue : Option Issue := none
  /-- By first lane of the yard served (R296). -/
  last : Map (Option Last) := []
  nextAge : Nat := 0
  tiles : Map TileEnt := []
  own : Map TileOwn := []
  log : Map LogEnt := []
  eng : Map EngRec := []
  jobs : List Job := []
  clk : Nat := 0
  /-- Leased lines with the logical time their lease ends (R197). -/
  leases : Map Nat := []
  /-- Baler: lines requested in the open window (R220). -/
  baler : List Nat := []
  /-- First lane of the lane-set yard served last (R296). -/
  turn : Nat := 0
  deriving DecidableEq, Repr

/-! ## Clusters -/

/-- A Glaze receive slot (R176). -/
inductive Recv where
  | free
  | reserved (core tile : Nat)
  deriving DecidableEq, Repr

/-- What a packed group takes from the group that spawned its stall's first item (R277, R278). -/
structure Starter where
  vf : Nat
  core : Nat
  nregs : Nat
  gcount : Nat
  laneB : Nat
  laneL : Nat
  priv : Bool
  frame : Frame
  ftz : Bool
  drm : BitVec 3
  vis : Vis
  deriving DecidableEq, Repr

/-- A spawned item (R276). -/
structure Item where
  entry : Nat
  arg : Word
  by_ : Starter
  deriving DecidableEq, Repr

/-- One of the 32 stalls of a cluster (R277). -/
structure Stall where
  items : List Item := []
  due : Nat := 0
  timed : Bool := false
  deriving DecidableEq, Repr

structure Cluster where
  loops : List Loop := []
  rr : Nat := 0
  /-- Loops accepted with the row bit, and with the column bit, so far (R161). -/
  rowN : Nat := 0
  colN : Nat := 0
  /-- Broadcasts that have failed before the cluster's own loop of them has arrived (R161, R170). -/
  rowBad : List Nat := []
  colBad : List Nat := []
  hayLoading : List Nat := []
  hayInvalid : List Nat := []
  recv : Map Recv := []
  /-- Contributions ready to be added, in the order they became ready: core, tile, member (R177). -/
  adds : List (Nat × Nat × Nat) := []
  /-- Combining buffer: physical addresses of merged atomics held (R201). -/
  comb : List Nat := []
  /-- TIMER (R277). -/
  timer : Nat := 0x800
  stalls : Map Stall := []
  deriving DecidableEq, Repr

/-! ## Virtual functions at run time -/

/-- A member of a Glaze chain with its round (R171, R172, R176, R180). -/
structure Member where
  core : Nat
  tile : Nat
  rank : Nat
  parent : Nat
  expect : Nat
  slots : Nat
  round : Nat := 0
  /-- The context that opened the tile, until the receive ends. -/
  open_ : Option Ctx := none
  /-- Receive slots reserved to the round. -/
  reserved : List Nat := []
  /-- Members that hold an unused credit of the round; all that have received one. -/
  granted : List Nat := []
  credited : List Nat := []
  /-- Landed and not yet added: member and slot, oldest first. -/
  landed : List (Nat × Nat) := []
  added : Nat := 0
  /-- The context that owned the tile at the latest edge (R183). -/
  was : Option Ctx := none
  deriving DecidableEq, Repr

/-- A chain number of a virtual function (R173). -/
structure Chain where
  gen : Nat := 0
  used : Bool := false
  closing : Bool := false
  mode : Nat := 0
  root : Nat := 0
  members : List Member := []
  deriving DecidableEq, Repr

/-- A send waiting for a credit or transmitting (R181). -/
structure Send where
  core : Nat
  tile : Nat
  slot : Nat
  uid : Nat
  chain : Nat
  member : Nat
  tb : Bool
  moving : Bool
  clause : Nat
  word : Nat
  deriving DecidableEq, Repr

/-- An accepted launch record with groups still to start (R281, R282): cores in order of instance, each with the number of its
instances. -/
structure Launched where
  entry : Nat
  nregs : Nat
  gcount : Nat
  ntiles : Nat
  vlreq : Nat
  priv : Bool
  frame : Frame
  xs : List Word
  places : List (Nat × Nat)
  ftz : Bool
  drm : BitVec 3
  vis : Vis
  deriving DecidableEq, Repr

/-- A driver command on an absent virtual function, whose status waits for its restore (R332): the port and request word it came
with, and the command with its core and slot position-free. -/
structure Deferred where
  port : Option (Nat × Word)
  cmd : Instr
  deriving DecidableEq, Repr

/-- What a virtual function holds outside its groups (R235, R255, R278, R312, R315, R332). -/
structure VfState where
  /-- The yard on whose units the context stands; none while it is saved (R300). -/
  home : Option Nat := none
  /-- PTROOT as last written; as all groups see it since the latest tlbinv.all; and as groups that have written it since see it, by
  uid (R315). -/
  ptroot : Word := 0
  ptall : Word := 0
  roots : Map Word := []
  htbase : Word := 0
  spovf : Word := 0
  cntsel : Map Nat := []
  cnt : Map Word := []
  chains : Map Chain := []
  sends : List Send := []
  launched : List Launched := []
  overflow : List Item := []
  ovTail : Nat := 0
  tsbase : Nat := 0
  /-- Class-3 fault that stopped the virtual function's engines and loops (R321). -/
  stopped : Bool := false
  cmds : List Deferred := []
  deriving DecidableEq, Repr

/-- A core's part of a saved context (R310). -/
structure CoreSave where
  ls : Memory := []
  tiles : Map TileEnt := []
  log : Map LogEnt := []
  eng : Map EngRec := []
  jobs : List Job := []
  deriving DecidableEq, Repr

/-- A cluster's part of a saved context (R169, R188, R310). -/
structure ClusterSave where
  hay : Memory := []
  hayInvalid : List Nat := []
  recv : Map Recv := []
  recvBytes : Memory := []
  stalls : Map Stall := []
  rowN : Nat := 0
  colN : Nat := 0
  rowBad : List Nat := []
  colBad : List Nat := []
  adds : List (Nat × Nat × Nat) := []
  timer : Nat := 0x800
  deriving DecidableEq, Repr

/-- The context of an absent virtual function, position-free: cores and clusters by their places in the yard, slots and lanes
counted from the yard's first (R299, R300); groups by the place of the core and the slot, ended ones with accesses to perform from slot 64 on;
stopped loops with the core on which their tile stays (R168). -/
structure Saved where
  /-- The yard it last ran in. -/
  yard : Nat := 0
  groups : Map Group := []
  cores : Map CoreSave := []
  clusters : Map ClusterSave := []
  loops : List Loop := []
  deriving DecidableEq, Repr

/-! ## Memory order, translation, yards -/

/-- Who made a write. -/
inductive Party where
  | group (uid : Nat) | engine (job : Nat) | host | peer (dev : Nat) | device
  deriving DecidableEq, Repr

/-- One write of a doubleword's coherence order (R195): the doubleword before it, which bytes it writes, who wrote it, the writer's
visible set at the write (R205 rule 3), and whether a fence.x of the writer, or the end of the engine write, has followed (R57). -/
structure Ver where
  old : Word
  off : Nat := 0
  size : Nat := 8
  by_ : Party
  vis : Vis
  fenced : Bool
  /-- A completion-barrier increment: the writes of its command, and whom they reach (R208): its core 0, its cluster 1, the device
  2, everyone 3. -/
  inc : Vis := []
  reach : Nat := 3
  home : Nat := 0
  deriving DecidableEq, Repr

/-- A line in L2 (R22, R297). -/
structure L2Line where
  shed : Nat
  bank : Nat
  set_ : Nat
  line : Nat
  vf : Nat
  deriving DecidableEq, Repr

/-- A cached leaf (R316): virtual function, the root it was found under, first virtual address, whether it is a large one, and the
entry. -/
structure TlbEnt where
  vf : Nat
  root : Nat
  va : Nat
  big : Bool
  pte : Word
  deriving DecidableEq, Repr

/-- A system-scope access sent and not acknowledged (R210), or an abandoned write that may still be performed (R306). -/
structure SysAcc where
  core : Nat
  slot : Nat
  uid : Nat
  vf : Nat
  op : Nat
  dest : Nat
  /-- The VP whose order it keeps, of a diverged access (R192). -/
  vp : Option Nat
  /-- The link it left by, if it needs one (R346). -/
  link : Option Nat
  kind : AccKind
  el : Elem
  deriving DecidableEq, Repr

/-- Where a yard stands between slot edges (R304 to R309). -/
inductive Phase where
  | idle
  | running (vf : Nat)
  /-- Draining vf; the edge is at time e. -/
  | draining (vf e : Nat)
  /-- Step 6 done; the incoming virtual function, if any, starts at the time given. -/
  | switching (vf : Option Nat) (at_ : Nat)
  deriving DecidableEq, Repr

structure YardRun where
  phase : Phase := .idle
  /-- Cycle at which the drain began. -/
  drainFrom : Nat := 0
  /-- The drain is for an early edge: who runs after it, if anyone (R308, R309). -/
  early : Option (Option Nat) := none
  /-- A donation by slotyield, and when it ends (R309). -/
  gift : Option Nat := none
  /-- issuepol.POLICY (R255). -/
  policy : Bool := false
  /-- Tokens of the two limiters, in 1/56 byte; below zero, what a request has drawn beyond them (R303). -/
  hbm : Int := 0
  link : Int := 0
  /-- A request of the yard waits at the limiter (R303). -/
  hbmWait : Bool := false
  linkWait : Bool := false
  deriving DecidableEq, Repr

/-- The clause word being executed: whose, where it stands, and for which VPs. -/
structure Act where
  core : Nat := 0
  slot : Nat := 0
  vec : Bool := false
  cls : Cls := .c
  clause : Nat := 0
  word : Nat := 1
  count : Nat := 1
  instr : Word := 0
  vps : List Nat := []
  deriving DecidableEq, Repr

/-- Everything instructions and events act on, the Farrier's tables apart. -/
structure Mach where
  mem : Memory := []
  hist : Map (List Ver) := []
  /-- Doublewords with an uncorrectable error: unit code (R335). -/
  bad : Map Nat := []
  l2 : List L2Line := []
  /-- Lines written since they entered L2 (R333). -/
  dirty : Map Bool := []
  leaseEnd : Map Nat := []
  tlb : List TlbEnt := []
  host : Vis := []
  /-- The value the latest host or peer read returned (R211). -/
  hostData : Word := 0
  sysOut : List SysAcc := []
  orphans : List Orphan := []
  abandoned : List SysAcc := []
  cores : Map Core := []
  clusters : Map Cluster := []
  /-- Groups by 512 × slot + core; ended groups with accesses still to be performed from slot 64 on. -/
  groups : Map Group := []
  vfst : Map VfState := []
  saved : Map Saved := []
  yards : Map YardRun := []
  now : Nat := 0
  rowStart : Nat := 0
  nextUid : Nat := 1
  act : Act := {}
  /-- The model's own (log entry 1): the counter that free values are applied to. -/
  tick : Nat := 0
  deriving DecidableEq, Repr

/-! ## The Farrier's tables -/

/-- A yard-table entry (R294); clusters as a set of 96 bits. -/
structure Yard where
  v : Bool := false
  lane : Bool := false
  core : Nat := 0
  b : Nat := 0
  l : Nat := 0
  cl : Nat := 0
  wlog : Nat := 0
  wbase : Nat := 0
  deriving DecidableEq, Repr

/-- A virtual-function table entry (R299). -/
structure VfEnt where
  en : Bool := false
  privok : Bool := false
  linkok : Bool := false
  sizeg : Nat := 0
  baseg : Nat := 0
  seed : Nat := 0
  ctx : Nat := 0
  deriving DecidableEq, Repr

/-- A yard's entry of a slot-table row (R301). -/
structure SlotEnt where
  run : Bool := false
  vf : Nat := 0
  hbmsh : Nat := 0
  linksh : Nat := 0
  slack : Bool := false
  deriving DecidableEq, Repr

structure Row where
  rv : Bool := false
  len : Nat := 0
  ents : Map SlotEnt := []
  deriving DecidableEq, Repr

/-- The route to a destination: the outgoing link, and the device that forwards the traffic where it is no direct neighbour (R340). -/
structure Route where
  link : Nat
  via : Option Nat
  deriving DecidableEq, Repr

/-- A sideband write of CFGSEM and what stood there before it, for a mailbox write of the same cycle (R344). -/
structure SemWrite where
  at_ : Nat
  acquire : Bool
  holder : Nat
  epoch : Nat
  due : Nat
  deriving DecidableEq, Repr

/-- A Kealen link (R341, R346). -/
structure LinkSt where
  /-- 0 up, 1 down, 2 retired. -/
  st : Nat := 0
  fails : Nat := 0
  crc : Nat := 0
  deriving DecidableEq, Repr

/-- A management port's buffers and doorbell (R342). -/
structure Port where
  req : List Word := []
  resp : List Word := []
  busy : Bool := false
  /-- Cycle of the latest accepted doorbell write. -/
  rang : Nat := 0
  deriving DecidableEq, Repr

/-- An accepted request: its word, its arguments and its command. -/
structure Request where
  req : Word
  args : List Word
  cmd : Instr
  deriving DecidableEq, Repr

structure Mgmt where
  yards : Map Yard := []
  vfs : Map VfEnt := []
  /-- Segment changes that wait for the next edge: size and base in granules (R308). -/
  pendSeg : Map (Option (Nat × Nat)) := []
  rows : Map Row := []
  /-- Row writes, and SLOTCTL, that wait for the next row boundary (R302). -/
  pendRows : Map (Option Row) := []
  /-- ENABLE, NROWS and GUARD. -/
  pendCtl : Option (Bool × Nat × Nat) := none
  enable : Bool := false
  nrows : Nat := 0
  guard : Nat := 20
  row : Nat := 0
  holder : Nat := 0
  epoch : Nat := 0
  semDue : Nat := 0
  /-- The sideband's latest write of the semaphore. -/
  semSide : Option SemWrite := none
  ports : Map Port := []
  /-- Submitted requests: ports in order of doorbell arrival (R342). -/
  queue : List Nat := []
  /-- Port, request word and argument doublewords of the request being executed. -/
  from_ : Option (Nat × Word) := none
  args : List Word := []
  /-- The request that has been accepted and takes more than one turn, and the doublewords its command has read (R86, R344). -/
  cur : Option Request := none
  got : List Word := []
  /-- Its status, once it has one, and its results. -/
  status : Option Nat := none
  result : List Word := []
  up : Bool := true
  links : Map LinkSt := []
  /-- Routes recomputed since the board's own (R340, R346). -/
  routes : Map (Option Route) := []
  retCores : List Nat := []
  /-- Lane-set yards, by core and first lane, that have had their edge since a retirement on their core that another yard's edge still
  holds back (R346). -/
  retSets : List (Nat × Nat) := []
  retLanes : List Nat := []
  retBanks : List Nat := []
  /-- Retirements in a running yard that wait for its next edge (R346). -/
  pendCores : List Nat := []
  pendLanes : List Nat := []
  /-- By unit code: corrected and uncorrectable errors (R335, R345); by unit: the times of its latest corrected ones (R346). -/
  corr : Map Nat := []
  uncorr : Map Nat := []
  recent : Map (List Nat) := []
  alert : Bool := false
  replace : Bool := false
  msix : List Nat := []
  winbase : Nat := 0
  powercap : Nat := 2200
  clock : Nat := 100
  recovery : Bool := false
  image : List Word := []
  staged : List Word := []
  device : Nat := 0
  bridging : Nat := 0
  deriving DecidableEq, Repr

/-- A turn of the device: which agent moves next. -/
inductive Turn where
  /-- Core c's issue slot: a choice at a clause boundary, else the next instruction of its clause. -/
  | issue (c : Nat)
  | event (i : Instr)
  /-- The Farrier executes the oldest submitted request. -/
  | farrier
  /-- It executes a driver command that has waited for a restore. -/
  | driver (d : Deferred)
  /-- n main-clock cycles pass. -/
  | pass (n : Nat)
  deriving DecidableEq, Repr

/-- The state of the device. The last field is the model's own (log entry 1): the turns the step takes
next. -/
structure State where
  m : Mach := {}
  mgmt : Mgmt := {}
  agenda : List Turn := []
  deriving DecidableEq, Repr

/-- Why the machine stops. -/
inductive Fault where
  /-- Raised by an event or command that names a unit the device does not have, or whose arguments are out of range; safe: the
  spec describes no such event. -/
  | noSuchUnit
  deriving DecidableEq, Repr

/-- Why a step has no meaning. -/
inductive Refusal where
  /-- Raised by an arm of exec that has no meaning yet; safe. -/
  | notModelled (mnemonic : String)
  deriving DecidableEq, Repr

/-- The machine right after a cold reset (R350): every table at its reset value, storage zero, no context. -/
def State.reset : State := {}

end Sys2Proof.Machine
end

