-- ==== Sys2Proof/Config.lean ====
section
/-! DEFINITION. What the spec leaves open, as uninterpreted constants: nothing can be proved about their values. -/

namespace Sys2Proof.Config

open Sys2Proof.Machine

/-- The turn taken when the agenda is empty (R9 leaves all timing open; log entry 1). -/
opaque schedule : Nat → Option Turn

/-- A choice among the outcomes the spec allows: which version of a doubleword a read returns (R204, R205), the old or the new
form of a changed translation (R316), whether an abandoned or reset access is performed (R306, R331). Log entry 4. -/
opaque choose : Nat → Nat

/-- SHA-512 with the byte string it is taken over, which the spec does not lay out, and the signature under the device
identity key (R349). Log entry 5. -/
opaque digest : List Word → List Word
opaque signature : List Word → List Word

/-- Whether a firmware image verifies against the fused key hash and the anti-rollback counter (R349). Log entry 5. -/
opaque verify : List Word → Bool

/-- The route to a device, a table of the board: which of the links that are not retired it leaves by, and the device that forwards
the traffic where the destination is no direct neighbour (R340). Log entry 4. -/
opaque route : List Nat → Nat → Nat
opaque forwarder : List Nat → Nat → Option Nat

/-- What a read of a doubleword that the other end completes as an unsupported request returns (R339). Log entry 109. -/
opaque unsupported : Nat → Nat

/-- Units that fail the self-test of a reset: cores, lanes, L2 banks, links (R346). Log entry 4. -/
opaque selfTest : Nat → List (List Nat)

/-- Firmware version of an image, with the device revision (R345). -/
opaque firmware : List Word → Word

/-- The sensor readings TELEMETRY returns (R351). Log entry 6. -/
opaque telemetry : Nat → List Word

end Sys2Proof.Config
end

