-- ==== Sys2Proof/Machine/Num.lean ====
section
/-! DEFINITION. Bit helpers (R13), the floating-point formats, rounding, flags and conversions (04_numbers), and the elementary
functions (R124), all computed on exact integers. -/

namespace Sys2Proof.Machine

/-! ## Bits (R13) -/

/-- bits(x, hi, lo) of a natural number. -/
def bitsOf (x hi lo : Nat) : Nat := x / 2 ^ lo % 2 ^ (hi + 1 - lo)
def bitAt (x i : Nat) : Bool := x / 2 ^ i % 2 == 1
/-- sign_extend(x, n). -/
def sext (x n : Nat) : Int := let r := x % 2 ^ n; if bitAt r (n - 1) then (r : Int) - 2 ^ n else r
/-- wrap(x, n) as the n-bit pattern. -/
def wrapN (x : Int) (n : Nat) : Nat := (x % (2 ^ n : Nat)).toNat
def w64 (x : Int) : Word := BitVec.ofNat 64 (wrapN x 64)
/-- sat(x, type) on the range of an n-bit integer. -/
def clampInt (signed : Bool) (n : Nat) (x : Int) : Int :=
  if signed then max (-(2 ^ (n - 1) : Nat)) (min x ((2 ^ (n - 1) : Nat) - 1)) else max 0 (min x ((2 ^ n : Nat) - 1))
def popcount : Nat → Nat → Nat
  | 0, _ => 0
  | n + 1, x => x % 2 + popcount n (x / 2)
/-- Leading zeros of an n-bit value. -/
def leadingZeros (n x : Nat) : Nat := if x == 0 then n else n - 1 - Nat.log2 x
/-- Sub-element j of width w (R31). -/
def subEl (r : Lane) (j w : Nat) : Nat := bitsOf r.toNat (w * (j + 1) - 1) (w * j)

/-! ## Values and rounding (R87 to R93) -/

inductive RM where
  | rne | rtz | rdn | rup | rna | sr
  deriving DecidableEq, Repr

/-- A nonnegative magnitude with a sign: m × 2^e, or a value strictly between m × 2^e and (m + 1) × 2^e when sticky. -/
structure Ex where
  neg : Bool
  m : Nat
  e : Int
  sticky : Bool := false
  deriving DecidableEq, Repr

inductive Val where
  | nan (signalling : Bool)
  | inf (neg : Bool)
  | num (x : Ex)
  deriving DecidableEq, Repr

inductive FKind where
  | ieee | e4m3 | e2m1 | e8m0
  deriving DecidableEq, Repr

structure Fmt where
  width : Nat
  eb : Nat
  fb : Nat
  bias : Nat
  kind : FKind := .ieee
  deriving DecidableEq, Repr

def f64 : Fmt := { width := 64, eb := 11, fb := 52, bias := 1023 }
def f32 : Fmt := { width := 32, eb := 8, fb := 23, bias := 127 }
def f16 : Fmt := { width := 16, eb := 5, fb := 10, bias := 15 }
def bf16 : Fmt := { width := 16, eb := 8, fb := 7, bias := 127 }
def e5m2 : Fmt := { width := 8, eb := 5, fb := 2, bias := 15 }
def e4m3 : Fmt := { width := 8, eb := 4, fb := 3, bias := 7, kind := .e4m3 }
def e2m1 : Fmt := { width := 4, eb := 2, fb := 1, bias := 1, kind := .e2m1 }
def e8m0 : Fmt := { width := 8, eb := 8, fb := 0, bias := 127, kind := .e8m0 }

/-- R87. -/
def fmtOf : ElemTy → Option Fmt
  | .f64 => some f64 | .f32 => some f32 | .f16 => some f16 | .bf16 => some bf16
  | .e5m2 => some e5m2 | .e4m3 => some e4m3 | .e2m1 => some e2m1 | .e8m0 => some e8m0
  | _ => none

/-- The formats FTZ touches (R96). -/
def Fmt.ftz (f : Fmt) : Bool := 16 ≤ f.width
/-- Exponent of the subnormal spacing, and of the smallest normal value. -/
def Fmt.qmin (f : Fmt) : Int := 1 - (f.bias : Int) - f.fb
def Fmt.emin (f : Fmt) : Int := 1 - (f.bias : Int)
def Fmt.signBit (f : Fmt) (neg : Bool) : Nat := if neg then 2 ^ (f.width - 1) else 0
/-- R88; a NaN delivered as E2M1 is 0 (R92). -/
def Fmt.nan (f : Fmt) : Nat :=
  match f.kind with
  | .ieee => if f.width == 8 then 0x7F else (2 ^ f.eb - 1) * 2 ^ f.fb + 2 ^ (f.fb - 1)
  | .e4m3 => 0x7F
  | .e2m1 => 0
  | .e8m0 => 0xFF
/-- Bits of the largest finite magnitude. -/
def Fmt.top (f : Fmt) : Nat :=
  match f.kind with
  | .ieee => (2 ^ f.eb - 1) * 2 ^ f.fb - 1
  | .e4m3 => 0x7E
  | .e2m1 => 7
  | .e8m0 => 0xFE
def Fmt.infBits (f : Fmt) : Nat := (2 ^ f.eb - 1) * 2 ^ f.fb

/-- The value of a code (R87, R88). -/
def Fmt.decode (f : Fmt) (b : Nat) : Val :=
  if f.kind = .e8m0 then
    if b % 256 == 255 then .nan false else .num { neg := false, m := 1, e := (b % 256 : Nat) - 127 }
  else
    let neg := bitAt b (f.width - 1)
    let E := bitsOf b (f.fb + f.eb - 1) f.fb
    let F := b % 2 ^ f.fb
    if E == 2 ^ f.eb - 1 && f.kind = .ieee then
      if F == 0 then .inf neg else .nan (!bitAt F (f.fb - 1))
    else if b % 128 == 127 && f.kind = .e4m3 then .nan false
    else if E == 0 then .num { neg := neg, m := F, e := f.qmin }
    else .num { neg := neg, m := 2 ^ f.fb + F, e := (E : Int) - f.bias - f.fb }

/-- R96: a subnormal input read as zero of its sign. -/
def Fmt.decodeFtz (f : Fmt) (ftz : Bool) (b : Nat) : Val :=
  if ftz && f.ftz && bitsOf b (f.fb + f.eb - 1) f.fb == 0 then .num { neg := bitAt b (f.width - 1), m := 0, e := f.qmin }
  else f.decode b

def flNV : BitVec 5 := 16
def flDZ : BitVec 5 := 8
def flOF : BitVec 5 := 4
def flUF : BitVec 5 := 2
def flNX : BitVec 5 := 1

/-- A delivered element: its bits, its flags, and whether a NaN operand fixed it (R93). -/
structure FRes where
  bits : Nat
  fl : BitVec 5 := 0
  nan : Bool := false
  deriving DecidableEq, Repr

/-- R93: whether an SR rounding with this outcome advances the state. -/
def FRes.advances (r : FRes) : Bool := !r.nan && r.fl &&& flNV == 0

/-- R93, step 1. -/
def srNext (s : Lane) : Lane :=
  let a := s ^^^ (s <<< 13)
  let b := a ^^^ (a >>> 17)
  b ^^^ (b <<< 5)

/-- The multiple of 2^q that a mode selects for a magnitude, and whether it differs from it (R91, R93). -/
def roundGrid (mode : RM) (s : Nat) (x : Ex) (q : Int) : Nat × Bool :=
  let sh := (q - x.e).toNat
  let M := x.m * 2 ^ (x.e - q).toNat
  let a := M / 2 ^ sh
  let r := M % 2 ^ sh
  let inexact := r != 0 || x.sticky
  let up : Bool := match mode with
    | .rne => 2 ^ sh < 2 * r || (2 * r == 2 ^ sh && sh != 0 && (x.sticky || a % 2 == 1))
    | .rna => 2 ^ sh ≤ 2 * r && sh != 0
    | .rtz => false
    | .rup => !x.neg
    | .rdn => x.neg
    | .sr => s < r * 2 ^ 32 / 2 ^ sh
  (if inexact && up then a + 1 else a, inexact)

/-- floor(log2) of a nonzero magnitude. -/
def Ex.log (x : Ex) : Int := (Nat.log2 x.m : Int) + x.e

/-- R98, the E8M0 target: a positive magnitude onto the powers of two. -/
def roundE8M0 (mode : RM) (sat : Bool) (s : Nat) (x : Ex) : FRes :=
  let k := x.log
  let (a, inx) := roundGrid (match mode with | .rne => .rtz | m => m) s x k
  let up : Bool := match mode with
    | .rne => -- midpoint 1.5 × 2^k; ties to the even code
      let t := x.m * 2 ^ (x.e - (k - 1)).toNat
      let d := 2 ^ ((k - 1) - x.e).toNat
      3 * d < t || (t == 3 * d && (x.sticky || (k + 127) % 2 != 0))
    | _ => 1 < a
  let k' := if up then k + 1 else k
  let fl := if inx then flNX else 0
  if 127 < k' then { bits := if sat then 0xFE else 0xFF, fl := flOF ||| flNX }
  else if k' < -127 then { bits := 0, fl := flUF ||| flNX }
  else { bits := (k' + 127).toNat, fl := fl }

/-- R91, R92, R93, R96: one magnitude rounded once to a format. -/
def Fmt.round (f : Fmt) (mode : RM) (sat ftz : Bool) (s : Nat) (x : Ex) : FRes :=
  if x.m == 0 then { bits := f.signBit x.neg }
  else
    let q := max (x.log - f.fb) f.qmin
    let (g, inx) := roundGrid mode s x q
    let t := roundGrid mode s x (x.log - f.fb)
    let tiny := (Nat.log2 t.1 : Int) + (x.log - f.fb) < f.emin
    if tiny && ftz && f.ftz then { bits := f.signBit x.neg, fl := flUF ||| flNX }
    else
      -- a carry out of the fraction moves one binade up
      let carry := g == 2 ^ (f.fb + 1)
      let g' := if carry then 2 ^ f.fb else g
      let q' := if carry then q + 1 else q
      let mag := if g' < 2 ^ f.fb then g' else ((q' + f.fb + f.bias).toNat - 1) * 2 ^ f.fb + g'
      if f.top < mag then
        let inf := f.signBit x.neg + f.infBits
        let fin := f.signBit x.neg + f.top
        let b := match f.kind with
          | .e2m1 => fin
          | .e4m3 => if sat then fin else f.nan
          | _ => if sat then fin else match mode with
            | .rtz => fin
            | .rup => if x.neg then fin else inf
            | .rdn => if x.neg then inf else fin
            | _ => inf
        { bits := b, fl := flOF ||| flNX }
      else { bits := f.signBit x.neg + mag, fl := (if inx then flNX else 0) ||| (if tiny && inx then flUF else 0) }

/-! ## Arithmetic (R91, R97, R115, R122) -/

def Val.isNan : Val → Bool
  | .nan _ => true | _ => false
def Val.isSnan : Val → Bool
  | .nan s => s | _ => false
def Val.neg : Val → Val
  | .nan s => .nan s
  | .inf n => .inf (!n)
  | .num x => .num { x with neg := !x.neg }
def Val.isZero : Val → Bool
  | .num x => x.m == 0 && !x.sticky
  | _ => false
def Val.sign : Val → Bool
  | .nan _ => false | .inf n => n | .num x => x.neg

/-- Exact sum of two finite values; the sign of an exact zero by R91. -/
def exAdd (mode : RM) (a b : Ex) : Ex :=
  let e := min a.e b.e
  let sa : Int := (a.m * 2 ^ (a.e - e).toNat : Nat)
  let sb : Int := (b.m * 2 ^ (b.e - e).toNat : Nat)
  let t := (if a.neg then -sa else sa) + (if b.neg then -sb else sb)
  if t == 0 then
    { neg := if a.m == 0 && b.m == 0 && a.neg == b.neg then a.neg else mode == .rdn, m := 0, e := e }
  else { neg := t < 0, m := t.natAbs, e := e }
def exMul (a b : Ex) : Ex := { neg := a.neg != b.neg, m := a.m * b.m, e := a.e + b.e }

def Fmt.nanRes (f : Fmt) (nv : Bool) (nanIn : Bool) : FRes := { bits := f.nan, fl := if nv then flNV else 0, nan := nanIn }
def Fmt.infRes (f : Fmt) (neg : Bool) : FRes := { bits := f.signBit neg + f.infBits }

/-- A + B rounded once. -/
def Fmt.add (f : Fmt) (mode : RM) (sat ftz : Bool) (s : Nat) (a b : Val) : FRes :=
  match a, b with
  | .num x, .num y => f.round mode sat ftz s (exAdd mode x y)
  | .inf n, .inf k => if n == k then f.infRes n else f.nanRes true false
  | .inf n, .num _ => f.infRes n
  | .num _, .inf n => f.infRes n
  | _, _ => f.nanRes (a.isSnan || b.isSnan) true

/-- The exact product as a value, and whether it is ∞ × 0. -/
def valMul (a b : Val) : Option Val :=
  match a, b with
  | .num x, .num y => some (.num (exMul x y))
  | .nan _, _ => some (.nan false)
  | _, .nan _ => some (.nan false)
  | _, _ => if a.isZero || b.isZero then none else some (.inf (a.sign != b.sign))

def Fmt.mul (f : Fmt) (mode : RM) (sat ftz : Bool) (s : Nat) (a b : Val) : FRes :=
  if a.isNan || b.isNan then f.nanRes (a.isSnan || b.isSnan) true
  else match valMul a b with
    | some (.num x) => f.round mode sat ftz s x
    | some (.inf n) => f.infRes n
    | _ => f.nanRes true false

/-- A × B + C, exact product and sum, one rounding; NV for ∞ × 0 even when C is a quiet NaN. -/
def Fmt.fma (f : Fmt) (mode : RM) (sat ftz : Bool) (s : Nat) (a b c : Val) : FRes :=
  let nanIn := a.isNan || b.isNan || c.isNan
  let snan := a.isSnan || b.isSnan || c.isSnan
  match valMul a b with
  | none => f.nanRes true nanIn
  | some p => if nanIn then f.nanRes snan true else f.add mode sat ftz s p c

/-! ## Elementary functions (R124) -/

/-- floor of a square root, bit by bit. -/
def isqrtGo (n : Nat) : Nat → Nat → Nat
  | 0, r => r
  | k + 1, r => let t := r + 2 ^ k; isqrtGo n k (if t * t ≤ n then t else r)
def isqrt (n : Nat) : Nat := isqrtGo n (Nat.log2 n / 2 + 1) 0

def exRcp (x : Ex) : Ex :=
  let N := Nat.log2 x.m + 160
  { neg := x.neg, m := 2 ^ N / x.m, e := -x.e - N, sticky := 2 ^ N % x.m != 0 }
def exSqrt (x : Ex) : Ex :=
  let m := if x.e % 2 == 0 then x.m else 2 * x.m
  let e := if x.e % 2 == 0 then x.e else x.e - 1
  let M := m * 2 ^ 320
  let r := isqrt M
  { neg := false, m := r, e := e / 2 - 160, sticky := r * r != M }
def exRsqrt (x : Ex) : Ex :=
  let m := if x.e % 2 == 0 then x.m else 2 * x.m
  let e := if x.e % 2 == 0 then x.e else x.e - 1
  let N := 2 * (Nat.log2 m / 2 + 1) + 320
  let r := isqrt (2 ^ N / m)
  { neg := false, m := r, e := -(e / 2) - (N / 2 : Nat), sticky := r * r * m != 2 ^ N }

/-- Fixed point of 400 fraction bits. -/
def fixP : Nat := 400
/-- floor(ln 2 × 2^400). -/
def fixLn2 : Nat :=
  1789879222497203190815761498240779176894896805856420935579692301363062920687047601279850318367644315849030039181347319086
/-- The terms z^k / k! of the exponential, from the k-th on. -/
def expTerms (z : Nat) : Nat → Nat → Nat → Nat
  | 0, _, _ => 0
  | n + 1, k, t => t + expTerms z n (k + 1) (t * z / 2 ^ fixP / k)
/-- The terms z^(2k+1) / (2k+1) of the inverse hyperbolic tangent. -/
def atanhTerms (z2 : Nat) : Nat → Nat → Nat → Nat
  | 0, _, _ => 0
  | n + 1, k, t => t / k + atanhTerms z2 n (k + 2) (t * z2 / 2 ^ fixP)

/-- 2^x for a finite x (log entry 7: 400 fraction bits stand for the exact value, which is irrational unless x is an integer). -/
def exExp2 (x : Ex) : Ex :=
  if x.m == 0 then { neg := false, m := 1, e := 0 }
  else if x.log < -300 then
    if x.neg then { neg := false, m := 2 ^ 300 - 1, e := -300, sticky := true }
    else { neg := false, m := 2 ^ 300, e := -300, sticky := true }
  else if 13 < x.log then { neg := false, m := 1, e := if x.neg then -16384 else 16384, sticky := false }
  else
    let t : Int := if x.neg then -(x.m : Int) else x.m
    if 0 ≤ x.e then { neg := false, m := 1, e := t * 2 ^ x.e.toNat }
    else
      let d := 2 ^ (-x.e).toNat
      let k := t / (d : Nat)
      let fr := (t % (d : Nat)).toNat
      if fr == 0 then { neg := false, m := 1, e := k }
      else
        let z := fr * fixLn2 / d
        { neg := false, m := expTerms z 110 1 (2 ^ fixP), e := k - fixP, sticky := true }

/-- log2 x for a finite positive x (log entry 7). -/
def exLog2 (x : Ex) : Ex :=
  let k := x.log
  let m := x.m * 2 ^ fixP / 2 ^ Nat.log2 x.m
  if x.m == 2 ^ Nat.log2 x.m then { neg := k < 0, m := k.natAbs, e := 0 }
  else
    let z := (m - 2 ^ fixP) * 2 ^ fixP / (m + 2 ^ fixP)
    let ln := 2 * atanhTerms (z * z / 2 ^ fixP) 140 1 z
    let l := ln * 2 ^ fixP / fixLn2
    let t : Int := k * (2 ^ fixP : Nat) + l
    if t < 0 then { neg := true, m := t.natAbs - 1, e := -(fixP : Int), sticky := true }
    else { neg := false, m := t.natAbs, e := -(fixP : Int), sticky := true }

inductive ElemFn where
  | rcp | rsq | sqrt | exp2 | log2
  deriving DecidableEq, Repr

/-- The table of R124. -/
def Fmt.elem (f : Fmt) (fn : ElemFn) (mode : RM) (sat ftz : Bool) (s : Nat) (a : Val) : FRes :=
  let rnd := f.round mode sat ftz s
  match a with
  | .nan sg => f.nanRes sg true
  | .inf n => match fn, n with
    | .rcp, _ => { bits := f.signBit n }
    | .rsq, false => { bits := 0 }
    | .sqrt, false => f.infRes false
    | .exp2, false => f.infRes false
    | .exp2, true => { bits := 0 }
    | .log2, false => f.infRes false
    | _, true => f.nanRes true false
  | .num x =>
    if x.m == 0 then match fn with
      | .rcp => { f.infRes x.neg with fl := flDZ }
      | .rsq => { f.infRes x.neg with fl := flDZ }
      | .sqrt => { bits := f.signBit x.neg }
      | .exp2 => rnd (exExp2 x)
      | .log2 => { f.infRes true with fl := flDZ }
    else match fn with
      | .rcp => rnd (exRcp x)
      | .exp2 => rnd (exExp2 x)
      | .rsq => if x.neg then f.nanRes true false else rnd (exRsqrt x)
      | .sqrt => if x.neg then f.nanRes true false else rnd (exSqrt x)
      | .log2 => if x.neg then f.nanRes true false else rnd (exLog2 x)

/-! ## Comparison, minimum and maximum, class (R123, R125, R126) -/

/-- Sign of A − B for two values that are not NaN: −1, 0, 1. -/
def valCmp (a b : Val) : Int :=
  match a, b with
  | .inf n, .inf k => if n == k then 0 else if n then -1 else 1
  | .inf n, _ => if n then -1 else 1
  | _, .inf n => if n then 1 else -1
  | .num x, .num y =>
    let e := min x.e y.e
    let sx : Int := (x.m * 2 ^ (x.e - e).toNat : Nat)
    let sy : Int := (y.m * 2 ^ (y.e - e).toNat : Nat)
    let d := (if x.neg then -sx else sx) - (if y.neg then -sy else sy)
    if d < 0 then -1 else if 0 < d then 1 else 0
  | _, _ => 0

/-- The bits of an operand as vfmin and vfmax return it: under FTZ a subnormal is the zero of its sign. -/
def Fmt.readFtz (f : Fmt) (ftz : Bool) (b : Nat) : Nat :=
  if ftz && f.ftz && bitsOf b (f.fb + f.eb - 1) f.fb == 0 then f.signBit (bitAt b (f.width - 1)) else b % 2 ^ f.width

/-- R123. -/
def Fmt.minmax (f : Fmt) (isMax ftz : Bool) (a b : Nat) : FRes :=
  let va := f.decodeFtz ftz a
  let vb := f.decodeFtz ftz b
  let fl := if va.isSnan || vb.isSnan then flNV else 0
  if va.isNan && vb.isNan then { bits := f.nan, fl := fl, nan := true }
  else if va.isNan then { bits := f.readFtz ftz b, fl := fl, nan := true }
  else if vb.isNan then { bits := f.readFtz ftz a, fl := fl, nan := true }
  else
    let c := valCmp va vb
    let aLess := c < 0 || (c == 0 && va.sign && !vb.sign)
    { bits := if aLess != isMax then f.readFtz ftz a else f.readFtz ftz b }

/-- R125. -/
def Fmt.compare (f : Fmt) (cond : Nat) (ftz : Bool) (a b : Nat) : Bool × BitVec 5 :=
  let va := f.decodeFtz ftz a
  let vb := f.decodeFtz ftz b
  if va.isNan || vb.isNan then (cond == 1 || cond == 6, if va.isSnan || vb.isSnan then flNV else 0)
  else
    let c := valCmp va vb
    ((match cond with
      | 0 => c == 0 | 1 => c != 0 | 2 => c < 0 | 3 => c ≤ 0 | 4 => 0 < c | 5 => 0 ≤ c | _ => false), 0)

/-- R126. -/
def Fmt.classify (f : Fmt) (ftz : Bool) (b : Nat) : Nat :=
  match f.decodeFtz ftz b with
  | .nan sg => if sg then 2 ^ 8 else 2 ^ 9
  | .inf n => if n then 1 else 2 ^ 7
  | .num x =>
    if x.m == 0 then (if x.neg then 2 ^ 3 else 2 ^ 4)
    else if x.m < 2 ^ f.fb then (if x.neg then 2 ^ 2 else 2 ^ 5)
    else (if x.neg then 2 ^ 1 else 2 ^ 6)

/-! ## Conversions (R98, R116, R127) -/

/-- A source element: an FP value, or an integer. -/
inductive Src where
  | fp (v : Val)
  | int (i : Int)
  deriving DecidableEq, Repr

def isSigned : ElemTy → Bool
  | .i8 | .i16 | .i32 | .i64 | .i4 | .t2 => true
  | _ => false

/-- Reads an element of a type; the flag of a reserved T2 code (R90). -/
def readSrc (t : ElemTy) (ftz : Bool) (b : Nat) : Src × BitVec 5 :=
  match fmtOf t with
  | some f => (.fp (f.decodeFtz ftz b), 0)
  | none => match t with
    | .t2 => (.int (match b % 4 with | 1 => 1 | 3 => -1 | _ => 0), if b % 4 == 2 then flNV else 0)
    | _ => (.int (if isSigned t then sext b t.width else (b % 2 ^ t.width : Nat)), 0)

def exOfInt (i : Int) : Ex := { neg := i < 0, m := i.natAbs, e := 0 }

/-- A magnitude rounded to an integer in a mode, with its sign. -/
def roundInt (mode : RM) (s : Nat) (x : Ex) : Int × Bool :=
  let (a, inx) := roundGrid mode s x 0
  (if x.neg then -(a : Int) else a, inx)

/-- The range of an integer target; T2 holds −1, 0 and 1 (R116). -/
def clampTo (t : ElemTy) (i : Int) : Int :=
  match t with
  | .t2 => max (-1) (min i 1)
  | _ => clampInt (isSigned t) t.width i

/-- A source value delivered in a type; fl0 are the flags of reading it. -/
def convertTo (dst : ElemTy) (mode : RM) (sat ftz : Bool) (s : Nat) (v : Src) (fl0 : BitVec 5) : FRes :=
  match fmtOf dst with
  | some f =>
    match v with
    | .int i =>
      let r := if f.kind = .e8m0 then
          (if i ≤ 0 then { bits := 0xFF, fl := flNV } else roundE8M0 mode sat s (exOfInt i))
        else f.round mode sat ftz s (exOfInt i)
      { r with fl := r.fl ||| fl0 }
    | .fp x => match x with
        | .nan sg => if f.kind = .e8m0 || f.kind = .e2m1 then { bits := f.nan, fl := flNV, nan := true } else f.nanRes sg true
        | .inf n => match f.kind with
          | .ieee => f.infRes n
          | .e4m3 => { bits := if sat then f.signBit n + f.top else f.nan, fl := flNV }
          | .e2m1 => { bits := f.signBit n + f.top, fl := flNV }
          | .e8m0 => { bits := if sat && !n then 0xFE else 0xFF, fl := flNV }
        | .num x =>
          if f.kind = .e8m0 then
            (if x.m == 0 || x.neg then { bits := 0xFF, fl := flNV } else roundE8M0 mode sat s x)
          else f.round mode sat ftz s x
  | none =>
    let w := dst.width
    match v with
    | .int i =>
      let r := if dst = .t2 || sat then clampTo dst i else i
      { bits := wrapN r w, fl := fl0 ||| (if dst = .t2 && r != i then flNV ||| flNX else 0) }
    | .fp (.nan _) => { bits := 0, fl := flNV, nan := true }
    | .fp (.inf n) =>
      { bits := wrapN (clampTo dst (if n then -(2 ^ 70 : Nat) else (2 ^ 70 : Nat))) w, fl := flNV ||| flNX }
    | .fp (.num x) =>
      let (i, inx) := roundInt mode s x
      let r := clampTo dst i
      if r != i then { bits := wrapN r w, fl := flNV ||| flNX }
      else { bits := wrapN r w, fl := if inx then flNX else 0 }
def isNanOf (t : ElemTy) (b : Nat) : Bool := (fmtOf t).any fun f => (f.decode b).isNan

/-- One conversion between element types; identical FP types keep the value, but a signalling NaN becomes canonical (R116), and the NaN of
E8M0 raises NV as every NaN converted to E8M0 does (R97, R98, log entry 121). -/
def convert (src dst : ElemTy) (mode : RM) (sat ftz : Bool) (s : Nat) (b : Nat) : FRes :=
  let (v, fl0) := readSrc src ftz b
  match fmtOf dst, v with
  | some f, .fp x =>
    if src = dst then
      if x.isSnan then f.nanRes true true
      else { bits := f.readFtz ftz b, nan := x.isNan, fl := if dst = .e8m0 && x.isNan then flNV else 0 }
    else convertTo dst mode sat ftz s v fl0
  | _, _ => convertTo dst mode sat ftz s v fl0

/-! ## The Lattice dot-add (R99, R100) -/

/-- c plus the sum of the products of two lists of values, each product scaled by a power of two, rounded once RNE to FP32. -/
def dotAdd (c : Nat) (nanScale : Bool) (terms : List (Val × Val × Int)) : Nat :=
  let prods := terms.map fun t => match valMul t.1 t.2.1 with
    | none => Val.nan false
    | some (.num x) => .num { x with e := x.e + t.2.2 }
    | some v => v
  let all := f32.decode c :: prods
  if nanScale || all.any Val.isNan then 0x7FC00000
  else
    let pos := all.any (· == .inf false)
    let neg := all.any (· == .inf true)
    if pos && neg then 0x7FC00000
    else if pos then 0x7F800000
    else if neg then 0xFF800000
    else
      let sum := all.foldl (fun (a : Ex) v => match v with | .num x => exAdd .rne a x | _ => a) { neg := false, m := 0, e := 0 }
      if sum.m == 0 then 0 else (f32.round .rne false false 0 sum).bits

/-- R103, R104: IEEE addition rounded RNE, subnormals kept, no flags. -/
def plainAdd (f : Fmt) (a b : Nat) : Nat := (f.add .rne false false 0 (f.decode a) (f.decode b)).bits

end Sys2Proof.Machine
end

