-- ==== Sys2Proof/Machine/Ops.lean ====
section
/-! DEFINITION. Named access to every part of the state: groups, cores, clusters and virtual functions; registers with their
full/empty bits; the units a yard owns; counters; free choices. -/

namespace Sys2Proof.Machine

/-! ## Parts of the device (R14, R15) -/

/-- Key of a group: its core, and its slot or the place from 64 on that an ended group has. -/
def gkey (c s : Nat) : Nat := 512 * s + c
def keyCore (k : Nat) : Nat := k % 512
def keySlot (k : Nat) : Nat := k / 512
def grp (m : Mach) (c s : Nat) : Group := mget {} m.groups (gkey c s)
def setGrp (m : Mach) (c s : Nat) (g : Group) : Mach := { m with groups := mset {} m.groups (gkey c s) g }
def modGrp (m : Mach) (c s : Nat) (f : Group → Group) : Mach := setGrp m c s (f (grp m c s))
def core (m : Mach) (c : Nat) : Core := mget {} m.cores c
def modCore (m : Mach) (c : Nat) (f : Core → Core) : Mach := { m with cores := mset {} m.cores c (f (core m c)) }
def clus (m : Mach) (k : Nat) : Cluster := mget {} m.clusters k
def modClus (m : Mach) (k : Nat) (f : Cluster → Cluster) : Mach := { m with clusters := mset {} m.clusters k (f (clus m k)) }
def vfst (m : Mach) (v : Nat) : VfState := mget {} m.vfst v
def modVf (m : Mach) (v : Nat) (f : VfState → VfState) : Mach := { m with vfst := mset {} m.vfst v (f (vfst m v)) }
def yrun (m : Mach) (y : Nat) : YardRun := mget {} m.yards y
def modYrun (m : Mach) (y : Nat) (f : YardRun → YardRun) : Mach := { m with yards := mset {} m.yards y (f (yrun m y)) }
/-- The group whose instruction is being executed. -/
def me (m : Mach) : Group := grp m m.act.core m.act.slot
def modMe (m : Mach) (f : Group → Group) : Mach := modGrp m m.act.core m.act.slot f
def clusterOf (c : Nat) : Nat := c / 4
def shedOf (c : Nat) : Nat := c / 48

/-- A group that holds its slot. -/
def Group.here (g : Group) : Bool := g.status != .free && g.status != .gone
/-- Groups of the device in order of slot and core, with their places; ended ones with accesses to perform among them. -/
def allGroups (m : Mach) : List (Nat × Nat × Group) := m.groups.map fun kg => (keyCore kg.1, keySlot kg.1, kg.2)
/-- Groups of one virtual function that are resident; vfAll counts those that have ended with accesses to perform (R273). -/
def vfGroups (m : Mach) (vf : Nat) : List (Nat × Nat × Group) := (allGroups m).filter fun t => t.2.2.here && t.2.2.vf == vf
def vfAll (m : Mach) (vf : Nat) : List (Nat × Nat × Group) := (allGroups m).filter fun t => t.2.2.status != .free && t.2.2.vf == vf
/-- A group that issues: running, or ending and waiting at its stop (R273). -/
def Group.active (g : Group) : Bool := g.status == .running || g.status == .ending
def coreGroups (m : Mach) (c : Nat) : List (Nat × Nat × Group) :=
  (allGroups m).filter fun t => t.1 == c && t.2.2.here
/-- The resident group with a uid. -/
def findUid (m : Mach) (uid : Nat) : Option (Nat × Nat) :=
  ((allGroups m).find? fun t => t.2.2.here && t.2.2.uid == uid).map fun t => (t.1, t.2.1)

/-! ## The Farrier's tables as instructions read them -/

def vfEnt (mg : Mgmt) (v : Nat) : VfEnt := mget {} mg.vfs v
def yardEnt (mg : Mgmt) (y : Nat) : Yard := mget {} mg.yards y
/-- The yard in which a virtual function runs now. -/
def runningYard (m : Mach) (vf : Nat) : Option Nat :=
  (List.range 32).find? fun y => match (yrun m y).phase with | .running v => v == vf | _ => false
/-- The yard where a virtual function's groups are on the cores: running, or draining before an edge (R304). -/
def residentYard (m : Mach) (vf : Nat) : Option Nat :=
  (List.range 32).find? fun y => match (yrun m y).phase with
    | .running v => v == vf | .draining v _ => v == vf | _ => false
def vfResident (m : Mach) (vf : Nat) : Bool := (residentYard m vf).isSome
/-- A yard owns a core: a core of its clusters, or its lane-set core; retired cores belong to none (R295, R346). -/
def Yard.ownsCore (mg : Mgmt) (y : Yard) (c : Nat) : Bool :=
  y.v && !mg.retCores.contains c && (if y.lane then y.core == c && !mg.retSets.contains (c, y.b) else bitAt y.cl (clusterOf c))
def Yard.ownsCluster (y : Yard) (k : Nat) : Bool := y.v && !y.lane && bitAt y.cl k
/-- The cores of a yard in ascending order (R82). -/
def yardCores (mg : Mgmt) (y : Yard) : List Nat :=
  if y.lane then (if y.ownsCore mg y.core then [y.core] else [])
  else (List.range 96).flatMap fun k =>
    if bitAt y.cl k then ((List.range 4).map (4 * k + ·)).filter (fun c => y.ownsCore mg c) else []
/-- The clusters of a yard in ascending order. -/
def yardClusters (y : Yard) : List Nat := if y.lane then [] else (List.range 96).filter fun k => bitAt y.cl k
/-- The yard that owns a core's lane. -/
def yardAt (mg : Mgmt) (c lane : Nat) : Option Nat :=
  (List.range 32).find? fun n =>
    let y := yardEnt mg n
    y.v && (if y.lane then y.core == c && y.b ≤ lane && lane < y.b + y.l else bitAt y.cl (clusterOf c))
def groupYard (mg : Mgmt) (c : Nat) (g : Group) : Nat := (yardAt mg c g.laneB).getD 0
/-- Position of a core among the yard's cores (R82); 0 in a lane-set yard. -/
def corePos (mg : Mgmt) (y : Yard) (c : Nat) : Nat :=
  if y.lane then 0 else ((yardCores mg y).filter (· < c)).length
/-- Place of a core in a saved context: 4 × the place of its cluster among the yard's + its place there; 0 in a lane-set yard
(R300). -/
def savePos (y : Yard) (c : Nat) : Nat := if y.lane then 0 else 4 * ((yardClusters y).filter (· < clusterOf c)).length + c % 4
/-- The core at a place. -/
def posCore (y : Yard) (p : Nat) : Nat := if y.lane then y.core else 4 * ((yardClusters y)[p / 4]?).getD 0 + p % 4
/-- First group slot of a lane set, and how many it has: slots are divided like lanes (log entry 8). -/
def slotBase (b : Nat) : Nat := 4 * b
def slotCount (l : Nat) : Nat := 4 * l
/-- The lanes a core keeps for whole-core groups: 16, or the half without a retired lane (R346). -/
def coreLanes (mg : Mgmt) (c : Nat) : Nat × Nat :=
  let bad := (mg.retLanes.filter fun l => l / 16 == c).map (· % 16)
  if bad.isEmpty then (0, 16) else if bad.all (8 ≤ ·) then (0, 8) else (8, 8)
/-- The lanes groups of a yard use on a core. -/
def yardLanes (mg : Mgmt) (y : Yard) (c : Nat) : Nat × Nat := if y.lane then (y.b, y.l) else coreLanes mg c
/-- The part of a core's local store that a yard owns: first byte and length (R296). -/
def lsPart (y : Yard) : Nat × Nat := if y.lane then (y.b * 0x8000, y.l * 0x8000) else (0, 0x80000)
/-- The part of its cluster's Hayloft that a yard owns (R296). -/
def hayPart (y : Yard) (c : Nat) : Nat × Nat :=
  if y.lane then (c % 4 * 0x80000 + y.b * 0x8000, y.l * 0x8000) else (0, 0x200000)

/-! ## Routes (R25, R340) -/

def linkOf (mg : Mgmt) (l : Nat) : LinkSt := mget {} mg.links l
/-- A route by one of some links, the others being retired, as the board's topology gives it. -/
def boardRoute (ls : List Nat) (d : Nat) : Option Route :=
  let gone := (List.range 18).filter fun l => !ls.contains l
  (ls[Config.route gone d % ls.length]?).map fun l => { link := l, via := Config.forwarder gone d }
/-- The entry of the route table for a destination: as last recomputed, else the board's own (R340); with every link retired there is none. -/
def routeTo (mg : Mgmt) (d : Nat) : Option Route :=
  if (List.range 18).all fun l => (linkOf mg l).st == 2 then none
  else (mget none mg.routes d).orElse fun _ => boardRoute (List.range 18) d
/-- Traffic to a device passes: its route leaves by a link that is up; the device itself needs none. -/
def routeUp (mg : Mgmt) (d : Nat) : Bool := d == mg.device || (routeTo mg d).any fun r => (linkOf mg r.link).st == 0
/-- Host traffic reaches the device: at its own endpoint if it is the bridging device, else over the route (R25, R340). -/
def hostUp (mg : Mgmt) : Bool := routeUp mg mg.bridging
/-- The device at the end of a destination's route: the bridging device for the host. -/
def destDevice (mg : Mgmt) (dest : Nat) : Nat := if dest == 64 then mg.bridging else dest
def destUp (mg : Mgmt) (dest : Nat) : Bool := routeUp mg (destDevice mg dest)
/-- The link an access to a destination leaves by: none for the device itself, and for the host at the bridging device. -/
def linkFor (mg : Mgmt) (dest : Nat) : Option Nat :=
  if destDevice mg dest == mg.device then none else (routeTo mg (destDevice mg dest)).map (·.link)

/-! ## Windows (R48) -/

def winBase : Nat := 0xF000000000000
def coreBase (c : Nat) : Nat := winBase + c * 0x400000
def clusBase (k : Nat) : Nat := winBase + 0x80000000 + k * 0x400000
def lsAddr (c off : Nat) : Nat := coreBase c + 0x100000 + off
def tileAddr (c t : Nat) : Nat := coreBase c + 0x180000 + t * 0x1000
def hayAddr (k off : Nat) : Nat := clusBase k + off
def recvAddr (k j : Nat) : Nat := clusBase k + 0x200000 + j * 0x1000

/-! ## Registers (R28 to R35) -/

/-- A control-thread register; x0 reads zero (R29). -/
def getX (g : Group) (i : Nat) : Word := if i == 0 then 0 else mget 0 g.x i
/-- p0 reads true (R29). -/
def getP (g : Group) (i : Nat) : Bool := i == 0 || mget false g.p i
def getV (g : Group) (i e : Nat) : Lane := mget 0 (mget [] g.v i) e
/-- c0 reads true; a mask reads zero at and above VLMAX (R29, R30). -/
def getC (g : Group) (i e : Nat) : Bool := e < g.vlmax && (i == 0 || mget false (mget [] g.c i) e)

/-- The full/empty bit; x0, p0 and c0 are always full (R29). -/
def getFe (g : Group) : Reg → FE
  | .x i => if i == 0 then .full else mget .full g.xfe i
  | .p i => if i == 0 then .full else mget .full g.pfe i
  | .v i e => mget .full (mget [] g.vfe i) e
  | .c i e => if i == 0 then .full else mget .full (mget [] g.cfe i) e
def setFe (g : Group) (f : FE) : Reg → Group
  | .x i => if i == 0 then g else { g with xfe := mset .full g.xfe i f }
  | .p i => if i == 0 then g else { g with pfe := mset .full g.pfe i f }
  | .v i e => { g with vfe := mmod [] g.vfe i fun r => mset .full r e f }
  | .c i e => if i == 0 then g else { g with cfe := mmod [] g.cfe i fun r => mset .full r e f }

/-- Full, whether or not its storage fails. -/
def FE.holds : FE → Bool
  | .full | .failing => true
  | .claimed | .opened => false
/-- The group with every register storage sound (R335). -/
def healed (g : Group) : Group := { g with vfe := g.vfe.map fun kv => (kv.1, kv.2.filter fun q => q.2 != .failing) }
/-- The same of what an ended child has left. -/
def healFork (f : ForkRec) : ForkRec := { f with vfe := f.vfe.map fun kv => (kv.1, kv.2.filter fun q => q.2 != .failing) }
/-- What another party's fill of a register would make known goes with the filled value (R196). -/
def dropPend (g : Group) (isX : Bool) (r e : Nat) : List PendKnow :=
  g.pend.filter fun k => !(k.isX == isX && k.reg == r && k.e == e)
/-- A write of a register, which leaves it full; x0, p0 and c0 discard it, vdirty and the save map follow v registers
(R29, R33, R45, R305). -/
def putReg (g : Group) (r : Reg) (val : Word) : Group :=
  match r with
  | .x i => if i == 0 then g else { g with x := mset 0 g.x i val, xfe := mset .full g.xfe i .full, pend := dropPend g true i 0 }
  | .p i => if i == 0 then g else { g with p := mset false g.p i (val.getLsbD 0), pfe := mset .full g.pfe i .full }
  | .v i e =>
    let bit : Word := (1 : Word) <<< i
    { g with v := mmod [] g.v i (fun m => mset 0 m e (val.setWidth 32)),
             vfe := mmod [] g.vfe i (fun m => mset .full m e .full),
             vdirty := g.vdirty ||| bit, saveMap := g.saveMap ||| bit, pend := dropPend g false i e }
  | .c i e =>
    if i == 0 || g.vlmax ≤ e then g
    else { g with c := mmod [] g.c i (fun m => mset false m e (val.getLsbD 0)),
                  cfe := mmod [] g.cfe i (fun m => mset .full m e .full) }
def putX (g : Group) (i : Nat) (v : Word) : Group := putReg g (.x i) v
def putP (g : Group) (i : Nat) (b : Bool) : Group := putReg g (.p i) (if b then 1 else 0)
def putV (g : Group) (i e : Nat) (v : Lane) : Group := putReg g (.v i e) (v.setWidth 64)
def putC (g : Group) (i e : Nat) (b : Bool) : Group := putReg g (.c i e) (if b then 1 else 0)
/-- Values into one v register at several VPs, or into a pair for 64-bit elements (R31). -/
def putVs (g : Group) (i : Nat) : List (Nat × Lane) → Group
  | [] => g
  | (e, v) :: r => putVs (putV g i e v) i r
def getV64 (g : Group) (i e : Nat) : Word := getV g (i + 1) e ++ getV g i e
def putV64 (g : Group) (i e : Nat) (v : Word) : Group :=
  putV (putV g i e (v.extractLsb' 0 32)) (i + 1) e (v.extractLsb' 32 32)
/-- An element of width 32 or 64. -/
def getW (g : Group) (wide : Bool) (i e : Nat) : Word := if wide then getV64 g i e else (getV g i e).setWidth 64
def putW (g : Group) (wide : Bool) (i e : Nat) (v : Word) : Group :=
  if wide then putV64 g i e v else putV g i e (v.setWidth 32)
/-- The v registers of an element operand (R31). -/
def regsOf (wide : Bool) (i : Nat) : List Nat := if wide then [i, i + 1] else [i]
def putMask (g : Group) (i : Nat) : List (Nat × Bool) → Group
  | [] => g
  | (e, b) :: r => putMask (putC g i e b) i r
def setFes (g : Group) (f : FE) : List Reg → Group
  | [] => g
  | r :: rs => setFes (setFe g f r) f rs

/-- PC and fault codes of R320, by name. -/
def fIllegal : Nat := 0x01
def fEmpty : Nat := 0x02
def fRange : Nat := 0x03
def fAlign : Nat := 0x04
def fTarget : Nat := 0x05
def fScope : Nat := 0x06
def fWindow : Nat := 0x07
def fPush : Nat := 0x08
def fDivergent : Nat := 0x09
def fSpawn : Nat := 0x0A
def fFetch : Nat := 0x0B
def fPte : Nat := 0x0C
def fSegment : Nat := 0x0D
def fXlate : Nat := 0x0E
def fLattice : Nat := 0x10
def fBcast : Nat := 0x11
def fHayloft : Nat := 0x12
def fSpill : Nat := 0x13
def fChain : Nat := 0x18
def fOver : Nat := 0x19
def fAbsent : Nat := 0x1A
def fTrap : Nat := 0x20
def fBreak : Nat := 0x21
def fXlateLog : Nat := 0x28
def fEngine : Nat := 0x29
def fUncorr : Nat := 0x30
def fOverrun : Nat := 0x31
def fDriver : Nat := 0x3E
def fWithVf : Nat := 0x3F

/-! ## Lengths (R38) -/

/-- Bytes of register file per group. -/
def shareBytes (l gc : Nat) : Nat := 1048576 * l / 16 / gc
def vlmaxOf (n gc l : Nat) : Nat :=
  let raw := shareBytes l gc / (4 * n)
  min 1024 (raw - raw % l)

/-! ## Counters (R312) -/

/-- Adds to every counter of the virtual function that selects the event. -/
def countN (m : Mach) (vf ev n : Nat) : Mach :=
  let hit := ((vfst m vf).cntsel.filter fun kv => kv.2 == ev && ev != 0 && ev < 16).map Prod.fst
  if hit.isEmpty then m
  else modVf m vf fun v => { v with cnt := hit.foldl (fun c i => mmod 0 c i (· + BitVec.ofNat 64 n)) v.cnt }
def count1 (m : Mach) (vf ev : Nat) : Mach := countN m vf ev 1

/-! ## Free choices (log entry 4) -/

/-- A choice among n outcomes the spec allows; with one outcome there is no choice. -/
def pick (m : Mach) (n : Nat) : Nat × Mach :=
  if n ≤ 1 then (0, m) else (Config.choose m.tick % n, { m with tick := m.tick + 1 })

/-! ## Visible sets (R205) -/

/-- A group learns what another party's visible set holds. -/
def learn (g : Group) (v : Vis) : Group := { g with vis := mmax g.vis v }
/-- Reading a register that another party filled, in the VPs es, makes the fill part of the reader's past (R196). -/
def absorbReg (g : Group) (isX : Bool) (r : Nat) (es : List Nat) : Group :=
  let hit := g.pend.filter fun k => k.isX == isX && k.reg == r && (isX || es.contains k.e)
  hit.foldl (fun a k => learn a k.vis) g
def modRun (g : Group) (f : Run → Run) : Group := { g with run := g.run.map f }
/-- The claim of an x register is filled, and a run that waits for it captures the value (R33, R263). -/
def captureX (g : Group) (i : Nat) (v : Word) : Group :=
  modRun g fun r => if r.uwait.contains i then { r with ux := mset 0 r.ux i v, uwait := r.uwait.filter (· != i) } else r
/-- Another party fills an x register, and a run for which it was open captures the value with what comes with it (R36, R196, R263). -/
def captureOpen (g : Group) (i : Nat) (v : Word) (know : PendKnow) : Group :=
  modRun g fun r => if r.uopen.contains i then
    { r with ux := mset 0 r.ux i v, uopen := r.uopen.filter (· != i), upend := know :: r.upend } else r
/-- A completed fill: value and full bit of every register it names, together (R33). -/
def applyFill (g : Group) (f : Fill) : Group :=
  let g := putReg g f.reg f.val
  match f.hi with
  | some (r, v) => putReg g r v
  | none => g
def fillRegs (f : Fill) : List Reg := f.reg :: (match f.hi with | some (r, _) => [r] | none => [])

/-! ## Outcomes -/

/-- An effect on the machine that reads the Farrier's tables and leaves them alone. -/
def onMach (f : Mgmt → Mach → Mach) (s : State) : Host.Outcome State Fault Refusal :=
  .next { s with m := f s.mgmt s.m }
/-- The same, for an event that names a unit: it stops where the unit does not exist. -/
def onUnit (ok : Bool) (f : Mgmt → Mach → Mach) (s : State) : Host.Outcome State Fault Refusal :=
  if ok then onMach f s else .fault .noSuchUnit

end Sys2Proof.Machine
end

