-- ==== Sys2Proof/Machine/Translate.lean ====
section
/-! DEFINITION. First-stage translation with its cached leaves (R314, R316), the home of a line (R22, R297), and the check of a
window access (R50). -/

namespace Sys2Proof.Machine

/-- What an access needs of a page (R314). -/
inductive Need where
  | read | write | exec
  deriving DecidableEq, Repr

/-- Where an address leads, or why it does not (R314): a translation fault has a level and a cause (R326). -/
inductive Xlate where
  | ok (pa : Nat) (loc : Loc) (uc : Bool)
  | fault (level cause : Nat)
  | format (level : Nat)
  | segment
  /-- A table entry read holds an uncorrectable error, of a unit (R335). -/
  | uncorr (pa unit : Nat)
  deriving DecidableEq, Repr

/-- R314: guest-physical to host-physical through the segment. -/
def segPa (v : VfEnt) (g : Nat) : Option Nat :=
  if g < v.sizeg * 2 ^ 29 then some (v.baseg * 2 ^ 29 + g) else none

/-- ADDR, and the flags of an entry. -/
def pteAddr (p : Word) : Nat := bitsOf p.toNat 51 16 * 0x10000
def pteV (p : Word) : Bool := p.getLsbD 0
def pteT (p : Word) : Bool := p.getLsbD 1
def pteR (p : Word) : Bool := p.getLsbD 2
def pteW (p : Word) : Bool := p.getLsbD 3
def pteX (p : Word) : Bool := p.getLsbD 4
def pteUc (p : Word) : Bool := p.getLsbD 5
def pteWin (p : Word) : Bool := p.getLsbD 6
def pteSys (p : Word) : Bool := p.getLsbD 7

/-- R314: a malformed entry. -/
def pteBad (p : Word) (wantT : Option Bool) : Bool :=
  bitsOf p.toNat 63 52 != 0 || bitsOf p.toNat 15 8 != 0 || (pteSys p && pteWin p)
    || (match wantT with | some t => pteT p != t | none => false)
    || (pteWin p && pteAddr p < winBase)

/-- The outcome of a walk that found a valid leaf entry, or of one that did not. -/
inductive Walk where
  | leaf (p : Word) (big : Bool)
  | fault (level : Nat)
  | format (level : Nat)
  | segment
  | uncorr (pa unit : Nat)
  deriving DecidableEq, Repr

/-- A table entry read from memory (the walk is not an access under R3), or how the walk ends there (R314, R335). -/
def tableEntry (v : VfEnt) (m : Mach) (tbl i : Nat) : Except Walk Word :=
  match segPa v (tbl + 8 * i) with
  | none => .error .segment
  | some pa =>
    if mget 0 m.bad (pa / 8) != 0 then .error (.uncorr (pa / 8 * 8) (mget 0 m.bad (pa / 8))) else .ok (BitVec.ofNat 64 (readLe m.mem pa 8))

def walkLevel1 (v : VfEnt) (m : Mach) (tbl va : Nat) : Walk :=
  match tableEntry v m tbl (bitsOf va 28 16) with
  | .error e => e
  | .ok p => if !pteV p then .fault 1 else if pteBad p (some false) then .format 1 else .leaf p false
def walkLevel2 (v : VfEnt) (m : Mach) (tbl va : Nat) : Walk :=
  match tableEntry v m tbl (bitsOf va 41 29) with
  | .error e => e
  | .ok p =>
    if !pteV p then .fault 2
    else if pteBad p none then .format 2
    else if pteT p then walkLevel1 v m (pteAddr p) va
    else if bitsOf p.toNat 28 16 != 0 then .format 2 else .leaf p true
/-- The three-level walk from PTROOT. -/
def walk (v : VfEnt) (m : Mach) (root va : Nat) : Walk :=
  match tableEntry v m root (bitsOf va 54 42) with
  | .error e => e
  | .ok p =>
    if !pteV p then .fault 3 else if pteBad p (some true) then .format 3 else walkLevel2 v m (pteAddr p) va

/-- The permission and segment checks of a leaf. -/
def leafXlate (v : VfEnt) (need : Need) (va : Nat) (p : Word) (big : Bool) : Xlate :=
  let a := pteAddr p + va % (if big then 2 ^ 29 else 2 ^ 16)
  let level := if big then 2 else 1
  if need = .read && !pteR p then .fault level 2
  else if need = .write && !pteW p then .fault level 3
  else if need = .exec && !pteX p then .fault level 4
  else if pteWin p then .ok a .window true
  else if pteSys p then
    if v.linkok && (a / 2 ^ 48 == 0xD || a / 2 ^ 48 == 0xE) then .ok a .system true else .segment
  else match segPa v a with
    | some pa => .ok pa .hbm (pteUc p)
    | none => .segment

/-- PTROOT as a group sees it: what it last wrote, or what stood at the latest tlbinv.all (R315). -/
def rootOf (m : Mach) (vf uid : Nat) : Nat :=
  let v := vfst m vf
  (((v.roots.find? fun kv => kv.1 == uid).map Prod.snd).getD v.ptall).toNat
def cachedLeaf (m : Mach) (vf root va : Nat) : Option TlbEnt :=
  m.tlb.find? fun t => t.vf == vf && t.root == root && t.va == (if t.big then va / 2 ^ 29 * 2 ^ 29 else va / 2 ^ 16 * 2 ^ 16)
def cacheLeaf (m : Mach) (vf root va : Nat) (p : Word) (big : Bool) : Mach :=
  { m with tlb := { vf := vf, root := root, va := if big then va / 2 ^ 29 * 2 ^ 29 else va / 2 ^ 16 * 2 ^ 16, big := big, pte := p } :: m.tlb }

def walkXlate (v : VfEnt) (need : Need) (va : Nat) : Walk → Xlate
  | .leaf p big => leafXlate v need va p big
  | .fault l => .fault l 1
  | .format l => .format l
  | .segment => .segment
  | .uncorr pa unit => .uncorr pa unit

/-- A translation for a group: a cached leaf and the tables may differ, and then either may be used (R316). -/
def translate (mg : Mgmt) (m : Mach) (vf uid : Nat) (need : Need) (va : Nat) : Xlate × Mach :=
  let v := vfEnt mg vf
  let root := rootOf m vf uid
  let w := walk v m root va
  match cachedLeaf m vf root va with
  | some t =>
    if w = .leaf t.pte t.big then (leafXlate v need va t.pte t.big, m)
    else
      let (k, m) := pick m 2
      if k == 0 then (leafXlate v need va t.pte t.big, m) else (walkXlate v need va w, m)
  | none =>
    match w with
    | .leaf p big => (leafXlate v need va p big, cacheLeaf m vf root va p big)
    | _ => (walkXlate v need va w, m)

/-! ## Homes (R22, R23, R297, R346) -/

/-- The virtual function whose segment holds a physical address (R298, R334). -/
def segOwner (mg : Mgmt) (pa : Nat) : Option Nat :=
  (mg.vfs.find? fun kv => kv.2.baseg * 2 ^ 29 ≤ pa && pa < (kv.2.baseg + kv.2.sizeg) * 2 ^ 29).map Prod.fst

/-- Folds 45 bits into three (R22). -/
def foldShed (s : Nat) : Nat := (List.range 15).foldl (fun a i => a ^^^ (s / 2 ^ (3 * i) % 8)) 0

/-- R346: lines of a retired bank are homed at the next bank of the shed that is not retired. -/
def liveBank (mg : Mgmt) (shed : Nat) : Nat → Nat → Nat
  | 0, b => b
  | n + 1, b => if mg.retBanks.contains (shed * 31 + b) then liveBank mg shed n ((b + 1) % 31) else b

/-- The home of a line: shed, bank and set, under the seed of the segment's owner and the window of its yard. -/
def homeOf (mg : Mgmt) (m : Mach) (pa : Nat) : L2Line :=
  let line := pa / 128
  let vf := segOwner mg pa
  let seed := match vf with | some v => (vfEnt mg v).seed | none => 0
  let shed := foldShed (line ^^^ seed)
  let yard := (List.range 32).find? fun y => match (yrun m y).phase with
    | .running v => some v == vf | .draining v _ => some v == vf | _ => false
  let set := match yard with
    | some y => let e := yardEnt mg y; e.wbase + line / 31 % 2 ^ e.wlog
    | none => line / 31 % 1024
  { shed := shed, bank := liveBank mg shed 31 (line % 31), set_ := set, line := line, vf := vf.getD 0 }

/-- The stack that holds an address (R23). -/
def stackOf (pa : Nat) : Nat := pa / 4096 % 12
/-- The shed to which a stack's controller is attached, over which a fill or write-back of its chunks travels (R23). -/
def shedOfStack (n : Nat) : Nat := ([0, 0, 1, 2, 3, 3, 4, 4, 5, 6, 7, 7][n]?).getD 0

/-! ## Windows (R48, R50) -/

/-- A place in the on-chip map. -/
inductive WinLoc where
  | core (c off : Nat)
  | cluster (k off : Nat)
  | nowhere
  deriving DecidableEq, Repr

def winLoc (pa : Nat) : WinLoc :=
  let o := pa - winBase
  if o < 384 * 0x400000 then .core (o / 0x400000) (o % 0x400000)
  else if 0x80000000 ≤ o && o < 0x80000000 + 96 * 0x400000 then
    .cluster ((o - 0x80000000) / 0x400000) ((o - 0x80000000) % 0x400000)
  else .nowhere

/-- The window check of an access by a virtual function in a yard (R50). -/
def windowOk (m : Mach) (y : Yard) (vf pa : Nat) : Bool :=
  match winLoc pa with
  | .nowhere => true
  | .cluster k _ => y.ownsCluster k
  | .core c o =>
    if y.lane then
      c == y.core && ((o < 0x100000 && y.b * 0x10000 ≤ o && o < (y.b + y.l) * 0x10000)
        || (0x100000 ≤ o && o < 0x180000 && y.b * 0x8000 ≤ o - 0x100000 && o - 0x100000 < (y.b + y.l) * 0x8000))
    else
      y.ownsCluster (clusterOf c) &&
        (if 0x180000 ≤ o && o < 0x188000 then
          let t := mget {} (core m c).own ((o - 0x180000) / 0x1000)
          t.owner.any (·.vf == vf) && t.holder.any (·.vf == vf)
        else true)

/-- The unit whose banks hold an address of a local store, if it is one (R200). -/
def lsCore (pa : Nat) : Option Nat :=
  match winLoc pa with
  | .core c o => if 0x100000 ≤ o && o < 0x180000 then some c else none
  | _ => none

/-- R200: the addresses and operations a scope accepts. -/
def scopeOk (y : Yard) (c : Nat) (scope : BitVec 2) (loc : Loc) (pa : Nat) (op : BitVec 3) (fp : Bool) : Bool :=
  match scope.toNat with
  | 0 => loc = .window && lsCore pa == some c
      && (lsPart y).1 ≤ pa - lsAddr c 0 && pa - lsAddr c 0 < (lsPart y).1 + (lsPart y).2
  | 1 => loc = .window && (lsCore pa).any fun k => clusterOf k == clusterOf c
  | 2 => loc = .hbm
  | _ => loc = .system &&
      (pa / 2 ^ 48 == 0xE || op == 6 || op == 7 || (op == 0 && !fp))

end Sys2Proof.Machine
end

