-- ==== Sys2Proof/Machine/Window.lean ====
section
/-! DEFINITION. What the on-chip windows show and what writes to them do (R48 to R51, R146, R154, R167, R277, R323, R325, R326,
R330). -/

namespace Sys2Proof.Machine

def fieldW (v hi lo : Nat) : Nat := v % 2 ^ (hi + 1 - lo) * 2 ^ lo

/-! ## The register-file window (R49, R51, R279) -/

/-- Where a word of the register-file window lies: a register of a group, or of an ended child not joined yet. -/
inductive RegLoc where
  | reg (slot i e : Nat)
  | left (slot fork i e : Nat)
  deriving DecidableEq, Repr

/-- The group that executes an old VP, through the forks not joined yet, outermost first. -/
def descend (m : Mach) (c slot i : Nat) : Nat → List (Nat × ForkRec) → Nat → RegLoc
  | _, [], e => .reg slot i e
  | fuel, (k, f) :: rest, e =>
    let h := f.l / 2
    if e % f.l < h then descend m c slot i fuel rest (e / f.l * h + e % f.l)
    else
      let e' := e / f.l * h + e % f.l - h
      if f.done then .left slot k i e'
      else match fuel with
        | 0 => .reg f.slot i e'
        | n + 1 => descend m c f.slot i n (((grp m c f.slot).forks.zipIdx.map fun p => (p.2, p.1)).reverse) e'

/-- Lanes and VLMAX of a group before any fork of it. -/
def rootShape (g : Group) : Nat × Nat × Nat :=
  match g.forks.getLast? with
  | some f => (f.b, f.l, f.vlmax)
  | none => (g.laneB, g.laneL, g.vlmax)

/-- The register that holds the byte at an offset of a core's register-file window, with the byte's place in it: registers lie from the
first byte of the group's share, whatever its alignment (R49). -/
def regAt (m : Mach) (c off : Nat) : Option (RegLoc × Nat) :=
  (coreGroups m c).findSome? fun (_, s, g) =>
    if g.parent.isSome then none
    else
      let (b, l, vm) := rootShape g
      let base := b * 0x10000 + (s - g.slot0) * shareBytes l g.gcount
      if base ≤ off && off < base + 4 * g.nregs * vm then
        let k := (off - base) / 4
        some (descend m c s (k / vm) 8 ((g.forks.zipIdx.map fun p => (p.2, p.1)).reverse) (k % vm), (off - base) % 4)
      else none

/-- An old VP of a forked parent that VP e of its lower or upper half is (R279). -/
def wasVp (f : ForkRec) (upper : Bool) (e : Nat) : Nat :=
  let h := f.l / 2
  e / h * f.l + (if upper then h else 0) + e % h
/-- The group in whose share the registers of VP e of a group lie, with the VP's number there: up through the forks not joined yet, of
the group in slot s from its k-th on. -/
def rootVp (m : Mach) (c : Nat) : Nat → Nat → Nat → Nat → Nat × Nat
  | 0, s, _, e => (s, e)
  | n + 1, s, k, e =>
    let g := grp m c s
    let e := (g.forks.drop k).foldl (fun e f => wasVp f false e) e
    match g.parent with
    | none => (s, e)
    | some (p, _) =>
      match (grp m c p).forks.findIdx? (·.uid == g.uid) with
      | none => (s, e)
      | some j => rootVp m c n p (j + 1) ((((grp m c p).forks[j]?).map fun f => wasVp f true e).getD e)
/-- Window address of v register i of VP e of a group (R49). -/
def regAddr (m : Mach) (c s i e : Nat) : Nat :=
  let (r, e) := rootVp m c 8 s 0 e
  let (b, l, vm) := rootShape (grp m c r)
  coreBase c + b * 0x10000 + (r - (grp m c r).slot0) * shareBytes l (grp m c r).gcount + 4 * (vm * i + e)

/-- The storage of a register fails (R335). -/
def regFails (m : Mach) (c : Nat) : RegLoc → Bool
  | .reg s i e => getFe (grp m c s) (.v i e) == .failing
  | .left s k i e => ((grp m c s).forks[k]?).any fun f => mget .full (mget [] f.vfe i) e == .failing
/-- A byte of on-chip storage is one of a register file. -/
def inRegs (pa : Nat) : Option (Nat × Nat) :=
  match (if pa / 2 ^ 48 == 0xF then winLoc pa else .nowhere) with
  | .core c o => if o < 0x100000 then some (c, o) else none
  | _ => none
def readRegLoc (m : Mach) (c : Nat) : RegLoc → Lane
  | .reg s i e => getV (grp m c s) i e
  | .left s k i e => match (grp m c s).forks[k]? with
    | some f => mget 0 (mget [] f.v i) e
    | none => 0

/-- Changes the k-th element of a list. -/
def modNth {α : Type} (f : α → α) : Nat → List α → List α
  | _, [] => []
  | 0, a :: r => f a :: r
  | n + 1, a :: r => a :: modNth f n r

/-! ## Control registers -/

/-- R146. -/
def tileEntWord (t : TileEnt) : Nat :=
  fieldW (match t.st with | .empty => 0 | .filling => 1 | .ready => 2 | .draining => 3) 63 62
    + fieldW t.ty.toNat 61 58 + fieldW t.text.toNat 57 56 + fieldW t.rows 55 45 + fieldW t.cols 44 34 + fieldW t.lsoff 18 0
/-- Entries 0 to 7 read as 32 by 32 FP32 tiles (R146). -/
def tileEnt (m : Mach) (c e : Nat) : TileEnt :=
  let t := mget {} (core m c).tiles e
  if e < 8 then { st := t.st, ty := 9, rows := 32, cols := 32 } else t
/-- R167. -/
def tileOwnWord (t : TileOwn) : Nat :=
  (match t.holder with | some h => 2 ^ 31 + fieldW h.vf 30 22 + fieldW h.slot 21 16 | none => 0)
    + (match t.owner with | some o => 2 ^ 15 + fieldW o.vf 14 6 + fieldW o.slot 5 0 | none => 0)
/-- R326, doubleword i of an entry. -/
def logWord (t : LogEnt) (i : Nat) : Nat :=
  match i with
  | 0 => (if t.used then 2 ^ 63 else 0) + (if t.rpl then 2 ^ 62 else 0) + fieldW t.vf 61 53 + fieldW t.slot 52 47
      + fieldW t.elem 41 32 + fieldW t.level 11 8 + fieldW t.cause 7 0
  | 1 => fieldW t.word 63 59 + fieldW t.clause 54 0
  | 2 => t.instr.toNat
  | 3 => fieldW t.faultVa 54 0
  | 4 => t.opA.toNat | 5 => t.opB.toNat | 6 => t.opC.toNat
  | _ => 0
/-- R330. -/
def engWord (t : EngRec) (i : Nat) : Nat :=
  match i with
  | 0 => (if t.used then 2 ^ 63 else 0) + (if t.ovf then 2 ^ 62 else 0) + fieldW t.vf 61 53 + fieldW t.slot 52 47
      + fieldW t.queue 46 43 + fieldW t.tag 39 32 + fieldW t.status 31 24
  | 1 => fieldW t.faultVa 54 0
  | 2 => fieldW t.done 47 0
  | _ => fieldW t.level 11 8 + fieldW t.cause 7 0

/-- Doubleword at an offset of a core's control-register window, as a virtual function sees it. -/
def ctlWord (m : Mach) (c vf o : Nat) : Nat :=
  let k := core m c
  if 0x100 ≤ o && o < 0x200 then tileEntWord (tileEnt m c ((o - 0x100) / 8))
  else if 0x200 ≤ o && o < 0x240 then tileOwnWord (mget {} k.own ((o - 0x200) / 8))
  else if 0x400 ≤ o && o < 0x600 then
    let g := grp m c ((o - 0x400) / 8)
    (if g.hayErr then 2 ^ 63 else 0) + fieldW g.hayOff 20 0
  else if 0x800 ≤ o && o < 0xC00 then
    let t := mget {} k.log ((o - 0x800) / 64)
    if t.vf == vf then logWord t ((o - 0x800) / 8 % 8) else 0
  else if 0xC00 ≤ o && o < 0xE00 then
    let t := mget {} k.eng ((o - 0xC00) / 32)
    if t.vf == vf then engWord t ((o - 0xC00) / 8 % 4) else 0
  else 0

/-! ## The context block (R323, R325) -/

def fullBits (n : Nat) (full : Nat → Bool) : Nat := (List.range n).foldl (fun a i => if full i then a + 2 ^ i else a) 0
def stateCode : GStatus → Nat
  | .free | .gone => 0 | .running => 1 | .halted => 2 | .ending => 3
/-- R325, doubleword i of a record. -/
def recWord (r : Rec) (i : Nat) : Nat :=
  match i with
  | 0 => fieldW r.op.word 63 59 + fieldW r.op.clause 54 0
  | 1 => r.op.instr.toNat
  | 2 => fieldW r.prog 10 0
  | 3 => r.op.opA.toNat | 4 => r.op.opB.toNat
  | _ => r.op.opC.toNat
/-- The records that the context block shows: those in flight, then a scan in progress, with its running value (R102, R325). -/
def shownRec (g : Group) (j i : Nat) : Nat :=
  match g.recs[j]? with
  | some r => recWord r i
  | none => match (if j == g.recs.length then g.scan else none) with
    | some q => match i with
      | 0 => fieldW q.word 63 59 + fieldW q.clause 54 0
      | 1 => q.instr.toNat
      | 2 => fieldW q.prog 10 0
      | 5 => (q.val.getD 0).toNat
      | _ => 0
    | none => 0
def ctxWord (g : Group) (i : Nat) : Nat :=
  let run := g.run
  match i with
  | 0 => fieldW (stateCode g.status) 63 60 + (match g.log with | some k => 2 ^ 59 + fieldW k 58 55 | none => 0)
      + fieldW g.vf 54 46 + fieldW g.rep.cls 15 8 + fieldW g.rep.code 7 0
  | 1 => fieldW g.rep.word 63 59 + fieldW g.rep.clause 54 0
  | 2 => fieldW g.rep.addr 54 0
  | 3 => fieldW g.rep.elem 47 32 + fieldW g.rep.info 31 0
  | 4 => fieldW g.pcword 63 59 + fieldW g.pc 54 0
  | 5 => fieldW g.nregs 55 48 + fieldW g.vlmax 42 32 + fieldW g.vstart 26 16 + fieldW g.vl 10 0
  | 6 => (if g.ftz then 2 ^ 12 else 0) + fieldW g.drm.toNat 10 8 + g.fflags.toNat
  | 7 => fullBits 8 (fun j => getFe g (.p j) == .full) * 2 ^ 8 + fullBits 8 (getP g)
  | 8 => fullBits 64 fun j => getFe g (.x j) == .full
  | 9 => fullBits 64 fun j => getFe g (.x (64 + j)) == .full
  | 10 => g.vdirty.toNat
  | 11 => (if run.isSome then 2 ^ 63 else 0) + (if run.any (·.diverged) then 2 ^ 62 else 0)
      + (match run.bind (·.rp) with | some p => 2 ^ 61 + fieldW p 54 0 | none => 0)
  | 12 => g.tlost.toNat * 2 ^ 8 + g.tsaved.toNat
  | 13 => fieldW g.tsave 54 0
  | 14 => g.recs.length + (if g.scan.isSome then 1 else 0)
  | 15 => 0
  | _ =>
    if i < 64 then shownRec g ((i - 16) / 6) ((i - 16) % 6)
    else if i < 72 then let o := mget {} g.gout (i - 64); fieldW o.kind 63 56 + fieldW o.status.toNat 31 0
    else 0

/-! ## Cluster unit registers (R277) -/

def stallWord (t : Stall) : Nat :=
  match t.items with
  | [] => 0
  | it :: _ => 2 ^ 63 + fieldW t.items.length 62 56 + fieldW it.entry 54 0
def cluWord (k : Cluster) (o : Nat) : Nat :=
  if o == 0 then k.timer
  else if 0x100 ≤ o && o < 0x200 then stallWord (mget {} k.stalls ((o - 0x100) / 8))
  else 0

/-! ## Reading and writing a window location -/

/-- Windows whose bytes lie in memory: local stores, tiles, Haylofts, receive slots. -/
def winInMem (pa : Nat) : Bool :=
  match winLoc pa with
  | .core _ o => 0x100000 ≤ o && o < 0x188000
  | .cluster _ o => o < 0x208000
  | .nowhere => false

/-- The doubleword of a window that is not memory (R48, R51); what lies beyond the listed windows reads zero. -/
def winWord (m : Mach) (vf pa : Nat) : Nat :=
  match winLoc pa with
  | .core c o =>
    if o < 0x100000 then
      leNat ((List.range 8).map fun j => match regAt m c (o + j) with
        | some (r, b) => (readRegLoc m c r).extractLsb' (8 * b) 8
        | none => 0)
    else if 0x190000 ≤ o && o < 0x1A0000 then
      let g := grp m c ((o - 0x190000) / 0x400)
      let i := (o - 0x190000) % 0x400 / 8
      if g.here && i < 128 then (getX g i).toNat else 0
    else if 0x1A0000 ≤ o && o < 0x1B0000 then ctxWord (grp m c ((o - 0x1A0000) / 0x400)) ((o - 0x1A0000) % 0x400 / 8)
    else if 0x1B0000 ≤ o && o < 0x1C0000 then ctlWord m c vf (o - 0x1B0000)
    else 0
  | .cluster k o => if 0x208000 ≤ o && o < 0x210000 then cluWord (clus m k) (o - 0x208000) else 0
  | .nowhere => 0

/-- A register that a window write would fill. -/
def winReg (m : Mach) (pa : Nat) : Option (Nat × Nat × Reg) :=
  match winLoc pa with
  | .core c o =>
    if o < 0x100000 then match regAt m c o with
      | some (.reg s i e, _) => some (c, s, .v i e)
      | _ => none
    else if 0x190000 ≤ o && o < 0x1A0000 then
      let s := (o - 0x190000) / 0x400
      let i := (o - 0x190000) % 0x400 / 8
      if (grp m c s).status != .free && i < 128 then some (c, s, .x i) else none
    else none
  | _ => none

/-- R51: a window write to a claimed register waits until the claim ends. -/
def winBlocked (m : Mach) (pa : Nat) : Bool :=
  match winReg m pa with
  | some (c, s, r) => getFe (grp m c s) r == .claimed
  | none => false
/-- Some byte of a range of window addresses is of a claimed register. -/
def rangeBlocked (m : Mach) (pa n : Nat) : Bool := (List.range n).any fun i => winBlocked m (pa + i)

/-- Bytes of a value replaced from a byte offset. -/
def patch (old off size val : Nat) : Nat :=
  old % 2 ^ (8 * off) + (val % 2 ^ (8 * size)) * 2 ^ (8 * off) + old / 2 ^ (8 * (off + size)) * 2 ^ (8 * (off + size))

/-- The bytes of a window location that is not memory (R51). -/
def winBytes (m : Mach) (vf pa n : Nat) : Nat := winWord m vf (pa / 8 * 8) / 2 ^ (8 * (pa % 8)) % 2 ^ (8 * n)
/-- A byte of the register-file window is written, and its register filled; vis is the writer's visible set (R49, R51, R196). Storage that
fails does so until a write of the whole register, with bytes lo to hi − 1 (R335). -/
def winWriteLane (m : Mach) (c lo hi off : Nat) (v : Byte) (vis : Vis) : Mach :=
  match regAt m c off with
  | some (.reg s i e, j) =>
    modGrp m c s fun g =>
      let fails := getFe g (.v i e) == .failing && !(lo + j ≤ off && off + 4 ≤ hi + j)
      let g := putV g i e (BitVec.ofNat 32 (patch (getV g i e).toNat j 1 v.toNat))
      let g := if fails then setFe g .failing (.v i e) else g
      { g with pend := { isX := false, reg := i, e := e, vis := vis } :: g.pend }
  | some (.left s k i e, j) =>
    let upd : Map Lane → Map Lane := fun r => mset 0 r e (BitVec.ofNat 32 (patch (mget 0 r e).toNat j 1 v.toNat))
    let fill := fun (f : ForkRec) =>
      { f with v := mmod [] f.v i upd, vfe := mmod [] f.vfe i fun r => mset .full r e .full,
               pend := { isX := false, reg := i, e := e, vis := vis } :: f.pend }
    modGrp m c s fun g => { g with forks := modNth fill k g.forks, saveMap := g.saveMap ||| ((1 : Word) <<< i) }
  | none => m
def winWriteLanes (c lo hi : Nat) (vis : Vis) : Nat → List Byte → Mach → Mach
  | _, [], m => m
  | off, v :: r, m => winWriteLanes c lo hi vis (off + 1) r (winWriteLane m c lo hi off v vis)
/-- A write of a general-register window fills the register, for a run that waits for it too (R51, R263). -/
def winWriteX (m : Mach) (c s i off size val : Nat) (vis : Vis) : Mach :=
  if (grp m c s).here && i < 128 then
    modGrp m c s fun g =>
      let v := BitVec.ofNat 64 (patch (getX g i).toNat off size val)
      let k : PendKnow := { isX := true, reg := i, e := 0, vis := vis }
      let g := captureOpen (putX g i v) i v k
      if i == 0 then g else { g with pend := k :: g.pend }
  else m

/-- R146: a write of an LS tile-table entry takes effect only while it is empty. -/
def setTileEnt (m : Mach) (c e : Nat) (v : Word) : Mach :=
  if e < 8 || 32 ≤ e || (mget {} (core m c).tiles e).st != .empty then m
  else
    let t : TileEnt := { st := .empty, ty := v.extractLsb' 58 4, text := v.extractLsb' 56 2, rows := bitsOf v.toNat 55 45,
                         cols := bitsOf v.toNat 44 34, lsoff := bitsOf v.toNat 18 0 }
    modCore m c fun k => { k with tiles := mset {} k.tiles e t }
/-- R277: values below 64 are stored as 64. -/
def setTimer (m : Mach) (k : Nat) (v : Word) : Mach :=
  modClus m k fun c => { c with timer := max 64 (v.toNat % 65536) }

/-- A write of a control or cluster-unit register; part of a doubleword keeps the other bytes. -/
def winWriteCtl (m : Mach) (vf pa size val : Nat) : Mach :=
  let full : Word := BitVec.ofNat 64 (patch (winWord m vf (pa / 8 * 8)) (pa % 8) size val)
  match winLoc pa with
  | .core c o =>
    let o := o - 0x1B0000
    if 0x100 ≤ o && o < 0x200 then setTileEnt m c ((o - 0x100) / 8) full
    else if 0x400 ≤ o && o < 0x600 then
      if bitAt (val * 2 ^ (8 * (pa % 8)) % 2 ^ (8 * (pa % 8 + size))) 63 then
        modGrp m c ((o - 0x400) / 8) fun g => { g with hayErr := false }
      else m
    else m
  | .cluster k o => if o / 8 * 8 == 0x208000 then setTimer m k full else m
  | .nowhere => m

/-- A window write to a place that is not memory. -/
def winWrite (m : Mach) (vf pa size val : Nat) (vis : Vis) : Mach :=
  match winLoc pa with
  | .core c o =>
    if o < 0x100000 then winWriteLanes c o (o + size) vis o (leBytes size val) m
    else if 0x190000 ≤ o && o < 0x1A0000 then winWriteX m c ((o - 0x190000) / 0x400) ((o - 0x190000) % 0x400 / 8) (o % 8) size val vis
    else if 0x1B0000 ≤ o && o < 0x1C0000 then winWriteCtl m vf pa size val
    else m
  | .cluster _ o => if 0x208000 ≤ o && o < 0x210000 then winWriteCtl m vf pa size val else m
  | .nowhere => m

/-- Receive slots are read only (R48, R189). -/
def winReadOnly (pa : Nat) : Bool :=
  match winLoc pa with
  | .cluster _ o => 0x200000 ≤ o && o < 0x208000
  | _ => false

end Sys2Proof.Machine
end

