-- ==== Sys2Proof/Machine/Memory.lean ====
section
/-! DEFINITION. Versions of a doubleword, visible sets, and the performance of one access (R191 to R211, R217, R220, R223). -/

namespace Sys2Proof.Machine

/-! ## Versions (R191, R195, R204, R205) -/

def histOf (m : Mach) (dw : Nat) : List Ver := mget [] m.hist dw
def isEngine : Party → Bool
  | .engine _ => true | _ => false
/-- Doubleword dw after k writes of its coherence order. -/
def dwAt (m : Mach) (dw k : Nat) : Nat :=
  let h := histOf m dw
  if h.length ≤ k then readLe m.mem (8 * dw) 8 else match h[h.length - 1 - k]? with
    | some v => v.old.toNat | none => 0
/-- The bytes of n from an address. -/
def bytesOf (a n : Nat) : List Nat := (List.range n).map (a + ·)
/-- The bytes that a version of a doubleword writes. -/
def Ver.bytes (w : Ver) (dw : Nat) : List Nat := bytesOf (8 * dw + w.off) w.size
/-- Puts version i of some bytes into a set. -/
def raiseTo (i : Nat) (bs : List Nat) (v : Vis) : Vis := bs.foldl (fun v b => mset 0 v b (max i (mget 0 v b))) v
/-- Version i is in a set: a version is in it with all its bytes. -/
def inVis (v : Vis) (dw i : Nat) (w : Ver) : Bool := (w.bytes dw).any fun b => i ≤ mget 0 v b
/-- Closes a set in one doubleword, from version i downward: every write of the set brings those before it at its bytes, and what its
writer had seen (R205 rules 3 and 4). -/
def closeFrom (dw : Nat) : List Ver → Nat → Vis → Vis
  | [], _, v => v
  | w :: r, i, v => closeFrom dw r (i - 1) (if inVis v dw i w then mmax (raiseTo i (w.bytes dw) v) w.vis else v)
def closeDw (m : Mach) (v : Vis) (dw : Nat) : Vis := closeFrom dw (histOf m dw) (histOf m dw).length v
/-- The smallest visible set that holds some writes (R205 rules 3 and 4). -/
def closeVis (m : Mach) (v : Vis) : Vis := ((v.map fun kv => kv.1 / 8).eraseDups).foldl (closeDw m) v
/-- A reader on core c, or outside the device, within the reach of a release (R206, R208). -/
def reaches (w : Ver) (c : Option Nat) : Bool :=
  w.reach == 3 || (match c with
    | some c => w.reach == 2 || (w.reach == 1 && clusterOf c == clusterOf w.home) || (w.reach == 0 && c == w.home)
    | none => false)
/-- What the completion barriers among the versions of a set of one doubleword bring to a reader (R208). -/
def incsOf (c : Option Nat) (dw : Nat) (t : Vis) : List Ver → Nat → Vis → Vis
  | [], _, v => v
  | w :: r, i, v => incsOf c dw t r (i - 1) (if inVis t dw i w && reaches w c then mmax v w.inc else v)
/-- What a read that takes some versions of a doubleword adds to its reader's visible set (R205 rules 2 to 4, R208). -/
def gainOf (m : Mach) (c : Option Nat) (dw : Nat) (t : Vis) : Vis :=
  incsOf c dw t (histOf m dw) (histOf m dw).length (closeDw m t dw)
/-- The versions that a read of bytes rd takes, from version i downward: those it must, those that a version taken later overlays, and of
the others that write bytes it reads, any; of each byte the latest one taken (R191, R194, R204). -/
def takeVers (must : Nat → Ver → Bool) (dw : Nat) (rd : List Nat) : List Ver → Nat → Vis → Mach → Vis × Mach
  | [], _, t, m => (t, m)
  | w :: r, i, t, m =>
    let bs := w.bytes dw
    if must i w || bs.any fun b => mget 0 t b != 0 then takeVers must dw rd r (i - 1) (raiseTo i bs t) m
    else if bs.any rd.contains then
      let (k, m) := pick m 2
      takeVers must dw rd r (i - 1) (if k == 0 then raiseTo i bs t else t) m
    else takeVers must dw rd r (i - 1) t m
/-- The versions of a doubleword that a read of some of its bytes takes. -/
def takeFrom (m : Mach) (must : Nat → Ver → Bool) (pa size : Nat) : Vis × Mach :=
  takeVers must (pa / 8) (bytesOf pa size) (histOf m (pa / 8)) (histOf m (pa / 8)).length [] m
/-- The bytes of a place in the versions taken of them. -/
def valueTaken (m : Mach) (t : Vis) (pa size : Nat) : Nat :=
  leNat ((bytesOf pa size).map fun b => BitVec.ofNat 8 (dwAt m (pa / 8) (mget 0 t b) / 256 ^ (b % 8)))
/-- What an instruction read must take: every instruction write of bytes it reads, and what its group has seen (R194, R205). -/
def instrMust (v : Vis) (pa size : Nat) (i : Nat) (w : Ver) : Bool :=
  (!isEngine w.by_ && (w.bytes (pa / 8)).any (bytesOf pa size).contains) || inVis v (pa / 8) i w
/-- Every write of bytes read. -/
def latestMust (pa size : Nat) (_ : Nat) (w : Ver) : Bool := (w.bytes (pa / 8)).any (bytesOf pa size).contains
def dwBytes (w pa size : Nat) : Nat := w / 2 ^ (8 * (pa % 8)) % 2 ^ (8 * size)

/-- The links on some lines that writes break (R202). -/
def breakLines (m : Mach) (hit : Nat → Bool) : Mach :=
  let broken := fun (g : Group) => g.linkset.any fun l => hit l.line && l.intact
  if (allGroups m).any fun t => broken t.2.2 then
    { m with groups := m.groups.map fun kg => (kg.1, if broken kg.2 then
        { kg.2 with linkset := kg.2.linkset.map fun l => if hit l.line then { l with intact := false } else l } else kg.2) }
  else m
def breakLine (m : Mach) (line : Nat) : Mach := breakLines m (· == line)
/-- A store or an engine write marks the Hayloft line it writes valid (R154). -/
def validateLine (m : Mach) (pa : Nat) : Mach :=
  match (if winBase ≤ pa then winLoc pa else .nowhere) with
  | .cluster k o =>
    if o < 0x200000 && (clus m k).hayInvalid.contains (o / 64) then
      modClus m k fun q => { q with hayInvalid := q.hayInvalid.filter (· != o / 64) }
    else m
  | _ => m

/-- A write of memory takes the next place in its doubleword's coherence order; a whole doubleword ends an error there (R335). -/
def memWrite (m : Mach) (pa size val : Nat) (by_ : Party) (vis : Vis) (fenced : Bool) : Mach :=
  let dw := pa / 8
  let v : Ver :=
    { old := BitVec.ofNat 64 (readLe m.mem (8 * dw) 8), off := pa % 8, size := size, by_ := by_, vis := vis, fenced := fenced }
  let bad := if size == 8 then mset 0 m.bad dw 0 else m.bad
  validateLine (breakLine { m with mem := writeLe m.mem pa size val, hist := mset [] m.hist dw (v :: histOf m dw), bad := bad,
                                   dirty := mset false m.dirty (pa / 128) true } (pa / 128)) pa
/-- What a write that has just taken its place adds to its writer's visible set (R205 rules 1, 3 and 4). -/
def wroteGain (m : Mach) (pa size : Nat) : Vis :=
  closeDw m (raiseTo (histOf m (pa / 8)).length (bytesOf pa size) []) (pa / 8)
/-- A write of whole doublewords by a unit of the device ends the errors in them (R335). -/
def clearBad (m : Mach) (pa n : Nat) : Mach := { m with bad := m.bad.filter fun kv => !(pa ≤ 8 * kv.1 && 8 * kv.1 + 8 ≤ pa + n) }
/-- A unit of the device writes a range of on-chip storage: in every doubleword of it that has a coherence order the write takes the next
place there (R195), links on its lines break (R202), and errors in it end. -/
def unitWrite (m : Mach) (pa n : Nat) (mem : Memory) : Mach :=
  let hit := fun (dw : Nat) => pa < 8 * dw + 8 && 8 * dw < pa + n
  let ver := fun (dw : Nat) =>
    ({ old := BitVec.ofNat 64 (readLe m.mem (8 * dw) 8), by_ := .device, vis := [], fenced := true } : Ver)
  clearBad (breakLines { m with mem := mem, hist := m.hist.map fun kv => if hit kv.1 then (kv.1, ver kv.1 :: kv.2) else kv }
    fun l => pa < 128 * l + 128 && 128 * l < pa + n) pa n
/-- A doubleword of a range that holds an uncorrectable error, with its unit. -/
def badIn (m : Mach) (pa n : Nat) : Option (Nat × Nat) :=
  m.bad.find? fun kv => pa < 8 * kv.1 + 8 && 8 * kv.1 < pa + n && (match inRegs (8 * kv.1) with
    | none => true
    | some (c, o) => (List.range 8).any fun j => pa ≤ 8 * kv.1 + j && 8 * kv.1 + j < pa + n && (regAt m c (o + j)).any fun r => regFails m c r.1)
/-- The registers that lie in a doubleword of a register file fail (R335). -/
def failRegs (m : Mach) (dw : Nat) : Mach :=
  match inRegs (8 * dw) with
  | none => m
  | some (c, o) => (List.range 8).foldl (fun m j => match regAt m c (o + j) with
    | some (.reg s i e, _) =>
      modGrp m c s fun g => if getFe g (.v i e) == .full then { g with vfe := mmod [] g.vfe i fun r => mset .full r e .failing } else g
    | some (.left s k i e, _) =>
      modGrp m c s fun g => { g with forks := modNth (fun f =>
        { f with vfe := mmod [] f.vfe i fun r => if mget .full r e == .full then mset .full r e .failing else r }) k g.forks }
    | none => m) m
/-- Marks every write of a party as made visible (R57, R209). -/
def markFenced (m : Mach) (p : Party) : Mach :=
  { m with hist := m.hist.map fun kv => (kv.1, kv.2.map fun w => if w.by_ = p then { w with fenced := true } else w) }
/-- The latest version of a byte, from version i downward, that stands no later than n and was made visible by its writer. -/
def fencedVer (dw b n : Nat) : List Ver → Nat → Nat
  | [], _ => 0
  | w :: r, i => if i ≤ n && w.fenced && (w.bytes dw).contains b then i else fencedVer dw b n r (i - 1)
/-- The part of a visible set that a clause fetch must see: writes made visible by their writers (R57). -/
def fetchable (m : Mach) (v : Vis) : Vis :=
  v.filterMap fun bn =>
    let h := histOf m (bn.1 / 8)
    let n := fencedVer (bn.1 / 8) bn.1 bn.2 h h.length
    if n == 0 then none else some (bn.1, n)


/-! ## Atomic operations (R223) -/

/-- The new value of an atomic. -/
def amoNew (op : BitVec 3) (cls5 : Bool) (size old data cmp : Nat) : Nat :=
  let w := 8 * size
  let o := old % 2 ^ w
  let d := data % 2 ^ w
  match op.toNat with
  | 0 => if cls5 then plainAdd (if size == 8 then f64 else f32) o d else (o + d) % 2 ^ w
  | 1 => if cls5 then (if sext o w ≤ sext d w then o else d) else min o d
  | 2 => if cls5 then (if sext o w ≤ sext d w then d else o) else max o d
  | 3 => o &&& d
  | 4 => o ||| d
  | 5 => o ^^^ d
  | 6 => d
  | _ => if o == cmp % 2 ^ w then d else o

/-- The barrier doubleword after an arrival (R284). -/
def barrierNext (b : Nat) : Nat :=
  let phase := bitsOf b 63 32
  let expect := bitsOf b 31 16
  let n := bitsOf b 15 0 + 1
  if expect ≤ n then fieldW ((phase + 1) % 2 ^ 32) 63 32 + fieldW expect 31 16
  else fieldW phase 63 32 + fieldW expect 31 16 + fieldW n 15 0

/-! ## Kinds of access -/

/-- Elements that are performed strictly one after another (R150, R203). -/
def AccKind.inOrder : AccKind → Bool
  | .held | .tfill _ | .tdrain _ | .mload _ _ | .vsc => true
  | _ => false
/-- A use of a tile is performed by the save sequencer, not as an access (R166). -/
def AccKind.isUse : AccKind → Bool
  | .use _ => true
  | _ => false
def AccKind.isLoad : AccKind → Bool
  | .load | .vgl | .held | .poll | .tfill _ | .mload _ _ => true
  | _ => false
/-- tfill, tdrain, mload and a tile use stay until their completion event. -/
def AccKind.stays : AccKind → Bool
  | .tfill _ | .tdrain _ | .mload _ _ | .use _ => true
  | _ => false

def AccKind.writes : AccKind → Bool
  | .store | .amo _ _ | .vsc | .tdrain _ | .arrive => true
  | .use u => u.stores
  | _ => false
/-! ## Order (R192, R193) -/

/-- Program order between an instruction and element el of a later one (R192): diverged accesses of one run are ordered within
each VP alone. -/
def precedes (i j : MemOp) (el : Elem) : Bool :=
  match i.div, j.div with
  | false, false => i.seq < j.seq || (i.seq == j.seq && i.sub < j.sub)
  | true, true => if i.run == j.run then i.id < j.id && i.elems.any (·.e == el.e) else i.run < j.run
  | true, false => i.id < j.id && j.live != some i.run
  | false, true => i.id < j.id && i.live != some j.run
/-- An access precedes a place of the control stream in program order (R192). -/
def beforeMark (i : MemOp) (p : Mark) : Bool := if i.div then i.id < p.opId && p.live != some i.run else i.seq < p.seq
/-- The place the control stream has reached. -/
def markOf (g : Group) : Mark := { seq := g.seq, opId := g.nextOp, live := g.run.map (·.num) }
/-- The destination of a system-scope place: a device, or 64 for the host (R339). -/
def destPa (pa : Nat) : Nat := if pa / 2 ^ 48 == 0xD then 64 else bitsOf pa 47 42
def destOf (el : Elem) : Nat := destPa el.pa
/-- Accesses of i that hold back an element of a later instruction j: instruction accesses in T, of a diverged run the VP's own; for a
system-scope element, those to its destination (R192, R210). -/
def holdsBack (i j : MemOp) (el : Elem) : Bool :=
  let own := i.div && j.div && i.run == j.run
  i.logged || i.kind.isUse || i.elems.any fun x => (!own || x.e == el.e) &&
    (if el.loc = .system then x.loc = .system && destOf x == destOf el else x.loc != .system)
/-- The group has an instruction for which later accesses wait: its logged one, or a tile use that is issued again (R228, R327). -/
def accHeld (g : Group) : Bool := g.log.isSome || g.acc.any fun o => o.kind.isUse
/-- Loads whose elements at one location all return what one read returns (R193). -/
def AccKind.shares : AccKind → Bool
  | .load | .vgl => true
  | _ => false
/-- The elements of an instruction at the location of one of them: they are performed together, in ascending index (R193); writes outside
the device go one by one. -/
def sameLoc (op : MemOp) (el : Elem) : List Elem :=
  if op.kind.inOrder || op.kind.isUse || (el.loc = .system && !op.kind.shares) then [el]
  else op.elems.filter fun x => x.pa == el.pa && x.loc = el.loc
/-- Outside the device too, elements at one location leave in ascending index (R193, R217, R224). -/
def lowestThere (op : MemOp) (el : Elem) : Bool :=
  el.loc != .system || op.kind.shares || op.elems.all fun x => x.pa != el.pa || x.loc != .system || el.e ≤ x.e
/-- An element of an instruction performed strictly in order is the first that is left (R150, R203). -/
def firstOf (op : MemOp) (el : Elem) : Bool := !op.kind.inOrder || op.elems.all (el.e ≤ ·.e)
/-- Every earlier access and push of the control stream is performed: what it fills or creates then takes its place after them (R196,
R275). -/
def ctlClear (g : Group) : Bool :=
  !(g.run.any fun r => !r.diverged) && g.pushes.isEmpty && (g.acc ++ g.recs.map (·.op)).all fun o => !beforeMark o (markOf g)
/-- The same for what VP e does in the group's run. -/
def vpClear (g : Group) (e : Nat) : Bool :=
  match g.run with
  | none => true
  | some r => g.pushes.all (fun p => r.seq ≤ p.at_.seq) && (g.acc ++ g.recs.map (·.op)).all fun o =>
    if r.diverged then (if o.div && o.run == r.num then !o.elems.any (·.e == e) else o.live == some r.num)
    else !o.div && r.seq < o.seq
/-- Outstanding pushes of a group, of an ended one too. -/
def pushesOf (m : Mach) (g : Group) : List Push := g.pushes ++ (m.orphans.filter fun o => o.uid == g.uid).map (·.push)
/-- Nothing in program order, no record, no outstanding push and no lock-step phase holds the element back (R192, R228, R231,
R327). -/
def inTurn (m : Mach) (c s : Nat) (op : MemOp) (el : Elem) : Bool :=
  let g := grp m c s
  !op.logged && !op.kind.isUse && firstOf op el && lowestThere op el
    && g.acc.all (fun i => !((precedes i op el && holdsBack i op el)
        || ((i.logged || i.held || i.kind.isUse) && i.id < op.id && !precedes op i el)))
    && g.recs.all (fun r => !precedes r.op op el && !(r.op.held && r.op.id < op.id && !precedes op r.op el))
    && (pushesOf m g).all (fun p => op.seq ≤ p.at_.seq)
    && (match op.live, g.run with | some r, some q => !(r == q.num && !q.diverged) | _, _ => true)
    && !(m.sysOut.any fun a => a.uid == g.uid && el.loc = .system && a.op == op.id && a.el.e == el.e)

/-! ## Performing one element -/

def leased (m : Mach) (c pa : Nat) : Bool :=
  let k := core m c
  match k.leases.find? fun l => l.1 == pa / 128 with
  | some l => k.clk ≤ l.2 | none => false
/-- The line is in L2 at its home, or leased by the core for a load of a cached page (R197, R198). -/
def linePresent (mg : Mgmt) (m : Mach) (c : Nat) (op : MemOp) (el : Elem) : Bool :=
  el.loc != .hbm || m.l2.contains (homeOf mg m el.pa)
    || ((op.kind = .load || op.kind = .held) && !el.uc && leased m c el.pa)

/-- Ways of a set of an L1 data cache: 128 KiB in 64 sets of 128-byte lines (R14, R296). -/
def l1Ways : Nat := 16
/-- The set of a line in an L1: among the sets of the yard that runs the owner of its segment, by the low bits of its line number (R296,
log entry 107). -/
def l1Set (mg : Mgmt) (m : Mach) (line : Nat) : Nat :=
  match (segOwner mg (128 * line)).bind (residentYard m) with
  | some y =>
    let e := yardEnt mg y
    if e.lane then 4 * e.b + line % (4 * e.l) else line % 64
  | none => line % 64
/-- A leased line enters the core's L1; of a full set another one leaves, whichever (log entry 107). -/
def installLease (mg : Mgmt) (m : Mach) (c line until_ : Nat) : Mach :=
  let peers := (core m c).leases.filter fun l => l1Set mg m l.1 == l1Set mg m line
  if peers.length < l1Ways then modCore m c fun k => { k with leases := mset 0 k.leases line until_ }
  else
    let (k, m) := pick m peers.length
    let gone := (peers[k]?.map Prod.fst).getD line
    modCore m c fun k => { k with leases := mset 0 (mdel gone k.leases) line until_ }
/-- A load of a cached line takes a lease and counts an L1 miss; a write moves the core's clock past every lease (R197). -/
def leaseStep (mg : Mgmt) (m : Mach) (c vf : Nat) (isLoad : Bool) (el : Elem) : Mach :=
  let line := el.pa / 128
  if el.loc != .hbm then m
  else if isLoad then
    if el.uc then m
    else if leased m c el.pa then m
    else
      let until_ := (core m c).clk + 128
      let m := installLease mg m c line until_
      count1 { m with leaseEnd := mset 0 m.leaseEnd line (max until_ (mget 0 m.leaseEnd line)) } vf 4
  else modCore m c fun k =>
    let t := max k.clk (mget 0 m.leaseEnd line + 1)
    { k with clk := t, leases := k.leases.filter fun l => t ≤ l.2 }

/-- Bytes of HBM (R14). -/
def hbmBytes : Nat := 768 * 2 ^ 30
/-- An address of a device of the link group at or above its HBM: the access completes as an unsupported request (R339). -/
def unsupportedAt (pa : Nat) : Bool := pa / 2 ^ 48 == 0xE && hbmBytes ≤ pa % 2 ^ 42
/-- An access aimed at the issuing device's own number is carried to its own home bank (R339). -/
def ownHbm (mg : Mgmt) (el : Elem) : Elem :=
  if el.loc = .system && el.pa / 2 ^ 48 == 0xE && bitsOf el.pa 47 42 == mg.device && !unsupportedAt el.pa then
    { el with loc := .hbm, pa := el.pa % 2 ^ 42 }
  else el
/-- What a place outside the device reads; of an unsupported request, a value that nothing fixes (R339, log entry 109). -/
def sysRead (m : Mach) (pa size : Nat) : Nat × Mach :=
  if unsupportedAt pa then (Config.unsupported m.tick % 256 ^ size, { m with tick := m.tick + 1 }) else (readLe m.mem pa size, m)
def sysWrite (m : Mach) (pa size val : Nat) : Mach := if unsupportedAt pa then m else { m with mem := writeLe m.mem pa size val }
/-- Everything that a doubleword outside the device can tell its reader: the increments made there (R208). -/
def sysGain (m : Mach) (c : Option Nat) (pa : Nat) : Vis :=
  let n := (histOf m (pa / 8)).length
  if n == 0 then [] else gainOf m c (pa / 8) (raiseTo n (bytesOf (pa / 8 * 8) 8) [])
/-- The value an element reads, and what the read adds to the group's visible set. -/
def elRead (m : Mach) (c s : Nat) (latest : Bool) (el : Elem) : Nat × Vis × Mach :=
  let g := grp m c s
  if el.loc = .system then
    let (v, m) := sysRead m el.pa el.size
    (v, sysGain m (some c) el.pa, m)
  else if el.loc = .hbm || winInMem el.pa then
    let (t, m) := takeFrom m (if latest then latestMust el.pa el.size else instrMust g.vis el.pa el.size) el.pa el.size
    (if latest then readLe m.mem el.pa el.size else valueTaken m t el.pa el.size, gainOf m (some c) (el.pa / 8) t, m)
  else
    let know : List Vis := (bytesOf el.pa el.size).flatMap fun a => match winReg m a with
      | some (tc, ts, .v i e) => ((grp m tc ts).pend.filter fun k => !k.isX && k.reg == i && k.e == e).map (·.vis)
      | some (tc, ts, .x i) => ((grp m tc ts).pend.filter fun k => k.isX && k.reg == i).map (·.vis)
      | _ => []
    (winBytes m g.vf el.pa el.size, know.foldl mmax [], m)

/-- An element's write, with what it adds to its group's visible set. -/
def elWrite (m : Mach) (c s : Nat) (el : Elem) (val : Nat) : Vis × Mach :=
  let g := grp m c s
  if el.loc = .system then ([], sysWrite m el.pa el.size val)
  else if el.loc = .hbm || winInMem el.pa then
    if el.loc = .window && winReadOnly el.pa then ([], m)
    else
      let m := memWrite m el.pa el.size val (.group g.uid) g.vis false
      (wroteGain m el.pa el.size, m)
  else ([], winWrite m g.vf el.pa el.size val g.vis)

/-- The registers a loaded or old value fills (R31, R214, R225). -/
def dstFills (op : MemOp) (el : Elem) (val : Nat) : List Fill :=
  match op.dst with
  | .none => []
  | .x i => [{ reg := .x i, val := if op.signed then w64 (sext val (8 * op.size)) else BitVec.ofNat 64 val }]
  | .v i =>
    let w : Word := BitVec.ofNat 64 val
    if op.size == 8 then
      [{ reg := .v i el.e, val := w &&& 0xFFFFFFFF, hi := some (.v (i + 1) el.e, w >>> 32) }]
    else [{ reg := .v i el.e, val := w }]
def addFills (m : Mach) (c s : Nat) (fs : List Fill) : Mach :=
  if fs.isEmpty then m else modGrp m c s fun g => { g with fills := g.fills ++ fs }

/-- Where doubleword j of tile-table entry e lies. -/
def tileDw (m : Mach) (c e j : Nat) : Nat :=
  if e < 8 then tileAddr c e + 8 * j else lsAddr c ((tileEnt m c e).lsoff + 8 * j)

/-- A 64-byte line holds a reserved T2 code: its offset within the line (R90, R154). -/
def t2Reserved (bytes : List Byte) : Option Nat :=
  (bytes.zipIdx.find? fun p => (List.range 4).any fun j => bitsOf p.1.toNat (2 * j + 1) (2 * j) == 2).map (·.2)

/-- Words for the instruction that holds the group's clause. -/
def holdWords (g : Group) (ws : List Word) : Group := { g with held := g.held.map fun h => { h with words := h.words ++ ws } }
/-- Accesses that pass through the Baler: gathers, scatters, vector atomics, VP-issued (R220). -/
def balerOp (op : MemOp) : Bool :=
  op.sub != 0 || (match decodeWord .c op.instr with
    | .ok (.vldx _) | .ok (.vstx _) | .ok (.vgl _) | .ok (.vsc _) | .ok (.vamo _ _) => true
    | _ => false)
/-- The fills of an element's value. -/
def fillsOf (op : MemOp) (el : Elem) (val : Nat) : List Fill := (dstFills op el val).map fun f => { f with baler := balerOp op }
/-- One element's effect at its point of coherence, and what it adds to the group's visible set. -/
def elEffect (m : Mach) (c s : Nat) (op : MemOp) (el : Elem) : Vis × Mach :=
  match op.kind with
  | .store => elWrite m c s el el.data.toNat
  | .amo o c5 =>
    let (v, a, m) := elRead m c s true el
    let (b, m) := elWrite m c s el (amoNew o c5 el.size v el.data.toNat el.cmp.toNat)
    (mmax a b, addFills m c s (fillsOf op el v))
  | .vsc =>
    let ok := (grp m c s).linkset.any fun l => l.e == el.e && l.intact && l.line == el.pa / 128 && l.scope == op.scope
    let (a, m) := if ok then elWrite m c s el el.data.toNat else ([], m)
    (a, addFills m c s [{ reg := .c op.mask el.e, val := if ok then 0 else 1, baler := true }])
  | .load | .vgl => ([], m)
  | .held =>
    let (v, a, m) := elRead m c s false el
    (a, modGrp m c s fun g => holdWords g [BitVec.ofNat 64 v])
  | .poll =>
    let (v, a, m) := elRead m c s true el
    (a, modGrp m c s fun g => holdWords g [BitVec.ofNat 64 el.pa, BitVec.ofNat 64 v])
  | .arrive =>
    let (v, a, m) := elRead m c s true el
    let (b, m) := elWrite m c s el (barrierNext v)
    (mmax a b, modGrp m c s fun g => holdWords g [BitVec.ofNat 64 v])
  | .tfill e =>
    let (v, a, m) := elRead m c s false el
    (a, if e < 8 then unitWrite m (tileDw m c e el.e) 8 (writeLe m.mem (tileDw m c e el.e) 8 v)
        else memWrite m (tileDw m c e el.e) 8 v (.group (grp m c s).uid) (grp m c s).vis false)
  | .tdrain e => elWrite m c s el (readLe m.mem (tileDw m c e el.e) 8)
  | .mload off _ =>
    let (v, a, m) := elRead m c s false el
    (a, memWrite m (hayAddr (clusterOf c) (off + 8 * el.e)) 8 v (.group (grp m c s).uid) (grp m c s).vis false)
  | .use _ => ([], m)
/-- The links that elements of the group's latest vgl set (R202). -/
def addLinks (m : Mach) (c s : Nat) (op : MemOp) (els : List Elem) : Mach :=
  if op.kind = .vgl && (grp m c s).linkOp == op.id then
    modGrp m c s fun g => { g with linkset :=
      (els.map fun el => { e := el.e, line := el.pa / 128, scope := op.scope, intact := true, since := m.now }) ++ g.linkset }
  else m
/-- The elements of an instruction at one location take consecutive places, in ascending index: those of a load all return what one read
returns (R193). -/
def locEffect (m : Mach) (c s : Nat) (op : MemOp) : List Elem → Vis × Mach
  | [] => ([], m)
  | el :: r =>
    if op.kind.shares then
      let (v, a, m) := elRead m c s false el
      (a, addFills (addLinks m c s op (el :: r)) c s ((el :: r).flatMap fun x => fillsOf op x v))
    else
      let (a, m) := elEffect m c s op el
      let (b, m) := locEffect m c s op r
      (mmax a b, m)

/-- What is left of an instruction once its element e is performed; nothing, when that was the last. -/
def opWithout (op : MemOp) (e : Nat) : Option MemOp :=
  let rest := op.elems.filter fun x => x.e != e
  if rest.isEmpty && !op.kind.stays then none else some { op with elems := rest, prog := max op.prog (e + 1) }
def accWithout (id e : Nat) (acc : List MemOp) : List MemOp :=
  acc.filterMap fun op => if op.id != id then some op else opWithout op e

/-- The log entry of an instruction whose replay has performed it is free (R326). -/
def endReplay (m : Mach) (c s id : Nat) : Mach :=
  match (grp m c s).log with
  | some i =>
    let t := mget {} (core m c).log i
    if t.rpl && t.op == id && (grp m c s).acc.all (fun o => o.id != id) then
      modGrp (modCore m c fun k => { k with log := mset {} k.log i {} }) c s fun g => { g with log := none }
    else m
  | none => m
/-- An ended group whose last access is performed is gone; a forked one has its last writes joined (R273, R280). -/
def settleGone (m : Mach) (c s : Nat) : Mach :=
  let g := grp m c s
  if g.status = .gone && g.acc.isEmpty && g.recs.isEmpty then
    let tell := fun (p : Group) => if p.forks.any (·.uid == g.uid) then
      { p with forks := p.forks.map fun f => if f.uid == g.uid then { f with vis := mmax f.vis g.vis } else f } else p
    { m with groups := mset {} (m.groups.map fun kg => (kg.1, tell kg.2)) (gkey c s) {} }
  else m
/-- Takes performed elements out of their instruction. -/
def dropElems (m : Mach) (c s id : Nat) (es : List Nat) : Mach :=
  settleGone (endReplay (modGrp m c s fun g => { g with acc := es.foldl (fun acc e => accWithout id e acc) g.acc }) c s id) c s
def dropElem (m : Mach) (c s id e : Nat) : Mach := dropElems m c s id [e]

/-- Locations that an ESCOPE covers for commands of a core (R206). -/
def escopeCovers (esc : BitVec 2) (c pa : Nat) : Bool :=
  2 ≤ esc.toNat || (match (if pa / 2 ^ 48 == 0xF then winLoc pa else .nowhere) with
    | .core k _ => if esc == 0 then k == c else clusterOf k == clusterOf c
    | .cluster k _ => esc != 0 && k == clusterOf c
    | .nowhere => false)
/-- What an instruction that stands before some places of the control stream adds to the sets that the group has at those places: the
floors of fences and of commands still queued (R205, R206, R209). -/
def gainAt (m : Mach) (c s : Nat) (before : Mark → Bool) (add : Vis) : Mach :=
  if add.isEmpty then m
  else
    let g := grp m c s
    let uid := g.uid
    let fenced := fun (p : Option Mark) => p.any before
    let m := if fenced g.fence then modGrp m c s fun g => { g with cmdFloor := mmax g.cmdFloor add } else m
    let mine := fun (j : Job) => j.uid == uid && j.st = .queued && (before j.at_ || fenced j.fence)
    let note := fun (j : Job) =>
      if !mine j then j
      else { j with hfloor := mmax j.hfloor add,
                    floor := mmax j.floor (if fenced j.fence then add else if j.acq then add.filter fun kv => escopeCovers j.escope c kv.1 else []) }
    if (core m c).jobs.any mine then modCore m c fun k => { k with jobs := k.jobs.map note } else m
/-- What a performed access adds to the visible set of its group, and to the sets at later places. -/
def gain (m : Mach) (c s : Nat) (op : MemOp) (add : Vis) : Mach :=
  if add.isEmpty then m else gainAt (modGrp m c s fun g => learn g add) c s (beforeMark op) add
/-- Elements of one instruction at one location are performed: at their point of coherence, or at the system-scope destination. -/
def performLoc (mg : Mgmt) (m : Mach) (c s : Nat) (op : MemOp) (els : List Elem) : Mach :=
  match els with
  | [] => m
  | el :: _ =>
    let m := leaseStep mg m c (grp m c s).vf op.kind.isLoad el
    let (a, m) := locEffect m c s op els
    dropElems (gain m c s op a) c s op.id (els.map (·.e))
/-- One element is performed, with those at its location. -/
def performEl (mg : Mgmt) (m : Mach) (c s : Nat) (op : MemOp) (el : Elem) : Mach := performLoc mg m c s op (sameLoc op el)

/-! ## Groups that have ended (R273) -/

/-- The slot under which an access of a group in slot s of core c stands: its own, or the one an ended group of the slot keeps. -/
def accPlace (m : Mach) (c s id : Nat) : Nat :=
  let has := fun (g : Group) => g.acc.any (·.id == id)
  if has (grp m c s) then s
  else (((allGroups m).find? fun t => t.1 == c && t.2.2.status = .gone && t.2.2.was == s && has t.2.2).map (·.2.1)).getD s

end Sys2Proof.Machine
end

