-- ==== Sys2Proof/Machine/Halt.lean ====
section
/-! DEFINITION. The checks of an instruction's accesses (R213), the operand log (R228, R326), and taking a fault: halting a group
or a virtual function (R320 to R322) and resuming it (R325, R332). -/

namespace Sys2Proof.Machine

/-! ## Checks before any access (R213) -/

inductive CheckRes where
  /-- The translated elements to access, and those that a first-fault load leaves out (R219). -/
  | ok (els : List Elem) (cut : List Nat)
  /-- A fault that halts the group: code, element, address, INFO. -/
  | halt (code elem addr info : Nat)
  /-- A translation fault: element, address, level and cause (R228). -/
  | fault (elem va level cause : Nat)
  deriving DecidableEq, Repr

/-- Translates every element for each need in turn. -/
def xlateAll (mg : Mgmt) (vf uid : Nat) (needs : List Need) : List Elem → Mach → List (Elem × Xlate) × Mach
  | [], m => ([], m)
  | el :: r, m =>
    let (x, m) := needs.foldl (fun (p : Xlate × Mach) n =>
      match p.1 with
      | .ok _ _ _ => translate mg p.2 vf uid n el.va
      | _ => p) (Xlate.ok 0 .hbm false, m)
    let (xs, m) := xlateAll mg vf uid needs r m
    ((el, x) :: xs, m)

def placed : List (Elem × Xlate) → List Elem
  | [] => []
  | (el, .ok pa loc uc) :: r => { el with pa := pa, loc := loc, uc := uc } :: placed r
  | _ :: r => placed r

/-- The checks that need a translation: PTE-FORMAT and SEGMENT at any element, then translation faults, then ATOMIC-SCOPE and
WINDOW-RANGE, each at its lowest element (log entry 9). -/
def checkXlated (m : Mach) (y : Yard) (c vf : Nat) (scope : Option (BitVec 2 × BitVec 3 × Bool)) (ff : Bool)
    (xs : List (Elem × Xlate)) : CheckRes :=
  let bad := xs.findSome? fun p => match p.2 with
    | .format l => some (CheckRes.halt fPte p.1.e p.1.va l)
    | .segment => some (.halt fSegment p.1.e p.1.va 0)
    | .uncorr pa unit => some (.halt fUncorr p.1.e pa unit)
    | _ => none
  let fault := xs.findSome? fun p => match p.2 with | .fault l k => some (p.1.e, p.1.va, l, k) | _ => none
  let first := (xs.head?.map fun p => p.1.e).getD 0
  match bad, fault with
  | some r, _ => r
  | none, f =>
    let cutAt := match f with | some (e, _, _, _) => if ff && e != first then some e else none | none => none
    match f, cutAt with
    | some (e, va, l, k), none => .fault e va l k
    | _, _ =>
      let els := placed xs
      let deny := els.findSome? fun el =>
        let scopeBad := match scope with
          | some (sc, op, fp) => if scopeOk y c sc el.loc el.pa op fp then none else some (CheckRes.halt fScope el.e el.va sc.toNat)
          | none => none
        match scopeBad with
        | some r => some r
        | none => if el.loc = .window && !windowOk m y vf el.pa then some (.halt fWindow el.e el.va 0) else none
      let below := fun (e : Nat) => match cutAt with | some f => e < f | none => true
      deny.getD (.ok (els.filter fun el => below el.e) ((xs.map fun p => p.1.e).filter fun e => !below e))

/-- ADDRESS-RANGE, then ALIGNMENT. -/
def checkAddrs (els : List Elem) : Option CheckRes :=
  match els.find? fun el => 2 ^ 55 ≤ el.va with
  | some el => some (.halt fRange el.e el.va 0)
  | none => (els.find? fun el => el.va % el.size != 0).map fun el => .halt fAlign el.e el.va el.size

def groupYardEnt (mg : Mgmt) (c : Nat) (g : Group) : Yard := yardEnt mg (groupYard mg c g)

def kindNeeds : AccKind → List Need
  | .load | .vgl | .held | .poll | .tfill _ | .mload _ _ | .use _ => [.read]
  | .store | .vsc | .tdrain _ => [.write]
  | .amo _ _ | .arrive => [.read, .write]
def opScope (op : MemOp) : Option (BitVec 2 × BitVec 3 × Bool) :=
  match op.kind with
  | .amo o c5 => some (op.scope, o, c5)
  | .vgl | .vsc | .arrive | .poll => some (op.scope, 0, false)
  | _ => none
/-- Every check of R213 on the elements of an instruction of a group. -/
def checkOp (mg : Mgmt) (m : Mach) (c : Nat) (g : Group) (op : MemOp) : CheckRes × Mach :=
  match checkAddrs op.elems with
  | some r => (r, m)
  | none =>
    let (xs, m) := xlateAll mg g.vf g.uid (kindNeeds op.kind) op.elems m
    (checkXlated m (groupYardEnt mg c g) c g.vf (opScope op) op.ff.isSome xs, m)

/-! ## Halting (R321, R322) -/

/-- A record takes its place in program order; accesses of one instruction make one record. -/
def insertRec (r : Rec) : List Rec → List Rec
  | [] => [r]
  | q :: rs =>
    if r.op.id == q.op.id then
      { op := { q.op with elems := r.op.elems ++ q.op.elems, first := min r.op.first q.op.first, prog := min r.prog q.prog },
        prog := min r.prog q.prog } :: rs
    else if r.op.id < q.op.id then r :: q :: rs else q :: insertRec r rs
/-- An instruction becomes an in-flight record from its first element (R325, R327). -/
def opToRec (g : Group) (op : MemOp) : Group :=
  { g with acc := g.acc.filter (fun o => o.id != op.id), recs := insertRec { op := { op with logged := false, held := true, prog := op.first }, prog := op.first } g.recs }
/-- First element of the next element group: all those of groups that an instruction has begun lie below (R39, R218). -/
def groupEdge (m : Mach) (g : Group) (op : MemOp) : Nat :=
  let sent := (m.sysOut.filter fun a => a.uid == g.uid && a.op == op.id).flatMap fun a => (sameLoc op a.el).map fun x => x.e + 1
  let b := sent.foldl max op.prog
  if b ≤ op.first then op.first else (b + g.laneL - 1) / g.laneL * g.laneL
/-- Step 2 of R321 for one vector instruction: elements of an element group already begun stay and are performed, the rest become a
record. A halt shows in vstart where the oldest stopped (log entry 10). -/
def stopVector (shows : Bool) (m : Mach) (c s : Nat) (op : MemOp) : Mach :=
  modGrp m c s fun g =>
    let b := groupEdge m g op
    let here := op.elems.filter fun el => el.e < b
    let rest := op.elems.filter fun el => b ≤ el.e
    let cut := fun (o : MemOp) => if o.id != op.id then some o else if here.isEmpty then none else some { o with elems := here }
    let first := shows && g.recs.isEmpty
    if rest.isEmpty then g
    else { g with acc := g.acc.filterMap cut, vstart := if first then b else g.vstart,
                  vkept := if first then some g.vstart else g.vkept,
                  recs := insertRec { op := { op with elems := rest, first := b, prog := b }, prog := b } g.recs }
/-- An instruction that a replay is performing (R332). -/
def replaying (m : Mach) (c : Nat) (g : Group) (op : MemOp) : Bool :=
  g.log.any fun i => let t := mget {} (core m c).log i; t.rpl && t.op == op.id
def stopVectors (shows : Bool) (m : Mach) (c s : Nat) : Mach :=
  let g := grp m c s
  (g.acc.filter fun op => op.vec && !op.logged && !replaying m c g op).foldl (fun m op => stopVector shows m c s op) m

/-- Takes a group off its core's issue slot; a diverged run keeps the rotation point that its clause has set so far (R264, R321). -/
def offSlot (m : Mach) (c s : Nat) : Mach :=
  match (core m c).issue with
  | none => m
  | some i =>
    if i.slot != s then m
    else
      let keep := fun (r : Run) => if r.diverged && i.back then { r with rp := some i.clause } else r
      modCore (if i.vec && i.back then modGrp m c s fun g => modRun g keep else m) c fun k => { k with issue := none }

/-- A group halts with a report: issue stops, vector instructions in flight stop at element-group boundaries, links break
(R202, R321). PC and PCWORD stay where the control stream is. A group that has ended halts no more. -/
def haltGroup (m : Mach) (c s : Nat) (r : Report) : Mach :=
  if (grp m c s).status = .gone then m
  else
  let m := offSlot (stopVectors true m c s) c s
  modGrp m c s fun g => { g with status := .halted, rep := r, waitC := none, waitV := none, stepping := false,
                                 linkset := g.linkset.map fun l => { l with intact := false } }

/-- A saved group takes the report of a class-3 fault of its virtual function (R320, R335). -/
def haltSaved (r : Report) (g : Group) : Group := if g.active then { g with status := .halted, rep := r, stepping := false } else g
/-- A class-3 fault: every other group of the virtual function that is not halted halts with code 0x3F, on its core or in the context
area, and its engines and loops stop (R320, R321). The address is that of an error which no group's access met (R335). -/
def haltOthers (m : Mach) (vf code addr : Nat) : Mach :=
  let r : Report := { cls := 3, code := fWithVf, addr := addr, info := code }
  let m := (vfGroups m vf).foldl (fun m t => if t.2.2.status = .halted then m else haltGroup m t.1 t.2.1 r) m
  let m := if (mget {} m.saved vf).groups.isEmpty then m
    else { m with saved := mmod {} m.saved vf fun sv => { sv with groups := sv.groups.map fun kg => (kg.1, haltSaved r kg.2) } }
  modVf m vf fun v => { v with stopped := true }

/-- UNCORRECTABLE: the group whose access met the error reports it where it stood, with the address and the unit; every other group of
the virtual function halts with it (R335). -/
def uncorrFault (m : Mach) (vf unit pa : Nat) (at_ : Option (Nat × Nat × Report)) : Mach :=
  match at_ with
  | some (c, s, r) =>
    if (grp m c s).active && (grp m c s).vf == vf then
      haltOthers (haltGroup m c s { r with cls := 3, code := fUncorr, addr := pa, info := unit }) vf fUncorr 0
    else haltOthers m vf fUncorr pa
  | none => haltOthers m vf fUncorr pa
/-- A group halts with the report of a check: an error that the check met is UNCORRECTABLE, and halts the virtual function (R335). -/
def haltFault (m : Mach) (c s : Nat) (r : Report) : Mach :=
  if r.code == fUncorr then uncorrFault m (grp m c s).vf r.info r.addr (some (c, s, r)) else haltGroup m c s r

/-- The report of a fault of the instruction being executed. -/
def actReport (m : Mach) (code elem addr info : Nat) : Report :=
  { cls := 2, code := code, word := m.act.word, clause := m.act.clause, addr := addr, elem := elem, info := info }
/-- A class-2 fault of the instruction being executed: no part of it has taken effect (R321). -/
def faultAct (m : Mach) (code elem addr info : Nat) : Mach :=
  let r := actReport m code elem addr info
  haltFault (modMe m fun g => { g with held := none }) m.act.core m.act.slot r

/-! ## The operand log (R228, R326) -/

def freeLog (m : Mach) (c : Nat) : Option Nat := (List.range 16).find? fun i => !(mget {} (core m c).log i).used
def freeEntry (m : Mach) (c i : Nat) : Mach := modCore m c fun k => { k with log := mset {} k.log i {} }

/-- Enters an instruction whose translation faults: it performs no access and keeps its place. -/
def logOp (m : Mach) (c s i : Nat) (op : MemOp) (elem va level cause : Nat) : Mach :=
  let g := grp m c s
  let ent : LogEnt :=
    { used := true, vf := g.vf, slot := (if 64 ≤ s then g.was else s), uid := g.uid, elem := elem, level := level, cause := cause, word := op.word,
      clause := op.clause, instr := op.instr, faultVa := va, opA := op.opA, opB := op.opB, opC := op.opC, op := op.id }
  let m := modCore m c fun k => { k with log := mset {} k.log i ent }
  let m := count1 m g.vf 0x0D
  modGrp m c s fun g =>
    { g with log := some i,
             rep := { cls := 1, code := fXlateLog, word := op.word, clause := op.clause, addr := va, elem := elem, info := cause } }

/-- Replaces a group's instruction by its translated form. -/
def updOp (op : MemOp) (acc : List MemOp) : List MemOp := acc.map fun o => if o.id == op.id then op else o
/-- Puts an instruction back in its place in issue order; what is left of it there keeps its elements. -/
def insertOp (op : MemOp) : List MemOp → List MemOp
  | [] => [op]
  | o :: r =>
    if op.id == o.id then { op with elems := o.elems ++ op.elems } :: r
    else if op.id < o.id then op :: o :: r else o :: insertOp op r

/-! ## Entering a checked instruction, and resumption (R325) -/

/-- The registers an instruction claims (R33). -/
def opClaims (op : MemOp) : List Reg :=
  (match op.dst with
   | .none => []
   | .x i => if op.elems.isEmpty then [] else [.x i]
   | .v i => op.elems.flatMap fun el => (regsOf (op.size == 8) i).map fun r => Reg.v r el.e)
    ++ (match op.kind with
      | .vsc => op.elems.map fun el => Reg.c op.mask el.e
      | .use u => u.dsts
      | _ => [])
/-- R219: elements a first-fault load leaves out become inactive and keep their values, full. -/
def applyCut (g : Group) (op : MemOp) (cut : List Nat) : Group :=
  match op.ff, op.dst with
  | some b, .v i =>
    setFes (putMask g op.mask (cut.map fun e => (e, b))) .full
      (cut.flatMap fun e => (regsOf (op.size == 8) i).map fun r => Reg.v r e)
  | _, _ => g
/-- Lines that the Baler has been asked for in its open window (R220), tagged with their virtual function. -/
def toBaler (m : Mach) (c vf : Nat) (op : MemOp) (els : List Elem) : Mach :=
  if balerOp op then
    modCore m c fun k => { k with baler := els.foldl (fun b el =>
      let key := vf * 2 ^ 48 + el.pa / 128
      if el.loc != .hbm || b.contains key then b else b ++ [key]) k.baler }
  else m
/-- Integer atomics other than exchange and compare may be merged; the cluster's combining buffer holds up to 64 of their
addresses (R201). -/
def mergeable (kind : AccKind) : Bool :=
  match kind with
  | .amo op c5 => op.toNat < 6 && !(op == 0 && c5)
  | _ => false
def toComb (m : Mach) (c : Nat) (op : MemOp) (els : List Elem) : Mach :=
  if mergeable op.kind then
    modClus m (clusterOf c) fun k => { k with comb := els.foldl (fun b el =>
      if b.contains el.pa || 64 ≤ b.length then b else b ++ [el.pa]) k.comb }
  else m
/-- A checked instruction takes its place among the group's accesses; its lines are asked for as its kind asks. -/
def enterOp (m : Mach) (c s : Nat) (op : MemOp) (els : List Elem) (cut : List Nat) : Mach :=
  let put := fun (acc : List MemOp) =>
    if els.isEmpty && !op.kind.stays then acc else insertOp { op with elems := els, logged := false } acc
  let m := modGrp m c s fun g => applyCut { g with acc := put g.acc } op cut
  toComb (toBaler m c (grp m c s).vf op els) c op els
/-- A logged instruction keeps its place and performs nothing. -/
def holdOp (m : Mach) (c s i : Nat) (op : MemOp) (e va level cause : Nat) : Mach :=
  let op := { op with logged := true }
  logOp (modGrp m c s fun g => { g with acc := insertOp op g.acc }) c s i op e va level cause

/-- An instruction that could need one of the eight records (R325): a vector instruction, a logged one or a use of a tile (R327), a load with
a system-scope access (R306), and what can outlast a drain: an access that waits behind a logged instruction or for a claimed register of
a window, whose pages may have changed when it is translated afresh. -/
def mayRecord (g : Group) (op : MemOp) : Bool :=
  op.vec || op.logged || op.kind.isUse || accHeld g || (op.kind.isLoad && !op.kind.stays && op.elems.any fun el => el.loc = .system)
    || (op.kind.writes && op.elems.any fun el => el.loc = .window)
def vecInFlight (g : Group) : Nat := ((g.acc.filter (mayRecord g) ++ g.recs.map (·.op)).map (·.id)).eraseDups.length

/-- Issues one record again, translating afresh: behind an instruction that is logged it keeps its place and waits, as later accesses do. A
translation fault logs it again, while the group has no log entry; another check halts the group at it, or loses an instruction of one that
has ended (R273, log entry 23). Of a record that an instruction reads before it takes effect (launch R86, gchain R179) every fault halts the
group, and the instruction begins again. -/
def reissue (mg : Mgmt) (m : Mach) (c s : Nat) (r : Rec) : Mach :=
  let g := grp m c s
  if (!g.active && g.status != .gone) || g.recs.any (·.op.id < r.op.id) then m
  else
    let (res, m) := checkOp mg m c g r.op
    let drop := fun (g : Group) => { g with recs := g.recs.filter fun q => q.op.id != r.op.id }
    let report := fun (code e va info : Nat) =>
      ({ cls := 2, code := code, word := r.op.word, clause := r.op.clause, addr := va, elem := e, info := info } : Report)
    let again := fun (g : Group) => { drop g with acc := g.acc.filter fun o => o.id != r.op.id, held := none }
    match res with
    | .ok els cut => enterOp (modGrp m c s drop) c s r.op els cut
    | .fault e va l k =>
      if r.op.kind = .held then haltFault (modGrp m c s again) c s (report fXlate e va k)
      else match (if accHeld g then none else freeLog m c) with
        | some i => holdOp (modGrp m c s drop) c s i r.op e va l k
        | none => m
    | .halt code e va info =>
      if g.status = .gone then settleGone (modGrp m c s drop) c s
      else haltFault (if r.op.kind = .held then modGrp m c s again else m) c s (report code e va info)

/-- A TILE-SPILL recorded for the group halts it before it next issues (R320). -/
def takeSpill (m : Mach) (c s : Nat) : Mach :=
  let g := grp m c s
  match g.spill with
  | some t =>
    if !g.active then m
    else
      let r : Report := { cls := 2, code := fSpill, word := g.pcword, clause := g.pc, addr := t.2, info := t.1 }
      modGrp (haltGroup m c s r) c s fun g => { g with spill := none }
  | none => m

/-- Clears CLASS and CODE and lets the group issue again, its records first, oldest first; off the cores they wait for the slot. -/
def resumeGroup (mg : Mgmt) (m : Mach) (c s : Nat) : Mach :=
  let m := modGrp m c s fun g =>
    { g with status := .running, rep := { g.rep with cls := 0, code := 0 }, vstart := g.vkept.getD g.vstart, vkept := none }
  if (runningYard m (grp m c s).vf).isNone then m
  else takeSpill ((grp m c s).recs.foldl (fun m r => reissue mg m c s r) m) c s

end Sys2Proof.Machine
end

