-- ==== Sys2Proof/Machine/Operands.lean ====
section
/-! DEFINITION. Reading operands and retiring instructions: blocking and trapping on empty sources (R34, R35, R262), predicates
(R59), system registers (R45), the advance of the control stream (R53, R271) and of the VPs (R260 to R264). -/

namespace Sys2Proof.Machine

/-! ## The control stream -/

/-- The clause that follows in address order (R53). -/
def seqClause (a : Act) : Nat := (a.clause + 8 * (a.count + 1)) % 2 ^ 64

/-- Where an instruction that is done leads: the next word, or the first of the sequential clause. -/
def nextPlace (a : Act) : Nat × Nat := if a.word < a.count then (a.clause, a.word + 1) else (seqClause a, 1)
/-- Frees the core's issue slot; the candidate that ended its clause is kept for the next choice (R254). -/
def freeIssue (skip : Bool) (m : Mach) : Mach :=
  let l : Last := { slot := m.act.slot, uid := (me m).uid, vec := m.act.vec, skip := skip }
  modCore m m.act.core fun k =>
    { k with issue := none, last := mset none k.last ((k.issue.map (·.key)).getD 0) (some l) }
/-- Ends the clause on the core's issue slot; greedy retention ends with it if it had Y = 1 or ended in yield (R254). -/
def endIssue (m : Mach) : Mach :=
  freeIssue ((core m m.act.core).issue.any (·.y) || (!m.act.vec && (me m).yielded)) m
/-- A suspension: a clause boundary at which the instruction has not taken effect (R256). -/
def leaveIssue (m : Mach) : Mach := freeIssue false m

/-- STEP halts the group after one clause of either stream (R332). -/
def afterClause (m : Mach) : Mach :=
  if (me m).stepping then haltGroup m m.act.core m.act.slot { code := fDriver } else m

/-- The control stream continues at a clause address. -/
def gotoC (m : Mach) (pc : Nat) : Mach :=
  afterClause (endIssue (modMe m fun g => { g with pc := pc, pcword := 1, held := none, begunC := false }))
/-- Event 0x03 (R312). -/
def countInstr (m : Mach) : Mach := count1 m (me m).vf 3
/-- The control stream goes on: the next word, or the sequential clause (R53). -/
def advanceC (m : Mach) : Mach :=
  if m.act.word < m.act.count then
    let m := modMe m fun g => { g with pcword := m.act.word + 1, held := none }
    modCore m m.act.core fun k => { k with issue := k.issue.map fun i => { i with next := m.act.word + 1 } }
  else gotoC m (seqClause m.act)
/-- The instruction is done. -/
def retireC (m : Mach) : Mach := advanceC (countInstr m)
/-- A taken transfer; later fetches see what the group had seen here (R57). -/
def jumpC (m : Mach) (target : Nat) : Mach :=
  let fl := fetchable m (me m).vis
  gotoC (modMe (countInstr m) fun g => { g with fetchFloor := mmax g.fetchFloor fl }) target
/-- The clause suspends at this instruction (R34, R256). -/
def suspendC (m : Mach) (w : Wait) : Mach := leaveIssue (modMe m fun g => { g with waitC := some w })

/-! ## Sources of C-class instructions -/

/-- A source field: its code and trap bit, or the v registers and elements it reads. -/
inductive CSrc where
  | r (code : BitVec 8) (trap : Bool)
  | v (regs es : List Nat) (trap : Bool)
  deriving DecidableEq, Repr

/-- The VPs 0 to vl − 1 whose bit of a mask decides emptiness (R117). -/
def below (n : Nat) : List Nat := List.range n

/-- What an empty source waits for; none when it is full. pops counts the entries that earlier fields of the instruction take
from the same queue. -/
def srcWait (g : Group) (pops : List Nat) : CSrc → Option Wait
  | .v is es _ =>
    let rs := is.flatMap fun i => es.map (Reg.v i)
    if rs.any fun r => getFe g r != .full then some (.full rs) else none
  | .r code _ =>
    let n := code.toNat
    if n < 0x80 then if getFe g (.x n) != .full then some (.full [.x n]) else none
    else if n < 0x88 then if getFe g (.p (n - 0x80)) != .full then some (.full [.p (n - 0x80)]) else none
    else if n < 0x90 then
      let rs := (below g.vl).map (Reg.c (n - 0x88))
      if rs.any fun r => getFe g r != .full then some (.full rs) else none
    else if n < 0xA0 then
      if (mget [] g.res (n - 0x90)).length ≤ (pops.filter (· == n)).length then some (.kFilled (n - 0x90)) else none
    else if n == 0xC9 then if g.qout.length ≤ (pops.filter (· == n)).length then some .qoutFilled else none
    else none

def CSrc.trap : CSrc → Bool
  | .r _ t => t | .v _ _ t => t
def CSrc.code : CSrc → Nat
  | .r c _ => c.toNat | .v is _ _ => is.headD 0

/-- The first empty source in field order: its trap bit decides whether the instruction traps or waits (log entry 112). -/
def firstEmpty (g : Group) : List Nat → List CSrc → Option (CSrc × Wait)
  | _, [] => none
  | pops, s :: r =>
    match srcWait g pops s with
    | some w => some (s, w)
    | none => firstEmpty g (s.code :: pops) r

/-- What each empty source waits for. -/
def emptyWaits (g : Group) : List Nat → List CSrc → List Wait
  | _, [] => []
  | pops, s :: r => (srcWait g pops s).toList ++ emptyWaits g (s.code :: pops) r
def waitRegs : Wait → List Reg
  | .full rs => rs
  | _ => []
/-- The code of a result FIFO or of qout. -/
def queueCode (n : Nat) : Bool := (0x90 ≤ n && n < 0xA0) || n == 0xC9
/-- An instruction with empty sources is ready again when all of them are full; of its queues, when each holds what the instruction pops
(R34, R256, R290). -/
def sourcesWait (g : Group) (srcs : List CSrc) : Wait :=
  let ws := emptyWaits g [] srcs
  let rs := ws.flatMap waitRegs
  match rs, (if ws.any fun w => waitRegs w == [] then (srcs.map CSrc.code).filter queueCode else []) with
  | rs, [] => .full rs
  | [], [q] => if q == 0xC9 then .qoutFilled else .kFilled (q - 0x90)
  | rs, qs => .sources rs qs []
/-- The lowest element of an empty v source; 0 for every other. -/
def emptyElem (g : Group) : CSrc → Nat
  | .v is es _ => (es.find? fun e => is.any fun i => getFe g (.v i e) != .full).getD 0
  | _ => 0

/-- Reading registers makes what came with their fills part of the reader's past (R196). -/
def absorbSrcs (srcs : List CSrc) (g : Group) : Group :=
  srcs.foldl (fun g s => match s with
    | .r c _ => if c.toNat < 0x80 then absorbReg g true c.toNat [] else g
    | .v is es _ => is.foldl (fun g i => absorbReg g false i es) g) g
/-- The first v register among some whose storage fails, with its element. -/
def firstFailing (g : Group) (rs : List (Nat × Nat)) : Nat × Nat := (rs.find? fun r => getFe g (.v r.1 r.2) == .failing).getD (0, 0)
def srcLanes : CSrc → List (Nat × Nat)
  | .v is es _ => is.flatMap fun i => es.map fun e => (i, e)
  | _ => []
/-- Unit code of the register files (R335). -/
def regUnit : Nat := 5
/-- R34: blocks, or takes EMPTY-SOURCE, before any part of the instruction takes effect; reads of failing storage are uncorrectable
(R335); else goes on. -/
def withSrcs (srcs : List CSrc) (k : Mach → Mach) (m : Mach) : Mach :=
  match firstEmpty (me m) [] srcs with
  | none => k (modMe m (absorbSrcs srcs))
  | some _ =>
    let g := healed (me m)
    match firstEmpty g [] srcs with
    | some (s, _) => if s.trap then faultAct m fEmpty (emptyElem g s) 0 s.code else suspendC m (sourcesWait g srcs)
    | none =>
      let r := firstFailing (me m) (srcs.flatMap srcLanes)
      faultAct m fUncorr r.2 (regAddr m m.act.core m.act.slot r.1 r.2) regUnit

/-- Positions of a step (R138). -/
def loopK (fmt : BitVec 3) : Nat :=
  let n := fmt.toNat
  if n ≤ 1 then 16 else if n == 4 || n == 6 then 64 else 32
/-- Elements of A in a v register (R140). -/
def loopEpw (fmt : BitVec 3) : Nat :=
  let n := fmt.toNat
  if n ≤ 1 then 2 else if n == 4 then 8 else 4
/-- The accepted loop of a cluster that matches a loop of one of its broadcasts. -/
def partner (m : Mach) (row : Bool) (l : Loop) (k : Nat) : Option Loop :=
  (clus m k).loops.find? fun q =>
    q.vf == l.vf && (if row then q.rowP == l.rowP && q.rowK == l.rowK else q.colP == l.colP && q.colK == l.colK)
/-- The mask by which a loop's positions contribute: its own, or the column source's, where that loop has been accepted (R142, R144,
R161). -/
def loopMaskOf (m : Mach) (l : Loop) : Option Nat :=
  match l.colP with
  | [] => some l.mask
  | k :: _ => (partner m false l k).map (·.mask)
/-- A position that some of a loop's participants on a bus may read: the loop alone where the bus has no effect; the source for every
participant, those whose mask is not known yet for every position; no other loop, since what the field of another names is not used (R161). -/
def busPosition (m : Mach) (row : Bool) (l : Loop) (p : Nat → Bool) : Bool :=
  let ps := if row then l.rowP else l.colP
  let some_ := fun (mask : Option Nat) => (List.range (l.steps * loopK l.fmt)).any fun j => p j && (!l.sparse || mask.all (bitAt · j))
  match ps with
  | [] => some_ (loopMaskOf m l)
  | k :: _ => clusterOf l.core == k && ps.any fun q => some_ ((partner m row l q).bind (loopMaskOf m))
/-- A v register that an unfinished loop of the group reads: of A where it holds a position that contributes, of the scales where it holds that
of a block that is used (R140, R143, R157). -/
def loopReads (m : Mach) (nregs i : Nat) (l : Loop) : Bool :=
  let scaled := 2 ≤ l.fmt.toNat && l.fmt.toNat ≤ 4
  (match l.a with
   | .regs a => a ≤ i && busPosition m true l fun p => p / loopEpw l.fmt == i - a
   | .tile _ _ => false)
    || (scaled && i + 2 == nregs && busPosition m true l fun _ => true)
    || (scaled && i + 1 == nregs && busPosition m false l fun _ => true)
/-- The unfinished loops of the group in a slot: in the sequencer, stopped in a saved image of a tile, and stopped on a tile of a core that
the group has left (R166, R168, R300). -/
def groupLoops (m : Mach) (c s : Nat) : List Loop :=
  ((clus m (clusterOf c)).loops.filter fun l => l.core == c && l.slot == s)
    ++ ((grp m c s).imgs.flatMap fun kv => (kv.2.map (·.loops)).getD [])
    ++ (mget {} m.saved (grp m c s).vf).loops.filter fun l => l.uid == (grp m c s).uid
/-- A v register that an outstanding push, a logged instruction or an unfinished loop of the group still reads (R157, R231, R326). -/
def busyV (m : Mach) (c s i : Nat) : Option Wait :=
  let g := grp m c s
  if g.pushes.any fun p => p.src + p.moved ≤ i && i < p.src + p.count then some (.pushRead i)
  else if g.acc.any fun o => (o.logged || o.kind.isUse) && o.srcs.contains i then some (.logRead i)
  else if (groupLoops m c s).any fun l => l.uid == g.uid && loopReads m g.nregs i l then some (.loopReg i)
  else none

/-- R35: an instruction whose destination is claimed waits until the claim ends. -/
def dstWait (m : Mach) (ds : List Reg) : Option Wait :=
  if ds.any fun r => getFe (me m) r == .claimed then some (.unclaimed ds)
  else ds.findSome? fun r => match r with | .v i _ => busyV m m.act.core m.act.slot i | _ => none
def withDst (ds : List Reg) (k : Mach → Mach) (m : Mach) : Mach :=
  match dstWait m ds with
  | some w => suspendC m w
  | none => k m

/-- R59: a predicate p_s; empty, it blocks, and false, the instruction has no effect. -/
def withPred (pn : Bool) (ps : BitVec 3) (k : Mach → Mach) (m : Mach) : Mach :=
  if ps == 0 then k m
  else if getFe (me m) (.p ps.toNat) != .full then suspendC m (.full [.p ps.toNat])
  else if getP (me m) ps.toNat != pn then k m
  else retireC m

/-- R37, R73: no field may name a v register at or above the declared count. -/
def declared (vs : List Nat) (k : Mach → Mach) (m : Mach) : Mach :=
  if vs.any fun i => (me m).nregs ≤ i then faultAct m fIllegal 0 0 0 else k m

/-! ## System registers (R45) -/

/-- The yard's slot-table view: cycles left of the usable time (R307). -/
def cyclesPerUs : Nat := 1400
def switchUs (y : Yard) : Nat := if y.lane then 8 else 40
/-- The rows in use from one on, in order of running. -/
def rowsAfter (mg : Mgmt) : List Nat :=
  let used := (List.range mg.nrows).filter fun r => (mget {} mg.rows r).rv
  (used.filter (mg.row < ·)) ++ (used.filter (· ≤ mg.row))
def rowRun (mg : Mgmt) (r y : Nat) : Option Nat :=
  let e := mget {} (mget {} mg.rows r).ents y
  if e.run then some e.vf else none
/-- Microseconds from the start of the running row to the next boundary at which a yard changes hands. -/
def nextEdgeUs (mg : Mgmt) (y : Nat) : List Nat → Nat → Nat → Option Nat
  | [], _, _ => none
  | r :: rs, prev, t =>
    if rowRun mg r y != rowRun mg prev y then some t else nextEdgeUs mg y rs r (t + (mget {} mg.rows r).len)
/-- E_next as a time, when an edge is scheduled. -/
def nextEdge (mg : Mgmt) (m : Mach) (y : Nat) : Option Nat :=
  (nextEdgeUs mg y (rowsAfter mg) mg.row (mget {} mg.rows mg.row).len).map fun t => m.rowStart + t * cyclesPerUs
/-- The edge that ends the usable time in a yard: the end of a donation, or the table's (R307, R309). -/
def edgeTime (mg : Mgmt) (m : Mach) (y : Nat) : Option Nat := (yrun m y).gift.orElse fun _ => nextEdge mg m y
/-- Main-clock cycles, at the current clock, until GUARD before the edge (R307, R351). -/
def slotLeft (mg : Mgmt) (m : Mach) (y : Nat) : Nat :=
  match edgeTime mg m y with
  | some t => (t - mg.guard * cyclesPerUs - m.now) * mg.clock / 100
  | none => 2 ^ 64 - 1

/-- The value of a readable system register other than qout, as it stands now: a read of fflags waits for no vf clause of the run (log
entry 130). -/
def sysReg (mg : Mgmt) (m : Mach) (code : Nat) : Word :=
  let g := me m
  let c := m.act.core
  let n : Nat := match code with
    | 0xC0 => g.vl | 0xC1 => g.vlmax | 0xC2 => g.vstart | 0xC3 => g.vdirty.toNat | 0xC4 => g.nregs
    | 0xC5 => fullBits 8 fun t =>
        (mget {} (core m c).own t).owner == some { vf := g.vf, slot := m.act.slot, uid := g.uid }
    | 0xCA => g.fflags.toNat
    | 0xCB => (if g.ftz then 16 else 0) + g.drm.toNat
    | 0xCC => fieldW c 24 16 + m.act.slot
    | 0xCD => fieldW g.laneB 11 8 + g.laneL
    | 0xCE => g.vf
    | 0xCF => groupYard mg c g
    | 0xD0 => mg.row
    | 0xD1 => slotLeft mg m (groupYard mg c g)
    | _ => 0
  BitVec.ofNat 64 n

/-- Pops the oldest result word; a command with REL adds its writes to the visible set (R207, R246). -/
def popK (g : Group) (q : Nat) : Word × Group :=
  match mget [] g.res q with
  | [] => (0, g)
  | r :: rs => (r.val, { g with res := mset [] g.res q rs, vis := mmax g.vis r.rel, known := mmax g.known r.writes })
def popQout (g : Group) : Word × Group :=
  match g.qout with
  | [] => (0, g)
  | v :: r => (v.setWidth 64, { g with qout := r })

/-- Takes one x, p, k or system-register source: its value, and the pop that reading a queue makes. -/
def takeX (mg : Mgmt) (code : BitVec 8) (m : Mach) : Word × Mach :=
  let n := code.toNat
  if n < 0x80 then (getX (me m) n, m)
  else if n < 0x88 then (if getP (me m) (n - 0x80) then 1 else 0, m)
  else if 0x90 ≤ n && n < 0xA0 then let (v, g) := popK (me m) (n - 0x90); (v, modMe m fun _ => g)
  else if n == 0xC9 then let (v, g) := popQout (me m); (v, modMe m fun _ => g)
  else (sysReg mg m n, m)
/-- The sources of several fields, in field order. -/
def takeXs (mg : Mgmt) : List (BitVec 8) → Mach → List Word × Mach
  | [], m => ([], m)
  | c :: r, m =>
    let (v, m) := takeX mg c m
    let (vs, m) := takeXs mg r m
    (v :: vs, m)

/-! ## V-class instructions -/

def myRun (m : Mach) : Run :=
  (me m).run.getD { num := 0, vl := 0, seq := 0, ux := [], uwait := [], uopen := [], upend := [], diverged := false, pc := 0, w := 1, rp := none, from_ := 0 }
def vpIdle : VpPos := { pc := 0, w := 1, idle := true, parked := none }
def vpPos (g : Group) (e : Nat) : VpPos := mget vpIdle g.vps e
def setVps (g : Group) (es : List Nat) (f : VpPos → VpPos) : Group :=
  { g with vps := es.foldl (fun t e => mmod vpIdle t e f) g.vps }
/-- Every non-idle VP of the run at its position (R264). -/
def livePositions (g : Group) : List (Nat × VpPos) := g.vps.filter fun kv => !kv.2.idle

/-- The clause address of a VP outside a run (R37, R47). -/
def pcOf (g : Group) (e : Nat) : Nat := ((g.pcs.find? fun kv => kv.1 == e).map Prod.snd).getD g.entry
/-- The run ends; its VPs' program counters stay where it left them (R47). -/
def endRun (g : Group) : Group :=
  match g.run with
  | none => g
  | some r =>
    { g with run := none, vps := [],
             pcs := (List.range r.vl).foldl (fun t e => mput e (if r.diverged then (vpPos g e).pc else r.pc) t) g.pcs }

/-- Moves executing VPs to a position: in lock-step all share one. -/
def moveVps (m : Mach) (es : List Nat) (pc w : Nat) : Mach :=
  modMe m fun g =>
    if (myRun m).diverged then setVps g es fun p => { p with pc := pc, w := w, parked := none }
    else modRun g fun r => { r with pc := pc, w := w, from_ := 0 }
/-- Ends the clause the vector stream issues, with the rotation point of R264. -/
def endClauseV (m : Mach) (back : Bool) : Mach :=
  let b := back || ((core m m.act.core).issue.any (·.back))
  let m := modMe m fun g => modRun { g with begunV := false } fun r =>
    if r.diverged then { r with rp := if b then some m.act.clause else none } else r
  afterClause (endIssue m)
/-- The instruction is done in the executing VPs: the next word, or the sequential clause. -/
def retireV (m : Mach) : Mach :=
  let m := countInstr m
  if m.act.word < m.act.count then
    let m := moveVps m m.act.vps m.act.clause (m.act.word + 1)
    modCore m m.act.core fun k => { k with issue := k.issue.map fun i => { i with next := m.act.word + 1 } }
  else endClauseV (moveVps m m.act.vps (seqClause m.act) 1) false

/-- A register of VP e, or of no VP. -/
def Reg.ofVp (e : Nat) : Reg → Bool
  | .v _ k | .c _ k => k == e
  | .x _ | .p _ => true
/-- The part of a wait that concerns VP e: a VP that parks waits for its own sources alone (R264). -/
def Wait.ofVp (e : Nat) : Wait → Wait
  | .full rs => .full (rs.filter (Reg.ofVp e))
  | .sources rs qs us => .sources (rs.filter (Reg.ofVp e)) qs us
  | .unclaimed rs => .unclaimed (rs.filter (Reg.ofVp e))
  | .lane _ ls qs out q => .lane e ls qs out q
  | .own (some _) => .own (some e)
  | w => w
/-- The instruction blocks at VP e: in lock-step the clause suspends and later resumes there; in the diverged phase the VPs
below e go on and the others park, each for what it waits for itself (R262, R264). -/
def blockV (m : Mach) (e : Nat) (w : Wait) : Mach :=
  if !(myRun m).diverged then
    leaveIssue (modMe m fun g => modRun { g with waitV := some w } fun r => { r with from_ := e, past := nextPlace m.act })
  else
    let done := m.act.vps.filter (· < e)
    let held := m.act.vps.filter (e ≤ ·)
    let m := held.foldl (fun m e => modMe m fun g =>
      setVps g [e] fun p => { p with pc := m.act.clause, w := m.act.word, parked := some (w.ofVp e) }) m
    let m := { m with act := { m.act with vps := done } }
    if done.isEmpty then endClauseV m true
    else
      let m := modCore m m.act.core fun k => { k with issue := k.issue.map fun i => { i with vps := done, back := true } }
      retireV m

/-- A V-class fault at VP e: the VPs below it have completed the instruction (R262, R323). -/
def faultV (m : Mach) (e : Nat) (code info : Nat) : Mach :=
  let r := actReport m code e 0 info
  let m := if (myRun m).diverged then
      let done := m.act.vps.filter (· < e)
      modMe m fun g => setVps g done fun p => { p with pc := (nextPlace m.act).1, w := (nextPlace m.act).2 }
    else modMe m fun g => modRun g fun r => { r with from_ := e, past := nextPlace m.act }
  haltGroup m m.act.core m.act.slot r
/-- A V-class fault before any VP has taken part. -/
def faultV0 (m : Mach) (e : Nat) (code addr info : Nat) : Mach :=
  haltFault m m.act.core m.act.slot (actReport m code e addr info)

/-- A source operand of a lane instruction. -/
structure VSrc where
  code : BitVec 8
  wide : Bool
  trap : Bool
  deriving DecidableEq, Repr

/-- The value of a v or c register, uniform x or vpid operand in VP e (R118, R263). -/
def vValue (g : Group) (s : VSrc) (e : Nat) : Word :=
  let n := s.code.toNat
  if n < 0x40 then getW g s.wide n e
  else if n < 0x48 then (if getC g (n - 0x40) e then 1 else 0)
  else if n == 0x4A then BitVec.ofNat 64 e
  else if 0x80 ≤ n then
    let x := if n == 0x80 then 0 else mget 0 ((g.run.map (·.ux)).getD []) (n - 0x80)
    if s.wide then x else x &&& 0xFFFFFFFF
  else 0
def isQueueSrc (s : VSrc) : Bool := s.code == 0x48 || s.code == 0x4B
/-- The queue an operand pops in VP e: qin, or the link into e (R42). -/
def popsQin (s : VSrc) (e : Nat) : Bool := s.code == 0x4B || e == 0

/-- The v or c registers a source names in VP e. -/
def vSrcRegs (s : VSrc) (e : Nat) : List Reg :=
  let n := s.code.toNat
  if n < 0x40 then (regsOf s.wide n).map fun i => Reg.v i e
  else if n < 0x48 then [.c (n - 0x40) e]
  else []
/-- A uniform x register that was empty at the vf and has not been captured yet (R36, R263). -/
def Run.awaits (r : Run) (i : Nat) : Bool := r.uwait.contains i || r.uopen.contains i
/-- What a register or uniform source waits for in the active VPs (R34, R263). -/
def vSrcWait (g : Group) (act : List Nat) (s : VSrc) : Option Wait :=
  let n := s.code.toNat
  let rs := act.flatMap (vSrcRegs s)
  if rs.any fun r => getFe g r != .full then some (.full rs)
  else if 0x80 ≤ n && g.run.any (·.awaits (n - 0x80)) && !act.isEmpty then some (.uniform (n - 0x80))
  else none
def vEmptyVp (g : Group) (act : List Nat) (s : VSrc) : Nat :=
  (act.find? fun e => (vSrcRegs s e).any fun r => getFe g r != .full).getD (act.headD 0)

/-- What one VP's execution of the instruction does. -/
inductive VStep where
  | done (g : Group)
  | block (w : Wait)
  | trap (code : Nat)

/-- Executes the instruction in ascending VP order until one VP blocks or traps. -/
def vLoop (f : Group → Nat → VStep) : List Nat → Group → Group × Option (Nat × VStep)
  | [], g => (g, none)
  | e :: r, g => match f g e with
    | .done g => vLoop f r g
    | st => (g, some (e, st))

/-- Pops one queue operand. -/
def popQ (g : Group) (s : VSrc) (e : Nat) : Option (Lane × Group) :=
  if popsQin s e then match g.qin with
    | [] => none
    | v :: r => some (v, { g with qin := r })
  else match mget [] g.links (e - 1) with
    | [] => none
    | v :: r => some (v, { g with links := mset [] g.links (e - 1) r })

/-- Takes the operands of VP e in field order (R118). -/
def vTake (e : Nat) : List VSrc → Group → List Word → Except VSrc (List Word × Group)
  | [], g, acc => .ok (acc.reverse, g)
  | s :: r, g, acc =>
    if isQueueSrc s then match popQ g s e with
      | none => .error s
      | some (v, g) => vTake e r g (v.setWidth 64 :: acc)
    else vTake e r g (vValue g s e :: acc)

/-- Pushes entries where a queue destination leads in VP e; none when there is no room (R42, R129). -/
def pushQ (g : Group) (code : BitVec 8) (e : Nat) (vs : List Lane) : Option Group :=
  let vl := (g.run.map (·.vl)).getD 0
  if code == 0x4B || e + 1 == vl then
    if g.qout.length + vs.length ≤ 16 then some { g with qout := g.qout ++ vs } else none
  else
    let q := mget [] g.links e
    if q.length + vs.length ≤ 4 then some { g with links := mset [] g.links e (q ++ vs) } else none

/-- Where a lane result goes. -/
inductive VDst where
  | none
  /-- A register or pair of kind vd, a queue code included (R68). -/
  | v (code : BitVec 8) (wide : Bool)
  /-- Several registers from a base (vunpack). -/
  | many (base n : Nat)
  | c (i : Nat)
  deriving DecidableEq, Repr

def vDstRegs (d : VDst) : List Nat :=
  match d with
  | .v c wide => if c.toNat < 0x40 then regsOf wide c.toNat else []
  | .many b n => (List.range n).map (b + ·)
  | _ => []

/-- Writes the results of VP e; several values only for VDst.many, or for the two entries of a 64-bit qput. -/
def vPut (g : Group) (d : VDst) (e : Nat) (vals : List Word) : Option Group :=
  match d with
  | .none => some g
  | .c i => some (putC g i e ((vals.headD 0).getLsbD 0))
  | .many b _ => some (vals.zipIdx.foldl (fun g p => putV g (b + p.2) e (p.1.setWidth 32)) g)
  | .v code wide =>
    if code.toNat < 0x40 then some (putW g wide code.toNat e (vals.headD 0))
    else pushQ g code e (vals.map fun v => v.setWidth 32)

/-- A register result whose sources include a queue: the destination is claimed and filled at completion (R33). -/
def vFills (d : VDst) (e : Nat) (vals : List Word) : List Fill :=
  match d with
  | .none => []
  | .c i => [{ reg := .c i e, val := vals.headD 0 &&& 1 }]
  | .many b _ => vals.zipIdx.map fun p => { reg := .v (b + p.2) e, val := p.1 &&& 0xFFFFFFFF }
  | .v code wide =>
    let i := code.toNat
    let x := vals.headD 0
    if 0x40 ≤ i then []
    else if wide then [{ reg := .v i e, val := x &&& 0xFFFFFFFF, hi := some (.v (i + 1) e, x >>> 32) }]
    else [{ reg := .v i e, val := x &&& 0xFFFFFFFF }]
/-- Claims registers that fills will make full; x0, p0 and c0 are never empty (R29, R33). -/
def claimFor (g : Group) (fs : List Fill) : Group :=
  { setFes g .claimed (fs.flatMap fillRegs) with fills := g.fills ++ fs }
/-- A result of VP e: written in its own cycle, or claimed when a queue was read. -/
def vDeliver (g : Group) (srcs : List VSrc) (d : VDst) (e : Nat) (vals : List Word) : Option Group :=
  let fs := vFills d e vals
  if srcs.any isQueueSrc && !fs.isEmpty then some (claimFor g fs) else vPut g d e vals

/-- A lane computation: from the VP's number, operands and rounding state to its values, flags and new rounding state. -/
abbrev LaneFn := Nat → List Word → Lane → List Word × BitVec 5 × Lane

/-- The result goes into a queue (R68). -/
def queueDst : VDst → Bool
  | .v code _ => 0x40 ≤ code.toNat
  | _ => false
/-- The instruction can take the operands of VP e and push its result: entries popped, room for entries pushed (R118, R129, R256). -/
def laneWait (srcs : List VSrc) (d : VDst) (e : Nat) : Wait :=
  let n := fun (c : BitVec 8) => (srcs.filter fun s => s.code == c).length
  let out := match d with | .v c wide => if 0x40 ≤ c.toNat then (if wide then 2 else 1) else 0 | _ => 0
  .lane e (n 0x48) (n 0x4B) out (match d with | .v c _ => c == 0x4B | _ => false)
/-- One VP's execution: operands, computation, result. A fill of a queue by a VP of a diverged run takes its place after the VP's earlier
accesses (R196). -/
def vStep1 (srcs : List VSrc) (d : VDst) (f : LaneFn) (g : Group) (e : Nat) : VStep :=
  match vTake e srcs g [] with
  | .error s => if s.trap then .trap s.code.toNat else .block (laneWait srcs d e)
  | .ok (vals, g') =>
    if queueDst d && g.run.any (·.diverged) && !vpClear g e then .block (.own (some e))
    else
    let sr := mget 1 g'.srs e
    let (out, fl, sr') := f e vals sr
    match vDeliver { g' with fflags := g'.fflags ||| fl, srs := mset 1 g'.srs e sr' } srcs d e out with
    | some g => .done g
    | none => .block (laneWait srcs d e)

def vPredOk (g : Group) (pn : Bool) (ps : BitVec 3) (e : Nat) : Bool := ps == 0 || getC g ps.toNat e != pn
/-- The executing VPs that have still to execute the instruction, and those among them whose predicate is true (R59, R262). -/
def vActive (m : Mach) (pn : Bool) (ps : BitVec 3) : List Nat :=
  (m.act.vps.filter ((myRun m).from_ ≤ ·)).filter (vPredOk (me m) pn ps)

/-- The c registers a predicate reads. -/
def vPredWait (m : Mach) (ps : BitVec 3) : Option Wait :=
  let rs := (m.act.vps.filter ((myRun m).from_ ≤ ·)).map (Reg.c ps.toNat)
  if ps != 0 && rs.any (fun r => getFe (me m) r != .full) then some (.full rs) else none

/-- The first register source, in field order, that is empty in an active VP. -/
def vFirstEmpty (g : Group) (act : List Nat) : List VSrc → Option (VSrc × Wait)
  | [] => none
  | s :: r => match vSrcWait g act s with
    | some w => some (s, w)
    | none => vFirstEmpty g act r

/-- What all empty register and uniform sources wait for. -/
def vSourcesWait (g : Group) (act : List Nat) (srcs : List VSrc) : Wait :=
  let ws := srcs.filterMap (vSrcWait g act)
  let rs := ws.flatMap waitRegs
  let us := ws.filterMap fun w => match w with | .uniform i => some i | _ => none
  match rs, us with
  | rs, [] => .full rs
  | [], [u] => .uniform u
  | rs, us => .sources rs [] us
/-- The v registers a lane instruction names. -/
def vNamed (srcs : List VSrc) (d : VDst) : List Nat :=
  (srcs.flatMap fun s => if s.code.toNat < 0x40 then regsOf s.wide s.code.toNat else []) ++ vDstRegs d
def vDstFe (d : VDst) (act : List Nat) : List Reg :=
  match d with
  | .c i => act.map (Reg.c i)
  | d => act.flatMap fun e => (vDstRegs d).map fun i => Reg.v i e

/-- Reading a source in some VPs makes what came with its fills part of the reader's past; of a uniform register, what came with the value
the run captured (R196, R263). -/
def absorbV (act : List Nat) (g : Group) (s : VSrc) : Group :=
  let n := s.code.toNat
  if n < 0x40 then (regsOf s.wide n).foldl (fun g i => absorbReg g false i act) g
  else if 0x80 ≤ n && !act.isEmpty then
    (((g.run.map (·.upend)).getD []).filter fun k => k.reg == n - 0x80).foldl (fun g k => learn g k.vis) g
  else g
/-- What the executing VPs consume becomes part of the past of the group's later instructions: of commands queued after the vf, where the
run is in lock-step (R192, R196, R206). -/
def learnLanes (act : List Nat) (srcs : List VSrc) (m : Mach) : Mach :=
  let r := myRun m
  let add := (srcs.foldl (absorbV act) { me m with vis := [] }).vis
  let m := modMe m fun g => srcs.foldl (absorbV act) g
  if r.diverged then m else gainAt m m.act.core m.act.slot (fun p => r.seq < p.seq) add
def vLanes (s : VSrc) (e : Nat) : List (Nat × Nat) := if s.code.toNat < 0x40 then (regsOf s.wide s.code.toNat).map fun i => (i, e) else []
/-- The checks every lane instruction makes before any VP takes part: the predicate (R59); with a VP in which it is true, declared registers
(R37, R73), register sources (R34), sound storage (R335), the destination (R35). -/
def vGuard (pn : Bool) (ps : BitVec 3) (named : List Nat) (srcs : List VSrc) (d : VDst) (k : List Nat → Mach → Mach)
    (m : Mach) : Mach :=
  let at_ := if (myRun m).diverged then 0 else (myRun m).from_
  match vPredWait m ps with
  | some w => blockV m at_ w
  | none =>
    let act := vActive m pn ps
    let regs := srcs.filter fun s => !isQueueSrc s
    if act != [] && named.any fun i => (me m).nregs ≤ i then faultV0 m (act.headD 0) fIllegal 0 0
    else match vFirstEmpty (me m) act regs with
      | none => match dstWait m (vDstFe d act) with
        | some w => blockV m at_ w
        | none => k act (learnLanes act srcs m)
      | some _ =>
        let g := healed (me m)
        match vFirstEmpty g act regs with
        | some (s, _) =>
          if s.trap then faultV0 m (vEmptyVp g act s) fEmpty 0 s.code.toNat else blockV m at_ (vSourcesWait g act regs)
        | none =>
          let r := firstFailing (me m) (regs.flatMap fun s => act.flatMap (vLanes s))
          faultV0 m r.2 fUncorr (regAddr m m.act.core m.act.slot r.1 r.2) regUnit

/-- A lane instruction in every active VP, in ascending order. -/
def laneInstrN (named : List Nat) (pn : Bool) (ps : BitVec 3) (srcs : List VSrc) (d : VDst) (f : LaneFn) (m : Mach) : Mach :=
  vGuard pn ps named srcs d (fun act m =>
    let (g, stop) := vLoop (vStep1 srcs d f) act (me m)
    let m := modMe m fun _ => g
    match stop with
    | none => retireV m
    | some (e, .block w) => blockV m e w
    | some (e, .trap code) => faultV m e fEmpty code
    | some (_, .done _) => m) m
/-- The same, naming the registers of its operands. -/
def laneInstr (pn : Bool) (ps : BitVec 3) (srcs : List VSrc) (d : VDst) (f : LaneFn) (m : Mach) : Mach :=
  laneInstrN (vNamed srcs d) pn ps srcs d f m

end Sys2Proof.Machine
end

