-- ==== Sys2Proof/Machine/Flags.lean ====
section
/-! DEFINITION. fflags and fmode (R46), and the rounding mode an instruction's field selects (R63, R94). -/

namespace Sys2Proof.Machine

/-- The flags an instruction raises are ORed in as it completes. -/
def orFlags (g : Group) (fl : BitVec 5) : Group := { g with fflags := g.fflags ||| fl }
/-- A write to fflags clears each flag written as 1. -/
def clearFlags (g : Group) (v : Word) : Group := { g with fflags := g.fflags &&& ~~~(v.setWidth 5) }
/-- A write to fmode: FTZ is bit 4, DRM bits 2 to 0; DRM keeps its value for codes 6 and 7. -/
def setFmode (g : Group) (v : Word) : Group :=
  let d : BitVec 3 := v.extractLsb' 0 3
  { g with ftz := v.getLsbD 4, drm := if d == 6 || d == 7 then g.drm else d }

/-- The mode of a rounding code; code 7 is dynamic, and SR where it is not accepted rounds as RNE. -/
def rmOf (code drm : BitVec 3) (sr : Bool) : RM :=
  let c := if code == 7 then drm else code
  match c.toNat with
  | 1 => .rtz | 2 => .rdn | 3 => .rup | 4 => .rna | 5 => if sr then .sr else .rne | _ => .rne

end Sys2Proof.Machine
end

