-- ==== Sys2Proof/Machine/TileUse.lean ====
section
/-! DEFINITION. Accumulator tiles: state, use, save, restore and release (R43, R44, R165 to R168). -/

namespace Sys2Proof.Machine

/-- Bit t of TSAVED and TLOST. -/
def tbit (t : Nat) : BitVec 8 := (1 : BitVec 8) <<< t
def tileSt (m : Mach) (c t : Nat) : TState := (mget {} (core m c).tiles t).st
/-- Sets a tile's state as a Glaze instruction's own progress does, its recorded outcome kept (R182). -/
def rawTileSt (m : Mach) (c t : Nat) (st : TState) : Mach :=
  modCore m c fun k => { k with tiles := mmod {} k.tiles t fun e => { e with st := st } }
def tileOwnOf (m : Mach) (c t : Nat) : TileOwn := mget {} (core m c).own t
def setTileOwn (m : Mach) (c t : Nat) (o : TileOwn) : Mach :=
  modCore m c fun k => { k with own := mset {} k.own t o }
/-- Every version of the doublewords of some ranges reads as they stand: what another context wrote there is out of reach. -/
def blankHist (ranges : List (Nat × Nat)) (m : Mach) : Mach :=
  let hit := fun dw => ranges.any fun r => r.1 ≤ 8 * dw && 8 * dw < r.1 + r.2
  let flat := fun (dw : Nat) =>
    ({ old := BitVec.ofNat 64 (readLe m.mem (8 * dw) 8), by_ := .device, vis := [], fenced := true } : Ver)
  { m with hist := m.hist.map fun kv => if hit kv.1 then (kv.1, kv.2.map fun _ => flat kv.1) else kv }
def zeroTile (m : Mach) (c t : Nat) : Mach := unitWrite m (tileAddr c t) 4096 (zeroRange m.mem (tileAddr c t) 4096)
/-- A tile that has passed to another context: its zero bytes, and no version of what it held (R5, R166). -/
def wipeTile (m : Mach) (c t : Nat) : Mach := blankHist [(tileAddr c t, 4096)] (zeroTile m c t)
/-- The context of a group slot (R44), that of an earlier group of the virtual function in the slot included (log entry 111); an ended group
keeps that of its slot (R273). -/
def ctxOf (m : Mach) (c s : Nat) : Ctx :=
  let g := grp m c s
  { vf := g.vf, slot := (if 64 ≤ s then g.was else s), uid := g.uid }

/-- A write by a unit of the device at a translated address. -/
def devWrite (m : Mach) (by_ : Party) (vis : Vis) (vf : Nat) (loc : Loc) (pa size val : Nat) : Mach :=
  if loc = .system then sysWrite m pa size val
  else if loc = .hbm || winInMem pa then
    if loc = .window && winReadOnly pa then m else memWrite m pa size val by_ vis true
  else winWrite m vf pa size val vis
/-- The latest value at a translated address. -/
def devRead (m : Mach) (vf : Nat) (loc : Loc) (pa size : Nat) : Nat :=
  if loc = .system || loc = .hbm || winInMem pa then readLe m.mem pa size
  else dwBytes (winWord m vf (pa / 8 * 8)) pa size

/-- Changes a context's group, resident or saved, if it has not ended (R166). -/
def modCtx (m : Mach) (h : Ctx) (f : Group → Group) : Mach :=
  match findUid m h.uid with
  | some (c, s) => modGrp m c s f
  | none =>
    let upd := fun (sv : Saved) =>
      { sv with groups := sv.groups.map fun kg => (kg.1, if kg.2.uid == h.uid then f kg.2 else kg.2) }
    { m with saved := mmod {} m.saved h.vf upd }
/-- The gwaits that wait for a tile's outcome complete with a status (R182). -/
def endWaits (t : Nat) (w : Word) (g : Group) : Group :=
  let mine := g.gwaits.filter (·.1 == t)
  { g with gwaits := g.gwaits.filter (·.1 != t), fills := g.fills ++ mine.map fun q => { reg := .x q.2, val := w } }
/-- The outcome recorded for a tile is cleared: gwait reports IDLE (R182). -/
def clearGout (t : Nat) (g : Group) : Group := endWaits t 0 { g with gout := mset {} g.gout t {} }
/-- A transition of a tile's state; of an accumulator tile it clears the outcome recorded by its holder's group (R182). -/
def setTileSt (m : Mach) (c t : Nat) (st : TState) : Mach :=
  if tileSt m c t = st then m
  else
    let m := match (if t < 8 then (tileOwnOf m c t).holder else none) with
      | some h => modCtx m h (clearGout t)
      | none => m
    rawTileSt m c t st
/-- The chain and member for which a context has a tile open as a receiver (R180). -/
def openAt (m : Mach) (h : Ctx) (c t : Nat) : Option (Nat × Nat) :=
  (vfst m h.vf).chains.findSome? fun kv =>
    if !kv.2.used then none
    else (kv.2.members.findIdx? fun q => q.core == c && q.tile == t && q.open_ == some h).map fun i => (kv.1, i)
/-- A tile of a core is open, for whichever context of a virtual function, from a gopen whose receive has not ended (R180). -/
def tileOpen (m : Mach) (vf c t : Nat) : Bool :=
  (vfst m vf).chains.any fun kv => kv.2.used && kv.2.members.any fun q => q.core == c && q.tile == t && q.open_.isSome
/-- Removes the loops of a context on a tile, from the sequencer and from a saved context. -/
def takeLoops (m : Mach) (c t : Nat) (h : Ctx) : List Loop × Mach :=
  let mine := fun (l : Loop) => l.uid == h.uid && l.core == c && l.tile == t
  let kept := ((clus m (clusterOf c)).loops.filter mine)
  let away := (mget {} m.saved h.vf).loops.filter mine
  let m := modClus m (clusterOf c) fun k => { k with loops := k.loops.filter fun l => !mine l }
  let m := { m with saved := mmod {} m.saved h.vf fun sv => { sv with loops := sv.loops.filter fun l => !mine l } }
  (kept ++ away, m)

/-- The yard's place of a core, for a context that is absent: its core by its place in the yard where it last ran (R300). -/
def ctxCore (mg : Mgmt) (m : Mach) (vf c : Nat) : Nat :=
  if (vfst m vf).home.isSome then c else savePos (yardEnt mg (mget {} m.saved vf).yard) c
/-- A receive or send of a context whose tile is lost ends without an outcome, its receive slots free (log entry 138). -/
def dropGlaze (mg : Mgmt) (m : Mach) (c t : Nat) (h : Ctx) : Mach :=
  let c' := ctxCore mg m h.vf c
  let mine := fun (p : Member) => p.core == c' && p.tile == t && p.open_.any (·.uid == h.uid)
  let ended := fun (p : Member) =>
    if mine p then { p with open_ := none, reserved := [], granted := [], credited := [], landed := [] } else p
  let open_ := (vfst m h.vf).chains.any fun kv => kv.2.members.any mine
  let free := fun (r : Map Recv) => r.filter fun kv => kv.2 != .reserved c' t
  let m := modVf m h.vf fun v =>
    { v with sends := v.sends.filter fun d => !(d.core == c' && d.tile == t && d.uid == h.uid),
             chains := v.chains.map fun kv => (kv.1, { kv.2 with members := kv.2.members.map ended }) }
  if !open_ then m
  else if (vfst m h.vf).home.isSome then modClus m (clusterOf c) fun k => { k with recv := free k.recv }
  else
    let upd := fun (kv : Nat × ClusterSave) => (kv.1, if kv.1 == c' / 4 then { kv.2 with recv := free kv.2.recv } else kv.2)
    { m with saved := mmod {} m.saved h.vf fun sv => { sv with clusters := sv.clusters.map upd } }
/-- A failed save: recorded in the holder's context, whose group halts with it before it next issues; what the tile's recorded instruction was
doing is lost with the image, and its record is cleared (R166, R182, R320). -/
def spillFault (mg : Mgmt) (m : Mach) (c t va : Nat) (h : Ctx) : Mach :=
  let m := modCtx (dropGlaze mg m c t h) h fun g =>
    clearGout t { g with tlost := g.tlost ||| tbit t, imgs := mset none g.imgs t none, spill := some (t, va) }
  match findUid m h.uid with
  | none => m
  | some (c, s) =>
    let g := grp m c s
    if g.active then
      let r : Report := { cls := 2, code := fSpill, word := g.pcword, clause := g.pc, addr := va, info := t }
      modGrp (haltGroup m c s r) c s fun g => { g with spill := none }
    else m

/-- Writes the doublewords of a tile to a translated area. -/
def saveDws (m : Mach) (vf : Nat) (loc : Loc) (pa src : Nat) : Nat → Mach
  | 0 => m
  | n + 1 =>
    let m := saveDws m vf loc pa src n
    devWrite m .device [] vf loc (pa + 8 * n) 8 (readLe m.mem (src + 8 * n) 8)

/-- The yard on whose units a context stands: the holder's, for an image of one that is absent none. -/
def ctxYard (mg : Mgmt) (m : Mach) (h : Ctx) : Yard := ((residentYard m h.vf).map (yardEnt mg)).getD {}
/-- A known outcome that a tile's holder has recorded for it is cleared (R182). -/
def dropOutcome (m : Mach) (t : Nat) (h : Ctx) : Mach :=
  modCtx m h fun g => if (mget {} g.gout t).done then clearGout t g else g
/-- The save area of a tile's holder lies among claimed registers: the save waits for the ends of their claims (R51). -/
def saveWait (mg : Mgmt) (m : Mach) (c t : Nat) : Option Wait :=
  (tileOwnOf m c t).holder.bind fun h =>
    match (translate mg m h.vf h.uid .write ((tileOwnOf m c t).save + 0x1000 * t)).1 with
    | .ok pa .window _ => if winInMem pa || !rangeBlocked m pa 4096 then none else some (.window pa 4096)
    | _ => none
/-- Step 2 of R166: the holder's values, tile state and stopped loop go to its save area; its recorded outcome is cleared, whether the
image is saved or lost (R182). -/
def saveImage (mg : Mgmt) (m : Mach) (c t : Nat) : Mach :=
  match (tileOwnOf m c t).holder with
  | none => m
  | some h =>
    let va := (tileOwnOf m c t).save + 0x1000 * t
    let st := tileSt m c t
    let (ls, m) := takeLoops m c t h
    let m := dropOutcome m t h
    let (x, m) := translate mg m h.vf h.uid .write va
    match x with
    | .ok pa loc _ =>
      if (badIn m (tileAddr c t) 4096).isSome || (loc != .system && (badIn m pa 4096).isSome) then spillFault mg m c t va h
      else if loc = .window && !windowOk m (ctxYard mg m h) h.vf pa then spillFault mg m c t va h
      else
        let m := count1 (saveDws m h.vf loc pa (tileAddr c t) 512) h.vf 0x0C
        let m := if loc = .hbm then countN m h.vf 6 64 else m
        modCtx m h fun g =>
          { g with tsaved := g.tsaved ||| tbit t, tlost := g.tlost &&& ~~~tbit t,
                   imgs := mset none g.imgs t (some { st := st, loops := ls }) }
    | _ => spillFault mg m c t va h

/-- Copies a saved image back, doubleword by doubleword. -/
def restoreDws (m : Mach) (vf : Nat) (loc : Loc) (pa dst : Nat) : Nat → Mach
  | 0 => m
  | n + 1 =>
    let m := restoreDws m vf loc pa dst n
    unitWrite m (dst + 8 * n) 8 (writeLe m.mem (dst + 8 * n) 8 (devRead m vf loc (pa + 8 * n) 8))

/-! ## Open receives (R173, R177, R180) -/

def chainOf (v : VfState) (n : Nat) : Chain := mget {} v.chains n
def modChain (m : Mach) (vf n : Nat) (f : Chain → Chain) : Mach := modVf m vf fun v => { v with chains := mmod {} v.chains n f }
def modMember (m : Mach) (vf n i : Nat) (f : Member → Member) : Mach :=
  modChain m vf n fun q => { q with members := modNth f i q.members }
def memberOf (m : Mach) (vf n i : Nat) : Member :=
  ((chainOf (vfst m vf) n).members[i]?).getD { core := 0, tile := 0, rank := 0, parent := 0, expect := 0, slots := 0 }
/-- The children of a member in ascending rank. -/
def childrenOf (q : Chain) (i : Nat) : List Nat :=
  (((List.range 16).flatMap fun r => q.members.zipIdx.filter fun p => p.1.rank == r).filter fun p =>
    p.1.parent == i && p.2 != i).map (·.2)

def loopsOf (m : Mach) (k : Nat) : List Loop := (clus m k).loops
/-- The group of a context, resident or saved, if it has not ended. -/
def ctxGroup (m : Mach) (h : Ctx) : Option Group :=
  match findUid m h.uid with
  | some (c, s) => some (grp m c s)
  | none => ((mget {} m.saved h.vf).groups.find? fun kg => kg.2.uid == h.uid).map Prod.snd
/-- No loop is left on the tile, nor in the image that its opener has of it: the receiver's own value is complete. -/
def ownValueDone (m : Mach) (p : Member) : Bool :=
  (loopsOf m (clusterOf p.core)).all (fun l => !(l.core == p.core && l.tile == p.tile))
    && p.open_.all fun h => (ctxGroup m h).all fun g => (mget none g.imgs p.tile).all fun i => i.loops.isEmpty
/-- A member has a send of a chain that has not ended; in a closing chain it holds its credit and will land (R185). -/
def sendsOn (v : VfState) (n x : Nat) : Bool := v.sends.any fun sd => sd.chain == n && sd.member == x
/-- The contributions of a receive that the adder may take; a closing RANK chain skips the ranks that never sent (R177, R185). -/
def addable (m : Mach) (vf n i : Nat) : List (Nat × Nat × Nat) :=
  let q := chainOf (vfst m vf) n
  let p := memberOf m vf n i
  if p.open_.isNone || (tileOwnOf m p.core p.tile).holder != p.open_ || !ownValueDone m p then []
  else
    let next := (childrenOf q i).drop p.added
    let first := if q.closing then next.find? fun x => p.landed.any (·.1 == x) || sendsOn (vfst m vf) n x else next.head?
    let ready := if q.mode == 1 then p.landed.filter fun l => some l.1 == first else p.landed
    ready.map fun l => (p.core, p.tile, l.1)
/-- Every open receive in a cluster of the virtual functions on the cores, one that drains included: virtual function, chain, member, by core
and tile. -/
def receives (m : Mach) (k : Nat) : List (Nat × Nat × Nat) :=
  (List.range 32).flatMap fun ct =>
    m.vfst.flatMap fun vv =>
      if !vfResident m vv.1 then []
      else vv.2.chains.flatMap fun nq =>
        if !nq.2.used then []
        else (nq.2.members.zipIdx.filter fun p =>
          p.1.open_.isSome && p.1.core == 4 * k + ct / 8 && p.1.tile == ct % 8).map fun p => (vv.1, nq.1, p.2)
/-- Brings the order of ready contributions up to date: those ready before, then the new ones by core and tile. -/
def refreshAdds (m : Mach) (k : Nat) : Mach :=
  let now := (receives m k).flatMap fun r => addable m r.1 r.2.1 r.2.2
  modClus m k fun q => { q with adds := q.adds.filter now.contains ++ now.filter fun a => !q.adds.contains a }
/-- The same for every cluster of a chain, after what can make a contribution of it ready. -/
def refreshChain (m : Mach) (vf n : Nat) : Mach :=
  (((chainOf (vfst m vf) n).members.map fun p => clusterOf p.core).eraseDups).foldl refreshAdds m

/-! ## Holding and releasing -/

/-- The group becomes owner and holder, with its save area recorded (R166); contributions for a receive that is open in it are ready again
(R177). -/
def holdTile (m : Mach) (c s t : Nat) : Mach :=
  let o : TileOwn := { owner := some (ctxOf m c s), holder := some (ctxOf m c s), save := (grp m c s).tsave }
  let m := setTileOwn m c t o
  if (openAt m (ctxOf m c s) c t).isSome then refreshAdds m (clusterOf c) else m

/-- A loop, fill, drain, send or receive of a virtual function that is on this core keeps the tile busy; one that a slot edge has stopped and
left here, its virtual function absent or on the units of another yard, or a class-3 fault has stopped does not (R166, R168, R300). -/
def tileBusy (mg : Mgmt) (m : Mach) (c t : Nat) : Bool :=
  let st := tileSt m c t
  (st = .filling || st = .draining)
    && (tileOwnOf m c t).holder.any (fun h => (residentYard m h.vf).any fun y => (yardEnt mg y).ownsCore mg c)
    && !((clus m (clusterOf c)).loops.any fun l => l.core == c && l.tile == t && (vfst m l.vf).stopped)

/-- The context gives up a tile: no member of its virtual function counts on it as the parent's owner at an edge (R183). -/
def forgetOwner (m : Mach) (vf c t : Nat) : Mach :=
  let clear := fun (p : Member) => if p.core == c && p.tile == t then { p with was := none } else p
  modVf m vf fun v => { v with chains := v.chains.map fun kv => (kv.1, { kv.2 with members := kv.2.members.map clear }) }
/-- A release through tileown (R44): another holder's values are saved first; the tile becomes empty, zero and unowned. -/
def releaseTile (mg : Mgmt) (m : Mach) (c s t : Nat) : Mach :=
  let mine := some (ctxOf m c s)
  let h := (tileOwnOf m c t).holder
  let m := if h != none && h != mine then saveImage mg m c t
    else setTileSt (takeLoops m c t (ctxOf m c s)).2 c t .empty
  forgetOwner (setTileOwn (rawTileSt (wipeTile m c t) c t .empty) c t {}) (grp m c s).vf c t

/-- A write to tileown: each 1 claims, each 0 releases a tile the context owns. -/
def writeTileown (mg : Mgmt) (v : Word) (m : Mach) : Mach :=
  let c := m.act.core
  let s := m.act.slot
  (List.range 8).foldl (fun m t =>
    let o := tileOwnOf m c t
    if v.getLsbD t then setTileOwn m c t { o with owner := some (ctxOf m c s) }
    else if o.owner = some (ctxOf m c s) then releaseTile mg m c s t else m) m
/-- A tile the write releases that is still being written or sent, or whose values cannot be saved yet; the write waits for it. -/
def tileownWait (mg : Mgmt) (m : Mach) (v : Word) : Option Wait :=
  (List.range 8).findSome? fun t =>
    let o := tileOwnOf m m.act.core t
    if v.getLsbD t || o.owner != some (ctxOf m m.act.core m.act.slot) then none
    else if tileBusy mg m m.act.core t then some (.tile t)
    else if o.holder = o.owner then none else saveWait mg m m.act.core t

end Sys2Proof.Machine
end

