-- ==== Sys2Proof/Machine/Registers.lean ====
section
/-! DEFINITION. Writes of system registers (R36, R42, R44 to R46) and of registers that the address map holds (R12, R146, R277,
R315): the register-write rows of the opcode table. -/

namespace Sys2Proof.Machine

/-- Opens v registers in every VP (R36). -/
def openV (g : Group) (v : Word) : Group :=
  (List.range g.nregs).foldl (fun g i =>
    if v.getLsbD i then { g with vfe := mset [] g.vfe i ((List.range g.vlmax).map fun e => (e, FE.opened)) } else g) g
def openX (g : Group) (v : Word) : Group :=
  (List.range 64).foldl (fun g i => if v.getLsbD i then setFe g .opened (.x i) else g) g
/-- The claims a write to vopen or xopen waits for. -/
def vopenClaims (g : Group) (v : Word) : List Reg :=
  (List.range g.nregs).flatMap fun i => if v.getLsbD i then (List.range g.vlmax).map (Reg.v i) else []
def xopenClaims (v : Word) : List Reg := ((List.range 64).filter fun i => v.getLsbD i).map Reg.x

/-- What a write of a value to a scalar destination waits for (R35, R36, R42). -/
def sysDstWait (mg : Mgmt) (m : Mach) (d : BitVec 8) (v : Word) : Option Wait :=
  let g := me m
  let claimed := fun (rs : List Reg) => if rs.any fun r => getFe g r == .claimed then some (Wait.unclaimed rs) else none
  match d.toNat with
  | 0xC5 => tileownWait mg m v
  | 0xC6 => claimed (vopenClaims g v)
  | 0xC7 => claimed (xopenClaims v)
  | 0xC8 =>
    if 16 ≤ g.qin.length then some .qinRoom
    else if g.run.any (·.diverged) && !ctlClear g then some (.own none) else none
  | n => if n < 0x80 then claimed [.x n] else none

/-- The write itself. -/
def writeSys (mg : Mgmt) (d : BitVec 8) (v : Word) (m : Mach) : Mach :=
  match d.toNat with
  | 0xC2 => modMe m fun g => { g with vstart := min v.toNat 1024 }
  | 0xC3 => modMe m fun g => { g with vdirty := g.vdirty &&& ~~~v }
  | 0xC5 => writeTileown mg v m
  | 0xC6 => modMe m fun g => openV g v
  | 0xC7 => modMe m fun g => openX g v
  | 0xC8 => modMe m fun g => { g with qin := g.qin ++ [v.setWidth 32] }
  | 0xCA => modMe m fun g => clearFlags g v
  | 0xCB => modMe m fun g => setFmode g v
  | n => if n < 0x80 then modMe m fun g => putX g n v else m

/-- A scalar result: the instruction suspends, with nothing taken, while its destination is not free; else the sources are taken,
and a destination that a queue feeds is claimed and filled at completion (R33). -/
def deliver (mg : Mgmt) (d : BitVec 8) (queued : Bool) (v : Word) (taken m : Mach) : Mach :=
  match sysDstWait mg m d v with
  | some w => suspendC m w
  | none =>
    if queued && d.toNat < 0x80 then
      retireC (if d == 0 then taken else modMe taken fun g => claimFor g [{ reg := .x d.toNat, val := v }])
    else retireC (writeSys mg d v taken)

/-- An instruction whose only effect is a write of a system register by the acting group. -/
def sysWriteStep (d : BitVec 8) (v : Word) (s : State) : Host.Outcome State Fault Refusal :=
  onMach (fun mg m => match sysDstWait mg m d v with
    | some w => suspendC m w
    | none => writeSys mg d v m) s

def execVopenWrite (v : Word) (s : State) : Host.Outcome State Fault Refusal := sysWriteStep 0xC6 v s
def execXopenWrite (v : Word) (s : State) : Host.Outcome State Fault Refusal := sysWriteStep 0xC7 v s
def execQinWrite (v : Word) (s : State) : Host.Outcome State Fault Refusal := sysWriteStep 0xC8 v s
def execTileownWrite (v : Word) (s : State) : Host.Outcome State Fault Refusal := sysWriteStep 0xC5 v s
def execFmodeWrite (v : Word) (s : State) : Host.Outcome State Fault Refusal := sysWriteStep 0xCB v s
def execVstartWrite (v : Word) (s : State) : Host.Outcome State Fault Refusal := sysWriteStep 0xC2 v s
def execVdirtyClear (v : Word) (s : State) : Host.Outcome State Fault Refusal := sysWriteStep 0xC3 v s
def execFflagsClear (v : Word) (s : State) : Host.Outcome State Fault Refusal := sysWriteStep 0xCA v s

/-- A read of qout into d (R42): an empty qout is an empty source. -/
def execQoutRead (d : BitVec 8) (s : State) : Host.Outcome State Fault Refusal :=
  onMach (fun mg m =>
    if (me m).qout.isEmpty then suspendC m .qoutFilled
    else
      let (v, m1) := takeX mg 0xC9 m
      match sysDstWait mg m d v with
      | some w => suspendC m w
      | none =>
        if d.toNat < 0x80 && d != 0 then modMe m1 fun g => claimFor g [{ reg := .x d.toNat, val := v }] else writeSys mg d v m1) s

def execTileTableWrite (c e : Nat) (v : Word) (s : State) : Host.Outcome State Fault Refusal :=
  onUnit (coreOk c && e < 32) (fun _ m => setTileEnt m c e v) s
def execPackerTimerWrite (k : Nat) (v : Word) (s : State) : Host.Outcome State Fault Refusal :=
  onUnit (clusterOk k) (fun _ m => setTimer m k v) s
/-- CNTSEL (R312, R315): the counter restarts from zero. -/
def setCntsel (m : Mach) (vf i : Nat) (v : Word) : Mach :=
  modVf m vf fun q => { q with cntsel := mset 0 q.cntsel i (v.toNat % 256), cnt := mset 0 q.cnt i 0 }
def execCntselWrite (vf i : Nat) (v : Word) (s : State) : Host.Outcome State Fault Refusal :=
  onUnit (vfOk vf && i < 16) (fun _ m => setCntsel m vf i v) s
/-- The port answers: the sideband always, the mailbox over the host's route, unless the Farrier is re-run or in recovery (R25, R349,
R350). -/
def portUp (mg : Mgmt) (p : Nat) : Bool := p == 2 || (mg.up && !mg.recovery && hostUp mg)
/-- A doubleword of a port's request buffer (R342), 0x1000 × (port − 1) + its offset in the port's registers. -/
def writeRequest (a : Nat) (v : Word) (s : State) : State :=
  if !portUp s.mgmt (1 + a / 0x1000) then s else
  let put := fun (q : Port) => { q with req := (List.range 32).map fun i => if i == a % 0x1000 / 8 then v else (q.req[i]?).getD 0 }
  { s with mgmt := { s.mgmt with ports := mmod {} s.mgmt.ports (1 + a / 0x1000) put } }
/-- A write of a register that has no row of its own by its Access code (R12): a port's request buffer, or through the window that
shows it, where a claimed register waits for the end of its claim (R51). -/
def execRegisterWrite (pa : Nat) (v : Word) (s : State) : Host.Outcome State Fault Refusal :=
  if pa < 0x2000 && pa % 0x1000 < 0x100 && pa % 8 == 0 then .next (writeRequest pa v s)
  else onUnit (winBase ≤ pa && pa < 2 ^ 52 && pa % 8 == 0) (fun _ m => if rangeBlocked m pa 8 then m else winWrite m 0 pa 8 v.toNat []) s

end Sys2Proof.Machine
end

