-- ==== Sys2Proof/Machine/Scalar.lean ====
section
/-! DEFINITION. Scalar instructions of the C class: integer, comparison, predicate and floating point (R105 to R116). -/

namespace Sys2Proof.Machine

/-! ## Integer results (R109 to R112) -/

/-- A 64-bit operand under TYPE's signedness: code 3 is .i64, code 7 is .n64. -/
def intOf (ty : BitVec 4) (w : Word) : Int := if ty == 3 then w.toInt else w.toNat
/-- A result wrapped to 64 bits, or clamped to the range of TYPE. -/
def intRes (ty : BitVec 4) (sat : Bool) (x : Int) : Word := w64 (if sat then clampInt (ty == 3) 64 x else x)
def divInt (a b : Int) : Int := if b == 0 then -1 else Int.tdiv a b
def shlW (a : Word) (n : Nat) : Word := a <<< (n % 64)
def shrW (a : Word) (n : Nat) : Word := a >>> (n % 64)
def sraW (a : Word) (n : Nat) : Word := BitVec.sshiftRight a (n % 64)
def rotW (a : Word) (n : Nat) : Word := a.rotateLeft (n % 64)
/-- R112: condition code cond of A and B. -/
def condInt (cond : BitVec 4) (a b : Word) : Bool :=
  let u := cond.getLsbD 3
  let x : Int := if u then a.toNat else a.toInt
  let y : Int := if u then b.toNat else b.toInt
  match cond.toNat % 8 with
  | 0 => x == y | 1 => x != y | 2 => x < y | 3 => x ≤ y | 4 => y < x | _ => y ≤ x

/-! ## The shared course of a scalar instruction -/

/-- Sources are checked, taken in field order and replaced by one result. -/
def scalarInstr (pn : Bool) (ps : BitVec 3) (d : BitVec 8) (srcs : List (BitVec 8 × Bool)) (f : List Word → Word)
    (s : State) : Host.Outcome State Fault Refusal :=
  onMach (fun mg => withPred pn ps (withSrcs (srcs.map fun p => .r p.1 p.2) fun m =>
    let t := takeXs mg (srcs.map Prod.fst) m
    deliver mg d (srcs.any fun p => p.1 == 0xC9) (f t.1) t.2 m)) s
/-- Two sources. -/
def scalar2 (i : FmtA) (f : Word → Word → Word) (s : State) : Host.Outcome State Fault Refusal :=
  scalarInstr i.pn i.ps i.d [(i.a, i.ta), (i.b, i.tb)] (fun v => f (v.headD 0) (v[1]?.getD 0)) s
def scalar1 (i : FmtA) (f : Word → Word) (s : State) : Host.Outcome State Fault Refusal :=
  scalarInstr i.pn i.ps i.d [(i.a, i.ta)] (fun v => f (v.headD 0)) s
/-- Format I: the immediate is sign-extended to 64 bits. -/
def immOf (i : FmtI) : Word := i.imm.signExtend 64
def scalarImm (i : FmtI) (f : Word → Word) (s : State) : Host.Outcome State Fault Refusal :=
  scalarInstr i.pn i.ps i.d [(i.a, false)] (fun v => f (v.headD 0)) s

/-- A predicate result; an empty destination waits for its claim (R35). -/
def predInstr (pn : Bool) (ps : BitVec 3) (d : BitVec 8) (srcs : List (BitVec 8 × Bool)) (f : List Word → Bool)
    (s : State) : Host.Outcome State Fault Refusal :=
  onMach (fun mg => withPred pn ps (withSrcs (srcs.map fun p => .r p.1 p.2) (withDst [.p (d.toNat - 0x80)] fun m =>
    let t := takeXs mg (srcs.map Prod.fst) m
    retireC (modMe t.2 fun g => putP g (d.toNat - 0x80) (f t.1))))) s

/-! ## Major 0x01 (R109, R110) -/

def execAdd (i : FmtA) (s : State) : Host.Outcome State Fault Refusal :=
  scalar2 i (fun a b => intRes i.ty i.sat (intOf i.ty a + intOf i.ty b)) s
def execSub (i : FmtA) (s : State) : Host.Outcome State Fault Refusal :=
  scalar2 i (fun a b => intRes i.ty i.sat (intOf i.ty a - intOf i.ty b)) s
def execMul (i : FmtA) (s : State) : Host.Outcome State Fault Refusal :=
  scalar2 i (fun a b => intRes i.ty i.sat (intOf i.ty a * intOf i.ty b)) s
def execMulh (i : FmtA) (s : State) : Host.Outcome State Fault Refusal :=
  scalar2 i (fun a b => w64 (intOf i.ty a * intOf i.ty b / 2 ^ 64)) s
def execDiv (i : FmtA) (s : State) : Host.Outcome State Fault Refusal :=
  scalar2 i (fun a b => w64 (divInt (intOf i.ty a) (intOf i.ty b))) s
def execRem (i : FmtA) (s : State) : Host.Outcome State Fault Refusal :=
  scalar2 i (fun a b => w64 (if intOf i.ty b == 0 then intOf i.ty a else Int.tmod (intOf i.ty a) (intOf i.ty b))) s
def execAnd (i : FmtA) (s : State) : Host.Outcome State Fault Refusal :=
  scalar2 i (fun a b => a &&& b) s
def execOr (i : FmtA) (s : State) : Host.Outcome State Fault Refusal :=
  scalar2 i (fun a b => a ||| b) s
def execXor (i : FmtA) (s : State) : Host.Outcome State Fault Refusal :=
  scalar2 i (fun a b => a ^^^ b) s
def execAndn (i : FmtA) (s : State) : Host.Outcome State Fault Refusal :=
  scalar2 i (fun a b => a &&& ~~~b) s
def execShl (i : FmtA) (s : State) : Host.Outcome State Fault Refusal :=
  scalar2 i (fun a b => shlW a b.toNat) s
def execShr (i : FmtA) (s : State) : Host.Outcome State Fault Refusal :=
  scalar2 i (fun a b => shrW a b.toNat) s
def execSra (i : FmtA) (s : State) : Host.Outcome State Fault Refusal :=
  scalar2 i (fun a b => sraW a b.toNat) s
def execRot (i : FmtA) (s : State) : Host.Outcome State Fault Refusal :=
  scalar2 i (fun a b => rotW a b.toNat) s
def execMin (i : FmtA) (s : State) : Host.Outcome State Fault Refusal :=
  scalar2 i (fun a b => if intOf i.ty a ≤ intOf i.ty b then a else b) s
def execMax (i : FmtA) (s : State) : Host.Outcome State Fault Refusal :=
  scalar2 i (fun a b => if intOf i.ty a ≤ intOf i.ty b then b else a) s
def execClz (i : FmtA) (s : State) : Host.Outcome State Fault Refusal :=
  scalar1 i (fun a => BitVec.ofNat 64 (leadingZeros 64 a.toNat)) s
def execPopc (i : FmtA) (s : State) : Host.Outcome State Fault Refusal :=
  scalar1 i (fun a => BitVec.ofNat 64 (popcount 64 a.toNat)) s
def execSext (i : FmtA) (s : State) : Host.Outcome State Fault Refusal :=
  scalar1 i (fun a => w64 (sext a.toNat (8 * 2 ^ i.ty.toNat))) s
def execZext (i : FmtA) (s : State) : Host.Outcome State Fault Refusal :=
  scalar1 i (fun a => BitVec.ofNat 64 (a.toNat % 2 ^ (8 * 2 ^ (i.ty.toNat - 4)))) s
def execSel (i : FmtA) (s : State) : Host.Outcome State Fault Refusal :=
  scalarInstr i.pn i.ps i.d [(i.a, i.ta), (i.b, i.tb), (i.c, i.tc)]
    (fun v => if v[2]?.getD 0 != 0 then v.headD 0 else v[1]?.getD 0) s
def execLea (i : FmtA) (s : State) : Host.Outcome State Fault Refusal :=
  scalar2 i (fun a b => a + (b <<< (i.md.toNat % 8))) s

/-! ## Major 0x02 (R111) -/

def execAddImm (i : FmtI) (s : State) : Host.Outcome State Fault Refusal :=
  scalarImm i (fun a => a + immOf i) s
def execMulImm (i : FmtI) (s : State) : Host.Outcome State Fault Refusal :=
  scalarImm i (fun a => a * immOf i) s
def execAndImm (i : FmtI) (s : State) : Host.Outcome State Fault Refusal :=
  scalarImm i (fun a => a &&& immOf i) s
def execOrImm (i : FmtI) (s : State) : Host.Outcome State Fault Refusal :=
  scalarImm i (fun a => a ||| immOf i) s
def execXorImm (i : FmtI) (s : State) : Host.Outcome State Fault Refusal :=
  scalarImm i (fun a => a ^^^ immOf i) s
def execShlImm (i : FmtI) (s : State) : Host.Outcome State Fault Refusal :=
  scalarImm i (fun a => shlW a i.imm.toNat) s
def execShrImm (i : FmtI) (s : State) : Host.Outcome State Fault Refusal :=
  scalarImm i (fun a => shrW a i.imm.toNat) s
def execSraImm (i : FmtI) (s : State) : Host.Outcome State Fault Refusal :=
  scalarImm i (fun a => sraW a i.imm.toNat) s
def execRotImm (i : FmtI) (s : State) : Host.Outcome State Fault Refusal :=
  scalarImm i (fun a => rotW a i.imm.toNat) s
def execMovhi (i : FmtI) (s : State) : Host.Outcome State Fault Refusal :=
  scalarImm i (fun a => i.imm ++ a.extractLsb' 0 32) s
def execMovi (i : FmtI) (s : State) : Host.Outcome State Fault Refusal :=
  scalarInstr i.pn i.ps i.d [] (fun _ => immOf i) s

/-! ## Majors 0x03 to 0x05 (R112, R113) -/

def execCmp (cond : BitVec 4) (i : FmtA) (s : State) : Host.Outcome State Fault Refusal :=
  predInstr i.pn i.ps i.d [(i.a, i.ta), (i.b, i.tb)] (fun v => condInt cond (v.headD 0) (v[1]?.getD 0)) s
def execCmpImm (cond : BitVec 4) (i : FmtI) (s : State) : Host.Outcome State Fault Refusal :=
  predInstr i.pn i.ps i.d [(i.a, false)] (fun v => condInt cond (v.headD 0) (immOf i)) s
/-- Two predicate sources, each 0 or 1. -/
def pred2 (i : FmtA) (f : Bool → Bool → Bool) (s : State) : Host.Outcome State Fault Refusal :=
  predInstr i.pn i.ps i.d [(i.a, i.ta), (i.b, i.tb)] (fun v => f (v.headD 0 != 0) (v[1]?.getD 0 != 0)) s
def execPand (i : FmtA) (s : State) : Host.Outcome State Fault Refusal := pred2 i (fun a b => a && b) s
def execPor (i : FmtA) (s : State) : Host.Outcome State Fault Refusal := pred2 i (fun a b => a || b) s
def execPxor (i : FmtA) (s : State) : Host.Outcome State Fault Refusal := pred2 i (fun a b => a != b) s
def execPnot (i : FmtA) (s : State) : Host.Outcome State Fault Refusal :=
  predInstr i.pn i.ps i.d [(i.a, i.ta)] (fun v => v.headD 0 == 0) s

/-! ## Major 0x06 (R114 to R116) -/

/-- The format of an FP type code. -/
def fpFmt (ty : BitVec 4) : Fmt :=
  match ty.toNat with
  | 8 => f64 | 10 => f16 | 11 => bf16 | _ => f32
/-- An FP instruction of x registers: result, flags (R46, R114). -/
def scalarFp (pn : Bool) (ps : BitVec 3) (d : BitVec 8) (srcs : List (BitVec 8 × Bool)) (f : Group → List Word → Word × BitVec 5)
    (s : State) : Host.Outcome State Fault Refusal :=
  onMach (fun mg => withPred pn ps (withSrcs (srcs.map fun p => .r p.1 p.2) (withDst [.x d.toNat] fun m =>
    let t := takeXs mg (srcs.map Prod.fst) m
    let r := f (me m) t.1
    retireC (modMe t.2 fun g => orFlags (putX g d.toNat r.1) r.2)))) s
/-- The value of an operand, subnormals kept (R96). -/
def fpArg (ty : BitVec 4) (v : List Word) (i : Nat) : Val :=
  (fpFmt ty).decode ((v[i]?.getD 0).toNat % 2 ^ (fpFmt ty).width)
def fpOut (r : FRes) : Word × BitVec 5 := (BitVec.ofNat 64 r.bits, r.fl)
def execFadd (i : FmtA) (s : State) : Host.Outcome State Fault Refusal :=
  scalarFp i.pn i.ps i.d [(i.a, i.ta), (i.b, i.tb)] (fun g v =>
    fpOut ((fpFmt i.ty).add (rmOf i.rnd g.drm false) i.sat false 0 (fpArg i.ty v 0) (fpArg i.ty v 1))) s
def execFmul (i : FmtA) (s : State) : Host.Outcome State Fault Refusal :=
  scalarFp i.pn i.ps i.d [(i.a, i.ta), (i.b, i.tb)] (fun g v =>
    fpOut ((fpFmt i.ty).mul (rmOf i.rnd g.drm false) i.sat false 0 (fpArg i.ty v 0) (fpArg i.ty v 1))) s
def execFfma (i : FmtA) (s : State) : Host.Outcome State Fault Refusal :=
  scalarFp i.pn i.ps i.d [(i.a, i.ta), (i.b, i.tb), (i.c, i.tc)] (fun g v =>
    fpOut ((fpFmt i.ty).fma (rmOf i.rnd g.drm false) i.sat false 0 (fpArg i.ty v 0) (fpArg i.ty v 1) (fpArg i.ty v 2))) s
/-- R116: an .i or .i4 result is sign-extended, every other zero-extended. -/
def cvtOut (t : ElemTy) (r : FRes) : Word × BitVec 5 :=
  (if isSigned t && t != .t2 then w64 (sext r.bits t.width) else BitVec.ofNat 64 r.bits, r.fl)
def execFcvt (i : FmtA) (s : State) : Host.Outcome State Fault Refusal :=
  let t := i.resTy.getD .f32
  scalarFp i.pn i.ps i.d [(i.a, i.ta)] (fun g v =>
    cvtOut t (convert (i.srcTy.getD .f32) t (rmOf i.rnd g.drm false) i.sat false 0 (v.headD 0).toNat)) s

end Sys2Proof.Machine
end

