-- ==== Sys2Proof/Machine/Vector.lean ====
section
/-! DEFINITION. Lane instructions of the V class that compute (R118 to R129). -/

namespace Sys2Proof.Machine

/-! ## Operands by sub-element (R31, R118) -/

/-- Width of an integer or FP type code up to .bf16. -/
def codeWidth (ty : BitVec 4) : Nat :=
  match ty.toNat with
  | 0 => 8 | 1 => 16 | 2 => 32 | 3 => 64 | 4 => 8 | 5 => 16 | 6 => 32 | 7 => 64 | 8 => 64 | 9 => 32 | _ => 16
def subsPer (w : Nat) : Nat := if w == 64 then 1 else 32 / w
/-- Sub-element j of width w of each operand. -/
def subsAt (w : Nat) (vals : List Word) (j : Nat) : List Nat := vals.map fun v => bitsOf v.toNat (w * (j + 1) - 1) (w * j)
/-- Joins sub-elements, lowest first. -/
def joinSubs (w : Nat) : List Nat → Nat
  | [] => 0
  | a :: r => a % 2 ^ w + 2 ^ w * joinSubs w r
/-- A computation on each sub-element alone. -/
def mapSubs (w : Nat) (f : List Nat → Nat) (vals : List Word) : Word :=
  BitVec.ofNat 64 (joinSubs w ((List.range (subsPer w)).map fun j => f (subsAt w vals j)))
/-- The same for a rounding computation: flags are ORed, and the SR state advances in ascending order (R93). -/
def roundSubs (sr : Bool) (f : Nat → List Nat → FRes) : List (List Nat) → Lane → List Nat × BitVec 5 × Lane
  | [], st => ([], 0, st)
  | x :: r, st =>
    let nx := srNext st
    let a := f nx.toNat x
    let rest := roundSubs sr f r (if sr && a.advances then nx else st)
    (a.bits :: rest.1, a.fl ||| rest.2.1, rest.2.2)
def roundLanes (w wd : Nat) (sr : Bool) (f : Nat → List Nat → FRes) (vals : List Word) (st : Lane) : Word × BitVec 5 × Lane :=
  let r := roundSubs sr f ((List.range (subsPer w)).map (subsAt w vals)) st
  (BitVec.ofNat 64 (joinSubs wd r.1), r.2.1, r.2.2)

def vsrc (code : BitVec 8) (wide trap : Bool) : VSrc := { code := code, wide := wide, trap := trap }
/-- Sources A; A and B; A, B and C of format A. -/
def vsrcs (i : FmtA) (n : Nat) (wide : Bool) : List VSrc :=
  ([vsrc i.a wide i.ta, vsrc i.b wide i.tb, vsrc i.c wide i.tc]).take n

/-! ## Integer (R119, R120) -/

/-- A sub-element under TYPE's signedness. -/
def laneInt (ty : BitVec 4) (x : Nat) : Int := if ty.toNat < 4 then sext x (codeWidth ty) else x
def laneRes (ty : BitVec 4) (sat : Bool) (x : Int) : Nat :=
  wrapN (if sat then clampInt (ty.toNat < 4) (codeWidth ty) x else x) (codeWidth ty)
/-- An integer lane instruction of n sources. -/
def vInt (n : Nat) (i : FmtA) (f : Nat → Nat → Nat → Nat) (s : State) : Host.Outcome State Fault Refusal :=
  let wide := codeWidth i.ty == 64
  onMach (fun _ => laneInstr i.pn i.ps (vsrcs i n wide) (.v i.d wide) fun _ vals st =>
    ([mapSubs (codeWidth i.ty) (fun x => f (x.headD 0) (x[1]?.getD 0) (x[2]?.getD 0)) vals], 0, st)) s
/-- Shift amount: the low log2 w bits of B. -/
def shAmt (ty : BitVec 4) (b : Nat) : Nat := b % codeWidth ty
def execVadd (i : FmtA) (s : State) : Host.Outcome State Fault Refusal :=
  vInt 2 i (fun a b _ => laneRes i.ty i.sat (laneInt i.ty a + laneInt i.ty b)) s
def execVsub (i : FmtA) (s : State) : Host.Outcome State Fault Refusal :=
  vInt 2 i (fun a b _ => laneRes i.ty i.sat (laneInt i.ty a - laneInt i.ty b)) s
def execVmul (i : FmtA) (s : State) : Host.Outcome State Fault Refusal :=
  vInt 2 i (fun a b _ => laneRes i.ty i.sat (laneInt i.ty a * laneInt i.ty b)) s
def execVmulh (i : FmtA) (s : State) : Host.Outcome State Fault Refusal :=
  vInt 2 i (fun a b _ => laneRes i.ty false (laneInt i.ty a * laneInt i.ty b / (2 ^ codeWidth i.ty : Nat))) s
def execVmad (i : FmtA) (s : State) : Host.Outcome State Fault Refusal :=
  vInt 3 i (fun a b c => laneRes i.ty i.sat (laneInt i.ty a * laneInt i.ty b + laneInt i.ty c)) s
def execVand (i : FmtA) (s : State) : Host.Outcome State Fault Refusal :=
  vInt 2 i (fun a b _ => a &&& b) s
def execVor (i : FmtA) (s : State) : Host.Outcome State Fault Refusal :=
  vInt 2 i (fun a b _ => a ||| b) s
def execVxor (i : FmtA) (s : State) : Host.Outcome State Fault Refusal :=
  vInt 2 i (fun a b _ => a ^^^ b) s
def execVshl (i : FmtA) (s : State) : Host.Outcome State Fault Refusal :=
  vInt 2 i (fun a b _ => laneRes i.ty false (a * 2 ^ shAmt i.ty b : Nat)) s
def execVshr (i : FmtA) (s : State) : Host.Outcome State Fault Refusal :=
  vInt 2 i (fun a b _ => a / 2 ^ shAmt i.ty b) s
def execVsra (i : FmtA) (s : State) : Host.Outcome State Fault Refusal :=
  vInt 2 i (fun a b _ => laneRes i.ty false (sext a (codeWidth i.ty) / (2 ^ shAmt i.ty b : Nat))) s
def execVmin (i : FmtA) (s : State) : Host.Outcome State Fault Refusal :=
  vInt 2 i (fun a b _ => if laneInt i.ty a ≤ laneInt i.ty b then a else b) s
def execVmax (i : FmtA) (s : State) : Host.Outcome State Fault Refusal :=
  vInt 2 i (fun a b _ => if laneInt i.ty a ≤ laneInt i.ty b then b else a) s
def execVclz (i : FmtA) (s : State) : Host.Outcome State Fault Refusal :=
  vInt 1 i (fun a _ _ => leadingZeros (codeWidth i.ty) a) s
def execVpopc (i : FmtA) (s : State) : Host.Outcome State Fault Refusal :=
  vInt 1 i (fun a _ _ => popcount (codeWidth i.ty) a) s
/-- Bits of the whole element, whatever the type (R88). -/
def wideTy (ty : BitVec 4) : Bool := codeWidth ty == 64
def execVsel (i : FmtA) (s : State) : Host.Outcome State Fault Refusal :=
  let w := wideTy i.ty
  onMach (fun _ => laneInstr i.pn i.ps [vsrc i.a w i.ta, vsrc i.b w i.tb, vsrc i.c false i.tc] (.v i.d w) fun _ v st =>
    ([if v[2]?.getD 0 != 0 then v.headD 0 else v[1]?.getD 0], 0, st)) s
def execVmov (i : FmtA) (s : State) : Host.Outcome State Fault Refusal :=
  let w := wideTy i.ty
  onMach (fun _ => laneInstr i.pn i.ps [vsrc i.a w i.ta] (.v i.d w) fun _ v st => ([v.headD 0], 0, st)) s
def execVmovi (i : FmtI) (s : State) : Host.Outcome State Fault Refusal :=
  onMach (fun _ => laneInstr i.pn i.ps [] (.v i.d false) fun _ _ st => ([i.imm.setWidth 64], 0, st)) s

/-! ## Floating point (R121 to R126) -/

/-- A rounding FP lane instruction of n sources. -/
def vFp (n : Nat) (i : FmtA) (f : Fmt → RM → Bool → Nat → List Val → FRes) (s : State) : Host.Outcome State Fault Refusal :=
  let w := codeWidth i.ty
  onMach (fun _ m =>
    let g := me m
    let mode := rmOf i.rnd g.drm true
    let fm := fpFmt i.ty
    laneInstr i.pn i.ps (vsrcs i n (w == 64)) (.v i.d (w == 64)) (fun _ vals st =>
      let r := roundLanes w w (mode == .sr) (fun sv x => f fm mode g.ftz sv (x.map (fm.decodeFtz g.ftz))) vals st
      ([r.1], r.2.1, r.2.2)) m) s
def valAt (v : List Val) (k : Nat) : Val := v[k]?.getD (.inf false)
def execVfadd (i : FmtA) (s : State) : Host.Outcome State Fault Refusal :=
  vFp 2 i (fun fm md ftz sv v => fm.add md i.sat ftz sv (valAt v 0) (valAt v 1)) s
/-- A and B with its sign changed are the operands of the sum whose zero result R91 signs (log entry 131). -/
def execVfsub (i : FmtA) (s : State) : Host.Outcome State Fault Refusal :=
  vFp 2 i (fun fm md ftz sv v => fm.add md i.sat ftz sv (valAt v 0) (valAt v 1).neg) s
def execVfmul (i : FmtA) (s : State) : Host.Outcome State Fault Refusal :=
  vFp 2 i (fun fm md ftz sv v => fm.mul md i.sat ftz sv (valAt v 0) (valAt v 1)) s
def execVfma (i : FmtA) (s : State) : Host.Outcome State Fault Refusal :=
  vFp 3 i (fun fm md ftz sv v => fm.fma md i.sat ftz sv (valAt v 0) (valAt v 1) (valAt v 2)) s
/-- The product and C with its sign changed are the operands of the sum (log entry 131). -/
def execVfms (i : FmtA) (s : State) : Host.Outcome State Fault Refusal :=
  vFp 3 i (fun fm md ftz sv v => fm.fma md i.sat ftz sv (valAt v 0) (valAt v 1) (valAt v 2).neg) s
def execVfnma (i : FmtA) (s : State) : Host.Outcome State Fault Refusal :=
  vFp 3 i (fun fm md ftz sv v => fm.fma md i.sat ftz sv (valAt v 0).neg (valAt v 1) (valAt v 2)) s
/-- An FP lane instruction that does not round: bits to bits, with flags. -/
def vFpBits (n : Nat) (i : FmtA) (f : Fmt → Bool → List Nat → FRes) (s : State) : Host.Outcome State Fault Refusal :=
  let w := codeWidth i.ty
  onMach (fun _ m =>
    let g := me m
    laneInstr i.pn i.ps (vsrcs i n (w == 64)) (.v i.d (w == 64)) (fun _ vals st =>
      let r := roundLanes w w false (fun _ x => f (fpFmt i.ty) g.ftz x) vals st
      ([r.1], r.2.1, st)) m) s
def execVfmin (i : FmtA) (s : State) : Host.Outcome State Fault Refusal :=
  vFpBits 2 i (fun fm ftz x => fm.minmax false ftz (x.headD 0) (x[1]?.getD 0)) s
def execVfmax (i : FmtA) (s : State) : Host.Outcome State Fault Refusal :=
  vFpBits 2 i (fun fm ftz x => fm.minmax true ftz (x.headD 0) (x[1]?.getD 0)) s
def execVfrcp (i : FmtA) (s : State) : Host.Outcome State Fault Refusal :=
  vFp 1 i (fun fm md ftz sv v => fm.elem .rcp md i.sat ftz sv (valAt v 0)) s
def execVfrsq (i : FmtA) (s : State) : Host.Outcome State Fault Refusal :=
  vFp 1 i (fun fm md ftz sv v => fm.elem .rsq md i.sat ftz sv (valAt v 0)) s
def execVfsqrt (i : FmtA) (s : State) : Host.Outcome State Fault Refusal :=
  vFp 1 i (fun fm md ftz sv v => fm.elem .sqrt md i.sat ftz sv (valAt v 0)) s
def execVfexp2 (i : FmtA) (s : State) : Host.Outcome State Fault Refusal :=
  vFp 1 i (fun fm md ftz sv v => fm.elem .exp2 md i.sat ftz sv (valAt v 0)) s
def execVflog2 (i : FmtA) (s : State) : Host.Outcome State Fault Refusal :=
  vFp 1 i (fun fm md ftz sv v => fm.elem .log2 md i.sat ftz sv (valAt v 0)) s
def execVfclass (i : FmtA) (s : State) : Host.Outcome State Fault Refusal :=
  vFpBits 1 i (fun fm ftz x => { bits := fm.classify ftz (x.headD 0) }) s
/-- R125: sub-element 0 alone is compared. -/
def execVfcmp (i : FmtA) (s : State) : Host.Outcome State Fault Refusal :=
  let w := codeWidth i.ty
  onMach (fun _ m =>
    let g := me m
    laneInstr i.pn i.ps (vsrcs i 2 (w == 64)) (.c (i.d.toNat - 0x40)) (fun _ vals st =>
      let x := subsAt w vals 0
      let r := (fpFmt i.ty).compare (i.md.toNat % 8) g.ftz (x.headD 0) (x[1]?.getD 0)
      ([if r.1 then 1 else 0], r.2, st)) m) s

/-! ## Conversions and packing (R127, R128) -/

def cvtTypes (i : FmtA) : ElemTy × ElemTy := (i.srcTy.getD .f32, i.resTy.getD .f32)
/-- One conversion of a lane; under SR the state advances (R93). -/
def laneCvt (i : FmtA) (mode : RM) (ftz : Bool) (sv : Nat) (x : Nat) : FRes :=
  convert (cvtTypes i).1 (cvtTypes i).2 mode i.sat ftz sv x
def execVcvt (i : FmtA) (s : State) : Host.Outcome State Fault Refusal :=
  let ws := (cvtTypes i).1.width
  let wd := (cvtTypes i).2.width
  onMach (fun _ m =>
    let g := me m
    let mode := rmOf i.rnd g.drm true
    laneInstr i.pn i.ps [vsrc i.a (ws == 64) i.ta] (.v i.d (wd == 64)) (fun _ vals st =>
      let r := roundSubs (mode == .sr) (fun sv x => laneCvt i mode g.ftz sv (x.headD 0)) [subsAt ws vals 0] st
      ([BitVec.ofNat 64 (r.1.headD 0)], r.2.1, r.2.2)) m) s
/-- Sub-elements of width w of 32-bit registers in ascending order. -/
def subList (w : Nat) (vals : List Word) : List Nat :=
  vals.flatMap fun v => (List.range (32 / w)).map fun j => bitsOf v.toNat (w * (j + 1) - 1) (w * j)
/-- The copy of R128 between identical types, which R93 does not except from advancing the state, else a conversion. -/
def packOne (i : FmtA) (mode : RM) (ftz : Bool) (sv : Nat) (x : List Nat) : FRes :=
  if (cvtTypes i).1 = (cvtTypes i).2 then { bits := x.headD 0, nan := isNanOf (cvtTypes i).1 (x.headD 0) } else laneCvt i mode ftz sv (x.headD 0)
/-- Splits a list into pieces of n. -/
def chunks {α : Type} (n : Nat) : Nat → List α → List (List α)
  | 0, _ => []
  | k + 1, l => l.take n :: chunks n k (l.drop n)
/-- vpack and vunpack: ns source registers from A, nd destination registers from D. -/
def vPacking (i : FmtA) (ns nd : Nat) (s : State) : Host.Outcome State Fault Refusal :=
  let ws := (cvtTypes i).1.width
  let wd := (cvtTypes i).2.width
  let srcs := (List.range ns).map fun k => vsrc (i.a + BitVec.ofNat 8 k) false i.ta
  onMach (fun _ m =>
    let g := me m
    let mode := rmOf i.rnd g.drm true
    let named := (List.range ns).map (i.a.toNat + ·) ++ (List.range nd).map (i.d.toNat + ·)
    laneInstrN named i.pn i.ps srcs (.many i.d.toNat nd) (fun _ vals st =>
      let r := roundSubs (mode == .sr) (packOne i mode g.ftz) ((subList ws vals).map fun x => [x]) st
      ((chunks (32 / wd) nd r.1).map fun x => BitVec.ofNat 64 (joinSubs wd x), r.2.1, r.2.2)) m) s
def execVpack (i : FmtA) (s : State) : Host.Outcome State Fault Refusal :=
  vPacking i ((cvtTypes i).1.width / (cvtTypes i).2.width) 1 s
def execVunpack (i : FmtA) (s : State) : Host.Outcome State Fault Refusal :=
  vPacking i 1 ((cvtTypes i).2.width / (cvtTypes i).1.width) s

/-- R129: one entry, or two, low half first. -/
def execQput (i : FmtA) (s : State) : Host.Outcome State Fault Refusal :=
  let w := wideTy i.ty
  onMach (fun _ => laneInstr i.pn i.ps [vsrc i.a w i.ta] (.v i.d w) fun _ v st =>
    let x := v.headD 0
    (if w then [x &&& 0xFFFFFFFF, x >>> 32] else [x], 0, st)) s

end Sys2Proof.Machine
end

