-- ==== Sys2Proof/Machine/VecOps.lean ====
section
/-! DEFINITION. Mask instructions (R117) and control-issued vector operations (R130 to R137). -/

namespace Sys2Proof.Machine

/-! ## Order and operands (R30, R130) -/

/-- The instruction takes effect after the group's run has ended (R130). -/
def afterRun (k : Mach → Mach) (m : Mach) : Mach := if (me m).run.isSome then suspendC m .runEnd else k m

/-- The elements an instruction of major 0x11 acts on: from vstart to vl − 1, under the mask m_s (R59, R130). -/
def activeEls (g : Group) (pn : Bool) (ps : BitVec 3) : List Nat :=
  ((List.range g.vl).filter (g.vstart ≤ ·)).filter (vPredOk g pn ps)
/-- An empty governing mask blocks (R34, R59). -/
def withMask (ps : BitVec 3) (k : Mach → Mach) (m : Mach) : Mach :=
  let rs := (List.range (me m).vl).map (Reg.c ps.toNat)
  if ps != 0 && rs.any (fun r => getFe (me m) r != .full) then suspendC m (.full rs) else k m
/-- A v operand read at elements es, in both halves of a pair. -/
def vOper (wide : Bool) (r : BitVec 8) (es : List Nat) (t : Bool) : List CSrc :=
  [.v (regsOf wide r.toNat) es t]
def vRegs (is es : List Nat) : List Reg := is.flatMap fun i => es.map (Reg.v i)
/-- Completion: results are written together, and vstart becomes zero (R39, R130). -/
def doneVec (f : Group → Group) (m : Mach) : Mach := retireC (modMe m fun g => { f g with vstart := 0 })

/-! ## Major 0x10 (R117) -/

def mIdx (r : BitVec 8) : Nat := r.toNat - 0x88
def maskBits (g : Group) (r : BitVec 8) : List Bool := (List.range g.vl).map (getC g (mIdx r))
/-- A mask instruction with a mask destination: bits 0 to vl − 1 from the sources' bits. -/
def maskInstr (i : FmtA) (srcs : List CSrc) (f : Group → List Bool) (s : State) : Host.Outcome State Fault Refusal :=
  onMach (fun _ => withPred i.pn i.ps (afterRun (withSrcs srcs fun m =>
    withDst ((List.range (me m).vl).map (Reg.c (mIdx i.d))) (fun m =>
      retireC (modMe m fun g => putMask g (mIdx i.d) ((f g).zipIdx.map fun p => (p.2, p.1)))) m))) s
def execMand (i : FmtA) (s : State) : Host.Outcome State Fault Refusal :=
  maskInstr i [.r i.a i.ta, .r i.b i.tb] (fun g => ((maskBits g i.a).zip (maskBits g i.b)).map fun p => p.1 && p.2) s
def execMor (i : FmtA) (s : State) : Host.Outcome State Fault Refusal :=
  maskInstr i [.r i.a i.ta, .r i.b i.tb] (fun g => ((maskBits g i.a).zip (maskBits g i.b)).map fun p => p.1 || p.2) s
def execMnot (i : FmtA) (s : State) : Host.Outcome State Fault Refusal :=
  maskInstr i [.r i.a i.ta] (fun g => (maskBits g i.a).map (!·)) s
def execMset (i : FmtA) (s : State) : Host.Outcome State Fault Refusal :=
  maskInstr i [.r i.a i.ta] (fun g => (List.range g.vl).map fun e => e < (getX g i.a.toNat).toNat) s
/-- True up to and including the first true bit. -/
def upToFirst : List Bool → List Bool
  | [] => []
  | true :: r => true :: r.map fun _ => false
  | false :: r => true :: upToFirst r
def execMfirst (i : FmtA) (s : State) : Host.Outcome State Fault Refusal :=
  maskInstr i [.r i.a i.ta] (fun g => upToFirst (maskBits g i.a)) s
def execMcount (i : FmtA) (s : State) : Host.Outcome State Fault Refusal :=
  onMach (fun _ => withPred i.pn i.ps (afterRun (withSrcs [.r i.a i.ta] (withDst [.x i.d.toNat] fun m =>
    retireC (modMe m fun g => putX g i.d.toNat (BitVec.ofNat 64 ((maskBits g i.a).filter id).length)))))) s
/-- Number of true bits before each position. -/
def prefixCounts : Nat → List Bool → List Nat
  | _, [] => []
  | n, b :: r => n :: prefixCounts (if b then n + 1 else n) r
def execMprefix (i : FmtA) (s : State) : Host.Outcome State Fault Refusal :=
  onMach (fun _ => withPred i.pn i.ps (declared [i.d.toNat] (afterRun (withSrcs [.r i.a i.ta] fun m =>
    withDst (vRegs [i.d.toNat] (List.range (me m).vl)) (fun m =>
      retireC (modMe m fun g => putVs g i.d.toNat
        ((prefixCounts 0 (maskBits g i.a)).zipIdx.map fun p => (p.2, BitVec.ofNat 32 p.1)))) m)))) s

/-! ## Major 0x11: the shared course -/

/-- Declared registers, the run's end, the mask, the sources at the active elements, the destinations; then the body with the
active elements. -/
def vecOp (i : FmtA) (named : List Nat) (srcs : Group → List Nat → List CSrc) (dsts : Group → List Nat → List Reg)
    (body : List Nat → Mach → Mach) (s : State) : Host.Outcome State Fault Refusal :=
  onMach (fun _ => declared named (afterRun (withMask i.ps fun m =>
    let act := activeEls (me m) i.pn i.ps
    withSrcs (srcs (me m) act) (fun m => withDst (dsts (me m) act) (body act) m) m))) s
def vA (i : FmtA) (wide : Bool) : List Nat := regsOf wide i.a.toNat
def vD (i : FmtA) (wide : Bool) : List Nat := regsOf wide i.d.toNat
/-- Elements of a source as numbers of width 32 or 64. -/
def elems (g : Group) (wide : Bool) (r : BitVec 8) (es : List Nat) : List Nat := es.map fun e => (getW g wide r.toNat e).toNat

/-! ## Reductions and scans (R101, R102, R132, R133) -/

/-- Combines two elements of a type: wrap-around integers or one rounded FP sum. -/
def addEl (ty : BitVec 4) (mode : RM) (a b : Nat) : Nat × BitVec 5 :=
  if tyFp ty then
    let r := (fpFmt ty).add mode false false 0 ((fpFmt ty).decode a) ((fpFmt ty).decode b)
    (r.bits, r.fl)
  else ((a + b) % 2 ^ codeWidth ty, 0)
def minmaxEl (ty : BitVec 4) (isMax : Bool) (a b : Nat) : Nat × BitVec 5 :=
  if tyFp ty then let r := (fpFmt ty).minmax isMax false a b; (r.bits, r.fl)
  else (if (laneInt ty a ≤ laneInt ty b) != isMax then a else b, 0)
/-- One level of the tree. -/
def combLevel (f : Nat → Nat → Nat × BitVec 5) : List (Option Nat) → List (Option Nat) × BitVec 5
  | a :: b :: r =>
    let (rest, fl) := combLevel f r
    match a, b with
    | some x, some y => let (z, fz) := f x y; (some z :: rest, fz ||| fl)
    | some x, none => (some x :: rest, fl)
    | none, y => (y :: rest, fl)
  | l => (l, 0)
/-- The tree of R101 over a list of leaves. -/
def treeOf (f : Nat → Nat → Nat × BitVec 5) : Nat → List (Option Nat) → Nat × BitVec 5
  | 0, l => ((l.headD none).getD 0, 0)
  | n + 1, l =>
    let (l', fl) := combLevel f l
    let (r, fl') := treeOf f n l'
    (r, fl ||| fl')
/-- Levels of the tree for vl leaves: log2 of the least power of two not below it. -/
def treeDepth (vl : Nat) : Nat := if vl ≤ 1 then 0 else Nat.log2 (vl - 1) + 1
def redOut (ty : BitVec 4) (x : Nat) : Word := if ty == 2 then w64 (sext x 32) else BitVec.ofNat 64 x
def vredInstr (i : FmtA) (f : RM → Nat → Nat → Nat × BitVec 5) (s : State) : Host.Outcome State Fault Refusal :=
  let w := wideTy i.ty
  vecOp i (vA i w) (fun _ act => vOper w i.a act i.ta) (fun _ _ => [.x i.d.toNat]) (fun act m =>
    let g := me m
    let leaves := (List.range g.vl).map fun e => if act.contains e then some (getW g w i.a.toNat e).toNat else none
    let r := treeOf (f (rmOf i.rnd g.drm false)) (treeDepth g.vl) leaves
    doneVec (fun g => orFlags (putX g i.d.toNat (redOut i.ty r.1)) r.2) m) s
def execVredAdd (i : FmtA) (s : State) : Host.Outcome State Fault Refusal :=
  vredInstr i (fun mode => addEl i.ty mode) s
def execVredMin (i : FmtA) (s : State) : Host.Outcome State Fault Refusal :=
  vredInstr i (fun _ => minmaxEl i.ty false) s
def execVredMax (i : FmtA) (s : State) : Host.Outcome State Fault Refusal :=
  vredInstr i (fun _ => minmaxEl i.ty true) s
/-- The fold of R102: the first element is copied. -/
def scanOf (f : Nat → Nat → Nat × BitVec 5) : Option Nat → List Nat → List Nat × BitVec 5
  | _, [] => ([], 0)
  | none, x :: r => let (ys, fl) := scanOf f (some x) r; (x :: ys, fl)
  | some y, x :: r =>
    let (z, fz) := f y x
    let (ys, fl) := scanOf f (some z) r
    (z :: ys, fz ||| fl)
/-- Writes elements of width 32 or 64. -/
def putEls (g : Group) (wide : Bool) (r : Nat) : List (Nat × Nat) → Group
  | [] => g
  | (e, x) :: l => putEls (putW g wide r e (BitVec.ofNat 64 x)) wide r l
/-- The running value of the scan that the acting word has begun and vstart goes on with (R102). -/
def scanVal (m : Mach) : Option Nat :=
  match (me m).scan with
  | some q => if q.clause == m.act.clause && q.word == m.act.word && q.instr == m.act.instr && q.prog == (me m).vstart then q.val.map (·.toNat)
    else none
  | none => none
/-- A scan writes some element groups, those that end at an element, and stands there until it goes on or is stopped; or all of them
(R39, R102, log entry 122). -/
def scanStep (i : FmtA) (act : List Nat) (m : Mach) : Mach :=
  let w := wideTy i.ty
  let g := me m
  let left := (g.vl + g.laneL - 1) / g.laneL - g.vstart / g.laneL
  let (k, m) := pick m left
  let stop := if k == 0 then g.vl else min g.vl ((g.vstart / g.laneL + k) * g.laneL)
  let es := act.filter (· < stop)
  let r := scanOf (addEl i.ty (rmOf i.rnd g.drm false)) (scanVal m) (elems g w i.a es)
  let write := fun (g : Group) => orFlags (putEls g w i.d.toNat (es.zip r.1)) r.2
  if g.vl ≤ stop then doneVec (fun g => { write g with scan := none }) m
  else
    let q : Scan :=
      { clause := m.act.clause, word := m.act.word, instr := m.act.instr, prog := stop,
        val := ((r.1.getLast?).orElse fun _ => scanVal m).map (BitVec.ofNat 64) }
    modMe m fun g => { write g with vstart := stop, scan := some q }
def execVscan (i : FmtA) (s : State) : Host.Outcome State Fault Refusal :=
  let w := wideTy i.ty
  vecOp i (vA i w ++ vD i w) (fun _ act => vOper w i.a act i.ta) (fun _ act => vRegs (vD i w) act) (fun act m =>
    if 8 ≤ vecInFlight (me m) then suspendC m .recRoom else scanStep i act m) s

/-! ## Moving elements (R134, R135) -/

def execVcompress (i : FmtA) (s : State) : Host.Outcome State Fault Refusal :=
  let w := wideTy i.ty
  vecOp i (vA i w ++ vD i w) (fun _ act => vOper w i.a act i.ta ++ [.r i.b i.tb])
    (fun g _ => vRegs (vD i w) (List.range g.vl)) (fun act m =>
    let g := me m
    let vals := elems g w i.a (act.filter (getC g (mIdx i.b)))
    doneVec (fun g => putEls g w i.d.toNat (vals.zipIdx.map fun p => (p.2, p.1))) m) s
/-- A slide: from each active element, the element its result is read from; none leaves it unchanged, some none writes zero. Which
elements it reads is not known, and none is examined, until the offset is (R135). -/
def slideInstr (i : FmtA) (from_ : Nat → Nat → Nat → Option (Option Nat)) (s : State) : Host.Outcome State Fault Refusal :=
  let w := wideTy i.ty
  let o := fun (g : Group) => (getX g i.b.toNat).toNat
  vecOp i (vA i w ++ vD i w)
    (fun g act =>
      if getFe g (.x i.b.toNat) != .full then [.r i.b i.tb]
      else vOper w i.a (act.filterMap fun e => (from_ g.vl (o g) e).join) i.ta ++ [.r i.b i.tb])
    (fun _ act => vRegs (vD i w) act) (fun act m =>
    let g := me m
    let vals := act.filterMap fun e => (from_ g.vl (o g) e).map fun x =>
      (e, match x with | some k => (getW g w i.a.toNat k).toNat | none => 0)
    doneVec (fun g => putEls g w i.d.toNat vals) m) s
def execVslideup (i : FmtA) (s : State) : Host.Outcome State Fault Refusal :=
  slideInstr i (fun _ o e => if o ≤ e then some (some (e - o)) else none) s
def execVslidedown (i : FmtA) (s : State) : Host.Outcome State Fault Refusal :=
  slideInstr i (fun vl o e => some (if e + o < vl then some (e + o) else none)) s

/-! ## Block scales (R136) -/

def emaxOf (ty : BitVec 4) : Int := if ty == 12 then 8 else if ty == 13 then 15 else 2
/-- The scale code of one block of FP32 elements. -/
def scaleCode (ty : BitVec 4) (xs : List Nat) : Nat :=
  let vs := xs.map f32.decode
  if vs.any fun v => match v with | .num _ => false | _ => true then 0xFF
  else
    let mx := xs.foldl (fun a x => max a (x % 2 ^ 31)) 0
    if mx == 0 then 0x7F
    else match f32.decode mx with
      | .num x => (min 254 (max 0 (x.log - emaxOf ty + 127))).toNat
      | _ => 0xFF
def setByte (w : Lane) (k b : Nat) : Lane := BitVec.ofNat 32 (patch w.toNat k 1 b)
def execVmexp (i : FmtA) (s : State) : Host.Outcome State Fault Refusal :=
  let sb := i.md.toNat % 4
  vecOp i [i.a.toNat, i.d.toNat] (fun _ act => vOper false i.a act i.ta)
    (fun g _ => vRegs [i.d.toNat] (List.range ((g.vl + 31) / 32))) (fun act m =>
    doneVec (fun g =>
      let codes := (List.range ((g.vl + 31) / 32)).map fun j =>
        scaleCode i.ty (elems g false i.a (act.filter fun e => e / 32 == j))
      let part := (List.range codes.length).filter fun j => getFe g (.v i.d.toNat j) == .failing
      setFes (putVs g i.d.toNat (codes.zipIdx.map fun p => (p.2, setByte (getV g i.d.toNat p.2) sb p.1))) .failing
        (vRegs [i.d.toNat] part)) m) s
/-- One element quantised under scale code S; with S = 0xFF no element is converted, and only the flag that R136 names is raised (log
entry 123). -/
def quantEl (dst src : ElemTy) (mode : RM) (sat : Bool) (sv S x : Nat) : FRes :=
  let f := (fmtOf src).getD f32
  if S == 0xFF then
    match dst with
    | .e4m3 => e4m3.nanRes false true
    | .e5m2 => e5m2.nanRes false true
    | _ => { bits := 0, fl := flNV, nan := true }
  else match f.decode (x % 2 ^ f.width) with
    | .num y => convertTo dst mode sat false sv (.fp (.num { y with e := y.e + 127 - S })) 0
    | v => convertTo dst mode sat false sv (.fp v) 0
/-- B is examined in the active VPs alone, though a scale may be read from it in another (R34, R130, log entry 35). -/
def execVquant (i : FmtA) (s : State) : Host.Outcome State Fault Refusal :=
  let sb := i.md.toNat % 4
  let dst := i.resTy.getD .i8
  let src := (tyOf (i.c.extractLsb' 0 4) 0).getD .f32
  vecOp i [i.a.toNat, i.b.toNat, i.d.toNat]
    (fun _ act => vOper false i.a act i.ta ++ vOper false i.b act i.tb)
    (fun _ act => vRegs [i.d.toNat] act) (fun act m =>
    let g := me m
    if let some j := (act.map (· / 32)).find? fun j => getFe g (.v i.b.toNat j) == .failing then
      faultAct m fUncorr j (regAddr m m.act.core m.act.slot i.b.toNat j) regUnit
    else
    let mode := rmOf i.rnd g.drm true
    let out := act.map fun e =>
      let nx := srNext (mget 1 g.srs e)
      let S := bitsOf (getV g i.b.toNat (e / 32)).toNat (8 * sb + 7) (8 * sb)
      let r := quantEl dst src mode i.sat nx.toNat S (getV g i.a.toNat e).toNat
      (e, r, if mode == .sr && r.advances then nx else mget 1 g.srs e)
    doneVec (fun g =>
      let g := putVs g i.d.toNat (out.map fun t => (t.1, BitVec.ofNat 32 t.2.1.bits))
      let fl : BitVec 5 := out.foldl (fun a t => a ||| t.2.1.fl) 0
      orFlags { g with srs := out.foldl (fun q t => mset 1 q t.1 t.2.2) g.srs } fl) m) s

/-! ## Sorted union (R137) -/

/-- A stream: index and value of its active elements up to its end. -/
def streamOf (g : Group) (r : Nat) : List Nat → List (Nat × Nat)
  | [] => []
  | e :: es =>
    if getV g r e == 0xFFFFFFFF then [] else ((getV g r e).toNat, (getV g (r + 1) e).toNat) :: streamOf g r es
/-- The exact sum of two FP32 values is zero. -/
def zeroSum (a b : Nat) : Bool :=
  match f32.decode a, f32.decode b with
  | .num x, .num y => (exAdd .rne x y).m == 0
  | _, _ => false
/-- The merged stream and its flags; the count bounds the steps. -/
def unionOf (mode : RM) (dropz : Bool) : Nat → List (Nat × Nat) → List (Nat × Nat) → List (Nat × Nat) × BitVec 5
  | 0, _, _ => ([], 0)
  | _, [], b => (b, 0)
  | _, a, [] => (a, 0)
  | n + 1, (ka, va) :: ra, (kb, vb) :: rb =>
    if ka < kb then let (o, fl) := unionOf mode dropz n ra ((kb, vb) :: rb); ((ka, va) :: o, fl)
    else if kb < ka then let (o, fl) := unionOf mode dropz n ((ka, va) :: ra) rb; ((kb, vb) :: o, fl)
    else
      let (o, fl) := unionOf mode dropz n ra rb
      if dropz && zeroSum va vb then (o, fl)
      else
        let r := f32.add mode false false 0 (f32.decode va) (f32.decode vb)
        ((ka, r.bits) :: o, r.fl ||| fl)
/-- emit: position n of D and D+1, or of D+2 and D+3 beyond vl. -/
def putUnion (g : Group) (d vl : Nat) : Nat → List (Nat × Nat) → Group
  | _, [] => g
  | n, (k, v) :: r =>
    let base := if n < vl then d else d + 2
    let e := if n < vl then n else n - vl
    putUnion (putV (putV g base e (BitVec.ofNat 32 k)) (base + 1) e (BitVec.ofNat 32 v)) d vl (n + 1) r
def execVunion (i : FmtA) (s : State) : Host.Outcome State Fault Refusal :=
  let a := i.a.toNat
  let b := i.b.toNat
  let d := i.d.toNat
  vecOp i [a, a + 1, b, b + 1, d, d + 1, d + 2, d + 3]
    (fun _ act => [.v [a, a + 1] act i.ta, .v [b, b + 1] act i.tb])
    (fun g _ => .x i.c.toNat :: vRegs [d, d + 1, d + 2, d + 3] (List.range g.vl)) (fun act m =>
    let g := me m
    let r := unionOf (rmOf i.rnd g.drm false) (i.md.toNat % 2 == 1) (2 * g.vl) (streamOf g a act) (streamOf g b act)
    doneVec (fun g => orFlags (putX (putUnion g d g.vl 0 r.1) i.c.toNat (BitVec.ofNat 64 r.1.length)) r.2) m) s

end Sys2Proof.Machine
end

