-- ==== Sys2Proof/Machine/MemOps.lean ====
section
/-! DEFINITION. Vector, scalar and VP-issued loads, stores and atomics (R212 to R228): forming the accesses, checking them, and
entering them for performance by the memory system. -/

namespace Sys2Proof.Machine

/-! ## Entering an instruction -/

/-- The checks of R213, R227 and R228 on the acting instruction, then its claims and its place in program order; k goes on
issuing. halt takes code, element, address and INFO. -/
def issueOp (mg : Mgmt) (halt : Nat → Nat → Nat → Nat → Mach → Mach) (wait : Wait → Mach → Mach) (k : Mach → Mach) (op : MemOp)
    (m : Mach) : Mach :=
  let c := m.act.core
  let s := m.act.slot
  let g := me m
  if op.elems.isEmpty && !op.kind.stays then k m
  else if op.vec && 8 ≤ vecInFlight g then wait .recRoom m
  else
    let claim := fun (m : Mach) => modGrp m c s fun g =>
      setFes { g with nextOp := g.nextOp + 1, seq := if m.act.vec then g.seq else g.seq + 1 } .claimed (opClaims op)
    match checkOp mg m c g op with
    | (.halt code e va info, m) => halt code e va info m
    | (.fault e va l cause, m) =>
      if accHeld g then wait .replayed m
      else if 8 ≤ vecInFlight g then wait .recRoom m
      else match freeLog m c with
        | some i => k (holdOp (claim m) c s i op e va l cause)
        | none => wait .logRoom m
    | (.ok els cut, m) =>
      if mayRecord g { op with elems := els } && 8 ≤ vecInFlight g then wait .recRoom m else k (enterOp (claim m) c s op els cut)

/-- The acting instruction as a memory instruction of the control thread, without elements. -/
def ctlOp (m : Mach) (kind : AccKind) : MemOp :=
  let g := me m
  let a := m.act
  { id := g.nextOp, kind := kind, dst := .none, signed := false, size := 8, scope := 0, mask := 0, ff := none, srcs := [], elems := [],
    seq := g.seq, sub := 0, div := false, run := 0, live := g.run.map (·.num), vec := false, clause := a.clause, word := a.word,
    instr := a.instr, opA := 0, opB := 0, opC := 0, first := 0, prog := 0, logged := false, held := false }
/-- The same for an instruction of the vector stream: at its vf in lock-step, on its VPs' own once they diverge (R192). -/
def vpOp (m : Mach) (kind : AccKind) : MemOp :=
  let g := me m
  let r := myRun m
  { ctlOp m kind with seq := r.seq, sub := g.nextOp + 1, div := r.diverged, run := r.num, live := none }
def elemAt (e va size : Nat) (data cmp : Word) : Elem :=
  { e := e, va := va, pa := 0, loc := .hbm, size := size, uc := false, data := data, cmp := cmp }
/-- A control-issued instruction with its elements. -/
def issueC (mg : Mgmt) (k : Mach → Mach) (op : MemOp) (m : Mach) : Mach := issueOp mg (fun c e a i m => faultAct m c e a i)
  (fun w m => suspendC m w) k op m

/-! ## Addresses (R212, R217, R225) -/

def accSize (f : FmtM) : Nat := 2 ^ f.sz.toNat
def offBytes (f : FmtM) : Int := sext f.off.toNat 16 * accSize f
def wrapAddr (x : Int) : Nat := wrapN x 64

inductive Form where
  | unit | strided | indexed
  deriving DecidableEq, Repr

/-- Address of element e. -/
def vecAddr (g : Group) (form : Form) (f : FmtM) (e : Nat) : Nat :=
  let base : Int := (getX g f.base.toNat).toNat + offBytes f
  match form with
  | .unit => wrapAddr (base + accSize f * e)
  | .strided => wrapAddr (base + (getX g f.index.toNat).toInt * e)
  | .indexed => wrapAddr (base + (getV g f.index.toNat e).toNat)

/-! ## Control-issued vector accesses, major 0x0C (R215 to R224) -/

/-- R215: no earlier lock-step phase is in progress. -/
def afterLockStep (k : Mach → Mach) (m : Mach) : Mach :=
  if (me m).run.any fun r => !r.diverged then suspendC m .lockStep else k m

/-- Register numbers of the data operand, and of the compare operand of .cas. -/
def dataRegs (f : FmtM) : List Nat := regsOf (f.sz == 3) f.data.toNat
def cmpBase (f : FmtM) : Nat := f.data.toNat + (if f.sz == 3 then 2 else 1)
def cmpRegs (f : FmtM) : List Nat := regsOf (f.sz == 3) (cmpBase f)

/-- The shared course: reads says whether the data registers are sources, cas whether the next registers are; fix completes the
access record. -/
def vecMem (f : FmtM) (form : Form) (kind : AccKind) (reads cas : Bool) (fix : MemOp → MemOp) (s : State) : Host.Outcome State Fault Refusal :=
  let wide := f.sz == 3
  let idx := if form = .indexed then [f.index.toNat] else []
  let cmpr := if cas then cmpRegs f else []
  let vsrc := idx ++ (if reads then dataRegs f else []) ++ cmpr
  onMach (fun mg => declared (dataRegs f ++ cmpr ++ idx) (afterLockStep (withMask f.ps fun m =>
    let act := activeEls (me m) f.pn f.ps
    let srcs : List CSrc :=
      (if reads then [.v (dataRegs f ++ cmpr) act false] else []) ++ [.r f.base f.tbase]
        ++ (match form with | .unit => [] | .strided => [.r f.index false] | .indexed => [.v [f.index.toNat] act false])
    withSrcs srcs (fun m =>
      let g := me m
      let els := act.map fun e =>
        elemAt e (vecAddr g form f e) (accSize f) (if reads then getW g wide f.data.toNat e else 0)
          (if cas then getW g wide (cmpBase f) e else 0)
      let op := fix { ctlOp m kind with
        size := accSize f, scope := f.scope, elems := els, vec := true, srcs := vsrc, opA := getX g f.base.toNat,
        opB := (if form = .strided then getX g f.index.toNat else 0), first := g.vstart, prog := g.vstart }
      withDst (opClaims op) (issueC mg (fun m => retireC (modMe m fun g => { g with vstart := 0 })) op) m) m))) s

def execVld (f : FmtM) (s : State) : Host.Outcome State Fault Refusal :=
  vecMem f .unit .load false false (fun op => { op with dst := .v f.data.toNat }) s
def execVldff (f : FmtM) (s : State) : Host.Outcome State Fault Refusal :=
  vecMem f .unit .load false false (fun op =>
    { op with dst := .v f.data.toNat, mask := f.ps.toNat, ff := if f.ps == 0 then none else some f.pn }) s
def execVst (f : FmtM) (s : State) : Host.Outcome State Fault Refusal :=
  vecMem f .unit .store true false id s
def execVlds (f : FmtM) (s : State) : Host.Outcome State Fault Refusal :=
  vecMem f .strided .load false false (fun op => { op with dst := .v f.data.toNat }) s
def execVsts (f : FmtM) (s : State) : Host.Outcome State Fault Refusal :=
  vecMem f .strided .store true false id s
def execVldx (f : FmtM) (s : State) : Host.Outcome State Fault Refusal :=
  vecMem f .indexed .load false false (fun op => { op with dst := .v f.data.toNat }) s
def execVstx (f : FmtM) (s : State) : Host.Outcome State Fault Refusal :=
  vecMem f .indexed .store true false id s
/-- R202: a vgl that takes effect replaces the group's links; only its own elements set links from then on. -/
def clearLinks (op : MemOp) (m : Mach) : Mach := modMe m fun g => { g with linkset := [], linkOp := op.id }
def execVgl (f : FmtM) (s : State) : Host.Outcome State Fault Refusal :=
  onMach (fun mg => declared (dataRegs f ++ [f.index.toNat]) (afterLockStep (withMask f.ps fun m =>
    let act := activeEls (me m) f.pn f.ps
    withSrcs [.r f.base f.tbase, .v [f.index.toNat] act false] (fun m =>
      let g := me m
      let op := { ctlOp m .vgl with
        dst := .v f.data.toNat, size := accSize f, scope := f.scope, vec := true, srcs := [f.index.toNat],
        elems := act.map fun e => elemAt e (vecAddr g .indexed f e) (accSize f) 0 0, opA := getX g f.base.toNat,
        first := g.vstart, prog := g.vstart }
      withDst (opClaims op) (issueC mg (fun m =>
        retireC (modMe (clearLinks op m) fun g => { g with vstart := 0 })) op) m) m))) s
def execVsc (f : FmtM) (s : State) : Host.Outcome State Fault Refusal :=
  vecMem f .indexed .vsc true false (fun op => { op with mask := f.ps.toNat }) s
def execVamo (op : BitVec 3) (f : FmtM) (s : State) : Host.Outcome State Fault Refusal :=
  vecMem f .indexed (.amo op f.sz5) true (op == 7) (fun o => { o with dst := .v f.data.toNat }) s

/-! ## Scalar accesses, major 0x0E (R225) -/

def scalarAddr (g : Group) (f : FmtM) : Nat := wrapAddr ((getX g f.base.toNat).toNat + offBytes f)
/-- One access of the control thread; srcs are its x sources in field order. -/
def scalarMem (f : FmtM) (kind : AccKind) (srcs : List (BitVec 8 × Bool)) (dst : Dst) (signed : Bool) (data cmp : Group → Word)
    (s : State) : Host.Outcome State Fault Refusal :=
  onMach (fun mg => withPred f.pn f.ps (withSrcs (srcs.map fun p => .r p.1 p.2) fun m =>
    let g := me m
    let ops := srcs.map fun p => getX g p.1.toNat
    let op := { ctlOp m kind with
      dst := dst, signed := signed, size := accSize f, scope := f.scope,
      elems := [elemAt 0 (scalarAddr g f) (accSize f) (data g) (cmp g)], opA := ops.headD 0, opB := ops[1]?.getD 0,
      opC := ops[2]?.getD 0 }
    withDst (opClaims op) (issueC mg retireC op) m)) s
def execLd (f : FmtM) (s : State) : Host.Outcome State Fault Refusal :=
  scalarMem f .load [(f.base, f.tbase)] (.x f.data.toNat) false (fun _ => 0) (fun _ => 0) s
def execSt (f : FmtM) (s : State) : Host.Outcome State Fault Refusal :=
  scalarMem f .store [(f.data, false), (f.base, f.tbase)] .none false (fun g => getX g f.data.toNat) (fun _ => 0) s
def execAmo (op : BitVec 3) (f : FmtM) (s : State) : Host.Outcome State Fault Refusal :=
  let cas := op == 7
  scalarMem f (.amo op f.sz5) ([(f.data, false), (f.base, f.tbase)] ++ (if cas then [(f.index, false)] else []))
    (.x f.data.toNat) (f.sz5 && (op == 1 || op == 2))
    (fun g => getX g (if cas then f.index else f.data).toNat) (fun g => getX g f.data.toNat) s

/-! ## VP-issued accesses, V major 0x0C (R226) -/

/-- One access of each active VP; the sources are the base, the data and, for .cas, the swap value. -/
def vpMem (f : FmtM) (kind : AccKind) (reads cas : Bool) (dst : Dst) (s : State) : Host.Outcome State Fault Refusal :=
  let wide := f.sz == 3
  let base := vsrc f.base true f.tbase
  let data := vsrc f.data wide false
  let swap := vsrc f.index wide false
  let srcs := (if reads then [data] else []) ++ [base] ++ (if cas then [swap] else [])
  let named := dataRegs f ++ (if f.base.toNat < 0x40 then regsOf true f.base.toNat else [])
    ++ (if cas then regsOf wide f.index.toNat else [])
  onMach (fun mg => vGuard f.pn f.ps named srcs (if dst = .none then .none else .v f.data wide) fun act m =>
    let g := me m
    let from_ := if (myRun m).diverged then 0 else (myRun m).from_
    let els := act.map fun e =>
      elemAt e (wrapAddr ((vValue g base e).toNat + offBytes f)) (accSize f)
        (if cas then vValue g swap e else if reads then vValue g data e else 0) (if cas then vValue g data e else 0)
    let op := { vpOp m kind with
      dst := dst, size := accSize f, scope := f.scope, elems := els,
      srcs := named.filter fun i => srcs.any fun q => i == q.code.toNat || (q.wide && i == q.code.toNat + 1),
      opA := if 0x80 ≤ f.base.toNat then vValue g base 0 else 0 }
    issueOp mg (fun c e a i m => faultV0 m e c a i) (fun w m => blockV m from_ w)
      retireV op m) s
def execPld (f : FmtM) (s : State) : Host.Outcome State Fault Refusal :=
  vpMem f .load false false (.v f.data.toNat) s
def execPst (f : FmtM) (s : State) : Host.Outcome State Fault Refusal :=
  vpMem f .store true false .none s
def execPamo (op : BitVec 3) (f : FmtM) (s : State) : Host.Outcome State Fault Refusal :=
  vpMem f (.amo op f.sz5) true (op == 7) (.v f.data.toNat) s

end Sys2Proof.Machine
end

