-- ==== Sys2Proof/Machine/MemEvents.lean ====
section
/-! DEFINITION. Events of the memory system: performance of accesses, fills, leases, the Baler and combining buffers, host and peer
accesses (R23, R33, R197 to R202, R210 to R212, R220, R303). -/

namespace Sys2Proof.Machine

/-! ## The limiters (R303) -/

/-- Tokens per cycle and unit of share: 28.8 TB/s and 18 × 224 GB/s over 256, in 1/56 byte. -/
def tokenRate (hbm : Bool) : Nat := if hbm then 4500 else 630
def slotEnt (mg : Mgmt) (y : Nat) : SlotEnt := mget {} (mget {} mg.rows mg.row).ents y
def shareOf (mg : Mgmt) (y : Nat) (hbm : Bool) : Nat := if hbm then (slotEnt mg y).hbmsh else (slotEnt mg y).linksh
/-- 2 µs of a share. -/
def bucketCap (mg : Mgmt) (y : Nat) (hbm : Bool) : Nat := 2800 * tokenRate hbm * shareOf mg y hbm
def bucket (r : YardRun) (hbm : Bool) : Int := if hbm then r.hbm else r.link
def setBucket (hbm : Bool) (v : Int) (r : YardRun) : YardRun := if hbm then { r with hbm := v } else { r with link := v }
def waits (r : YardRun) (hbm : Bool) : Bool := if hbm then r.hbmWait else r.linkWait
def setWait (hbm v : Bool) (r : YardRun) : YardRun := if hbm then { r with hbmWait := v } else { r with linkWait := v }
def drawFrom (m : Mach) (y : Nat) (hbm : Bool) (bytes : Nat) : Mach :=
  modYrun m y fun r => setBucket hbm (bucket r hbm - (56 * bytes : Nat)) r
/-- A request of some bytes by a yard: what it draws beyond the tokens that are there is owed, and the bucket is empty until the refill has
paid it. None when its bucket is empty and no SLACK helps: unused tokens of a yard that has no request waiting itself. -/
def takeTokens (mg : Mgmt) (m : Mach) (y : Nat) (hbm : Bool) (bytes : Nat) : Option Mach :=
  if 0 < bucket (yrun m y) hbm then some (modYrun (drawFrom m y hbm bytes) y (setWait hbm false))
  else if (slotEnt mg y).slack then
    let others := (List.range 32).filter fun o => o != y && 0 < bucket (yrun m o) hbm && !waits (yrun m o) hbm
    let (k, m) := pick m others.length
    (others[k]?).map fun o => modYrun (drawFrom m o hbm bytes) y (setWait hbm false)
  else none
/-- The limiter a place is charged to; a drain is never held (R303). -/
def limitLoc (mg : Mgmt) (m : Mach) (y : Nat) (loc : Loc) (bytes : Nat) : Option Mach :=
  match loc with
  | .hbm => takeTokens mg m y true bytes
  | .system => takeTokens mg m y false bytes
  | .window => some m
/-- A request finds its limiter empty: it waits there, and the cycles count event 0x0F (R312). -/
def holdAtLimiter (m : Mach) (y : Nat) (loc : Loc) : Mach := modYrun m y (setWait (loc = .hbm) true)

/-! ## Performance of instruction accesses (R192, R198, R210, R212) -/

/-- R51: a window write waits while a byte it writes is of a claimed register. -/
def blockedEl (m : Mach) (kind : AccKind) (el : Elem) : Bool :=
  kind.writes && el.loc = .window && (bytesOf el.pa el.size).any (winBlocked m)
/-- A copy of an accumulator tile moves while the tile holds the group's values (R165). -/
def holdsTile (m : Mach) (c s : Nat) : AccKind → Bool
  | .tfill e | .tdrain e => 8 ≤ e || (tileOwnOf m c e).holder = some (ctxOf m c s)
  | _ => true
/-- The element may be performed now. -/
def canPerform (mg : Mgmt) (m : Mach) (c s : Nat) (op : MemOp) (el : Elem) : Bool :=
  (sameLoc op el).all (inTurn m c s op) && linePresent mg m c op el && !blockedEl m op.kind el && holdsTile m c s op.kind
/-- A system-scope access on its way, by the link of its route (R340). -/
def sysAcc (mg : Mgmt) (c s : Nat) (g : Group) (op : MemOp) (el : Elem) : SysAcc :=
  { core := c, slot := s, uid := g.uid, vf := g.vf, op := op.id, dest := destOf el, vp := if op.div then some el.e else none,
    link := linkFor mg (destOf el), kind := op.kind, el := el }
/-- A system-scope access leaves for its destination. -/
def sendSys (mg : Mgmt) (m : Mach) (c s : Nat) (op : MemOp) (el : Elem) : Mach :=
  { m with sysOut := m.sysOut ++ [sysAcc mg c s (grp m c s) op el] }
/-- The access returns what its location holds (R335). -/
def readsOld : AccKind → Bool
  | .store | .vsc | .tdrain _ => false
  | _ => true
/-- The doubleword of a tile that tdrain reads holds an error. -/
def badSource (m : Mach) (c : Nat) (op : MemOp) (el : Elem) : Option (Nat × Nat) :=
  match op.kind with
  | .tdrain e => badIn m (tileDw m c e el.e) 8
  | _ => none
/-- The error that the performance of an element meets, with its unit (R335). -/
def meetsBad (m : Mach) (c : Nat) (op : MemOp) (el : Elem) : Option (Nat × Nat) :=
  if readsOld op.kind && el.loc != .system then badIn m el.pa el.size else badSource m c op el
/-- An element is performed with those at its location, or faults its virtual function with what it meets (R193, R335). -/
def performOr (mg : Mgmt) (m : Mach) (c s : Nat) (op : MemOp) (els : List Elem) : Mach :=
  match els.head?.bind fun el => (meetsBad m c op el).map fun b => (el, b) with
  | some (el, dw, unit) => uncorrFault m (grp m c s).vf unit (8 * dw) (some (c, s, { word := op.word, clause := op.clause, elem := el.e }))
  | none => performLoc mg m c s op els
def findAcc (g : Group) (id : Nat) : Option MemOp := g.acc.find? fun o => o.id == id
def accessStep (mg : Mgmt) (c s id e : Nat) (m : Mach) : Mach :=
  let g := grp m c s
  match findAcc g id with
  | none => m
  | some op =>
    match op.elems.find? fun el => el.e == e with
    | none => m
    | some el =>
      if !canPerform mg m c s op el || !vfResident m g.vf || (el.loc = .system && !destUp mg (destOf el)) then m
      else if (meetsBad m c op el).isSome then performOr mg m c s op [el]
      else match (if (runningYard m g.vf).isNone then some m
          else limitLoc mg m (groupYard mg c g) el.loc (el.size * (sameLoc op el).length)) with
        | none => holdAtLimiter m (groupYard mg c g) el.loc
        | some m => if el.loc = .system then sendSys mg m c s op el else performOr mg m c s op (sameLoc op el)
def execAccessPerformed (c sl op e : Nat) (s : State) : Host.Outcome State Fault Refusal :=
  onUnit (groupOk c sl) (fun mg m => accessStep mg c (accPlace m c sl op) op e m) s

/-- Two accesses of a group whose order at a destination is kept: diverged ones of different VPs have none (R192, R210). -/
def sameParty (a b : SysAcc) : Bool := a.uid == b.uid && (a.vp.isNone || b.vp.isNone || a.vp == b.vp)
/-- An abandoned write stands before another of its party at the same destination (R210). -/
def lostBefore (a b : SysAcc) : Bool := sameParty a b && a.dest == b.dest && a.op < b.op
/-- An abandoned write is performed at its destination after all; those of its party that stand before it there are lost (R210, R306). -/
def lateWrite (mg : Mgmt) (n : Nat) (m : Mach) : Mach :=
  match m.abandoned[n]? with
  | none => m
  | some a =>
    let el := ownHbm mg a.el
    let (old, m) := if el.loc = .system then sysRead m el.pa el.size else (readLe m.mem el.pa el.size, m)
    let v := match a.kind with
      | .amo o c5 => amoNew o c5 el.size old el.data.toNat el.cmp.toNat
      | .arrive => barrierNext old
      | _ => el.data.toNat
    let m := if el.loc = .system then sysWrite m el.pa el.size v else memWrite m el.pa el.size v (.group a.uid) [] false
    { m with abandoned := (m.abandoned.eraseIdx n).filter fun b => !lostBefore b a }
/-- The n-th system-scope access of a group is acknowledged while its link is up, those after its own being abandoned ones; those of one party
to one destination complete in order, and none that was abandoned is performed after a later one (R210, R306, R340). -/
def sysAckStep (mg : Mgmt) (c s n : Nat) (m : Mach) : Mach :=
  let mine := m.sysOut.filter fun a => a.core == c && a.slot == s
  match mine[n]? with
  | none => lateWrite mg (n - mine.length) m
  | some a =>
    if ((mine.take n).any fun b => sameParty b a && b.dest == a.dest) || a.link.any (fun l => (linkOf mg l).st != 0) then m
    else
      let m := { m with sysOut := m.sysOut.filter (fun b => !(b.uid == a.uid && b.op == a.op && b.el.e == a.el.e)),
                        abandoned := m.abandoned.filter fun b => !(b.uid == a.uid && b.dest == a.dest && b.op < a.op) }
      let p := accPlace m c s a.op
      match findAcc (grp m c p) a.op with
      | some op => performOr mg m c p op ((sameLoc op a.el).map (ownHbm mg))
      | none => m
def execSystemScopeAck (c sl n : Nat) (s : State) : Host.Outcome State Fault Refusal :=
  onUnit (groupOk c sl) (fun mg m => sysAckStep mg c sl n m) s

/-! ## Fills of registers and lines -/

def fillX (c s i : Nat) (v : Word) (m : Mach) : Mach := modGrp m c s fun g => captureX (putX g i v) i v
/-- The n-th completed claim of a group fills its destination (R33). -/
def fillStep (c s n : Nat) (m : Mach) : Mach :=
  match (grp m c s).fills[n]? with
  | none => m
  | some f => modGrp m c s fun g =>
    let g := applyFill { g with fills := g.fills.eraseIdx n } f
    match f.reg with
    | .x i => captureX g i f.val
    | _ => g
/-- Some request waits for a line of HBM: the virtual function of the first. -/
def lineWanted (m : Mach) (line : Nat) : Option Nat :=
  ((allGroups m).find? fun t => t.2.2.acc.any fun op => !op.logged &&
    op.elems.any fun el => el.loc = .hbm && el.pa / 128 == line).map fun t => t.2.2.vf
/-- Ways of an L2 set (R22). -/
def l2Ways : Nat := 16
/-- Installs a line at its home, not written since, evicting one of a full set; a written one goes back to HBM, in two transfers of the virtual
function whose line it is (R312, log entry 139). -/
def installLine (m : Mach) (h : L2Line) : Mach :=
  let same := fun (l : L2Line) => l.shed == h.shed && l.bank == h.bank && l.set_ == h.set_
  let peers := m.l2.filter same
  let m := { m with dirty := mset false m.dirty h.line false }
  if peers.length < l2Ways then { m with l2 := h :: m.l2 }
  else
    let (k, m) := pick m peers.length
    let out := (peers[k]?).getD h
    let m := if mget false m.dirty out.line then countN { m with dirty := mset false m.dirty out.line false } out.vf 6 2 else m
    { m with l2 := h :: m.l2.filter (· != out) }
/-- A line that is not in L2 comes from HBM: an L2 miss and two transfers (R312). -/
def fetchLine (mg : Mgmt) (vf : Nat) (m : Mach) (line : Nat) : Mach :=
  let h := homeOf mg m (128 * line)
  if m.l2.contains h then m else countN (count1 (installLine m h) vf 5) vf 6 2
/-- The same for every line of a range of HBM. -/
def fetchRange (mg : Mgmt) (vf pa n : Nat) (m : Mach) : Mach :=
  if n == 0 then m else ((List.range ((pa + n - 1) / 128 + 1 - pa / 128)).map (pa / 128 + ·)).foldl (fetchLine mg vf) m
def lineFillStep (mg : Mgmt) (pa : Nat) (m : Mach) : Mach :=
  match lineWanted m (pa / 128) with
  | none => m
  | some vf => fetchLine mg vf m (pa / 128)
def execLineFill (pa : Nat) (s : State) : Host.Outcome State Fault Refusal :=
  onUnit (pa < 2 ^ 52) (fun mg m => lineFillStep mg pa m) s

/-! ## Leases, the Baler, combining, links -/

def execLogicalClockTick (c : Nat) (s : State) : Host.Outcome State Fault Refusal :=
  onUnit (coreOk c) (fun _ m => modCore m c fun k =>
    { k with clk := k.clk + 1, leases := k.leases.filter fun l => k.clk + 1 ≤ l.2 }) s
/-- The window's merged line requests are sent and counted (event 0x09). -/
def balerStep (c : Nat) (m : Mach) : Mach :=
  let m' := (core m c).baler.foldl (fun m key => count1 m (key / 2 ^ 48) 9) m
  modCore m' c fun k => { k with baler := [] }
def execBalerWindow (c : Nat) (s : State) : Host.Outcome State Fault Refusal :=
  onUnit (coreOk c) (fun _ m => balerStep c m) s
def execCombiningBuffer (k n : Nat) (s : State) : Host.Outcome State Fault Refusal :=
  onUnit (clusterOk k) (fun _ m => modClus m k fun q => { q with comb := q.comb.eraseIdx n }) s
/-- Never within 2,048 cycles of the link being set (R202). -/
def execVglLinkDrop (c sl n : Nat) (s : State) : Host.Outcome State Fault Refusal :=
  onUnit (groupOk c sl) (fun _ m => modGrp m c sl fun g =>
    { g with linkset := modNth (fun l => if l.since + 2048 < m.now then { l with intact := false } else l) n g.linkset }) s

/-! ## Ends of tile copies and Hayloft loads (R150, R153, R154) -/

/-- The instruction of some group on a core, or of one that has ended there, that has moved its last doubleword and fits a test. -/
def finished (m : Mach) (c : Nat) (p : AccKind → Bool) : Option (Nat × MemOp) :=
  ((allGroups m).filter fun t => t.1 == c).findSome? fun t =>
    (t.2.2.acc.find? fun o => o.elems.isEmpty && !o.logged && p o.kind).map fun o => (t.2.1, o)
def dropOp (m : Mach) (c s id : Nat) : Mach :=
  settleGone (endReplay (modGrp m c s fun g => { g with acc := g.acc.filter fun o => o.id != id }) c s id) c s
def tileEndStep (c e : Nat) (m : Mach) : Mach :=
  match finished m c fun k => k = .tfill e || k = .tdrain e with
  | none => m
  | some (s, op) => setTileSt (dropOp m c s op.id) c e (if op.kind = .tfill e then .ready else .empty)
def execTileFillComplete (c e : Nat) (s : State) : Host.Outcome State Fault Refusal :=
  onUnit (coreOk c && e < 32) (fun _ m => tileEndStep c e m) s

def isMload : AccKind → Bool
  | .mload _ _ => true
  | _ => false
/-- The 64-byte lines of a Hayloft range. -/
def hayLines (off len : Nat) : List Nat := (List.range (len / 64)).map (off / 64 + ·)
/-- Marks the lines an mload has written, and reports the first reserved T2 code. -/
def mloadEnd (m : Mach) (c s off len : Nat) (t2 : Bool) : Mach :=
  let k := clusterOf c
  let bad := if t2 then (hayLines off len).filter fun l => (t2Reserved (readBytes m.mem (hayAddr k (64 * l)) 64)).isSome else []
  let m := modClus m k fun q =>
    { q with hayLoading := q.hayLoading.filter fun l => !(hayLines off len).contains l,
              hayInvalid := (q.hayInvalid.filter fun l => !(hayLines off len).contains l) ++ bad }
  match bad with
  | [] => m
  | l :: _ =>
    let o := (t2Reserved (readBytes m.mem (hayAddr k (64 * l)) 64)).getD 0
    modGrp m c s fun g => { g with hayErr := true, hayOff := 64 * l + o }
def mloadStep (c s : Nat) (m : Mach) : Mach :=
  match (grp m c s).acc.find? fun o => o.elems.isEmpty && !o.logged && isMload o.kind with
  | some op => match op.kind with
    | .mload off t2 => mloadEnd (dropOp m c s op.id) c s off op.opC.toNat t2
    | _ => m
  | none => m
/-- The group of a slot, or one that has ended there, whose mload has moved its last doubleword. -/
def mloadPlace (m : Mach) (c s : Nat) : Nat :=
  let has := fun (g : Group) => g.acc.any fun o => o.elems.isEmpty && !o.logged && isMload o.kind
  if has (grp m c s) then s
  else (((allGroups m).find? fun t => t.1 == c && t.2.2.status = .gone && t.2.2.was == s && has t.2.2).map (·.2.1)).getD s
def execMloadComplete (c sl : Nat) (s : State) : Host.Outcome State Fault Refusal :=
  onUnit (groupOk c sl) (fun _ m => mloadStep c (mloadPlace m c sl) m) s

/-! ## Host and peers (R210, R211, R341) -/

/-- Writes one value of a given size at a place of HBM, as writes of its doublewords. -/
def partyWrite (m : Mach) (by_ : Party) (vis : Vis) (pa size val : Nat) : Mach := memWrite m pa size val by_ vis true
/-- A read from outside that meets an error faults the owner of the data; it returns the bytes as they stand (R334, R335, log entry 110). -/
def partyMeets (mg : Mgmt) (m : Mach) (pa size : Nat) : Mach :=
  match badIn m pa size with
  | some (dw, unit) => match segOwner mg pa with
    | some v => uncorrFault m v unit (8 * dw) none
    | none => m
  | none => m
/-- The window of the host into device memory (R341). -/
def inBar2 (mg : Mgmt) (pa : Nat) : Bool := pa < hbmBytes && mg.winbase ≤ pa && pa < mg.winbase + 2 ^ 36
/-- An access of the host: its own memory, another device's that the bridging device forwards, or device memory at the home bank in
the order sent (R25, R211, R341). -/
def hostStep (mg : Mgmt) (wr : Bool) (pa size : Nat) (data : Word) (m : Mach) : Mach :=
  if pa / 2 ^ 48 != 0 then
    let fwd := pa / 2 ^ 48 == 0xE
    if fwd && !(mg.device == mg.bridging && bitsOf pa 47 42 != mg.device && routeUp mg (bitsOf pa 47 42)) then m
    else if wr then sysWrite m pa size data.toNat
    else
      let (v, m) := sysRead m pa size
      { m with hostData := BitVec.ofNat 64 v, host := mmax m.host (sysGain m none pa) }
  else if !hostUp mg || !inBar2 mg pa then m
  else if wr then
    let m := memWrite m pa size data.toNat .host m.host true
    { m with host := mmax m.host (wroteGain m pa size) }
  else
    let (t, m) := takeFrom m (latestMust pa size) pa size
    partyMeets mg { m with hostData := BitVec.ofNat 64 (readLe m.mem pa size), host := mmax m.host (gainOf m none (pa / 8) t) } pa size
/-- Host accesses reach device memory, the host's own memory and, forwarded, that of the other devices. -/
def hostReach (pa : Nat) : Bool := pa < hbmBytes || pa / 2 ^ 48 == 0xD || pa / 2 ^ 48 == 0xE
def execHostAccess (wr : Bool) (pa size : Nat) (data : Word) (s : State) : Host.Outcome State Fault Refusal :=
  onUnit (hostReach pa && sizeOk size && pa % size == 0) (fun mg m => hostStep mg wr pa size data m) s
/-- An access of a peer device, over the links: device memory, or the peer's own (R25, R211, R339). -/
def peerStep (mg : Mgmt) (dev : Nat) (wr : Bool) (pa size : Nat) (data : Word) (m : Mach) : Mach :=
  if dev == mg.device || !routeUp mg dev then m
  else if pa / 2 ^ 48 != 0 then
    if wr then { m with mem := writeLe m.mem pa size data.toNat }
    else { m with hostData := BitVec.ofNat 64 (readLe m.mem pa size) }
  else if wr then memWrite m pa size data.toNat (.peer dev) [] true
  else partyMeets mg { m with hostData := BitVec.ofNat 64 (readLe m.mem pa size) } pa size
/-- A peer of the link group reaches device memory and its own memory. -/
def peerReach (dev pa : Nat) : Bool :=
  dev < 64 && (pa < hbmBytes || (pa / 2 ^ 48 == 0xE && bitsOf pa 47 42 == dev && pa % 2 ^ 42 < hbmBytes))
def execPeerAccess (dev : Nat) (wr : Bool) (pa size : Nat) (data : Word) (s : State) : Host.Outcome State Fault Refusal :=
  onUnit (peerReach dev pa && sizeOk size && pa % size == 0) (fun mg m => peerStep mg dev wr pa size data m) s

end Sys2Proof.Machine
end

