-- ==== Sys2Proof/Machine/Control.lean ====
section
/-! DEFINITION. Control flow, runs and the vector stream's transfers (R258 to R274), and register pushes (R229 to R232). -/

namespace Sys2Proof.Machine

/-! ## Transfers of the control stream (R66, R271, R272) -/

/-- The target of a format-B transfer of the acting clause. -/
def bTarget (m : Mach) (f : FmtB) : Nat := wrapN (m.act.clause + 8 * sext f.off.toNat 40) 64
/-- R272: what is wrong with a target; alignment is checked for register targets. -/
def badTarget (align : Bool) (t : Nat) : Option Nat :=
  if 2 ^ 55 ≤ t then some fRange else if align && t % 8 != 0 then some fTarget else none
/-- Checks a target, then goes on. -/
def withTarget (align : Bool) (t : Nat) (k : Mach → Mach) (m : Mach) : Mach :=
  match badTarget align t with
  | some code => faultAct m code 0 t 0
  | none => k m
def execBr (f : FmtB) (s : State) : Host.Outcome State Fault Refusal :=
  onMach (fun _ => withPred f.pn f.ps fun m => withTarget false (bTarget m f) (fun m => jumpC m (bTarget m f)) m) s
/-- A link register that is not full blocks, an open one too: R272's rule for `call`, not R35's for open destinations (log entry 124). -/
def execCall (f : FmtB) (s : State) : Host.Outcome State Fault Refusal :=
  onMach (fun _ => withPred f.pn f.ps (withSrcs [.r f.a false] fun m => withTarget false (bTarget m f) (fun m =>
    jumpC (modMe m fun g => putX g f.a.toNat (BitVec.ofNat 64 (seqClause m.act))) (bTarget m f)) m)) s
def execLoop (f : FmtB) (s : State) : Host.Outcome State Fault Refusal :=
  onMach (fun _ => withPred f.pn f.ps (withSrcs [.r f.a false] fun m =>
    let n := getX (me m) f.a.toNat
    let dec := fun (m : Mach) => modMe m fun g => putX g f.a.toNat (n - 1)
    if n == 0 then retireC m
    else if n == 1 then retireC (dec m)
    else withTarget false (bTarget m f) (fun m => jumpC (dec m) (bTarget m f)) m)) s
/-- A transfer to a register target. -/
def regJump (i : FmtA) (s : State) : Host.Outcome State Fault Refusal :=
  onMach (fun _ => withPred i.pn i.ps (withSrcs [.r i.a i.ta] fun m =>
    let t := (getX (me m) i.a.toNat).toNat
    withTarget true t (fun m => jumpC m t) m)) s
def execJmpr (i : FmtA) (s : State) : Host.Outcome State Fault Refusal := regJump i s
def execRet (i : FmtA) (s : State) : Host.Outcome State Fault Refusal := regJump i s
/-- R274: the youngest age of the core, and one choice for other groups. -/
def execYield (i : FmtA) (s : State) : Host.Outcome State Fault Refusal :=
  onMach (fun _ => withPred i.pn i.ps fun m =>
    let a := (core m m.act.core).nextAge
    let m := modCore m m.act.core fun k => { k with nextAge := a + 1 }
    let m := modMe m fun g => { g with age := a, yielded := true }
    retireC m) s

/-! ## Vector length and declaration (R258, R259, R40) -/

def execSetvl (i : FmtA) (s : State) : Host.Outcome State Fault Refusal :=
  onMach (fun _ => withPred i.pn i.ps (withSrcs [.r i.a i.ta] (withDst [.x i.d.toNat] fun m =>
    let n := min (getX (me m) i.a.toNat).toNat (me m).vlmax
    retireC (modMe m fun g => putX { g with vl := n, vstart := 0 } i.d.toNat (BitVec.ofNat 64 n))))) s
def anyClaimed (t : Map (Map FE)) : Bool := t.any fun r => r.2.any fun q => q.2 = .claimed
/-- R259. -/
def quiescent (m : Mach) (c s : Nat) : Bool :=
  let g := grp m c s
  g.run.isNone && !anyClaimed g.vfe && !anyClaimed g.cfe
    && (groupLoops m c s).all (fun l => l.uid != g.uid || !(List.range g.nregs).any fun i => loopReads m g.nregs i l)
    && g.pushes.isEmpty && g.log.isNone && g.links.isEmpty && g.qin.isEmpty && g.qout.isEmpty
/-- A child not yet ended. -/
def liveChild (g : Group) : Bool := (g.forks.head?).any (!·.done)
def execVregs (i : FmtI) (s : State) : Host.Outcome State Fault Refusal :=
  onMach (fun _ => withPred i.pn i.ps fun m =>
    let g := me m
    if g.parent.isSome || liveChild g then faultAct m fIllegal 0 0 0
    else if !quiescent m m.act.core m.act.slot then suspendC m .quiescent
    else
      let n := i.imm.toNat
      retireC (modMe m fun g => { g with nregs := n, vlmax := vlmaxOf n g.gcount g.laneL, vl := 0, v := [], vfe := [], c := [],
                                         cfe := [], links := [], qin := [], qout := [], vdirty := 0,
                                         saveMap := 0xFFFFFFFFFFFFFFFF })) s

/-! ## Runs (R260 to R268) -/

/-- Starts a run at a clause: vl and the uniform x registers are captured; a claimed one is captured at
the fill of its claim, and an open one, which holds no value, when another party fills it (R36, R260, R263, log entry 108). -/
def startRun (g : Group) (pc : Nat) : Group :=
  let r : Run := { num := g.runs, vl := g.vl, seq := g.seq, ux := g.x, uwait := (g.xfe.filter fun q => q.2 = .claimed).map Prod.fst,
                   uopen := (g.xfe.filter fun q => q.2 = .opened).map Prod.fst, upend := g.pend.filter (·.isX),
                   diverged := false, pc := pc, w := 1, rp := none, from_ := 0 }
  { g with begunV := false, run := if g.vl == 0 then none else some r, runs := g.runs + 1, seq := g.seq + 1, vps := [] }
def execVf (f : FmtB) (s : State) : Host.Outcome State Fault Refusal :=
  onMach (fun _ => withPred f.pn f.ps fun m =>
    if (me m).run.isSome then suspendC m .runEnd
    else withTarget false (bTarget m f) (fun m =>
      let fl := fetchable m (me m).vis
      retireC (modMe m fun g => startRun { g with fetchFloor := mmax g.fetchFloor fl } (bTarget m f))) m) s
def execVfwait (i : FmtA) (s : State) : Host.Outcome State Fault Refusal :=
  onMach (fun _ => withPred i.pn i.ps fun m => if (me m).run.isSome then suspendC m .runEnd else retireC m) s

/-- Ends the run when every VP is idle. -/
def checkRunEnd (g : Group) : Group :=
  match g.run with
  | some r => if r.diverged && (livePositions g).isEmpty then endRun g else g
  | none => g
/-- From here on the run is diverged: every VP gets the position that place gives it (R261). -/
def diverge (g : Group) (place : Nat → VpPos) : Group :=
  let vl := (g.run.map (·.vl)).getD 0
  modRun { g with vps := (List.range vl).foldl (fun t e => mset vpIdle t e (place e)) [] } fun r =>
    { r with diverged := true, from_ := 0 }
def posAt (pc : Nat) : VpPos := { pc := pc, w := 1, idle := false, parked := none }
/-- A transfer of the VPs in act to a target, the other executing VPs to the sequential clause. -/
def splitVps (m : Mach) (act : List Nat) (target : VpPos) : Mach :=
  let seqP := posAt (seqClause m.act)
  modMe m fun g =>
    if (myRun m).diverged then
      checkRunEnd (setVps (setVps g m.act.vps fun _ => seqP) act fun _ => target)
    else checkRunEnd (diverge g fun e => if act.contains e then target else seqP)
/-- The executing VPs whose predicate is true, once no c bit it reads is empty. -/
def vTerm (pn : Bool) (ps : BitVec 3) (k : List Nat → Mach → Mach) (m : Mach) : Mach :=
  match vPredWait m ps with
  | some w => blockV m 0 w
  | none => k (vActive m pn ps) m
/-- Taken V transfers end the clause; a target at or below the clause sets the rotation point (R264). -/
def vJump (m : Mach) (act : List Nat) (t : Nat) : Mach := endClauseV (splitVps (countInstr m) act (posAt t)) (t ≤ m.act.clause)
def execVfetch (f : FmtB) (s : State) : Host.Outcome State Fault Refusal :=
  onMach (fun _ => vTerm f.pn f.ps fun act m =>
    let t := bTarget m f
    if act.isEmpty then retireV m
    else match badTarget false t with
      | some code => faultV0 m (act.headD 0) code t 0
      | none => vJump m act t) s
def execVbru (f : FmtB) (s : State) : Host.Outcome State Fault Refusal :=
  let c := f.a.toNat - 0x40
  onMach (fun _ => vTerm f.pn f.ps fun act m =>
    let t := bTarget m f
    let g := me m
    let rs := act.map (Reg.c c)
    match act with
    | [] => retireV m
    | e :: _ =>
      if rs.any fun r => getFe g r != .full then blockV m 0 (.full rs)
      else if act.any fun x => getC g c x != getC g c e then faultV0 m e fDivergent 0 0
      else if !getC g c e then retireV m
      else match badTarget false t with
        | some code => faultV0 m e code t 0
        | none => endClauseV (moveVps (countInstr m) m.act.vps t 1) (t ≤ m.act.clause)) s
def execVStop (i : FmtA) (s : State) : Host.Outcome State Fault Refusal :=
  onMach (fun _ => vTerm i.pn i.ps fun act m =>
    if act.isEmpty then retireV m
    else if !(myRun m).diverged && act.length == m.act.vps.length then
      afterClause (endIssue (modMe (countInstr m) endRun))
    else endClauseV (splitVps (countInstr m) act { posAt m.act.clause with idle := true }) false) s

/-! ## Pushes (R229 to R232) -/

/-- The target fields of a descriptor. -/
structure PushTarget where
  core : Nat
  dreg : Nat
  slot : Nat
  deriving DecidableEq, Repr
def pushTarget (d : Nat) : Option PushTarget :=
  if bitsOf d 63 25 != 0 || bitsOf d 15 14 != 0 || bitsOf d 7 6 != 0 then none
  else some { core := bitsOf d 24 16, dreg := bitsOf d 13 8, slot := bitsOf d 5 0 }
/-- CORE and SLOT are of the sender's yard. -/
def pushInYard (y : Yard) (t : PushTarget) : Bool :=
  if y.lane then t.core == y.core && slotBase y.b ≤ t.slot && t.slot < slotBase y.b + slotCount y.l
  else t.core < 384 && y.ownsCluster (clusterOf t.core)
/-- The checks of R230: the fault code and its INFO. -/
def pushCheck (mg : Mgmt) (m : Mach) (d count : Nat) : Except (Nat × Nat) PushTarget :=
  let g := me m
  match pushTarget d with
  | none => .error (fWindow, 0)
  | some t =>
    let r := grp m t.core t.slot
    if !pushInYard (groupYardEnt mg m.act.core g) t then .error (fWindow, 0)
    else if !r.here || r.vf != g.vf then .error (fPush, 1)
    else if r.nregs ≤ t.dreg + count - 1 then .error (fPush, 2)
    else if r.vlmax < g.vl then .error (fPush, 3)
    else .ok t
def execVpush (i : FmtA) (s : State) : Host.Outcome State Fault Refusal :=
  let count := i.md.toNat + 1
  let regs := (List.range count).map (i.b.toNat + ·)
  onMach (fun mg => withPred i.pn i.ps (declared regs (afterLockStep fun m =>
    let es := (List.range (me m).vl).filter ((me m).vstart ≤ ·)
    withSrcs [.r i.a i.ta, .v regs es i.tb] (fun m =>
      if 4 ≤ (me m).pushes.length then suspendC m .pushRoom
      else match pushCheck mg m (getX (me m) i.a.toNat).toNat count with
        | .error (code, info) => faultAct m code 0 0 info
        | .ok t =>
          let uid := (grp m t.core t.slot).uid
          retireC (modMe m fun g =>
            let p : Push := { core := t.core, slot := t.slot, uid := uid, dreg := t.dreg, src := i.b.toNat, count := count,
                              moved := 0, first := g.vstart, vl := g.vl, at_ := markOf g }
            { g with pushes := g.pushes ++ [p], seq := g.seq + 1, vstart := 0 })) m))) s

/-- The target VPs of a push, if its group is there. -/
def pushVps (p : Push) : List Nat := (List.range p.vl).filter (p.first ≤ ·)
/-- The next destination register is open in every target VP. -/
def pushReady (m : Mach) (p : Push) : Bool :=
  let t := grp m p.core p.slot
  t.here && t.uid == p.uid && (pushVps p).all fun e => getFe t (.v (p.dreg + p.moved) e) == .opened
/-- Moves one register: each fill is a write of the sender (R196). -/
def pushMove (m : Mach) (p : Push) (v : Map (Map Lane)) (vis : Vis) : Mach :=
  modGrp m p.core p.slot fun t => (pushVps p).foldl (fun t e =>
    let t := putV t (p.dreg + p.moved) e (mget 0 (mget [] v (p.src + p.moved)) e)
    { t with pend := { isX := false, reg := p.dreg + p.moved, e := e, vis := vis } :: t.pend }) t
def pushNext (p : Push) : List Push := if p.moved + 1 < p.count then [{ p with moved := p.moved + 1 }] else []
/-- Replaces the n-th element of a list by others. -/
def replaceAt {α : Type} (r : List α) : Nat → List α → List α
  | _, [] => []
  | 0, _ :: l => r ++ l
  | n + 1, a :: l => a :: replaceAt r n l
/-- The earlier accesses of the sender are performed: the fills take their places in T after them (R194, R196, R231). -/
def pushInTurn (g : Group) (p : Push) : Bool := (g.acc ++ g.recs.map (·.op)).all fun o => !beforeMark o p.at_
/-- The VP whose source register fails, of those whose value a push is to move (R335). -/
def pushFails (g : Group) (p : Push) : Option Nat := (pushVps p).find? fun e => getFe g (.v (p.src + p.moved) e) == .failing
/-- Push n of a group; those after its own belong to senders of the slot that have ended. Pushes of one sender move in order. -/
def pushStep (c s n : Nat) (m : Mach) : Mach :=
  let g := grp m c s
  match g.pushes[n]? with
  | some p =>
    if n == 0 && pushInTurn g p && pushReady m p then
      if let some e := pushFails g p then uncorrFault m g.vf regUnit (regAddr m c s (p.src + p.moved) e) none else
      modGrp (pushMove m p g.v g.vis) c s fun g => { g with pushes := replaceAt (pushNext p) n g.pushes }
    else m
  | none =>
    let mine := (m.orphans.zipIdx.filter fun o => o.1.core == c && o.1.slot == s)
    match mine[n - g.pushes.length]? with
    | some (o, i) =>
      let left := (allGroups m).all fun t => t.2.2.status != .gone || t.2.2.uid != o.uid || pushInTurn t.2.2 o.push
      if left && pushReady m o.push && !((m.orphans.take i).any fun q => q.uid == o.uid) then
        let m := pushMove m o.push o.v o.vis
        let upd := (pushNext o.push).map fun p => { o with push := p }
        { m with orphans := replaceAt upd i m.orphans }
      else m
    | none => m
def execPushRegisterMove (c sl n : Nat) (s : State) : Host.Outcome State Fault Refusal :=
  onUnit (groupOk c sl) (fun _ m => pushStep c sl n m) s

end Sys2Proof.Machine
end

