-- ==== Sys2Proof/Machine/Create.lean ====
section
/-! DEFINITION. Starting and ending groups: launch records (R83 to R86, R281, R282), spawn and the packer (R276 to R278), fork and
join (R279, R280), stop (R273); the state a group starts with (R37, R275, R352). -/

namespace Sys2Proof.Machine

/-! ## Starting a group (R37) -/

/-- What a group start takes from its creator. -/
structure Birth where
  vf : Nat
  entry : Nat
  nregs : Nat
  gcount : Nat
  lanes : Nat × Nat
  vlmax : Nat
  vl : Nat
  priv : Bool
  /-- x1 to x8. -/
  xs : List Word
  frame : Frame
  ftz : Bool
  drm : BitVec 3
  vis : Vis
  /-- Spawn arguments of a packed group, one per VP. -/
  args : List Word
  parent : Option (Nat × Nat)

/-- x7 or x8: the group's own part of an area when the frame description has a size for it (R82, R352). -/
def framePart (base size idx : Nat) (given : Word) : Word :=
  if size == 0 then given else BitVec.ofNat 64 (base + 128 * size * idx)
/-- The x registers a group starts with. -/
def birthX (b : Birth) (idx : Nat) : Map Word :=
  let x := msetAll 0 [] (b.xs.zipIdx.map fun p => (p.2 + 1, p.1))
  let x := mset 0 x 7 (framePart b.frame.x7 b.frame.fpart idx (mget 0 x 7))
  mset 0 x 8 (framePart b.frame.x8 b.frame.spart idx (mget 0 x 8))
/-- One half of the spawn arguments, by VP. -/
def argHalf (hi : Bool) (args : List Word) : Map Lane :=
  msetAll 0 [] (args.zipIdx.map fun p => (p.2, if hi then p.1.extractLsb' 32 32 else p.1.extractLsb' 0 32))
/-- v0:v1 of a packed group. -/
def argRegs (args : List Word) : Map (Map Lane) := mset [] (mset [] [] 0 (argHalf false args)) 1 (argHalf true args)

/-- The group's index in the areas of R82 and R323. -/
def areaIndex (mg : Mgmt) (y : Yard) (c s : Nat) : Nat := 64 * corePos mg y c + s
/-- First group slot of a yard on its cores. -/
def yardSlot0 (y : Yard) : Nat := if y.lane then slotBase y.b else 0
/-- Instructions of a group are numbered after those of groups that have ended in its slot with accesses to perform. -/
def firstOp (m : Mach) (c s : Nat) : Nat :=
  ((allGroups m).filter fun t => t.1 == c && t.2.2.status = .gone && t.2.2.was == s).foldl (fun n t => max n t.2.2.nextOp) 0
/-- A tile context is a virtual function with a group slot (R44): what an ended group of the slot owns and holds is the new group's
(log entry 111). -/
def adoptTiles (m : Mach) (vf c s uid : Nat) : Mach :=
  let ended := fun (h : Ctx) => h.vf == vf && h.slot == s
    && !((allGroups m).any fun t => t.2.2.here && t.2.2.uid == h.uid) && !((mget {} m.saved vf).groups.any fun kg => kg.2.uid == h.uid)
  let mine := fun (h : Ctx) => if ended h then { h with uid := uid } else h
  if (core m c).own.any fun kv => kv.2.owner.any ended || kv.2.holder.any ended then
    modCore m c fun k => { k with own := k.own.map fun kv =>
      (kv.1, { kv.2 with owner := kv.2.owner.map mine, holder := kv.2.holder.map mine }) }
  else m
/-- A group starts in a free slot of a core. -/
def startGroup (mg : Mgmt) (m : Mach) (c s : Nat) (b : Birth) : Mach :=
  let y := yardEnt mg ((yardAt mg c b.lanes.1).getD 0)
  let idx := areaIndex mg y c s
  let g : Group :=
    { status := .running, vf := b.vf, priv := b.priv, uid := m.nextUid, gcount := b.gcount, laneB := b.lanes.1,
      laneL := b.lanes.2, nregs := b.nregs, vlmax := b.vlmax, age := (core m c).nextAge, frame := b.frame, entry := b.entry,
      slot0 := yardSlot0 y, x := birthX b idx, v := argRegs b.args, vl := b.vl, ftz := b.ftz, drm := b.drm, pc := b.entry,
      tsave := (vfst m b.vf).tsbase + 0x8000 * idx, parent := b.parent, vis := b.vis, fetchFloor := fetchable m b.vis,
      nextOp := firstOp m c s }
  let m := adoptTiles (modCore m c fun k => { k with nextAge := k.nextAge + 1 }) b.vf c s m.nextUid
  setGrp { m with nextUid := m.nextUid + 1 } c s g

/-- The slots of a yard on a core that groups of G may take. -/
def yardSlots (y : Yard) (gc : Nat) : List Nat :=
  (List.range (if y.lane then min gc (slotCount y.l) else min gc 64)).map (yardSlot0 y + ·)
def freeSlot (m : Mach) (c : Nat) (slots : List Nat) : Option Nat := slots.find? fun s => (grp m c s).status = .free
/-- Groups on a core that belong to a yard. -/
def yardGroupsOn (m : Mach) (y : Yard) (c : Nat) : List (Nat × Group) :=
  ((coreGroups m c).map fun t => (t.2.1, t.2.2)).filter fun t => !y.lane || (y.b ≤ t.2.laneB && t.2.laneB < y.b + y.l)
/-- A core holds no groups or only groups of G. -/
def sameG (m : Mach) (y : Yard) (c gc : Nat) : Bool := (yardGroupsOn m y c).all fun t => t.2.gcount == gc

/-! ## Launch records (R83 to R85) -/

structure Level where
  extent : Nat
  domain : Nat
  mscope : Nat
  deriving DecidableEq, Repr

structure LaunchRec where
  entry : Nat
  nlev : Nat
  nregs : Nat
  ngroups : Nat
  ntiles : Nat
  vlreq : Nat
  flags : Nat
  lssize : Nat
  fpart : Nat
  spart : Nat
  levels : List Level
  xs : List Word
  last : Word
  deriving DecidableEq, Repr

def levelOf (w : Nat) : Level := { extent := bitsOf w 31 8, domain := bitsOf w 7 4, mscope := bitsOf w 3 0 }
/-- The fields of sixteen doublewords. -/
def recordOf (ws : List Word) : LaunchRec :=
  let w := fun i => ((ws[i]?).getD 0).toNat
  { entry := w 0, nlev := bitsOf (w 1) 7 0, nregs := bitsOf (w 1) 15 8, ngroups := bitsOf (w 1) 23 16,
    ntiles := bitsOf (w 1) 31 24, vlreq := bitsOf (w 1) 47 32, flags := bitsOf (w 1) 63 48, lssize := bitsOf (w 2) 31 0,
    fpart := bitsOf (w 2) 47 32, spart := bitsOf (w 2) 63 48,
    levels := (List.range 8).map fun i => levelOf (if i % 2 == 0 then bitsOf (w (3 + i / 2)) 31 0 else bitsOf (w (3 + i / 2)) 63 32),
    xs := (ws.drop 7).take 8, last := (ws[15]?).getD 0 }

/-- The least MSCOPE a domain allows. -/
def domainScope (d : Nat) : Nat := if d == 5 then 4 else d
def levelOk (l : Level) : Bool :=
  1 ≤ l.extent && l.domain ≤ 5 && l.mscope ≤ 5 && domainScope l.domain ≤ l.mscope && (l.domain != 5 || l.extent == 1)
/-- Neither DOMAIN nor MSCOPE decreases outward (R84). -/
def levelsRise : List Level → Bool
  | a :: b :: r => a.domain ≤ b.domain && a.mscope ≤ b.mscope && levelsRise (b :: r)
  | _ => true
def nregsOk (n : Nat) : Bool := n == 8 || n == 16 || n == 32 || n == 64
/-- R85 but for the address, for a virtual function and the lane count of its yard. -/
def recordValid (v : VfEnt) (lanes : Nat) (r : LaunchRec) : Bool :=
  let ls := r.levels.take r.nlev
  let vm := vlmaxOf r.nregs r.ngroups lanes
  r.entry < 2 ^ 55 && r.entry % 8 == 0 && 1 ≤ r.nlev && r.nlev ≤ 8 && nregsOk r.nregs && 1 ≤ r.ngroups && r.ngroups ≤ 64
    && r.ntiles ≤ 8 && r.vlreq ≤ 1024 && r.vlreq ≤ vm && r.flags ≤ 1 && (r.flags == 0 || v.privok)
    && r.lssize ≤ 524288 && r.lssize % 1024 == 0 && r.last == 0
    && (r.levels.drop r.nlev).all (fun l => l.extent == 0 && l.domain == 0 && l.mscope == 0)
    && ls.all levelOk && levelsRise ls
    && (match ls.head? with
      | some l => l.domain == 0 && l.extent ≤ (if r.vlreq == 0 then vm else r.vlreq)
      | none => false)

/-! ## Placement (R282) -/

/-- The number of groups that the group-domain levels of a record hold in one parent instance. -/
def groupsPer (ls : List Level) : Nat := ((ls.filter (·.domain == 1)).map (·.extent)).foldl (· * ·) 1
/-- Core, cluster and shed levels, outermost first, levels of one domain in a row as one. -/
def unitLevels : List Level → List (Nat × Nat)
  | [] => []
  | l :: r =>
    let t := unitLevels r
    if l.domain < 2 || 5 ≤ l.domain then t
    else match t.reverse with
      | (d, e) :: q => if d == l.domain then q.reverse ++ [(d, e * l.extent)] else t ++ [(l.domain, l.extent)]
      | [] => [(l.domain, l.extent)]
def unitOf (dom c : Nat) : Nat := if dom == 2 then c else if dom == 3 then clusterOf c else shedOf c
/-- Places the instances of the levels among the cores of a parent's unit; each takes the lowest-numbered unit that has room for
what it holds (log entry 26). -/
def placeIn (qual : Nat → Bool) : List (Nat × Nat) → List Nat → Option (List Nat)
  | [], cores => (cores.find? qual).map fun c => [c]
  | (dom, ext) :: r, cores =>
    let units := (cores.map (unitOf dom)).eraseDups
    let found := units.filterMap fun u => placeIn qual r (cores.filter fun c => unitOf dom c == u)
    if found.length < ext then none else some (found.take ext).flatten
/-- Cores that qualify: no groups or only groups of G, and a free slot (R282). -/
def coreQualifies (m : Mach) (y : Yard) (gc c : Nat) : Bool := sameG m y c gc && (freeSlot m c (yardSlots y gc)).isSome
/-- The same for an absent virtual function, from its saved context, whose slots count from the yard's first (R332). -/
def savedQualifies (mg : Mgmt) (m : Mach) (vf : Nat) (y : Yard) (gc c : Nat) : Bool :=
  let pos := savePos y c
  let here := (mget {} m.saved vf).groups.filter fun kg => keyCore kg.1 == pos && keySlot kg.1 < 64 && kg.2.status != .free
  let room := if y.lane then min gc (slotCount y.l) else min gc 64
  here.all (fun kg => kg.2.gcount == gc) && (here.filter fun kg => keySlot kg.1 < room).length < room && y.ownsCore mg c
/-- The cores of a record's instances, with the number of groups on each. -/
def placeRecord (mg : Mgmt) (y : Yard) (qual : Nat → Bool) (r : LaunchRec) : Option (List (Nat × Nat)) :=
  let ls := r.levels.take r.nlev
  (placeIn qual (unitLevels ls) (yardCores mg y)).map fun cs => cs.map fun c => (c, groupsPer ls)

/-! ## Accepting a record (R281, R332) -/

inductive Accepted where
  | invalid | noPlace | busy
  | ok (m : Mach)

/-- The lane count that R85 uses: that of the yard. -/
def yardLaneCount (y : Yard) : Nat := if y.lane then y.l else 16
/-- Checks and places a record for a virtual function; resident says whether its groups are on the cores now. -/
def acceptRecord (mg : Mgmt) (m : Mach) (vf : Nat) (y : Yard) (resident : Bool) (ftz : Bool) (drm : BitVec 3) (vis : Vis)
    (ws : List Word) : Accepted :=
  let r := recordOf ws
  if !recordValid (vfEnt mg vf) (yardLaneCount y) r then .invalid
  else if 16 ≤ (vfst m vf).launched.length then .busy
  else
    let qual := fun c => if resident then coreQualifies m y r.ngroups c else savedQualifies mg m vf y r.ngroups c
    let name := fun (p : Nat × Nat) => if resident then p else (savePos y p.1, p.2)
    match (placeRecord mg y qual r).map fun ps => ps.map name with
    | none => .noPlace
    | some places =>
      let l : Launched :=
        { entry := r.entry, nregs := r.nregs, gcount := r.ngroups, ntiles := r.ntiles, vlreq := r.vlreq, priv := r.flags == 1,
          frame := { x7 := ((r.xs[6]?).getD 0).toNat, x8 := ((r.xs[7]?).getD 0).toNat, fpart := r.fpart, spart := r.spart },
          xs := r.xs, places := places, ftz := ftz, drm := drm, vis := vis }
      .ok (modVf m vf fun v => { v with launched := v.launched ++ [l] })

/-- Starts the reads of n doublewords after the words kept so far, in ascending address order, the clause held; a translation fault
is not logged, and then the instruction starts again when the group resumes (R86, R179). -/
def heldRead (mg : Mgmt) (va n : Nat) (keep : List Word) (m : Mach) : Mach :=
  let op := { ctlOp m .held with elems := (List.range n).map fun i => elemAt i (va + 8 * i) 8 0 0 }
  let drop := fun (m : Mach) => modMe m fun g => { g with held := none }
  match checkOp mg m m.act.core (me m) op with
  | (.halt code e a info, m) => faultAct (drop m) code e a info
  | (.fault e a _ cause, m) => faultAct (drop m) fXlate e a cause
  | (.ok els _, m) =>
    if mayRecord (me m) { op with elems := els } && 8 ≤ vecInFlight (me m) then suspendC m .recRoom
    else
    let m := enterOp m m.act.core m.act.slot op els []
    suspendC (modMe m fun g => { g with nextOp := g.nextOp + 1, seq := g.seq + 1, held := some { op := op.id, phase := 0, words := keep } })
      (.op op.id)
/-- Reads n doublewords, then goes on with them. -/
def readHeld (mg : Mgmt) (va n : Nat) (k : List Word → Mach → Mach) (m : Mach) : Mach :=
  match (me m).held with
  | some h =>
    if (me m).acc.any fun o => o.id == h.op then suspendC m (.op h.op) else k h.words m
  | none => heldRead mg va n [] m

/-- A predicate result that ends an instruction. -/
def retireP (m : Mach) (d : BitVec 8) (b : Bool) : Mach := retireC (modMe m fun g => putP g (d.toNat - 0x80) b)
def pReg (d : BitVec 8) : Reg := .p (d.toNat - 0x80)
def execLaunch (i : FmtA) (s : State) : Host.Outcome State Fault Refusal :=
  onMach (fun mg => withPred i.pn i.ps (withSrcs [.r i.a i.ta] (withDst [pReg i.d] fun m =>
    let va := (getX (me m) i.a.toNat).toNat
    if va % 128 != 0 && (me m).held.isNone then retireP m i.d false
    else readHeld mg va 16 (fun ws m =>
      let g := me m
      match acceptRecord mg m g.vf (groupYardEnt mg m.act.core g) true g.ftz g.drm g.vis ws with
      | .ok m => retireP m i.d true
      | _ => retireP m i.d false) m))) s

def runsIn (m : Mach) (mg : Mgmt) (c lane vf : Nat) : Bool :=
  (yardAt mg c lane).any fun y => (yrun m y).phase = .running vf
/-- Takes one instance off the front of a record's places. -/
def dropPlace : List (Nat × Nat) → List (Nat × Nat)
  | [] => []
  | (c, n) :: r => if n ≤ 1 then r else (c, n - 1) :: r
/-- R282, R165: a started group claims t0 to t(n − 1). -/
def claimTiles (m : Mach) (c s n : Nat) : Mach :=
  (List.range n).foldl (fun m t => setTileOwn m c t { tileOwnOf m c t with owner := some (ctxOf m c s) }) m
/-- The next instance of the n-th accepted record of a virtual function starts. -/
def launchStep (mg : Mgmt) (vf n : Nat) (m : Mach) : Mach :=
  match (vfst m vf).launched[n]?, runningYard m vf with
  | some l, some yn =>
    match l.places with
    | [] => m
    | (c, _) :: _ =>
      let y := yardEnt mg yn
      match (if sameG m y c l.gcount then freeSlot m c (yardSlots y l.gcount) else none) with
      | none => m
      | some s =>
        let lanes := yardLanes mg y c
        let vm := vlmaxOf l.nregs l.gcount lanes.2
        let b : Birth :=
          { vf := vf, entry := l.entry, nregs := l.nregs, gcount := l.gcount, lanes := lanes, vlmax := vm,
            vl := (if l.vlreq == 0 then vm else min l.vlreq vm), priv := l.priv, xs := l.xs, frame := l.frame, ftz := l.ftz,
            drm := l.drm, vis := l.vis, args := [], parent := none }
        let m := claimTiles (startGroup mg m c s b) c s l.ntiles
        let rest := dropPlace l.places
        modVf m vf fun v => { v with launched :=
          if rest.isEmpty then v.launched.eraseIdx n else modNth (fun q => { q with places := rest }) n v.launched }
  | _, _ => m
def execLaunchGroupStart (vf n : Nat) (s : State) : Host.Outcome State Fault Refusal :=
  onUnit (vfOk vf) (fun mg m => launchStep mg vf n m) s

/-! ## Spawn and the packer (R276 to R278) -/

/-- What an item takes from the group that spawned it. -/
def starterOf (mg : Mgmt) (m : Mach) : Starter :=
  let g := me m
  let c := m.act.core
  let l := yardLanes mg (groupYardEnt mg c g) c
  { vf := g.vf, core := c, nregs := g.nregs, gcount := g.gcount, laneB := l.1, laneL := l.2, priv := g.priv, frame := g.frame,
    ftz := g.ftz, drm := g.drm, vis := g.vis }
/-- c of R277. -/
def stallFull (s : Starter) : Nat := min 64 (vlmaxOf s.nregs s.gcount s.laneL)
/-- An item of a stall's kind: same entry, virtual function and, in a lane-set yard, core. -/
def stallTakes (laneYard : Bool) (it : Item) (t : Stall) : Bool :=
  match t.items with
  | [] => false
  | q :: _ => q.entry == it.entry && q.by_.vf == it.by_.vf && (!laneYard || q.by_.core == it.by_.core)
/-- The stall that takes an arriving item, if one does. -/
def findStall (k : Cluster) (laneYard : Bool) (it : Item) : Option Nat :=
  match (List.range 32).find? fun i => stallTakes laneYard it (mget {} k.stalls i) with
  | some i =>
    let t := mget {} k.stalls i
    match t.items with
    | q :: _ => if t.items.length < stallFull q.by_ then some i else none
    | [] => none
  | none => (List.range 32).find? fun i => (mget {} k.stalls i).items.isEmpty
def addToStall (m : Mach) (k i : Nat) (it : Item) : Mach :=
  modClus m k fun q => { q with stalls := mmod {} q.stalls i fun t =>
    if t.items.isEmpty then { items := [it], due := m.now + q.timer, timed := false } else { t with items := t.items ++ [it] } }
/-- SPOVF: base and number of items the area holds (R315). -/
def spovfBase (v : VfState) : Nat := bitsOf v.spovf.toNat 54 16 * 65536
def spovfCap (v : VfState) : Nat := bitsOf v.spovf.toNat 15 0 * 4096
/-- Writes an item into the overflow area, if it has room; its bytes go where the area's page leads (log entry 27). -/
def overflowItem (mg : Mgmt) (m : Mach) (it : Item) : Option Mach :=
  let vf := it.by_.vf
  let v := vfst m vf
  if spovfCap v ≤ v.overflow.length then none
  else
    let va := spovfBase v + 16 * (v.ovTail % spovfCap v)
    let (x, m) := translate mg m vf (me m).uid .write va
    let m := match x with
      | .ok pa loc _ =>
        if loc = .window && !windowOk m (groupYardEnt mg m.act.core (me m)) vf pa then m
        else devWrite (devWrite m .device it.by_.vis vf loc pa 8 it.entry) .device it.by_.vis vf loc (pa + 8) 8 it.arg.toNat
      | _ => m
    some (modVf m vf fun q => { q with overflow := q.overflow ++ [it], ovTail := q.ovTail + 1 })
/-- Where the next n items of the overflow area would be written among claimed registers: the spawn waits for their claims (R51). -/
def overflowWait (mg : Mgmt) (m : Mach) (n : Nat) : Option Wait :=
  let v := vfst m (me m).vf
  ((List.range (min n (spovfCap v - v.overflow.length))).findSome? fun i =>
    match (translate mg m (me m).vf (me m).uid .write (spovfBase v + 16 * ((v.ovTail + i) % spovfCap v))).1 with
    | .ok pa .window _ => if winInMem pa || !rangeBlocked m pa 16 then none else some (.window pa 16)
    | _ => none)
/-- An item arrives at its cluster unit. -/
def placeItem (mg : Mgmt) (laneYard : Bool) (m : Mach) (it : Item) : Option Mach :=
  let k := clusterOf it.by_.core
  match findStall (clus m k) laneYard it with
  | some i => some (addToStall m k i it)
  | none => overflowItem mg m it
def placeItems (mg : Mgmt) (laneYard : Bool) : Mach → List Item → Option Mach
  | m, [] => some m
  | m, it :: r => match placeItem mg laneYard m it with
    | some m => placeItems mg laneYard m r
    | none => none
/-- What a spawn waits for whose items go in part to the overflow area. -/
def spawnWait (mg : Mgmt) (laneYard : Bool) (m : Mach) (its : List Item) : Option Wait :=
  (placeItems mg laneYard m its).bind fun p =>
    overflowWait mg m ((vfst p (me m).vf).overflow.length - (vfst m (me m).vf).overflow.length)
def actLaneYard (mg : Mgmt) (m : Mach) : Bool := (groupYardEnt mg m.act.core (me m)).lane
def execSpawn (i : FmtA) (s : State) : Host.Outcome State Fault Refusal :=
  onMach (fun mg => withPred i.pn i.ps (withSrcs [.r i.a i.ta, .r i.b i.tb] fun m =>
    let t := (getX (me m) i.a.toNat).toNat
    withTarget true t (fun m =>
      let its : List Item := [{ entry := t, arg := getX (me m) i.b.toNat, by_ := starterOf mg m }]
      if !ctlClear (me m) then suspendC m (.own none)
      else if let some w := spawnWait mg (actLaneYard mg m) m its then suspendC m w
      else match placeItems mg (actLaneYard mg m) m its with
      | some m => retireC m
      | none => faultAct m fSpawn 0 0 0) m)) s
def execVSpawn (i : FmtA) (s : State) : Host.Outcome State Fault Refusal :=
  let a : VSrc := { code := i.a, wide := true, trap := i.ta }
  let b : VSrc := { code := i.b, wide := true, trap := i.tb }
  onMach (fun mg => vGuard i.pn i.ps (vNamed [a, b] .none) [a, b] .none fun act m =>
    let g := me m
    let by_ := starterOf mg m
    let its : List Item := act.map fun e => { entry := (vValue g a e).toNat, arg := vValue g b e, by_ := by_ }
    match act.find? fun e => (badTarget true (vValue g a e).toNat).isSome with
    | some e => faultV0 m e ((badTarget true (vValue g a e).toNat).getD 0) (vValue g a e).toNat 0
    | none =>
      let at_ := if (myRun m).diverged then 0 else (myRun m).from_
      if let some e := act.find? fun e => !vpClear g e then blockV m at_ (.own (some e))
      else if let some w := spawnWait mg (actLaneYard mg m) m its then blockV m at_ w
      else match placeItems mg (actLaneYard mg m) m its with
      | some m => retireV m
      | none => faultV0 m (act.headD 0) fSpawn 0 0) s

/-- The core a packed group starts on: of the cluster and the yard, with a free slot and groups of the same G; most free slots,
ties to the lower number. -/
def packCore (mg : Mgmt) (m : Mach) (k n : Nat) (b : Starter) : Option (Nat × Nat) :=
  let yn := (yardAt mg b.core b.laneB).getD 0
  let y := yardEnt mg yn
  let cores := if y.lane then [b.core] else ((List.range 4).map (4 * k + ·)).filter (y.ownsCore mg)
  let free := fun c => ((yardSlots y b.gcount).filter fun s => (grp m c s).status = .free).length
  let ok := cores.filter fun c => runsIn m mg c (yardLanes mg y c).1 b.vf && sameG m y c b.gcount && 0 < free c
    && n ≤ vlmaxOf b.nregs b.gcount (yardLanes mg y c).2
  let best := ok.foldl (fun (a : Option Nat) c => match a with
    | none => some c
    | some d => if free d < free c then some c else some d) none
  best.bind fun c => (freeSlot m c (yardSlots y b.gcount)).map fun s => (c, s)
/-- Starts the packed group of a stall that is full or timed out, where a core has room. -/
def packStart (mg : Mgmt) (k i : Nat) (m : Mach) : Mach :=
  let t := mget {} (clus m k).stalls i
  match t.items with
  | [] => m
  | q :: _ =>
    if !(t.timed || stallFull q.by_ ≤ t.items.length) then m
    else match packCore mg m k t.items.length q.by_ with
      | none => m
      | some (c, s) =>
        let lanes := yardLanes mg (yardEnt mg ((yardAt mg q.by_.core q.by_.laneB).getD 0)) c
        let b : Birth :=
          { vf := q.by_.vf, entry := q.entry, nregs := q.by_.nregs, gcount := q.by_.gcount, lanes := lanes,
            vlmax := vlmaxOf q.by_.nregs q.by_.gcount lanes.2, vl := t.items.length, priv := q.by_.priv, xs := [],
            frame := q.by_.frame, ftz := q.by_.ftz, drm := q.by_.drm,
            vis := t.items.foldl (fun v it => mmax v it.by_.vis) [], args := t.items.map (·.arg), parent := none }
        startGroup mg (modClus m k fun u => { u with stalls := mset {} u.stalls i {} }) c s b
/-- A stall's timer expires: it starts its group, or waits for a slot. -/
def timerStep (mg : Mgmt) (k i : Nat) (m : Mach) : Mach :=
  let t := mget {} (clus m k).stalls i
  if t.items.isEmpty || m.now < t.due then m
  else packStart mg k i (modClus m k fun u => { u with stalls := mmod {} u.stalls i fun t => { t with timed := true } })
def execPackerTimer (k i : Nat) (s : State) : Host.Outcome State Fault Refusal :=
  onUnit (clusterOk k && i < 32) (fun mg m => timerStep mg k i m) s
def execPackedGroupStart (k i : Nat) (s : State) : Host.Outcome State Fault Refusal :=
  onUnit (clusterOk k && i < 32) (fun mg m => packStart mg k i m) s
/-- The oldest overflow item of a virtual function that belongs to a cluster goes back into a stall, if one takes it. -/
def refillStep (mg : Mgmt) (k vf : Nat) (m : Mach) : Mach :=
  match (vfst m vf).overflow.findIdx? fun it => clusterOf it.by_.core == k with
  | none => m
  | some j => match (vfst m vf).overflow[j]? with
    | none => m
    | some it =>
      let lane := (yardEnt mg ((yardAt mg it.by_.core it.by_.laneB).getD 0)).lane
      match findStall (clus m k) lane it with
      | some i => modVf (addToStall m k i it) vf fun v => { v with overflow := v.overflow.eraseIdx j }
      | none => m
def execOverflowRefill (k vf : Nat) (s : State) : Host.Outcome State Fault Refusal :=
  onUnit (clusterOk k && vfOk vf) (fun mg m => if (runningYard m vf).isSome then refillStep mg k vf m else m) s

/-! ## The two halves of a forked group (R279, R280) -/

/-- Renumbers the VPs of a per-VP table, keeping those that the map answers; the map rises. -/
def renumber {α : Type} (f : Nat → Option Nat) (t : Map α) : Map α := t.filterMap fun kv => (f kv.1).map fun e => (e, kv.2)
def renumber2 {α : Type} [DecidableEq α] (f : Nat → Option Nat) (t : Map (Map α)) : Map (Map α) :=
  msetAll [] [] ((t.map Prod.fst).map fun k => (k, renumber f (mget [] t k)))
/-- The new number of an old VP that stays with the parent. -/
def lowerVp (l e : Nat) : Option Nat := if e % l < l / 2 then some (e / l * (l / 2) + e % l) else none
/-- The old number of a VP of either half. -/
def oldVp (l : Nat) (upper : Bool) (e : Nat) : Nat := e / (l / 2) * l + e % (l / 2) + (if upper then l / 2 else 0)
/-- Of the old VPs below a vl, how many go to the lower half. -/
def lowerCount (l vl : Nat) : Nat := ((List.range vl).filter fun e => e % l < l / 2).length
/-- Lays the values of an upper half over a renumbered lower half. -/
def rejoin {α : Type} [DecidableEq α] (d : α) (l : Nat) (lower upper : Map α) : Map α :=
  msetAll d (msetAll d [] ((lower.map Prod.fst).map fun e => (oldVp l false e, mget d lower e)))
    ((upper.map Prod.fst).map fun e => (oldVp l true e, mget d upper e))
def rejoin2 {α : Type} [DecidableEq α] (d : α) (l : Nat) (lower upper : Map (Map α)) : Map (Map α) :=
  msetAll [] [] ((lower.map Prod.fst ++ upper.map Prod.fst).map fun k => (k, rejoin d l (mget [] lower k) (mget [] upper k)))
/-- The same of the clause addresses, of which a VP that is not listed stands at its group's entry. -/
def rejoinPcs (l : Nat) (lower upper : Map Nat) : Map Nat :=
  let put := fun (up : Bool) (t : Map Nat) (q : Nat × Nat) => mput (oldVp l up q.1) q.2 t
  upper.foldl (put true) (lower.foldl (put false) [])
/-- A fill not consumed, under the old number of its VP (R196, R280). -/
def oldPend (l : Nat) (upper : Bool) (k : PendKnow) : PendKnow := if k.isX then k else { k with e := oldVp l upper k.e }
/-- The parent takes back the lanes, the numbering, VLMAX, vl and the child's values (log entry 28). -/
def joinGroup (g : Group) (f : ForkRec) : Group :=
  learn { g with laneB := f.b, laneL := f.l, vlmax := f.vlmax, vl := f.vl, v := rejoin2 0 f.l g.v f.v,
                 vfe := rejoin2 FE.full f.l g.vfe f.vfe, c := rejoin2 false f.l g.c f.c, cfe := rejoin2 FE.full f.l g.cfe f.cfe,
                 srs := rejoin 1 f.l g.srs f.srs, pcs := rejoinPcs f.l g.pcs f.pcs, saveMap := g.saveMap ||| f.saveMap,
                 pend := g.pend.map (oldPend f.l false) ++ (f.pend.filter fun k => !k.isX).map (oldPend f.l true),
                 forks := g.forks.drop 1 } f.vis
/-- The values a group leaves: with those of children that have ended and were not joined (R280). -/
def allJoined (g : Group) : Group := g.forks.foldl joinGroup g
/-! ## Ending a group (R273) -/

def anyFeClaimed (t : Map FE) : Bool := t.any fun q => q.2 = .claimed
/-- Nothing keeps a stop waiting: no run, no claim, no live child; nor a record, which the group is still to issue again before its control
stream goes on (R325). A logged instruction without a claim, or a use of a tile, does not (log entry 23). -/
def mayEnd (g : Group) : Bool :=
  g.run.isNone && !anyFeClaimed g.xfe && !anyFeClaimed g.pfe && !anyClaimed g.vfe && !anyClaimed g.cfe && g.fills.isEmpty
    && g.recs.isEmpty && g.gwaits.isEmpty && !liveChild g
/-- A place for an ended group with accesses to perform, apart from the slots. -/
def goneSlot (m : Mach) (c : Nat) : Nat := (allGroups m).foldl (fun n t => if t.1 == c then max n (t.2.1 + 1) else n) 64
/-- An ended group keeps its accesses, in their order, and its visible set (R192, R205, R273). -/
def keepGone (m : Mach) (c s : Nat) (g : Group) : Mach :=
  if g.acc.isEmpty then m
  else setGrp m c (goneSlot m c) { g with status := .gone, was := s, pushes := [], forks := [], parent := none, imgs := [], linkset := [] }
/-- What an ended child leaves to its parent (R280). -/
def childLeft (f : ForkRec) (g : Group) : ForkRec :=
  { f with done := true, v := g.v, c := g.c, srs := g.srs, vis := g.vis, vfe := g.vfe, cfe := g.cfe, pend := g.pend,
           saveMap := g.saveMap, pcs := (List.range g.vlmax).map fun e => (e, pcOf g e) }
/-- Ends a group: its slot is free; pushes into it are discarded, its own and its loops go on from its registers as it left
them; a forked child's values wait for the join (R273, R232, R157, R280). -/
def endGroup (m : Mach) (c s : Nat) : Mach :=
  let g := grp m c s
  let intoMe := fun (p : Push) => p.core == c && p.slot == s && p.uid == g.uid
  let m := offSlot m c s
  let m := { m with groups := m.groups.map fun kg =>
                      (kg.1, if kg.2.pushes.any intoMe then { kg.2 with pushes := kg.2.pushes.filter fun p => !intoMe p } else kg.2),
                    orphans := (m.orphans.filter fun o => !intoMe o.push)
                      ++ (g.pushes.filter fun p => !intoMe p).map fun p =>
                        { core := c, slot := s, uid := g.uid, vf := g.vf, push := p, v := g.v, vis := g.vis } }
  let leave := fun (l : Loop) => if l.uid == g.uid then { l with left := some g.v } else l
  let m := modClus m (clusterOf c) fun k => { k with loops := k.loops.map leave }
  let m := if (mget {} m.saved g.vf).loops.any (·.uid == g.uid) then
      { m with saved := mmod {} m.saved g.vf fun sv => { sv with loops := sv.loops.map leave } } else m
  let m := match g.parent with
    | some (ps, pu) =>
      if (grp m c ps).uid == pu then
        modGrp m c ps fun p => { p with forks := p.forks.map fun f =>
          if f.uid == g.uid then childLeft f (allJoined g) else f }
      else m
    | none => m
  keepGone (setGrp m c s {}) c s g
/-- The effect of stop: it holds its clause, the group's state reading ending, until the group may end. -/
def stopGroup (m : Mach) : Mach :=
  if mayEnd (me m) then endIssue (endGroup (countInstr m) m.act.core m.act.slot)
  else suspendC (modMe m fun g => { g with status := .ending }) .ending
def execStop (i : FmtA) (s : State) : Host.Outcome State Fault Refusal :=
  onMach (fun _ => withPred i.pn i.ps stopGroup) s

/-! ## Fork and join (R279, R280) -/

/-- Splits the acting group; the child starts in a slot, its x1 to x8 full with the bits that the parent's registers hold, claimed and open
ones too (R37, log entry 125). -/
def forkInto (mg : Mgmt) (m : Mach) (sc : Nat) : Mach :=
  let g := me m
  let l := g.laneL
  let lo := lowerCount l g.vl
  let b : Birth :=
    { vf := g.vf, entry := seqClause m.act, nregs := g.nregs, gcount := g.gcount, lanes := (g.laneB + l / 2, l / 2),
      vlmax := g.vlmax / 2, vl := g.vl - lo, priv := g.priv, xs := (List.range 8).map fun i => getX g (i + 1), frame := g.frame,
      ftz := g.ftz, drm := g.drm, vis := g.vis, args := [], parent := some (m.act.slot, g.uid) }
  let f : ForkRec := { b := g.laneB, l := l, vlmax := g.vlmax, vl := g.vl, slot := sc, uid := m.nextUid, done := false, v := [],
                       c := [], srs := [], vis := [], vfe := [], cfe := [], pend := [], saveMap := 0, pcs := [] }
  let m := startGroup mg m m.act.core sc b
  modMe m fun g => { g with laneL := l / 2, vlmax := g.vlmax / 2, vl := lo, v := renumber2 (lowerVp l) g.v,
                            vfe := renumber2 (lowerVp l) g.vfe, c := renumber2 (lowerVp l) g.c, cfe := renumber2 (lowerVp l) g.cfe,
                            srs := renumber (lowerVp l) g.srs, pcs := renumber (lowerVp l) g.pcs, forks := f :: g.forks,
                            pend := g.pend.filterMap fun k => if k.isX then some k else (lowerVp l k.e).map fun e => { k with e := e } }
def execFork (i : FmtA) (s : State) : Host.Outcome State Fault Refusal :=
  onMach (fun mg => withPred i.pn i.ps (withDst [pReg i.d] fun m =>
    let c := m.act.core
    let g := me m
    if !quiescent m c m.act.slot then suspendC m .quiescent
    else if !ctlClear g then suspendC m (.own none)
    else
      let slots := yardSlots (groupYardEnt mg c g) 64
      match (if g.laneL ≤ 1 || liveChild g then none else freeSlot m c slots) with
      | none => retireP m i.d false
      | some sc => retireP (forkInto mg m sc) i.d true)) s

/-- A child that has ended has accesses still to be performed; its end places them in the parent's visible set (R280). -/
def goneChild (m : Mach) (uid : Nat) : Bool := (allGroups m).any fun t => t.2.2.status = .gone && t.2.2.uid == uid
def execJoin (i : FmtA) (s : State) : Host.Outcome State Fault Refusal :=
  onMach (fun _ => withPred i.pn i.ps fun m =>
    let g := me m
    if g.parent.isSome then stopGroup m
    else match g.forks with
      | [] => retireC m
      | f :: _ =>
        if !f.done || goneChild m f.uid then suspendC m .child
        else if !quiescent m m.act.core m.act.slot then suspendC m .quiescent
        else retireC (modMe m fun g => joinGroup g f)) s

end Sys2Proof.Machine
end

