-- ==== Sys2Proof/Machine/Barrier.lean ====
section
/-! DEFINITION. Barriers (R283 to R285): arrivals and polls at the barrier's unit, with the clause held. -/

namespace Sys2Proof.Machine

/-- Some access of the acting group's held instruction is not performed yet. -/
def opPending (g : Group) (id : Nat) : Bool := (g.acc.any fun o => o.id == id) || (g.recs.any fun r => r.op.id == id)
/-- PHASE of a barrier doubleword. -/
def barPhase (w : Word) : Nat := bitsOf w.toNat 63 32
/-- Sends one access to the barrier's unit; the clause is held until it is performed, a logged one until its replay. -/
def barAccess (mg : Mgmt) (kind : AccKind) (scope : BitVec 2) (va : Nat) (opB : Word) (phase : Nat) (keep : List Word) (m : Mach) : Mach :=
  let c := m.act.core
  let s := m.act.slot
  let g := me m
  let op := { ctlOp m kind with scope := scope, elems := [elemAt 0 va 8 0 0], opA := BitVec.ofNat 64 va, opB := opB }
  let hold := fun (m : Mach) => modMe m fun g =>
    { g with nextOp := g.nextOp + 1, seq := g.seq + 1, held := some { op := op.id, phase := phase, words := keep } }
  match checkOp mg m c g op with
  | (.halt code e a info, m) => faultAct m code e a info
  | (.fault e a l cause, m) =>
    if accHeld g then suspendC m .replayed
    else if 8 ≤ vecInFlight g then suspendC m .recRoom
    else match freeLog m c with
    | some i => suspendC (holdOp (hold m) c s i op e a l cause) (.op op.id)
    | none => suspendC m .logRoom
  | (.ok els _, m) =>
    if mayRecord g { op with elems := els } && 8 ≤ vecInFlight g then suspendC m .recRoom
    else suspendC (enterOp (hold m) c s op els []) (.op op.id)
def barScope (i : FmtA) : BitVec 2 := i.md.extractLsb' 0 2

def execBarr (i : FmtA) (s : State) : Host.Outcome State Fault Refusal :=
  onMach (fun mg => withPred i.pn i.ps (withSrcs [.r i.a i.ta] (withDst [.x i.d.toNat] fun m =>
    match (me m).held with
    | none => barAccess mg .arrive (barScope i) (getX (me m) i.a.toNat).toNat 0 0 [] m
    | some h =>
      if opPending (me m) h.op then suspendC m (.op h.op)
      else retireC (modMe m fun g => putX g i.d.toNat (BitVec.ofNat 64 (barPhase (h.words.headD 0))))))) s

/-- What a poll found: a word of the barrier at pa; the wait is over when its phase differs, else the group is suspended until it
does and polls again. -/
def barDone (pa w : Word) (ph : Nat) (again : Option Held) (m : Mach) : Mach :=
  if barPhase w != ph then retireC m else suspendC (modMe m fun g => { g with held := again }) (.barrier pa.toNat ph)
def execBwait (i : FmtA) (s : State) : Host.Outcome State Fault Refusal :=
  onMach (fun mg => withPred i.pn i.ps (withSrcs [.r i.a i.ta, .r i.b i.tb] fun m =>
    let va := (getX (me m) i.a.toNat).toNat
    let ph := bitsOf (getX (me m) i.b.toNat).toNat 31 0
    match (me m).held with
    | none => barAccess mg .poll (barScope i) va (getX (me m) i.b.toNat) 2 [] m
    | some h =>
      if opPending (me m) h.op then suspendC m (.op h.op)
      else match h.words with
        | pa :: w :: _ => barDone pa w ph none m
        | _ => barAccess mg .poll (barScope i) va (getX (me m) i.b.toNat) 2 [] m)) s
def execBsync (i : FmtA) (s : State) : Host.Outcome State Fault Refusal :=
  onMach (fun mg => withPred i.pn i.ps (withSrcs [.r i.a i.ta] fun m =>
    let va := (getX (me m) i.a.toNat).toNat
    match (me m).held with
    | none => barAccess mg .arrive (barScope i) va 0 0 [] m
    | some h =>
      if opPending (me m) h.op then suspendC m (.op h.op)
      else match h.words with
        | w0 :: pa :: w :: _ => barDone pa w (barPhase w0) (some { op := h.op, phase := 1, words := [w0] }) m
        | ws => barAccess mg .poll (barScope i) va 0 3 ws m)) s

end Sys2Proof.Machine
end

