-- ==== Sys2Proof/Machine/Tiles.lean ====
section
/-! DEFINITION. Tile instructions: uses of accumulator tiles (R165, R166), fill, drain, free, wait, clear, read (R146 to R151, R163,
R164), and Hayloft loads (R152, R153). -/

namespace Sys2Proof.Machine

/-! ## Tile-table entries (R146) -/

def entTy (t : TileEnt) : Option ElemTy := tyOf t.ty t.text
/-- Bits of one row, and bytes of the tile. -/
def rowBits (t : TileEnt) : Nat := t.cols * ((entTy t).map ElemTy.width).getD 0
def tileBytes (t : TileEnt) : Nat := t.rows * rowBits t / 8
/-- A valid LS tile of a yard. -/
def lsTileValid (y : Yard) (t : TileEnt) : Bool :=
  let p := lsPart y
  (entTy t).isSome && t.rows != 0 && t.cols != 0 && t.rows ≤ 1024 && t.cols ≤ 1024 && rowBits t % 8 == 0 && t.lsoff % 64 == 0
    && t.rows * rowBits t % 512 == 0 && p.1 ≤ t.lsoff && t.lsoff + tileBytes t ≤ p.1 + p.2
/-- Bytes that tfill and tdrain copy (R150). -/
def copyBytes (m : Mach) (c e : Nat) : Nat := if e < 8 then 4096 else tileBytes (tileEnt m c e)
def tCode (e : Nat) : Nat := if e < 8 then 0xA0 + e else 0

/-! ## Uses of accumulator tiles (R165, R166) -/

/-- Where the saved image of a tile lies, checked as an access of the use that needs it. -/
def imageElem (g : Group) (t : Nat) : Elem := elemAt 0 (g.tsave + 0x1000 * t) 1 0 0
def imageUse (t : Nat) : AccKind := .use { tile := t, xs := [], msel := 0, mask := 0, dsts := [], vl := 0, vstart := 0, stores := false }
def checkImage (mg : Mgmt) (m : Mach) (c s t : Nat) : CheckRes × Mach :=
  checkOp mg m c (grp m c s) { ctlOp m (imageUse t) with elems := [imageElem (grp m c s) t] }
/-- The bytes of an image are copied back, with the tile's state and its stopped loops, which join the core's sequencer whatever places it
has left (log entry 113). -/
def takeImage (m : Mach) (c s t pa : Nat) (loc : Loc) : Mach :=
  let g := grp m c s
  let m := restoreDws m g.vf loc pa (tileAddr c t) 512
  let m := if loc = .hbm then countN m g.vf 6 64 else m
  let img := mget none g.imgs t
  let m := rawTileSt m c t ((img.map (·.st)).getD .empty)
  let back := ((img.map (·.loops)).getD []).map fun l => { l with core := c, slot := s }
  let m := modClus m (clusterOf c) fun k => { k with loops := k.loops ++ back }
  modGrp m c s fun g => { g with tsaved := g.tsaved &&& ~~~tbit t, imgs := mset none g.imgs t none }
/-- Step 3 of R166 for a group: its image comes back, or the tile becomes empty and zero; else the check that failed. -/
def restoreImage (mg : Mgmt) (m : Mach) (c s t : Nat) : CheckRes × Mach :=
  if bitAt (grp m c s).tsaved.toNat t then
    match checkImage mg m c s t with
    | (.ok els _, m) =>
      match els.findSome? fun el => (badIn m el.pa 4096).map fun b => (el, b) with
      | some (el, dw, unit) => (.halt fUncorr el.e (8 * dw) unit, m)
      | none => (.ok els [], els.foldl (fun m el => takeImage m c s t el.pa el.loc) m)
    | r => r
  else (.ok [] [], rawTileSt (zeroTile m c t) c t .empty)

/-- What a use captures if it has to be logged: its x sources, the mask it reads, the v registers it goes on reading, its
destinations, whether it is a vector instruction, and whether it stores. -/
structure UseInfo where
  srcs : List (BitVec 8) := []
  msel : Nat := 0
  mask : Nat := 0
  vsrcs : List Nat := []
  dsts : List Reg := []
  vec : Bool := false
  stores : Bool := false
  deriving DecidableEq, Repr
/-- The acting instruction as a logged use. -/
def useOp (m : Mach) (t : Nat) (i : UseInfo) : MemOp :=
  let g := me m
  let u : TileUse := { tile := t, xs := i.srcs.map fun r => (r.toNat, getX g r.toNat), msel := i.msel, mask := i.mask, dsts := i.dsts,
                       vl := g.vl, vstart := g.vstart, stores := i.stores }
  let ops := u.xs.map (·.2)
  { ctlOp m (.use u) with elems := [imageElem g t], srcs := i.vsrcs, opA := ops.headD 0, opB := ops[1]?.getD 0, opC := ops[2]?.getD 0 }
/-- The restore of the image met a translation fault: the use is logged, and the group goes on (R166, R228). -/
def logUse (t : Nat) (i : UseInfo) (e va level cause : Nat) (m : Mach) : Mach :=
  if accHeld (me m) then suspendC m .replayed
  else if 8 ≤ vecInFlight (me m) then suspendC m .recRoom
  else withDst i.dsts (fun m =>
    match freeLog m m.act.core with
    | none => suspendC m .logRoom
    | some n =>
      let op := useOp m t i
      let m := modMe m fun g => setFes { g with nextOp := g.nextOp + 1, seq := g.seq + 1 } .claimed i.dsts
      let m := holdOp m m.act.core m.act.slot n op e va level cause
      advanceC (if i.vec then modMe m fun g => { g with vstart := 0 } else m)) m
/-- A use of an accumulator tile by the acting context (R165): it goes on, with the image restored if no context holds the tile, or is
held for the tile fault. -/
def withTile (mg : Mgmt) (t : Nat) (i : UseInfo) (k : Mach → Mach) (m : Mach) : Mach :=
  let c := m.act.core
  let s := m.act.slot
  let o := tileOwnOf m c t
  let mine := some (ctxOf m c s)
  if o.owner = mine && o.holder = mine then k m
  else if o.holder = none then
    match restoreImage mg m c s t with
    | (.ok _ _, m) => k (holdTile m c s t)
    | (.halt code e a info, m) => faultAct m code e a info
    | (.fault e va l cause, m) => logUse t i e va l cause m
  else suspendC m (.tileFault t)

/-- The definition check of an LS entry (R146), then the ownership of an accumulator tile (R165). -/
def useTile (mg : Mgmt) (e : Nat) (i : UseInfo) (k : Mach → Mach) (m : Mach) : Mach :=
  if e < 8 then withTile mg e i k m
  else if !lsTileValid (groupYardEnt mg m.act.core (me m)) (tileEnt m m.act.core e) then faultAct m fLattice 0 0 0
  else k m
/-- R147, R148: waits while the tile is filling or draining, and takes EMPTY-SOURCE on an empty tile where one is not accepted. -/
def tileReady (e code : Nat) (needs : Bool) (k : Mach → Mach) (m : Mach) : Mach :=
  match tileSt m m.act.core e with
  | .filling | .draining => suspendC m (.tile e)
  | .empty => if needs then faultAct m fEmpty 0 0 code else k m
  | .ready => k m
/-- R157: an LS tile that an unfinished loop of the group reads. -/
def tileInLoop (m : Mach) (c s e : Nat) : Bool :=
  (groupLoops m c s).any fun l => l.uid == (grp m c s).uid && (match l.a with | .tile x _ => x == e | .regs _ => false)
def tileRead (e : Nat) (k : Mach → Mach) (m : Mach) : Mach :=
  if tileInLoop m m.act.core m.act.slot e
  then suspendC m (.loopTile e) else k m
def rowAcc (e va : Nat) : Elem := elemAt e va 8 0 0
/-- The doublewords of a copy (R150). -/
def copyElems (va n : Nat) : List Elem := (List.range (n / 8)).map fun i => rowAcc i (wrapN (va + 8 * i) 64)
/-- The shared course of tfill and tdrain. -/
def tileCopy (drain : Bool) (i : FmtA) (mg : Mgmt) : Mach → Mach :=
  let e := i.md.toNat
  withSrcs [.r i.a i.ta] fun m =>
    let va := (getX (me m) i.a.toNat).toNat
    if va % 64 != 0 then faultAct m fLattice 0 0 0
    else useTile mg e { srcs := [i.a], stores := drain } (tileReady e (tCode e) drain (tileRead e fun m =>
      let op := { ctlOp m (if drain then .tdrain e else .tfill e) with
        elems := copyElems va (copyBytes m m.act.core e), opA := BitVec.ofNat 64 va }
      issueC mg (fun m => retireC (setTileSt m m.act.core e (if drain then .draining else .filling))) op m)) m
def execTfill (i : FmtA) (s : State) : Host.Outcome State Fault Refusal := onMach (fun mg => withPred i.pn i.ps (tileCopy false i mg)) s
def execTdrain (i : FmtA) (s : State) : Host.Outcome State Fault Refusal := onMach (fun mg => withPred i.pn i.ps (tileCopy true i mg)) s
def doTfree (i : FmtA) (mg : Mgmt) : Mach → Mach :=
  let e := i.md.toNat
  useTile mg e {} (tileReady e 0 false (tileRead e fun m => retireC (setTileSt m m.act.core e .empty)))
def execTfree (i : FmtA) (s : State) : Host.Outcome State Fault Refusal := onMach (fun mg => withPred i.pn i.ps (doTfree i mg)) s
def doTwait (i : FmtA) (mg : Mgmt) : Mach → Mach :=
  let e := i.md.toNat
  useTile mg e {} (tileReady e 0 false retireC)
def execTwait (i : FmtA) (s : State) : Host.Outcome State Fault Refusal := onMach (fun mg => withPred i.pn i.ps (doTwait i mg)) s

/-! ## Accumulators (R163, R164) -/

def tNum (code : BitVec 8) : Nat := code.toNat - 0xA0
def doMzero (i : FmtA) (mg : Mgmt) : Mach → Mach :=
  let t := tNum i.d
  withTile mg t {} (tileReady t 0 false fun m => retireC (setTileSt (zeroTile m m.act.core t) m.act.core t .ready))
def execMzero (i : FmtA) (s : State) : Host.Outcome State Fault Refusal := onMach (fun mg => withPred i.pn i.ps (doMzero i mg)) s
/-- A 32-bit element of an accumulator tile. -/
def accEl (m : Mach) (c t idx : Nat) : Nat := if idx < 1024 then readLe m.mem (tileAddr c t + 4 * idx) 4 else 0
/-- The VPs that mread writes (R164). -/
def mreadVps (g : Group) : List Nat := (List.range g.vl).filter (g.vstart ≤ ·)
def doMread (i : FmtA) (mg : Mgmt) : Mach → Mach :=
  let t := tNum i.a
  let d := i.d.toNat
  withSrcs [.r i.b i.tb] fun m =>
    let es := mreadVps (me m)
    withTile mg t { srcs := [i.b], dsts := es.map (Reg.v d), vec := true } (tileReady t i.a.toNat true (withDst (es.map (Reg.v d)) fun m =>
      let x := bitsOf (getX (me m) i.b.toNat).toNat 31 0
      let fs : List Fill := es.map fun e => { reg := .v d e, val := BitVec.ofNat 64 (accEl m m.act.core t (x + e)) }
      match es.findSome? fun e => if x + e < 1024 then badIn m (tileAddr m.act.core t + 4 * (x + e)) 4 else none with
      | some (dw, unit) => faultAct m fUncorr 0 (8 * dw) unit
      | none => retireC (modMe m fun g => { claimFor g fs with vstart := 0 }))) m
def execMread (i : FmtA) (s : State) : Host.Outcome State Fault Refusal :=
  onMach (fun mg => withPred i.pn i.ps (declared [i.d.toNat] (afterLockStep (doMread i mg)))) s

/-! ## Loading the Hayloft (R152, R153) -/

/-- R153: multiples of 64 within the yard's part; the offset counts from the start of the Hayloft (log entry 29). -/
def mloadOk (y : Yard) (c addr off len : Nat) : Bool :=
  let p := hayPart y c
  addr % 64 == 0 && off % 64 == 0 && len % 64 == 0 && p.1 ≤ off && off + len ≤ p.1 + p.2
def execMload (i : FmtA) (s : State) : Host.Outcome State Fault Refusal :=
  onMach (fun mg => withPred i.pn i.ps (withSrcs [.r i.a i.ta, .r i.b i.tb, .r i.c i.tc] fun m =>
    let g := me m
    let c := m.act.core
    let addr := (getX g i.a.toNat).toNat
    let off := (getX g i.b.toNat).toNat
    let len := (getX g i.c.toNat).toNat
    if !mloadOk (groupYardEnt mg c g) c addr off len then faultAct m fLattice 0 0 0
    else if (groupLoops m c m.act.slot).any (·.uid == g.uid) then suspendC m .loops
    else if len == 0 then retireC m
    else
      let op := { ctlOp m (.mload off (i.ty == 15)) with
        elems := copyElems addr len, opA := getX g i.a.toNat, opB := getX g i.b.toNat, opC := getX g i.c.toNat }
      issueC mg (fun m => retireC (modClus m (clusterOf c) fun k => { k with hayLoading := k.hayLoading ++ hayLines off len }))
        op m)) s

end Sys2Proof.Machine
end

