-- ==== Sys2Proof/Machine/Dray.lean ====
section
/-! DEFINITION. The Dray engine: its commands, references and handles, chunks, results and completion barriers (R41, R204 to R208,
R233 to R245, R330). -/

namespace Sys2Proof.Machine

/-! ## Status codes (R238) -/

def stOk : Nat := 0
def stPartial : Nat := 1
def stFault : Nat := 2
def stStale : Nat := 3
def stBounds : Nat := 4
def stBarfault : Nat := 5

/-! ## Issue (R41, R233, R242, R243) -/

/-- Rows of a shape: count, bytes, source and destination pitch in bytes (R240). -/
structure Shape where
  rows : Nat
  rb : Nat
  sp : Nat
  dp : Nat
  deriving DecidableEq, Repr
def shapeOf (c : Word) : Shape :=
  { rows := bitsOf c.toNat 63 48, rb := bitsOf c.toNat 47 32, sp := 8 * bitsOf c.toNat 31 16, dp := 8 * bitsOf c.toNat 15 0 }
/-- Bytes from the first to the last byte of the rows. -/
def Shape.extent (s : Shape) (pitch : Nat) : Nat := if s.rows * s.rb == 0 then 0 else (s.rows - 1) * pitch + s.rb
/-- R242: destination core and offset, source offset and rows, within the yard's parts of the local stores. -/
def haloOk (y : Yard) (c : Nat) (a b sh : Word) : Bool :=
  let s := shapeOf sh
  let dc := bitsOf a.toNat 40 32
  let d := bitsOf a.toNat 18 0
  let o := b.toNat
  let p := lsPart y
  a.toNat / 2 ^ 41 == 0 && bitsOf a.toNat 31 19 == 0 && o < 2 ^ 19 && d % 8 == 0 && o % 8 == 0 && s.rb % 8 == 0
    && (if y.lane then dc == c else dc < 384 && y.ownsCluster (clusterOf dc))
    && (s.rows == 0 || (p.1 ≤ d && d + (s.rows - 1) * s.dp + s.rb ≤ p.1 + p.2 && p.1 ≤ o && o + (s.rows - 1) * s.sp + s.rb ≤ p.1 + p.2))
def queuedIn (m : Mach) (c uid q : Nat) : Nat :=
  ((core m c).jobs.filter fun j => j.uid == uid && j.queue == q && j.st == .queued).length
/-- A command enters its queue. -/
def pushJob (kind : JobKind) (bar : Bool) (f : FmtE) (m : Mach) : Mach :=
  let g := me m
  let c := m.act.core
  let x := fun (r : BitVec 8) => getX g r.toNat
  let seen := g.vis.filter fun kv => escopeCovers f.escope c kv.1
  let j : Job :=
    { id := m.nextUid, vf := g.vf, slot := m.act.slot, uid := g.uid, queue := f.queue.toNat, kind := kind, acq := f.acq, rel := f.rel,
      escope := f.escope, bar := bar, a := x f.a, b := x f.b, c := x f.c, barAddr := (if bar then x (f.imm.extractLsb' 8 8) else 0),
      tag := f.imm.toNat % 256, clause := m.act.clause, word := m.act.word, st := .queued, at_ := markOf g, fence := g.fence,
      floor := mmax g.cmdFloor (if f.acq then seen else []), hfloor := mmax g.cmdFloor g.vis }
  modCore { m with nextUid := m.nextUid + 1 } c fun k => { k with jobs := k.jobs ++ [j] }
/-- R41: a full command FIFO blocks. -/
def enqueue (kind : JobKind) (bar : Bool) (f : FmtE) (k : Mach → Mach) (m : Mach) : Mach :=
  if 8 ≤ queuedIn m m.act.core (me m).uid f.queue.toNat then suspendC m (.kRoom f.queue.toNat)
  else retireC (k (pushJob kind bar f m))
def drayCmd (kind : JobKind) (bar : Bool) (f : FmtE) (s : State) : Host.Outcome State Fault Refusal :=
  let srcs : List CSrc := [.r f.a false, .r f.b false, .r f.c false] ++ (if bar then [.r (f.imm.extractLsb' 8 8) false] else [])
  onMach (fun mg => withPred f.pn f.ps (withSrcs srcs fun m =>
    let g := me m
    let y := groupYardEnt mg m.act.core g
    let a := getX g f.a.toNat
    let b := getX g f.b.toNat
    let c := getX g f.c.toNat
    match kind with
    | .halo => if haloOk y m.act.core a b c then enqueue kind bar f id m else faultAct m fWindow 0 0 0
    | .tile =>
      let e := a.toNat % 32
      if 32 ≤ a.toNat || e < 8 || 2 ^ 32 ≤ c.toNat then faultAct m fLattice 0 0 0
      else useTile mg e {} (tileReady e 0 false (enqueue kind bar f fun m => setTileSt m m.act.core e .filling)) m
    | _ => enqueue kind bar f id m)) s
def execDcopy (f : FmtE) (s : State) : Host.Outcome State Fault Refusal := drayCmd .copy false f s
def execDcopy2d (f : FmtE) (s : State) : Host.Outcome State Fault Refusal := drayCmd .copy2d false f s
def execDfill (f : FmtE) (s : State) : Host.Outcome State Fault Refusal := drayCmd .fill false f s
def execDcompact (f : FmtE) (s : State) : Host.Outcome State Fault Refusal := drayCmd .compact false f s
def execDhalo (f : FmtE) (s : State) : Host.Outcome State Fault Refusal := drayCmd .halo false f s
def execDtile (f : FmtE) (s : State) : Host.Outcome State Fault Refusal := drayCmd .tile false f s
def execDcopyBar (f : FmtE) (s : State) : Host.Outcome State Fault Refusal := drayCmd .copy true f s
def execDcopy2dBar (f : FmtE) (s : State) : Host.Outcome State Fault Refusal := drayCmd .copy2d true f s
def execDfillBar (f : FmtE) (s : State) : Host.Outcome State Fault Refusal := drayCmd .fill true f s
def execDcompactBar (f : FmtE) (s : State) : Host.Outcome State Fault Refusal := drayCmd .compact true f s
def execDhaloBar (f : FmtE) (s : State) : Host.Outcome State Fault Refusal := drayCmd .halo true f s
def execDtileBar (f : FmtE) (s : State) : Host.Outcome State Fault Refusal := drayCmd .tile true f s

/-! ## Engine accesses (R204, R237) -/

/-- Where an engine address leads: a place with the kind of place its tokens are drawn for, the status that stops the stream, with level and
cause, or an error in the tables (R303, R335). -/
inductive EngLoc where
  | ok (pa : Nat) (loc lim : Loc)
  | stop (status level cause : Nat)
  | uncorr (pa unit : Nat)
  deriving DecidableEq, Repr
/-- Why the engine does not go on with a command: a status with the address, level and cause of a fault, an uncorrectable error, or no route
to the destination of an access for now, until which the command waits where it is (R340). -/
inductive EngStop where
  | status (st va level cause : Nat)
  | uncorr (pa unit : Nat)
  | noRoute
  deriving DecidableEq, Repr
def bounds : EngStop := .status stBounds 0 0 0
/-- Translation by the issuing virtual function's tables; window pages keep R50, the device's own number leads to its HBM and remains a
system-scope access (R236, R237, R314, R339). -/
def engXlate (mg : Mgmt) (m : Mach) (vf uid : Nat) (y : Yard) (need : Need) (va : Nat) : EngLoc × Mach :=
  if 2 ^ 55 ≤ va then (.stop stBounds 0 0, m)
  else
    let (x, m) := translate mg m vf uid need va
    match x with
    | .ok pa loc _ =>
      let own := loc = .system && pa / 2 ^ 48 == 0xE && bitsOf pa 47 42 == mg.device && !unsupportedAt pa
      (if loc = .window && !windowOk m y vf pa then .stop stBounds 0 0 else if own then .ok (pa % 2 ^ 42) .hbm .system
        else .ok pa loc loc, m)
    | .fault l k => (.stop stFault l k, m)
    | .uncorr pa unit => (.uncorr pa unit, m)
    | _ => (.stop stBounds 0 0, m)
/-- A place of the links that no route leads to now (R340). -/
def noWay (mg : Mgmt) (pa : Nat) (loc : Loc) : Bool := loc = .system && !destUp mg (destPa pa)
/-- A place that an engine writes: what stops it there, or the place with that of its tokens. -/
def writable (mg : Mgmt) (x : EngLoc) (va : Nat) : Except EngStop (Nat × Loc × Loc) :=
  match x with
  | .stop st l k => .error (.status st va l k)
  | .uncorr pa unit => .error (.uncorr pa unit)
  | .ok pa loc lim => if noWay mg pa loc then .error .noRoute else .ok (pa, loc, lim)
/-- A place that an engine reads: an error in what it reads is UNCORRECTABLE (R335). -/
def readable (mg : Mgmt) (x : EngLoc) (m : Mach) (va size : Nat) : Except EngStop (Nat × Loc × Loc) :=
  match writable mg x va with
  | .error e => .error e
  | .ok (pa, loc, lim) =>
    match (if loc = .system then none else badIn m pa size) with
    | some (dw, unit) => .error (.uncorr (8 * dw) unit)
    | none => .ok (pa, loc, lim)

/-- The lines of HBM that an engine reads or writes go through L2 (R312, log entry 139). -/
def fetchAt (mg : Mgmt) (vf : Nat) (loc : Loc) (pa n : Nat) (m : Mach) : Mach := if loc = .hbm then fetchRange mg vf pa n m else m
/-- Aligned doublewords wholly in a range are single accesses, bytes elsewhere. -/
def spans : Nat → Nat → Nat → List (Nat × Nat)
  | 0, _, _ => []
  | fuel + 1, a, n =>
    if n == 0 then []
    else if a % 8 == 0 && 8 ≤ n then (a, 8) :: spans fuel (a + 8) (n - 8)
    else (a, 1) :: spans fuel (a + 1) (n - 1)
/-- What a command's read must take: what is in its floor, and what it has seen (R195, R204). -/
def jobMust (floor seen : Vis) (dw i : Nat) (w : Ver) : Bool := inVis floor dw i w || inVis seen dw i w
/-- One read by a command: any versions not older than its floors and what it has seen; versions of different bytes of a doubleword are
taken one by one (R195, R204, R252). -/
def jobRead (floor : Vis) (loc : Loc) (pa size : Nat) (j : Job) (m : Mach) : Nat × Job × Mach :=
  if loc = .system then let (v, m) := sysRead m pa size; (v, j, m)
  else if loc = .hbm || winInMem pa then
    let (t, m) := takeFrom m (jobMust floor j.seen (pa / 8)) pa size
    (valueTaken m t pa size, { j with seen := mmax j.seen t }, m)
  else (winBytes m j.vf pa size, j, m)
def jobReads (floor : Vis) (loc : Loc) : List (Nat × Nat) → Job → Mach → List Byte × Job × Mach
  | [], j, m => ([], j, m)
  | (pa, n) :: r, j, m =>
    let (v, j, m) := jobRead floor loc pa n j m
    let (bs, j, m) := jobReads floor loc r j m
    (leBytes n v ++ bs, j, m)
/-- One write by a command. -/
def jobWrite (loc : Loc) (pa size val : Nat) (j : Job) (m : Mach) : Job × Mach :=
  if loc = .system then (j, sysWrite m pa size val)
  else if loc = .hbm || winInMem pa then
    if loc = .window && winReadOnly pa then (j, m)
    else
      let m := memWrite m pa size val (.engine j.id) [] false
      let mine := raiseTo (histOf m (pa / 8)).length (bytesOf pa size)
      ({ j with writes := mine j.writes, seen := mine j.seen }, m)
  else (j, winWrite m j.vf pa size val [])
def jobWrites (loc : Loc) : List (Nat × Nat) → List Byte → Job → Mach → Job × Mach
  | [], _, j, m => (j, m)
  | (pa, n) :: r, bs, j, m =>
    let (j, m) := jobWrite loc pa n (leNat (bs.take n)) j m
    jobWrites loc r (bs.drop n) j m

/-! ## Handles (R234 to R236) -/

def refHandle (r : Word) : Bool := r.getLsbD 63
def refSlot (r : Word) : Nat := bitsOf r.toNat 62 51
def refOffset (r : Word) : Nat := bitsOf r.toNat 30 0
/-- The two doublewords of a handle-table entry, read by the engine. -/
def readHandle (mg : Mgmt) (y : Yard) (r : Word) (j : Job) (m : Mach) : Except (EngStop × Mach) (Nat × Nat × Job × Mach) :=
  let va := bitsOf (vfst m j.vf).htbase.toNat 54 16 * 65536 + 16 * refSlot r
  let (x, m) := engXlate mg m j.vf j.uid y .read va
  match readable mg x m va 16 with
  | .error e => .error (e, m)
  | .ok (pa, loc, _) =>
    let (e0, j, m) := jobRead (if j.chunks == 0 then j.hfloor else j.floor) loc pa 8 j (fetchAt mg j.vf loc pa 16 m)
    let (e1, j, m) := jobRead (if j.chunks == 0 then j.hfloor else j.floor) loc (pa + 8) 8 j m
    .ok (e0, e1, j, m)
/-- What is wrong with an entry: retired, or a permission, a reserved bit or the range. -/
def handleBad (r : Word) (wr : Bool) (extent e0 e1 : Nat) : Option Nat :=
  if !bitAt e1 43 || bitsOf e1 63 44 != bitsOf r.toNat 50 31 then some stStale
  else if !bitAt e1 (if wr then 42 else 41) || bitsOf e0 63 55 != 0 || bitsOf e1 40 31 != 0 || bitsOf e1 30 0 < refOffset r + extent
  then some stBounds else none
/-- Resolves a reference to its start address; later chunks look only for a retired handle. -/
def resolve (mg : Mgmt) (y : Yard) (r : Word) (wr : Bool) (extent : Nat) (j : Job) (m : Mach) :
    Except (EngStop × Mach) (Nat × Job × Mach) :=
  if !refHandle r then
    if bitsOf r.toNat 62 55 != 0 then .error (bounds, m) else .ok (bitsOf r.toNat 54 0, j, m)
  else match readHandle mg y r j m with
    | .error e => .error e
    | .ok (e0, e1, j, m) => match handleBad r wr extent e0 e1 with
      | some st => .error (.status st 0 0 0, m)
      | none => .ok (bitsOf e0 54 0 + refOffset r, j, m)

/-! ## Stopping and records (R237, R330) -/

def modJob (m : Mach) (c : Nat) (j : Job) : Mach :=
  modCore m c fun k => { k with jobs := k.jobs.map fun i => if i.id == j.id then j else i }
/-- Enters an engine fault record; when all are in use it is dropped and record 15 says so. -/
def addRec (m : Mach) (c : Nat) (j : Job) (status va level cause : Nat) : Mach :=
  modCore m c fun k =>
    match (List.range 16).find? fun i => !(mget {} k.eng i).used with
    | some i =>
      let e : EngRec := { used := true, vf := j.vf, slot := j.slot, queue := j.queue, tag := j.tag, status := status, faultVa := va,
                          done := j.done, level := level, cause := cause }
      { k with eng := mset {} k.eng i e }
    | none => { k with eng := mmod {} k.eng 15 fun e => { e with ovf := true } }
/-- ENGINE: the issuing group goes on, its report naming the instruction that queued the command; a halted one keeps its report
(R320, R323, log entry 114). -/
def engReport (m : Mach) (c : Nat) (j : Job) (status va : Nat) : Mach :=
  let r : Report := { cls := 1, code := fEngine, word := j.word, clause := j.clause, addr := va, info := status }
  if (grp m c j.slot).active && (grp m c j.slot).uid == j.uid then modGrp m c j.slot fun g => { g with rep := r } else m
/-- A fault of the stream or of the barrier: a record, and the group's report (R320, R330). -/
def engFault (m : Mach) (c : Nat) (j : Job) (status va level cause : Nat) : Mach :=
  engReport (addRec m c j status va level cause) c j status va
/-- The stream stops with a status; FAULT becomes PARTIAL after the first chunk. An uncorrectable error that the engine meets faults the
virtual function, and the command stands where it was, as when a route is missing (R237, R335, R340). -/
def stopJob (m : Mach) (c : Nat) (j : Job) : EngStop → Mach
  | .uncorr pa unit => uncorrFault m j.vf unit pa none
  | .noRoute => m
  | .status st va level cause =>
    let st := if st == stFault && 0 < j.chunks then stPartial else st
    let m := modJob m c { j with st := .stopped, status := st }
    if st == stFault || st == stPartial then engFault m c j st va level cause else m

/-! ## Start (R41, R206, R234, R239, R241) -/

/-- The rows of a command other than dcompact. -/
def jobShape (m : Mach) (c : Nat) (j : Job) : Shape :=
  match j.kind with
  | .copy2d | .halo => shapeOf j.c
  | .tile =>
    let t := tileEnt m c (j.a.toNat % 32)
    { rows := t.rows, rb := rowBits t / 8, sp := j.c.toNat % 2 ^ 32, dp := rowBits t / 8 }
  | _ => { rows := 1, rb := j.c.toNat, sp := 0, dp := 0 }
def findJob (m : Mach) (c id : Nat) : Option Job := (core m c).jobs.find? fun j => j.id == id
/-- Earlier commands of the same queue. -/
def earlierJobs (m : Mach) (c : Nat) (j : Job) : List Job :=
  ((core m c).jobs.takeWhile fun i => i.id != j.id).filter fun i => i.uid == j.uid && i.queue == j.queue
/-- Instructions of a group with accesses to perform, while it runs or after it has ended. -/
def opsOf (m : Mach) (uid : Nat) : List MemOp :=
  ((allGroups m).filter fun t => t.2.2.status != .free && t.2.2.uid == uid).flatMap fun t => t.2.2.acc ++ t.2.2.recs.map (·.op)
/-- Outstanding pushes by the group with a uid, while it runs or after it has ended. -/
def pushesBy (m : Mach) (uid : Nat) : List Push :=
  ((allGroups m).flatMap fun t => if t.2.2.uid == uid then t.2.2.pushes else [])
    ++ (m.orphans.filter fun o => o.uid == uid).map (·.push)
/-- The group's accesses before some place are performed, those at system scope for ESCOPE .system only. -/
def doneBefore (m : Mach) (j : Job) (p : Mark) : Bool :=
  (opsOf m j.uid).all fun o => !(beforeMark o p && (o.logged || o.elems.any fun el => el.loc != .system || j.escope == 3))
/-- What the group has written and read before a command with an acquire, or before the fence that the command follows, is in the
command's floor, its pushes into register windows that the ESCOPE covers among it (R206, R209). -/
def acquired (m : Mach) (c : Nat) (j : Job) : Bool :=
  doneBefore m j j.at_ && ((pushesBy m j.uid).all fun q => j.at_.seq ≤ q.at_.seq || !escopeCovers j.escope c (coreBase q.core))
    && !((grp m c j.slot).uid == j.uid && (grp m c j.slot).run.any fun r => some r.num == j.at_.live && !r.diverged)
def usesHandle (j : Job) : Bool :=
  match j.kind with
  | .halo => false
  | .fill => refHandle j.a
  | .tile => refHandle j.b
  | .compact => refHandle j.a || refHandle j.b || refHandle j.c
  | _ => refHandle j.a || refHandle j.b
/-- The engine may take up the command. -/
def mayStart (m : Mach) (c : Nat) (j : Job) : Bool :=
  let before := earlierJobs m c j
  j.st == .queued && before.all (fun i => i.st != .queued && !i.ended) && (!j.acq || before.all fun i => i.st == .stopped)
    && (!(j.acq || usesHandle j) || acquired m c j) && j.fence.all (doneBefore m j)
/-- The engines of a virtual function run on a core. -/
def enginesRun (m : Mach) (mg : Mgmt) (c vf : Nat) : Option Yard :=
  if (vfst m vf).stopped then none
  else ((List.range 32).find? fun y => (yrun m y).phase == .running vf && (yardEnt mg y).ownsCore mg c).map (yardEnt mg)

/-- Resolves the references of a starting command in the order destination, source, descriptor (log entry 132). -/
def resolveAll (mg : Mgmt) (y : Yard) (c : Nat) (j : Job) (m : Mach) : Except (EngStop × Mach) (Job × Mach) := do
  let s := jobShape m c j
  let none' := fun (j : Job) (m : Mach) => (Except.ok (0, j, m) : Except (EngStop × Mach) (Nat × Job × Mach))
  let (d, j, m) ← (match j.kind with
    | .copy | .copy2d | .fill => resolve mg y j.a true (s.extent s.dp) j m
    | .compact => resolve mg y j.a true 0 j m
    | .halo => .ok (lsAddr (bitsOf j.a.toNat 40 32) (bitsOf j.a.toNat 18 0), j, m)
    | .tile => .ok (lsAddr c (tileEnt m c (j.a.toNat % 32)).lsoff, j, m))
  let (b, j, m) ← (match j.kind with
    | .copy | .copy2d | .tile => resolve mg y j.b false (s.extent s.sp) j m
    | .compact => resolve mg y j.b false 0 j m
    | .halo => .ok (lsAddr c (bitsOf j.b.toNat 18 0), j, m)
    | .fill => none' j m)
  let (e, j, m) ← (if j.kind == .compact then resolve mg y j.c false 8 j m else none' j m)
  return ({ j with dst := d, src := b, desc := e, st := .running }, m)
/-- Engine reads of descriptor bytes that lie in one page. -/
def readPart (mg : Mgmt) (y : Yard) (va n : Nat) (j : Job) (m : Mach) : Except (EngStop × Mach) (List Byte × Job × Mach) :=
  let (x, m) := engXlate mg m j.vf j.uid y .read va
  match readable mg x m va n with
  | .error e => .error (e, m)
  | .ok (pa, loc, _) => .ok (jobReads j.floor loc (spans n pa n) j (fetchAt mg j.vf loc pa n m))
/-- The engine reads of a descriptor field: an aligned doubleword at once, else byte by byte; a field over the end of a page is translated in
both (R237, R241). -/
def readDesc (mg : Mgmt) (y : Yard) (va size : Nat) (j : Job) (m : Mach) : Except (EngStop × Mach) (Nat × Job × Mach) := do
  let n := min size (4096 - va % 4096)
  let (bs, j, m) ← readPart mg y va n j m
  let (bs', j, m) ← (if n == size then .ok ([], j, m) else readPart mg y (va + n) (size - n) j m)
  return (leNat (bs ++ bs'), j, m)
def segStride (j : Job) : Nat := bitsOf j.hdr.toNat 63 32
def segCount (j : Job) : Nat := bitsOf j.hdr.toNat 19 0
/-- R239: a length of 2^48 or more. -/
def tooLong (j : Job) : Bool :=
  match j.kind with
  | .copy | .fill => 2 ^ 48 ≤ j.c.toNat
  | _ => false
/-- Reads the descriptor header of dcompact, whose reserved bits are zero. -/
def readHeader (mg : Mgmt) (y : Yard) (j : Job) (m : Mach) : Except (EngStop × Mach) (Job × Mach) :=
  if j.kind != .compact then .ok (j, m)
  else match readDesc mg y j.desc 8 j m with
    | .error e => .error e
    | .ok (h, j, m) =>
      if bitsOf h 29 20 != 0 then .error (bounds, m) else .ok ({ j with hdr := BitVec.ofNat 64 h }, m)
/-- The start of a command: too great a length first, then its references, then that there is nothing to move (log entry 132). -/
def startStep (mg : Mgmt) (c id : Nat) (m : Mach) : Mach :=
  match findJob m c id with
  | none => m
  | some j => match enginesRun m mg c j.vf with
    | none => m
    | some y =>
      if !mayStart m c j then m
      else if tooLong j then stopJob m c j bounds
      else match resolveAll mg y c j m with
        | .error (e, m) => stopJob m c j e
        | .ok (j, m) => match readHeader mg y j m with
          | .error (e, m) => stopJob m c j e
          | .ok (j, m) =>
            let s := jobShape m c j
            modJob m c (if j.kind != .compact && s.rows * s.rb == 0 then { j with st := .stopped } else j)
def execDrayCommandStart (c job : Nat) (s : State) : Host.Outcome State Fault Refusal :=
  onUnit (coreOk c) (fun mg m => startStep mg c job m) s

/-! ## Chunks (R236, R237, R239 to R243) -/

/-- The next chunk: source and destination addresses and length. -/
structure Chunk where
  src : Nat
  dst : Nat
  len : Nat
  deriving DecidableEq, Repr
def cutLen (hasSrc : Bool) (src dst rem : Nat) : Nat :=
  min (min rem (4096 - dst % 4096)) (if hasSrc then 4096 - src % 4096 else 4096)
def rowChunk (m : Mach) (c : Nat) (j : Job) : Chunk :=
  let s := jobShape m c j
  let row := j.done / s.rb
  let o := j.done % s.rb
  let src := j.src + row * s.sp + o
  let dst := j.dst + row * s.dp + o
  { src := src, dst := dst, len := cutLen (j.kind != .fill) src dst (s.rb - o) }
def segChunk (j : Job) (n : Nat) : Chunk :=
  let src := j.src + j.seg * segStride j + j.segPos
  let dst := j.dst + j.done
  { src := src, dst := dst, len := cutLen true src dst (n - j.segPos) }
/-- The handle references of a command, and whether it writes the buffer. -/
def jobRefs (j : Job) : List (Word × Bool) :=
  (match j.kind with
    | .halo => []
    | .fill => [(j.a, true)]
    | .tile => [(j.b, false)]
    | .compact => [(j.a, true), (j.b, false), (j.c, false)]
    | _ => [(j.a, true), (j.b, false)]).filter fun r => refHandle r.1
/-- R236: before each later chunk, a retired handle stops the stream. -/
def recheck (mg : Mgmt) (y : Yard) : List (Word × Bool) → Job → Mach → Except (EngStop × Mach) (Job × Mach)
  | [], j, m => .ok (j, m)
  | (r, wr) :: rest, j, m => match readHandle mg y r j m with
    | .error e => .error e
    | .ok (e0, e1, j, m) =>
      if handleBad r wr 0 e0 e1 == some stStale then .error (.status stStale 0 0 0, m) else recheck mg y rest j m
/-- The bytes dfill lays at an address. -/
def fillBytes (b : Word) (va n : Nat) : List Byte :=
  (List.range n).map fun i => BitVec.ofNat 8 (bitsOf b.toNat (8 * ((va + i) % 8) + 7) (8 * ((va + i) % 8)))
/-- A place for one side of a chunk: dhalo's sides and dtile's destination are window addresses already. -/
def sidePlace (mg : Mgmt) (y : Yard) (phys : Bool) (need : Need) (j : Job) (va : Nat) (m : Mach) : EngLoc × Mach :=
  if phys then (.ok va .window .window, m) else engXlate mg m j.vf j.uid y need va
def chunkBlocked (m : Mach) (loc : Loc) (pa n : Nat) : Bool := loc = .window && !winInMem pa && rangeBlocked m pa n
/-- The tokens that a chunk's reads and writes draw; a request that finds its bucket empty waits there (R303). -/
def chunkTokens (mg : Mgmt) (yn n : Nat) (src : Option Loc) (dst : Loc) (m0 m : Mach) : Except Mach Mach :=
  match (match src with | some sl => limitLoc mg m yn sl n | none => some m) with
  | none => .error (holdAtLimiter m0 yn (src.getD .window))
  | some m => match limitLoc mg m yn dst n with
    | none => .error (holdAtLimiter m0 yn dst)
    | some m => .ok m
/-- Carries out one chunk, or stops the stream before it, for its source's reason where both sides fail (log entry 132); without tokens, or into
a claimed register, nothing happens yet. -/
def doChunk (mg : Mgmt) (c : Nat) (y : Yard) (yn : Nat) (j : Job) (ch : Chunk) (after : Job → Job) (m0 m : Mach) : Mach :=
  let halo := j.kind == .halo
  let fill := j.kind == .fill
  let (s, m) := if fill then (EngLoc.ok 0 .window .window, m) else sidePlace mg y halo .read j ch.src m
  let (d, m) := sidePlace mg y (halo || j.kind == .tile) .write j ch.dst m
  match (if fill then .ok (0, .window, .window) else readable mg s m ch.src ch.len), writable mg d ch.dst with
  | .error e, _ => stopJob m c j e
  | _, .error e => stopJob m c j e
  | .ok (sp, sl, slim), .ok (dp, dl, dlim) =>
    if chunkBlocked m dl dp ch.len then m0
    else match chunkTokens mg yn ch.len (if fill then none else some slim) dlim m0 m with
      | .error m => m
      | .ok m =>
        let m := fetchAt mg j.vf dl dp ch.len (fetchAt mg j.vf sl sp ch.len m)
        let (bs, j, m) := if fill then (fillBytes j.b ch.dst ch.len, j, m) else jobReads j.floor sl (spans ch.len sp ch.len) j m
        let (j, m) := jobWrites dl (spans ch.len dp ch.len) bs j m
        modJob (countN m j.vf 8 ch.len) c (after { j with done := j.done + ch.len, chunks := j.chunks + 1 })
/-- The rows of a command are all written. -/
def rowsDone (m : Mach) (c : Nat) (j : Job) : Job :=
  let s := jobShape m c j
  if s.rows * s.rb ≤ j.done then { j with st := .stopped } else j
/-- Goes on to the next segment when one is complete, and ends after the last. -/
def segsDone (j : Job) : Job :=
  let j := if j.segLen.any (· ≤ j.segPos) then { j with seg := j.seg + 1, segLen := none, segPos := 0 } else j
  if segCount j ≤ j.seg then { j with st := .stopped } else j
/-- The element count of the current segment, once it is read from within the descriptor's buffer; more bytes than SEGSTRIDE end the command. -/
def readSeg (mg : Mgmt) (y : Yard) (j : Job) (m : Mach) : Except (EngStop × Mach) (Nat × Job × Mach) :=
  match j.segLen with
  | some n => .ok (n, j, m)
  | none => do
    let (_, j, m) ← resolve mg y j.c false (12 + 4 * j.seg) j m
    let (cnt, j, m) ← readDesc mg y (j.desc + 8 + 4 * j.seg) 4 j m
    let n := cnt * 2 ^ bitsOf j.hdr.toNat 31 30
    if segStride j < n then .error (bounds, m) else .ok (n, { j with segLen := some n }, m)
/-- The range checks of the buffers that dcompact makes chunk by chunk (log entry 30). -/
def segRange (mg : Mgmt) (y : Yard) (j : Job) (ch : Chunk) (m : Mach) : Except (EngStop × Mach) (Job × Mach) := do
  let (_, j, m) ← resolve mg y j.a true (ch.dst + ch.len - j.dst) j m
  let (_, j, m) ← resolve mg y j.b false (ch.src + ch.len - j.src) j m
  return (j, m)
def compactChunk (mg : Mgmt) (c : Nat) (y : Yard) (yn : Nat) (j : Job) (m0 m : Mach) : Mach :=
  if segCount j ≤ j.seg then modJob m c { j with st := .stopped }
  else match readSeg mg y j m with
    | .error (e, m) => stopJob m c j e
    | .ok (n, j, m) =>
      if n == 0 then modJob m c (segsDone j)
      else
        let ch := segChunk j n
        match segRange mg y j ch m with
        | .error (e, m) => stopJob m c j e
        | .ok (j, m) => doChunk mg c y yn j ch (fun j => segsDone { j with segPos := j.segPos + ch.len }) m0 m
def chunkStep (mg : Mgmt) (c id : Nat) (m : Mach) : Mach :=
  match findJob m c id with
  | none => m
  | some j => match enginesRun m mg c j.vf, runningYard m j.vf with
    | some y, some yn =>
      if j.st != .running then m
      else match (if j.chunks == 0 then .ok (j, m) else recheck mg y (jobRefs j) j m) with
        | .error (e, m) => stopJob m c j e
        | .ok (j, m') =>
          if j.kind == .compact then compactChunk mg c y yn j m m'
          else doChunk mg c y yn j (rowChunk m' c j) (rowsDone m' c) m m'
    | _, _ => m
def execDrayChunk (c job : Nat) (s : State) : Host.Outcome State Fault Refusal :=
  onUnit (coreOk c) (fun mg m => chunkStep mg c job m) s

/-! ## Results (R207, R208, R238, R243, R244) -/

/-- Where an atomic on an address is accepted: HBM, a local store of the cluster, or through the links (R200, R244). -/
def barPlace (c : Nat) (loc : Loc) (pa : Nat) : Bool :=
  match loc with
  | .window => (lsCore pa).any fun k => clusterOf k == clusterOf c
  | _ => true
/-- The latest write of a doubleword is a command's increment: it brings the command's writes to readers in its reach (R208). -/
def incMark (m : Mach) (c : Nat) (j : Job) (pa : Nat) : Mach :=
  let upd := fun (w : Ver) => { w with inc := closeVis m j.writes, reach := j.escope.toNat, home := c }
  { m with hist := mmod [] m.hist (pa / 8) fun h => modNth upd 0 h }
/-- The increment, an atomic access in T whose reach is the command's ESCOPE. -/
def incWord (m : Mach) (c : Nat) (j : Job) (loc : Loc) (pa : Nat) : Mach :=
  let v := (readLe m.mem pa 8 + 1) % 2 ^ 64
  if loc = .system then
    let old : Ver := { old := BitVec.ofNat 64 (readLe m.mem pa 8), by_ := .device, vis := [], fenced := true }
    if unsupportedAt pa then m else incMark { m with mem := writeLe m.mem pa 8 v, hist := mmod [] m.hist (pa / 8) (old :: ·) } c j pa
  else
    incMark (memWrite m pa 8 v .device [] true) c j pa
/-- What a completion barrier came to: the increment, a failure with level and cause, or an error met, or no route for now (R244, R335, R340). -/
inductive BarEnd where
  | done | failed (level cause : Nat) | uncorr (pa unit : Nat) | noRoute
  deriving DecidableEq, Repr
/-- The completion barrier of a command: an atomic needs read and write permission (R213, R244). -/
def barrierInc (mg : Mgmt) (y : Yard) (c : Nat) (j : Job) (m : Mach) : BarEnd × Mach :=
  let va := j.barAddr.toNat
  if va % 8 != 0 then (.failed 0 0, m)
  else
    let (x, m) := engXlate mg m j.vf j.uid y .read va
    match x with
    | .stop _ l k => (.failed l k, m)
    | .uncorr pa unit => (.uncorr pa unit, m)
    | .ok _ _ _ =>
      let (x, m) := engXlate mg m j.vf j.uid y .write va
      match x with
      | .stop _ l k => (.failed l k, m)
      | .uncorr pa unit => (.uncorr pa unit, m)
      | .ok pa loc _ =>
        if !barPlace c loc pa then (.failed 0 0, m)
        else if noWay mg pa loc then (.noRoute, m)
        else match (if loc = .system then none else badIn m pa 8) with
          | some (dw, unit) => (.uncorr (8 * dw) unit, m)
          | none => (.done, incWord (fetchAt mg j.vf loc pa 8 m) c j loc pa)
/-- The end of a command: barrier, records, tile; its writes count as made visible (R57). An uncorrectable error at the barrier word
faults the virtual function, and the command has not ended; nor has it while no route leads to the word. -/
def endJob (mg : Mgmt) (y : Yard) (c : Nat) (j : Job) (m : Mach) : Except Mach (Job × Mach) :=
  match (if j.bar then barrierInc mg y c j m else (.done, m)) with
  | (.uncorr pa unit, m) => .error (uncorrFault m j.vf unit pa none)
  | (.noRoute, m) => .error m
  | (b, m) =>
  let (j, m) := match b with
    | .failed l k => ({ j with status := stBarfault }, engFault m c j stBarfault j.barAddr.toNat l k)
    | _ => (j, m)
  let m := if j.kind == .tile then
      let e := j.a.toNat % 32
      let full := j.status == stOk || (j.status == stBarfault && j.done == tileBytes (tileEnt m c e))
      setTileSt m c e (if full then .ready else .empty)
    else m
  .ok ({ j with ended := true }, markFenced m (.engine j.id))
def resultWord (j : Job) : Word := BitVec.ofNat 64 (fieldW j.status 63 56 + fieldW j.tag 55 48 + fieldW j.done 47 0)
def dropJob (m : Mach) (c id : Nat) : Mach := modCore m c fun k => { k with jobs := k.jobs.filter fun j => j.id != id }
/-- Places the result word in queue order, if its FIFO has room; that of an ended group is discarded (R41, R245). -/
def placeResult (m : Mach) (c : Nat) (j : Job) : Mach :=
  let g := grp m c j.slot
  if g.status = .free || g.uid != j.uid then dropJob m c j.id
  else if !(earlierJobs m c j).isEmpty || 8 ≤ (mget [] g.res j.queue).length then m
  else
    let ws := closeVis m j.writes
    let r : Result := { val := resultWord j, rel := if j.rel then ws else [], writes := ws }
    modGrp (dropJob m c j.id) c j.slot fun g => { g with res := mmod [] g.res j.queue fun l => l ++ [r] }
def resultStep (mg : Mgmt) (c id : Nat) (m : Mach) : Mach :=
  match findJob m c id with
  | none => m
  | some j => match enginesRun m mg c j.vf with
    | none => m
    | some y =>
      if j.st != .stopped then m
      else match (if j.ended then .ok (j, m) else endJob mg y c j m) with
        | .error m => m
        | .ok (j, m) => placeResult (modJob m c j) c j
def execDrayResult (c job : Nat) (s : State) : Host.Outcome State Fault Refusal :=
  onUnit (coreOk c) (fun mg m => resultStep mg c job m) s

end Sys2Proof.Machine
end

