-- ==== Sys2Proof/Machine/Lattice.lean ====
section
/-! DEFINITION. The matrix loop: issue (R155 to R159), the sequencer's steps with their operands (R138 to R145, R160), broadcasts
(R161, R162) and completion. -/

namespace Sys2Proof.Machine

/-! ## Formats (R17, R138) -/

def aTy (fmt : BitVec 3) : ElemTy :=
  match fmt.toNat with
  | 0 => .bf16 | 1 => .f16 | 2 => .e4m3 | 3 => .e5m2 | 4 => .e2m1 | _ => .i8
def bTy (fmt : BitVec 3) : ElemTy := if fmt == 6 then .t2 else aTy fmt
def aWidth (fmt : BitVec 3) : Nat := (aTy fmt).width
def bWidth (fmt : BitVec 3) : Nat := (bTy fmt).width
/-- Bytes of a stored row of B: 32 columns. -/
def bRow (fmt : BitVec 3) : Nat := 4 * bWidth fmt
def scaled (fmt : BitVec 3) : Bool := fmt == 2 || fmt == 3 || fmt == 4

/-! ## Broadcasts (R161) -/

def meshRow (k : Nat) : Nat := k % 12 / 4
def meshCol (k : Nat) : Nat := k % 12 % 4
/-- The clusters of a yard on a cluster's row bus or column bus. -/
def busOf (y : Yard) (row : Bool) (k : Nat) : List Nat :=
  (yardClusters y).filter fun q => q / 12 == k / 12 && (if row then meshRow q == meshRow k else meshCol q == meshCol k)
/-- A bus bit has effect where the yard owns more than one cluster of the bus. -/
def onBus (y : Yard) (row : Bool) (k : Nat) (bcast : BitVec 2) : Bool :=
  bcast.getLsbD (if row then 0 else 1) && 1 < (busOf y row k).length
/-- The yard of the virtual function of a loop, which may be draining there. -/
def loopYard (mg : Mgmt) (m : Mach) (l : Loop) : Yard := yardEnt mg ((residentYard m l.vf).getD 0)
/-- The accepted loops of a virtual function in a cluster that stand stopped in saved images of their tiles (R166, R168). -/
def shelvedLoops (m : Mach) (vf k : Nat) : List Loop :=
  (vfGroups m vf).flatMap fun t => if clusterOf t.1 != k then [] else t.2.2.imgs.flatMap fun kv => (kv.2.map (·.loops)).getD []
/-- The loop of another participant that matches the n-th loop of a bus: one in the sequencer, or with away one that is stopped in a saved
image too. -/
def mateIn (mg : Mgmt) (m : Mach) (away row : Bool) (vf n k : Nat) : Option Loop :=
  (loopsOf m k ++ if away then shelvedLoops m vf k else []).find? fun l =>
    l.vf == vf && onBus (loopYard mg m l) row k l.bcast && (if row then l.rowK else l.colK) == n
/-- The clusters that take part in a bus of a loop beside its own. -/
def otherPlaces (mg : Mgmt) (m : Mach) (row : Bool) (k : Nat) (l : Loop) : List Nat :=
  let y := loopYard mg m l
  if onBus y row k l.bcast then (busOf y row k).filter (· != k) else []
/-- The accepted loops of a broadcast, whether all have arrived or not, and wherever they stand. -/
def arrived (mg : Mgmt) (m : Mach) (row : Bool) (k : Nat) (l : Loop) : List Loop :=
  (otherPlaces mg m row k l).filterMap fun q => mateIn mg m true row l.vf (if row then l.rowK else l.colK) q
/-- The matching loops of the other participants; none until every one has been accepted and stands in its sequencer. -/
def mates (mg : Mgmt) (m : Mach) (row : Bool) (k : Nat) (l : Loop) : Option (List Loop) :=
  let others := otherPlaces mg m row k l
  let found := others.filterMap fun q => mateIn mg m false row l.vf (if row then l.rowK else l.colK) q
  if found.length == others.length then some found else none
/-- Loops of one broadcast carry the same FUNC, BCAST, steps and SPARSE. -/
def sameCast (a b : Loop) : Bool := a.fmt == b.fmt && a.bcast == b.bcast && a.steps == b.steps && a.sparse == b.sparse
/-- A nonzero INC code where another participant supplies the operand. -/
def badInc (y : Yard) (k : Nat) (l : Loop) : Bool :=
  (onBus y true k l.bcast && (busOf y true k).head? != some k && l.incA != 0)
    || (onBus y false k l.bcast && (busOf y false k).head? != some k && l.incB != 0)
def sameLoop (a b : Loop) : Bool := a.id == b.id
/-- A tile with no loop left on it is ready; as an open receiver it goes on filling, its own value complete (R158, R177, R180). -/
def settleTile (m : Mach) (c t : Nat) : Mach :=
  if (loopsOf m (clusterOf c)).any fun l => l.core == c && l.tile == t then m
  else if (tileOwnOf m c t).holder.any fun h => (openAt m h c t).isSome then refreshAdds m (clusterOf c)
  else setTileSt m c t .ready
/-- A group takes a Lattice fault at its loop, unless it has halted or ended before. -/
def loopFault (m : Mach) (l : Loop) (code info : Nat) : Mach :=
  let g := grp m l.core l.slot
  if g.active && g.uid == l.uid then
    haltGroup m l.core l.slot { cls := 2, code := code, word := l.word, clause := l.clause, info := info }
  else m
/-- A loop leaves the saved image of its tile. -/
def leaveImage (l : Loop) (i : TileImg) : TileImg :=
  let rest := i.loops.filter fun q => !sameLoop q l
  { st := (if rest.isEmpty && !i.loops.isEmpty then .ready else i.st), loops := rest }
/-- An accepted loop of a broadcast that does not match: it leaves the sequencer, or the saved image of its tile, the tile as it was, and its
group halts. -/
def castFault (m : Mach) (l : Loop) : Mach :=
  let h : Ctx := { vf := l.vf, slot := l.slot, uid := l.uid }
  let m := if (loopsOf m (clusterOf l.core)).any (sameLoop l) then
      settleTile (modClus m (clusterOf l.core) fun k => { k with loops := k.loops.filter fun q => !sameLoop q l }) l.core l.tile
    else
      let m := modCtx m h fun g => { g with imgs := g.imgs.map fun kv =>
        (kv.1, if kv.1 == l.tile && (openAt m h l.core l.tile).isNone then kv.2.map (leaveImage l)
          else kv.2.map fun i => { i with loops := i.loops.filter fun q => !sameLoop q l }) }
      if (openAt m h l.core l.tile).isSome then refreshAdds m (clusterOf l.core) else m
  loopFault m l fBcast 0

/-! ## Issue (R156 to R159) -/

/-- The mask of the first n positions, as a number. -/
def loopMask (g : Group) (c n : Nat) : Nat := fullBits n (getC g c)
def ceilDiv (a b : Nat) : Nat := (a + b - 1) / b
/-- What an mloop reads at issue. -/
structure LoopArgs where
  steps : Nat
  p : Nat
  asrc : Nat
  baddr : Nat
  mask : Nat
  consumed : Nat
def loopArgs (g : Group) (fmt : BitVec 3) (f : FmtL) : LoopArgs :=
  let steps := bitsOf (getX g f.kreg.toNat).toNat 31 0
  let p := steps * loopK fmt
  let mask := if f.sparse then loopMask g f.msel.toNat (min p g.vlmax) else 0
  { steps := steps, p := p, asrc := (getX g f.asrc.toNat).toNat, baddr := (getX g f.baddr.toNat).toNat, mask := mask,
    consumed := bRow fmt * (if f.sparse then popcount 1024 mask else p) }
/-- The A-source entry of an mloop, its definition and range (R141). -/
def aEntOk (mg : Mgmt) (m : Mach) (fmt : BitVec 3) (x p : Nat) : Bool :=
  let t := tileEnt m m.act.core (x % 32)
  x < 2 ^ 32 && bitsOf x 15 5 == 0 && 8 ≤ x % 32 && lsTileValid (groupYardEnt mg m.act.core (me m)) t && t.rows == 32
    && entTy t == some (aTy fmt) && bitsOf x 31 16 + p ≤ t.cols
/-- The remaining LATTICE-OPERAND checks of R159. -/
def loopOk (y : Yard) (c : Nat) (g : Group) (fmt : BitVec 3) (f : FmtL) (a : LoopArgs) : Bool :=
  let h := hayPart y c
  let epw := 32 / aWidth fmt
  a.steps ≤ 65535 && (f.incA != 0 || (32 ≤ g.vlmax && f.asrc.toNat + ceilDiv a.p epw ≤ g.nregs))
    && a.baddr < 2 ^ 21 && h.1 ≤ a.baddr && a.baddr + a.consumed ≤ h.1 + h.2
    && !(f.sparse && g.vlmax < a.p) && !(scaled fmt && a.p != 0 && g.vlmax ≤ (a.p - 1) / 32)
/-- The tile is filling because of earlier loops of the same group in the same format alone (R158). -/
def ownFilling (m : Mach) (c s t : Nat) (fmt : BitVec 3) : Bool :=
  let ls := (loopsOf m (clusterOf c)).filter fun l => l.core == c && l.tile == t
  tileSt m c t == .filling && !ls.isEmpty && (openAt m (ctxOf m c s) c t).isNone && ls.all fun l => l.uid == (grp m c s).uid && l.fmt == fmt
/-- Steps 4 and 5 of R156. -/
def acceptLoop (y : Yard) (fmt : BitVec 3) (f : FmtL) (a : LoopArgs) (l : Loop) (m : Mach) : Mach :=
  let c := m.act.core
  let k := clusterOf c
  let row := onBus y true k f.bcast
  let col := onBus y false k f.bcast
  let m := modClus m k fun q => { q with loops := q.loops ++ [l], rowN := if row then q.rowN + 1 else q.rowN,
                                          colN := if col then q.colN + 1 else q.colN }
  let m := setTileSt { m with nextUid := m.nextUid + 1 } c l.tile .filling
  let m := modMe m fun g => { g with seq := g.seq + 1 }
  let m := if f.incA == 2 && a.steps != 0 then
      modMe m fun g => putX g f.asrc.toNat (BitVec.ofNat 64 (a.asrc % 2 ^ 16 + (bitsOf a.asrc 31 16 + a.p) % 2 ^ 16 * 2 ^ 16))
    else m
  let m := if f.incB == 1 && a.steps != 0 then
      modMe m fun g => putX g f.baddr.toNat (BitVec.ofNat 64 (a.baddr + a.consumed))
    else m
  retireC m
/-- A broadcast of which this is the last loop to arrive, and that does not match: every loop of it takes LATTICE-BCAST. -/
def castMismatch (mg : Mgmt) (m : Mach) (l : Loop) : Bool :=
  let k := clusterOf l.core
  let bad := fun row =>
    let ls := arrived mg m row k l
    ls.length == (otherPlaces mg m row k l).length && ls.any fun q => !sameCast l q
  bad true || bad false
/-- The loop is of a broadcast that has failed. -/
def castFailed (m : Mach) (y : Yard) (k : Nat) (l : Loop) : Bool :=
  (onBus y true k l.bcast && (clus m k).rowBad.contains l.rowK) || (onBus y false k l.bcast && (clus m k).colBad.contains l.colK)
/-- The clusters of a bus whose own loop of broadcast n has not arrived will find it failed. -/
def failLater (y : Yard) (row : Bool) (k n : Nat) (m : Mach) : Mach :=
  (busOf y row k).foldl (fun m q => modClus m q fun u =>
    if row then (if u.rowN ≤ n then { u with rowBad := n :: u.rowBad } else u)
    else if u.colN ≤ n then { u with colBad := n :: u.colBad } else u) m
/-- LATTICE-BCAST at issue: the issuing group and every other one of the loop's broadcasts halt, those whose loop has yet to arrive as it
does (R161, R170). -/
def castHalt (mg : Mgmt) (y : Yard) (k : Nat) (l : Loop) (m : Mach) : Mach :=
  let row := onBus y true k l.bcast
  let col := onBus y false k l.bcast
  let ls := arrived mg m true k l ++ arrived mg m false k l
  let m := modClus m k fun q =>
    { q with rowN := if row then q.rowN + 1 else q.rowN, colN := if col then q.colN + 1 else q.colN,
              rowBad := q.rowBad.filter fun n => !(row && n == l.rowK), colBad := q.colBad.filter fun n => !(col && n == l.colK) }
  let m := if row then failLater y true k l.rowK m else m
  let m := if col then failLater y false k l.colK m else m
  faultAct (ls.foldl castFault m) fBcast 0 0 0
def placeLoop (mg : Mgmt) (fmt : BitVec 3) (f : FmtL) (a : LoopArgs) (m : Mach) : Mach :=
  let c := m.act.core
  let k := clusterOf c
  let g := me m
  let y := groupYardEnt mg c g
  let l : Loop :=
    { id := m.nextUid, core := c, slot := (ctxOf m c m.act.slot).slot, uid := g.uid, vf := g.vf, tile := f.tile.toNat, fmt := fmt, steps := a.steps, done := 0,
      a := (if f.incA == 0 then .regs f.asrc.toNat else .tile (a.asrc % 32) (bitsOf a.asrc 31 16)), baddr := a.baddr,
      sparse := f.sparse, mask := a.mask, sbyte := f.sbyte.toNat, bcast := f.bcast, incA := f.incA.toNat, incB := f.incB.toNat,
      rowK := (clus m k).rowN, colK := (clus m k).colN, rowP := (if onBus y true k f.bcast then busOf y true k else []),
      colP := (if onBus y false k f.bcast then busOf y false k else []), clause := m.act.clause, word := m.act.word, seq := g.seq,
      nregs := g.nregs, left := if 64 ≤ m.act.slot then some g.v else none }
  if 4 ≤ ((loopsOf m k).filter fun q => q.core == c).length then suspendC m .loopRoom
  else if badInc y k l || castMismatch mg m l || castFailed m y k l then castHalt mg y k l m
  else acceptLoop y fmt f a l m
/-- What an mloop captures if its tile's image has to be replayed. -/
def loopUse (g : Group) (fmt : BitVec 3) (f : FmtL) (a : LoopArgs) : UseInfo :=
  { srcs := [f.kreg] ++ (if f.incA == 0 then [] else [f.asrc]) ++ [f.baddr],
    msel := (if f.sparse then f.msel.toNat else 0), mask := a.mask,
    vsrcs := (if f.incA == 0 then (List.range (ceilDiv a.p (32 / aWidth fmt))).map (f.asrc.toNat + ·) else [])
      ++ (if scaled fmt then [g.nregs - 2, g.nregs - 1] else []),
    dsts := if a.steps == 0 then [] else
      (if f.incA == 2 then [.x f.asrc.toNat] else []) ++ (if f.incB == 1 then [.x f.baddr.toNat] else []) }
/-- Step 2 of R156, then step 3. -/
def loopTiles (mg : Mgmt) (fmt : BitVec 3) (f : FmtL) (a : LoopArgs) (m : Mach) : Mach :=
  let c := m.act.core
  let t := f.tile.toNat
  let e := a.asrc % 32
  if f.incA != 0 && !aEntOk mg m fmt a.asrc a.p then faultAct m fLattice 0 0 0
  else withTile mg t (loopUse (me m) fmt f a) (fun m =>
    let busy := fun e => tileSt m c e == .filling || tileSt m c e == .draining
    if busy t && !ownFilling m c m.act.slot t fmt then suspendC m (.tile t)
    else if f.incA != 0 && busy e then suspendC m (.tile e)
    else if tileSt m c t == .empty then faultAct m fEmpty 0 0 (tCode t)
    else if f.incA != 0 && tileSt m c e == .empty then faultAct m fEmpty 0 0 f.asrc.toNat
    else if !loopOk (groupYardEnt mg c (me m)) c (me m) fmt f a then faultAct m fLattice 0 0 0
    else placeLoop mg fmt f a m) m
def doMloop (fmt : BitVec 3) (f : FmtL) (mg : Mgmt) : Mach → Mach :=
  let srcs : List CSrc := [.r f.kreg false] ++ (if f.incA == 0 then [] else [.r f.asrc false]) ++ [.r f.baddr false]
  withSrcs srcs fun m =>
    let a := loopArgs (me m) fmt f
    let rs := if f.sparse then (List.range (min a.p (me m).vlmax)).map (Reg.c f.msel.toNat) else []
    if rs.any fun r => getFe (me m) r != .full then suspendC m (.full rs) else loopTiles mg fmt f a m
def execMloop (fmt : BitVec 3) (f : FmtL) (s : State) : Host.Outcome State Fault Refusal :=
  onMach (fun mg => withPred f.pn f.ps (if f.incA == 0 then afterLockStep (doMloop fmt f mg) else doMloop fmt f mg)) s

/-! ## Operands of a step (R140 to R144) -/

/-- The loops that supply A and B: itself, or the source of its bus. -/
def aFrom (mg : Mgmt) (m : Mach) (k : Nat) (l : Loop) : Loop :=
  match mates mg m true k l with
  | some (q :: r) => (q :: r).foldl (fun b x => if clusterOf x.core < clusterOf b.core then x else b) l
  | _ => l
def bFrom (mg : Mgmt) (m : Mach) (k : Nat) (l : Loop) : Loop :=
  match mates mg m false k l with
  | some (q :: r) => (q :: r).foldl (fun b x => if clusterOf x.core < clusterOf b.core then x else b) l
  | _ => l
/-- A v register of a loop's group, as it stands or as the group left it, and whether it is full. -/
def loopReg (m : Mach) (l : Loop) (i e : Nat) : Lane × Bool :=
  match l.left with
  | some v => (mget 0 (mget [] v i) e, true)
  | none => let g := grp m l.core l.slot; (getV g i e, (getFe g (.v i e)).holds)
/-- Position p contributes. -/
def contributes (b : Loop) (p : Nat) : Bool := !b.sparse || bitAt b.mask p
/-- The contributing positions of step s. -/
def stepPositions (l b : Loop) (s : Nat) : List Nat :=
  ((List.range (loopK l.fmt)).map (s * loopK l.fmt + ·)).filter (contributes b)
/-- A(i, p) as bits. -/
def aElem (m : Mach) (a : Loop) (i p : Nat) : Nat :=
  let w := aWidth a.fmt
  match a.a with
  | .regs r => subEl (loopReg m a (r + p / (32 / w)) i).1 (p % (32 / w)) w
  | .tile e p0 =>
    let t := tileEnt m a.core e
    let bit := (i * t.cols + p0 + p) * w
    let n := (readByte m.mem (lsAddr a.core (t.lsoff + bit / 8))).toNat + 256 * (readByte m.mem (lsAddr a.core (t.lsoff + bit / 8 + 1))).toNat
    n / 2 ^ (bit % 8) % 2 ^ w
/-- The stored row of position p: a prefix count in a sparse loop (R142). -/
def storedRow (b : Loop) (p : Nat) : Nat := if b.sparse then popcount 1024 (b.mask % 2 ^ p) else p
def bByte (b : Loop) (p : Nat) : Nat := b.baddr + storedRow b p * bRow b.fmt
/-- B(p, c) as bits. -/
def bElem (m : Mach) (b : Loop) (p c : Nat) : Nat :=
  let w := bWidth b.fmt
  let base := hayAddr (clusterOf b.core) (bByte b p + c * w / 8)
  let n := (readByte m.mem base).toNat + 256 * (readByte m.mem (base + 1)).toNat
  n / 2 ^ (c * w % 8) % 2 ^ w
/-- A scale byte: register nd − 2 or nd − 1 in VP j. -/
def scaleOf (m : Mach) (l : Loop) (isB : Bool) (j : Nat) : Nat :=
  subEl (loopReg m l (l.nregs - (if isB then 1 else 2)) j).1 l.sbyte 8
def blocksOf (ps : List Nat) : List Nat := (ps.map (· / 32)).eraseDups
/-- The v registers that hold some positions of A, read in VPs 0 to 31 (R140). -/
def aRegs (a : Loop) (ps : List Nat) : List Nat :=
  match a.a with
  | .regs r => (ps.map fun p => r + p / (32 / aWidth a.fmt)).eraseDups
  | .tile _ _ => []
/-- The Hayloft lines of a position's row of B, which may begin at any byte (R142). -/
def bLines (b : Loop) (p : Nat) : List Nat :=
  let x := bByte b p
  (List.range ((x + bRow b.fmt - 1) / 64 + 1 - x / 64)).map (x / 64 + ·)
/-- Every register the step reads is full, and no line or load it reads is outstanding (R140, R143, R153). -/
def operandsThere (m : Mach) (l a b : Loop) (ps : List Nat) : Bool :=
  let regsFull := (aRegs a ps).all fun i => (List.range 32).all fun e => (loopReg m a i e).2
  let scalesFull := !scaled l.fmt || (blocksOf ps).all fun j => (loopReg m a (a.nregs - 2) j).2 && (loopReg m b (b.nregs - 1) j).2
  let k := clus m (clusterOf b.core)
  let noLoad := fun (q : Loop) => (opsOf m q.uid).all fun o => !isMload o.kind
  regsFull && scalesFull && noLoad b && noLoad l && ps.all fun p => (bLines b p).all fun n => !k.hayLoading.contains n
/-- The first invalid Hayloft line the step reads. -/
def badLine (m : Mach) (b : Loop) (ps : List Nat) : Option Nat :=
  ((ps.flatMap (bLines b)).find? fun n => (clus m (clusterOf b.core)).hayInvalid.contains n).map (· * 64)

/-! ## One step (R99, R100, R138) -/

/-- The integer value of an element: a signed byte, or a weight whose reserved code reads as 0 (R90, R142). -/
def elInt (ty : ElemTy) (n : Nat) : Int :=
  if ty = .t2 then (if n == 1 then 1 else if n == 3 then -1 else 0) else sext n 8
/-- The new accumulator element of cell (i, c). -/
def cellStep (m : Mach) (l a b : Loop) (ps : List Nat) (old i c : Nat) : Nat :=
  match fmtOf (aTy l.fmt) with
  | none =>
    let sum := ps.foldl (fun (t : Int) p => t + elInt .i8 (aElem m a i p) * elInt (bTy l.fmt) (bElem m b p c)) 0
    wrapN ((old : Int) + sum) 32
  | some f =>
    let nanScale := scaled l.fmt && (blocksOf ps).any fun j => scaleOf m a false j == 255 || scaleOf m b true j == 255
    dotAdd old nanScale (ps.map fun p =>
      (f.decode (aElem m a i p), f.decode (bElem m b p c),
       if scaled l.fmt then (scaleOf m a false (p / 32) : Int) + scaleOf m b true (p / 32) - 254 else 0))
/-- All cells of one step at once. -/
def stepTile (m : Mach) (l a b : Loop) (ps : List Nat) : Mach :=
  let base := tileAddr l.core l.tile
  let bytes := (List.range 1024).flatMap fun n => leBytes 4 (cellStep m l a b ps (readLe m.mem (base + 4 * n) 4) (n / 32) (n % 32))
  unitWrite m base 4096 (writeBytes m.mem base bytes)
def bumpLoop (m : Mach) (l : Loop) : Mach :=
  modClus m (clusterOf l.core) fun k => { k with loops := k.loops.map fun q => if sameLoop q l then { q with done := q.done + 1 } else q }

/-! ## The sequencer (R139, R145, R160, R162) -/

/-- All loops that must run a step together with this one: its mates on either bus, and theirs; none until all are accepted. -/
def castSet (mg : Mgmt) (m : Mach) : Nat → List Loop → Option (List Loop)
  | 0, ls => some ls
  | n + 1, ls =>
    let more := ls.map fun l => match mates mg m true (clusterOf l.core) l, mates mg m false (clusterOf l.core) l with
      | some a, some b => some (a ++ b)
      | _, _ => none
    if more.any Option.isNone then none
    else castSet mg m n ((more.flatMap fun o => o.getD []).foldl (fun r q => if r.any (sameLoop q) then r else r ++ [q]) ls)
/-- The group of a loop has halted. -/
def loopHalted (m : Mach) (l : Loop) : Bool := let g := grp m l.core l.slot; g.status == .halted && g.uid == l.uid
/-- The loop is the oldest unfinished one of its tile, and its virtual function runs. -/
def loopFree (mg : Mgmt) (m : Mach) (l : Loop) : Bool :=
  l.done < l.steps && (enginesRun m mg l.core l.vf).isSome
    && ((loopsOf m (clusterOf l.core)).takeWhile fun q => !sameLoop q l).all fun q => !(q.core == l.core && q.tile == l.tile && q.done < q.steps)
def loopRuns (mg : Mgmt) (m : Mach) (l : Loop) : Bool :=
  let k := clusterOf l.core
  let b := bFrom mg m k l
  loopFree mg m l && operandsThere m l (aFrom mg m k l) b (stepPositions l b l.done)
/-- The loops of a step: the loop's broadcast set, when every one of them can run; a participant that has halted stops it (R162). -/
def runSet (mg : Mgmt) (m : Mach) (l : Loop) : Option (List Loop) :=
  if !loopRuns mg m l then none
  else match castSet mg m 12 [l] with
    | some ls => if ls.all (fun q => q.done == l.done && loopRuns mg m q && (ls.length == 1 || !loopHalted m q)) then some ls else none
    | none => none
/-- Round robin over the cores, beginning after the one served last; a core's oldest loop that can run. -/
def chooseLoop (mg : Mgmt) (m : Mach) (k : Nat) : Option (Loop × List Loop) :=
  let cores := (List.range 4).map fun i => 4 * k + ((clus m k).rr + 1 + i) % 4
  cores.findSome? fun c => (loopsOf m k).findSome? fun l =>
    if l.core == c then (runSet mg m l).map fun ls => (l, ls) else none
/-- R160: the loop and the later ones of its group on its tile are discarded, the tile is empty and zero, the group halts. -/
def hayFault (m : Mach) (l : Loop) (off : Nat) : Mach :=
  let m := modClus m (clusterOf l.core) fun k => { k with loops := k.loops.filter fun q => !(q.core == l.core && q.uid == l.uid && q.tile == l.tile) }
  loopFault (setTileSt (zeroTile m l.core l.tile) l.core l.tile .empty) l fHayloft off
/-- A loop of a group that has not ended reads v registers of it in some VPs: what came with their fills becomes part of the past of the
instructions after the loop (R196). -/
def loopLearn (l : Loop) (regs es : List Nat) (m : Mach) : Mach :=
  let g := grp m l.core l.slot
  if l.left.isSome || g.uid != l.uid || g.pend.isEmpty then m
  else
    let add := (regs.foldl (fun g i => absorbReg g false i es) { g with vis := [] }).vis
    gainAt (modGrp m l.core l.slot fun g => learn g add) l.core l.slot (fun p => l.seq < p.seq) add
/-- What a step of a loop consumes of the registers it reads. -/
def stepLearn (l a b : Loop) (ps : List Nat) (m : Mach) : Mach :=
  let m := loopLearn a (aRegs a ps) (List.range 32) m
  if scaled l.fmt then loopLearn b [b.nregs - 1] (blocksOf ps) (loopLearn a [a.nregs - 2] (blocksOf ps) m) else m
/-- One step of every loop of a set, all from the operands as they stood. -/
def runStep (mg : Mgmt) (m : Mach) (ls : List Loop) : Mach :=
  ls.foldl (fun r l =>
    let k := clusterOf l.core
    let a := aFrom mg m k l
    let b := bFrom mg m k l
    let ps := stepPositions l b l.done
    count1 (stepLearn l a b ps (stepTile r l a b ps)) l.vf 7) (ls.foldl bumpLoop m)
/-- R145: the next two steps of a lone sparse loop have K contributing positions or fewer. -/
def pairFits (l : Loop) : Bool :=
  l.sparse && l.done + 1 < l.steps && (stepPositions l l l.done).length + (stepPositions l l (l.done + 1)).length ≤ loopK l.fmt
/-- A v register of a loop's group that fails in some VPs: its doubleword and unit. -/
def badReg (m : Mach) (l : Loop) (regs es : List Nat) : Option (Nat × Nat) :=
  let g := grp m l.core l.slot
  if l.left.isSome then none
  else regs.findSome? fun i => (es.find? fun e => getFe g (.v i e) == .failing).map fun e => (regAddr m l.core l.slot i e / 8, regUnit)
/-- An error in what the next step of a loop reads: its tile, B, the registers or the LS tile of A, the scales (R335). -/
def stepBad (mg : Mgmt) (m : Mach) (l : Loop) : Option (Nat × Nat) :=
  if m.bad.isEmpty then none
  else
    let a := aFrom mg m (clusterOf l.core) l
    let b := bFrom mg m (clusterOf l.core) l
    let ps := stepPositions l b l.done
    let rows := match a.a with
      | .regs _ => []
      | .tile e p0 =>
        let t := tileEnt m a.core e
        ps.flatMap fun p => (List.range 32).map fun i => lsAddr a.core (t.lsoff + (i * t.cols + p0 + p) * aWidth a.fmt / 8)
    (badIn m (tileAddr l.core l.tile) 4096).orElse fun _ =>
      (ps.findSome? fun p => badIn m (hayAddr (clusterOf b.core) (bByte b p)) (bRow b.fmt)).orElse fun _ =>
        (rows.findSome? fun x => badIn m x (max 1 (aWidth a.fmt / 8))).orElse fun _ =>
          (badReg m a (aRegs a ps) (List.range 32)).orElse fun _ =>
            if scaled l.fmt then (badReg m a [a.nregs - 2] (blocksOf ps)).orElse fun _ => badReg m b [b.nregs - 1] (blocksOf ps) else none
/-- The sequencer's turn. Loops of one broadcast that do not match, and were not seen to at issue, halt before they run a step (R161). -/
def latticeStep (mg : Mgmt) (k : Nat) (m : Mach) : Mach :=
  if let some l := (loopsOf m k).find? fun l => l.done == 0 && (runningYard m l.vf).isSome && castMismatch mg m l then
    (l :: (arrived mg m true k l ++ arrived mg m false k l)).foldl castFault m
  else match chooseLoop mg m k with
  | none => m
  | some (l, ls) =>
    let m := ls.foldl (fun m q => modClus m (clusterOf q.core) fun u => { u with rr := q.core % 4 }) m
    match ls.findSome? fun q =>
        let b := bFrom mg m (clusterOf q.core) q
        if sameLoop b q then (badLine m q (stepPositions q q q.done)).map fun o => (q, o) else none with
    | some (q, o) => hayFault m q o
    | none => match ls.findSome? fun q => (stepBad mg m q).map fun e => (q.vf, e) with
    | some (vf, dw, unit) => uncorrFault m vf unit (8 * dw) none
    | none =>
      let (pair, m) := if ls.length == 1 && pairFits l then pick m 2 else (1, m)
      let m := runStep mg m ls
      let l2 := { l with done := l.done + 1 }
      if pair == 0 && loopRuns mg m l2 && (stepBad mg m l2).isNone && (badLine m l2 (stepPositions l2 l2 l2.done)).isNone then runStep mg m [l2] else m
def execLatticeStep (k : Nat) (s : State) : Host.Outcome State Fault Refusal :=
  onUnit (clusterOk k) (fun mg m => latticeStep mg k m) s

/-- Every participant of a loop's broadcasts has accepted its loop: a loop without steps waits for them too (R161, R162). -/
def castIn (mg : Mgmt) (m : Mach) (row : Bool) (l : Loop) : Bool :=
  let y := loopYard mg m l
  let k := clusterOf l.core
  !onBus y row k l.bcast
    || (busOf y row k).all fun q => if row then l.rowK < (clus m q).rowN else l.colK < (clus m q).colN
/-- The oldest finished loop of a tile completes; after the last the tile is ready, or as an open receiver has its own value (R158, R177). -/
def loopComplete (mg : Mgmt) (c t : Nat) (m : Mach) : Mach :=
  match (loopsOf m (clusterOf c)).find? fun l => l.core == c && l.tile == t with
  | none => m
  | some l =>
    if l.done < l.steps || (enginesRun m mg c l.vf).isNone || !castIn mg m true l || !castIn mg m false l then m
    else
      settleTile (modClus m (clusterOf c) fun k => { k with loops := k.loops.filter fun q => !sameLoop q l }) c t
def execMloopComplete (c t : Nat) (s : State) : Host.Outcome State Fault Refusal :=
  onUnit (coreOk c && t < 8) (fun mg m => loopComplete mg c t m) s

end Sys2Proof.Machine
end

