-- ==== Sys2Proof/Machine/Glaze.lean ====
section
/-! DEFINITION. Glaze chains, receives and sends (R171 to R189), and the additions of their contributions (R103, R177). -/

namespace Sys2Proof.Machine

/-! ## Chain ids and members (R173) -/

def idChain (id : Word) : Nat := bitsOf id.toNat 5 0
def idGen (id : Word) : Nat := bitsOf id.toNat 47 32
def chainId (n gen : Nat) : Word := BitVec.ofNat 64 (gen * 2 ^ 32 + n)
def chainIdNone : Word := BitVec.allOnes 64
/-- A chain id is current (R173). -/
def idCurrent (v : VfState) (id : Word) : Bool :=
  let q := chainOf v (idChain id)
  q.used && id == chainId (idChain id) q.gen
def idInfo (id : Word) : Nat := idChain id * 2 ^ 16 + idGen id
def memberAt (q : Chain) (c t : Nat) : Option Nat := q.members.findIdx? fun p => p.core == c && p.tile == t
/-! ## gchain (R174, R175, R179) -/

def memberOfWord (w : Word) : Member :=
  let n := w.toNat
  { core := bitsOf n 8 0, tile := bitsOf n 12 10, rank := bitsOf n 16 13, parent := bitsOf n 20 17, expect := bitsOf n 24 21,
    slots := bitsOf n 28 25 }
def memberReserved (w : Word) : Bool := bitsOf w.toNat 63 29 != 0 || bitsOf w.toNat 9 9 != 0
def headReserved (w : Word) : Bool := bitsOf w.toNat 63 24 != 0 || bitsOf w.toNat 19 18 != 0 || bitsOf w.toNat 15 5 != 0
/-- Following PARENT from a member reaches the root in at most n steps. -/
def reachesRoot (ms : List Member) (root : Nat) : Nat → Nat → Bool
  | 0, i => i == root
  | n + 1, i => i == root || (match ms[i]? with | some p => reachesRoot ms root n p.parent | none => false)
def distinct {α : Type} [DecidableEq α] : List α → Bool
  | [] => true
  | a :: r => !r.contains a && distinct r
/-- The first failing rule of R175 for a header and its entries. -/
def chainRule (mg : Mgmt) (y : Yard) (h : Word) (ws : List Word) : Option Nat :=
  let ms := ws.map memberOfWord
  let nmem := bitsOf h.toNat 4 0
  let root := bitsOf h.toNat 23 20
  let own := fun (p : Member) => y.ownsCluster (clusterOf p.core) && !mg.retCores.contains p.core
  if !(2 ≤ nmem && nmem ≤ 16 && bitsOf h.toNat 17 16 ≤ 2 && root < nmem) || headReserved h || ws.any memberReserved then some 1
  else if !ms.all own then some 2
  else if !(distinct (ms.map fun p => (p.core, p.tile)) && distinct (ms.map (·.rank))) then some 3
  else if !(ms.zipIdx.all fun p => if p.2 == root then p.1.parent == root else p.1.parent < nmem && p.1.parent != p.2) then some 4
  else if !(List.range nmem).all (reachesRoot ms root (nmem - 1)) then some 5
  else if !(ms.zipIdx.all fun p =>
      p.1.expect == (ms.zipIdx.filter fun q => q.2 != root && q.1.parent == p.2).length
        && (if p.1.expect == 0 then p.1.slots == 0 else 1 ≤ p.1.slots && p.1.slots ≤ min p.1.expect 8)) then some 6
  else none
/-- Takes the lowest free chain number and installs the chain. -/
def installChain (h : Word) (ws : List Word) (d : Nat) (m : Mach) : Mach :=
  let vf := (me m).vf
  match (List.range 64).find? fun n => !(chainOf (vfst m vf) n).used with
  | none => retireC (modMe m fun g => putX g d chainIdNone)
  | some n =>
    let q := chainOf (vfst m vf) n
    let m := modChain m vf n fun q =>
      { q with used := true, closing := false, mode := bitsOf h.toNat 17 16, root := bitsOf h.toNat 23 20, members := ws.map memberOfWord }
    retireC (modMe m fun g => putX g d (chainId n q.gen))
def execGchain (i : FmtA) (s : State) : Host.Outcome State Fault Refusal :=
  onMach (fun mg => withPred i.pn i.ps (withSrcs [.r i.a i.ta] (withDst [.x i.d.toNat] fun m =>
    let va := (getX (me m) i.a.toNat).toNat
    if va % 8 != 0 && (me m).held.isNone then faultAct m fChain 0 0 0
    else readHeld mg va 1 (fun ws m =>
      let h := ws.headD 0
      let nmem := bitsOf h.toNat 4 0
      if ws.length < nmem + 1 then heldRead mg (va + 8) nmem ws m
      else match chainRule mg (groupYardEnt mg m.act.core (me m)) h (ws.drop 1) with
        | some r => faultAct m fChain 0 0 (r * 2 ^ 24)
        | none => installChain h (ws.drop 1) i.d.toNat m) m))) s

/-- A Glaze fault that names a chain: its report gives the chain id (R187). -/
def glazeFault (m : Mach) (id : Word) (code info : Nat) : Mach :=
  haltFault (modMe m fun g => { g with held := none }) m.act.core m.act.slot { actReport m code 0 0 info with chain := id }

/-! ## Outcomes (R182) -/

def gout (g : Group) (t : Nat) : GOut := mget {} g.gout t
def setGout (g : Group) (t : Nat) (o : GOut) : Group := { g with gout := mset {} g.gout t o }
def glazeStatus (round count code : Nat) : Word := BitVec.ofNat 64 (round % 2 ^ 16 * 2 ^ 16 + count * 2 ^ 8 + code)
/-- The outcome of a context's instruction on a tile is known, if it is still the one recorded. -/
def finishGout (m : Mach) (c : Nat) (h : Ctx) (t kind chain member : Nat) (status : Word) : Mach :=
  modCtx m h fun g =>
    let o := gout g t
    if o.kind == kind && !o.done && o.chain == chain && o.member == member then
      endWaits t status (setGout g t { o with done := true, status := status })
    else g
/-- The state of a tile as a context holds it: on the core, or in its saved image. -/
def ctxTileSt (m : Mach) (c : Nat) (h : Ctx) (t : Nat) (st : TState) : Mach :=
  if (tileOwnOf m c t).holder = some h then rawTileSt m c t st
  else modCtx m h fun g => { g with imgs := mset none g.imgs t ((mget none g.imgs t).map fun i => { i with st := st }) }

/-! ## gopen (R176, R180) -/

def freeRecv (k : Cluster) : List Nat := (List.range 8).filter fun j => mget .free k.recv j = .free
def setRecv (m : Mach) (k : Nat) (js : List Nat) (r : Recv) : Mach :=
  modClus m k fun q => { q with recv := js.foldl (fun t j => mset .free t j r) q.recv }
/-- The receive begins: slots, round, credits, the tile's own value. -/
def openTile (vf n i t : Nat) (id : Word) (m : Mach) : Mach :=
  let c := m.act.core
  let k := clusterOf c
  let q := chainOf (vfst m vf) n
  let p := memberOf m vf n i
  let js := (freeRecv (clus m k)).take p.slots
  let kids := (childrenOf q i).take p.slots
  let m := setRecv m k js (.reserved c t)
  let m := modMember m vf n i fun p =>
    { p with round := (p.round + 1) % 2 ^ 16, open_ := some (ctxOf m c m.act.slot), reserved := js, granted := kids, credited := kids,
             landed := [], added := 0 }
  let m := if tileSt m c t = .empty then zeroTile m c t else m
  let m := rawTileSt m c t .filling
  retireC (modMe m fun g => setGout g t { kind := 1, done := false, status := 0, chain := idChain id, member := i })
def doGopen (f : FmtA) (mg : Mgmt) : Mach → Mach :=
  let t := tNum f.d
  withSrcs [.r f.a f.ta] (withTile mg t { srcs := [f.a] } fun m =>
    let c := m.act.core
    let g := me m
    let id := getX g f.a.toNat
    let q := chainOf (vfst m g.vf) (idChain id)
    let free := (freeRecv (clus m (clusterOf c))).length
    match (if idCurrent (vfst m g.vf) id && !q.closing then memberAt q c t else none) with
    | none => glazeFault m id fChain (idInfo id)
    | some i =>
      let p := memberOf m g.vf (idChain id) i
      let ok := match tileSt m c t with
        | .empty | .ready => true
        | .filling => (loopsOf m (clusterOf c)).any (fun l => l.core == c && l.tile == t)
            && (loopsOf m (clusterOf c)).all fun l => !(l.core == c && l.tile == t) || l.uid == g.uid
        | .draining => false
      if p.expect == 0 then glazeFault m id fChain (idInfo id)
      else if tileOpen m g.vf c t || free < p.slots then glazeFault m id fOver free
      else if !ok then suspendC m (.tile t)
      else openTile g.vf (idChain id) i t id m)
def execGopen (f : FmtA) (s : State) : Host.Outcome State Fault Refusal := onMach (fun mg => withPred f.pn f.ps (doGopen f mg)) s

/-! ## Additions (R103, R177) -/

/-- Adds 1,024 elements of a receive slot into a tile. -/
def addTile (m : Mach) (int : Bool) (c t j : Nat) : Mach :=
  let dst := tileAddr c t
  let src := recvAddr (clusterOf c) j
  let el := fun n =>
    let a := readLe m.mem (dst + 4 * n) 4
    let b := readLe m.mem (src + 4 * n) 4
    leBytes 4 (if int then (a + b) % 2 ^ 32 else plainAdd f32 a b)
  unitWrite m dst 4096 (writeBytes m.mem dst ((List.range 1024).flatMap el))
/-- The slot of an added contribution is free for the round: the next credit goes out (R176). -/
def creditNext (q : Chain) (i x : Nat) (p : Member) : Member :=
  let p := { p with landed := p.landed.filter fun l => l.1 != x, added := p.added + 1 }
  match (if q.closing then none else (childrenOf q i).find? fun y => !p.credited.contains y) with
  | some y => { p with granted := p.granted ++ [y], credited := p.credited ++ [y] }
  | none => p

/-! ## The end of a chain (R185) -/

/-- A receive ends: its slots are free, and the tile is ready. -/
def endReceive (m : Mach) (vf n i code : Nat) : Mach :=
  let p := memberOf m vf n i
  match p.open_ with
  | none => m
  | some h =>
    let m := setRecv m (clusterOf p.core) p.reserved .free
    let m := ctxTileSt m p.core h p.tile .ready
    let m := finishGout m p.core h p.tile 1 n i (glazeStatus p.round p.added code)
    modMember m vf n i fun p => { p with open_ := none, reserved := [], granted := [], credited := [], landed := [] }
/-- Fills every x register that waits for the end of a receive, in the cycle in which it ends. -/
def fillWaits (t n i : Nat) (w : Word) (g : Group) : Group :=
  let o := gout g t
  if o.kind == 1 && !o.done && o.chain == n && o.member == i then
    let mine := g.gwaits.filter (·.1 == t)
    mine.foldl (fun g q => captureX (putX g q.2 w) q.2 w) { g with gwaits := g.gwaits.filter (·.1 != t) }
  else g
/-- A send of a chain is still waiting or in the network. -/
def chainBusy (v : VfState) (q : Chain) (n : Nat) : Bool :=
  v.sends.any (·.chain == n) || q.members.any fun p => p.open_.isSome && !p.landed.isEmpty
/-- Steps 4 and 5 of R185, once every landed contribution has been added. -/
def tryClose (vf n : Nat) (m : Mach) : Mach :=
  let q := chainOf (vfst m vf) n
  if !q.used || !q.closing || chainBusy (vfst m vf) q n
      || (q.members.any fun p => p.open_.isSome && !ownValueDone m p) then m
  else
    let m := (List.range q.members.length).foldl (fun m i =>
      let p := memberOf m vf n i
      match p.open_ with
      | none => m
      | some h => endReceive (modCtx m h (fillWaits p.tile n i (glazeStatus p.round p.added 4))) vf n i 4) m
    modChain m vf n fun q => { gen := (q.gen + 1) % 2 ^ 16 }
/-- A send ends without transmitting: its tile is ready with its contents. -/
def endSend (m : Mach) (vf : Nat) (sd : Send) (code : Nat) : Mach :=
  let h : Ctx := { vf := vf, slot := sd.slot, uid := sd.uid }
  let m := refreshChain (modVf m vf fun v => { v with sends := v.sends.filter fun q => q != sd }) vf sd.chain
  let m := ctxTileSt m sd.core h sd.tile .ready
  finishGout m sd.core h sd.tile 2 sd.chain sd.member (glazeStatus (memberOf m vf sd.chain sd.member).round 0 code)
def parentOf (m : Mach) (vf : Nat) (sd : Send) : Nat := (memberOf m vf sd.chain sd.member).parent
def uidHalted (m : Mach) (c : Nat) (h : Ctx) : Bool :=
  let g := grp m c h.slot
  g.uid == h.uid && g.status = .halted
/-- The sender holds a credit of its parent's round, not withdrawn by a halt of the parent (R176, R183). -/
def hasCredit (m : Mach) (vf : Nat) (sd : Send) : Bool :=
  let p := memberOf m vf sd.chain (parentOf m vf sd)
  p.granted.contains sd.member && p.open_.any fun h => !uidHalted m p.core h
/-- The parent's tile has no owner, or one that is not resident on the core or is halted (R183). Where no context of the virtual function owns
the tile, the one that did at its latest edge counts, unless it has given the tile up since: another may have taken the tile meanwhile, or the
virtual function may stand on other units, and no edge makes a parent absent (log entry 115). -/
def parentAbsent (m : Mach) (vf : Nat) (sd : Send) : Bool :=
  let p := memberOf m vf sd.chain (parentOf m vf sd)
  let gone := fun (h : Ctx) => match findUid m h.uid with
    | none => true
    | some (c, s) => c != p.core || (grp m c s).status = .halted
  (((tileOwnOf m p.core p.tile).owner.filter fun h => h.vf == vf).orElse fun _ => p.was).all gone
/-- The sender uses its credit and transmits. -/
def beginSend (m : Mach) (vf : Nat) (sd : Send) : Mach :=
  let m := modMember m vf sd.chain (parentOf m vf sd) fun p => { p with granted := p.granted.filter (· != sd.member) }
  modVf m vf fun v => { v with sends := v.sends.map fun q => if q == sd then { q with moving := true } else q }
/-- Steps 1 to 3 of R185. -/
def closeChain (vf n : Nat) (m : Mach) : Mach :=
  let m := refreshChain (modChain m vf n fun q => { q with closing := true }) vf n
  let mine := (vfst m vf).sends.filter fun sd => sd.chain == n && !sd.moving
  tryClose vf n (mine.foldl (fun m sd => if hasCredit m vf sd then beginSend m vf sd else endSend m vf sd 4) m)
def execGclose (f : FmtA) (s : State) : Host.Outcome State Fault Refusal :=
  onMach (fun _ => withPred f.pn f.ps (withSrcs [.r f.a f.ta] fun m =>
    let vf := (me m).vf
    let id := getX (me m) f.a.toNat
    let q := chainOf (vfst m vf) (idChain id)
    let ended := fun (m : Mach) =>
      if idCurrent (vfst m vf) id && (chainOf (vfst m vf) (idChain id)).closing then suspendC m (.chain (idChain id)) else retireC m
    if (me m).held.isSome then ended m
    else if !idCurrent (vfst m vf) id || q.closing then glazeFault m id fChain (idInfo id)
    else
      let m := closeChain vf (idChain id) m
      ended (modMe m fun g => { g with held := some { op := 0, phase := 1, words := [] } }))) s

/-! ## gsend (R181) and its transmission -/

def doGsend (f : FmtA) (mg : Mgmt) : Mach → Mach :=
  let t := tNum f.a
  withSrcs [.r f.b f.tb] (withTile mg t { srcs := [f.b] } fun m =>
    let c := m.act.core
    let g := me m
    let id := getX g f.b.toNat
    let n := idChain id
    let q := chainOf (vfst m g.vf) n
    match (if idCurrent (vfst m g.vf) id && !q.closing then memberAt q c t else none) with
    | none => glazeFault m id fChain (idInfo id)
    | some i =>
      if i == q.root then glazeFault m id fChain (idInfo id)
      else if tileSt m c t == .empty then glazeFault m id fEmpty f.a.toNat
      else tileReady t f.a.toNat true (fun m =>
        let sd : Send := { core := c, tile := t, slot := (ctxOf m c m.act.slot).slot, uid := g.uid, chain := n, member := i, tb := f.tb, moving := false,
                           clause := m.act.clause, word := m.act.word }
        let m := modVf (rawTileSt m c t .draining) g.vf fun v => { v with sends := v.sends ++ [sd] }
        retireC (modMe m fun g => setGout g t { kind := 2, done := false, status := 0, chain := n, member := i })) m)
def execGsend (f : FmtA) (s : State) : Host.Outcome State Fault Refusal := onMach (fun mg => withPred f.pn f.ps (doGsend f mg)) s
/-- The tile of a send holds the values its context sends. -/
def sendHolds (m : Mach) (vf : Nat) (sd : Send) : Bool :=
  (tileOwnOf m sd.core sd.tile).holder == some { vf := vf, slot := sd.slot, uid := sd.uid }
/-- The send whose values a tile holds. -/
def sendAt (m : Mach) (c t : Nat) (moving : Bool) : Option (Nat × Send) :=
  m.vfst.findSome? fun vv =>
    if !vfResident m vv.1 then none
    else (vv.2.sends.find? fun sd => sd.core == c && sd.tile == t && sd.moving == moving
      && sendHolds m vv.1 sd).map fun sd => (vv.1, sd)
/-- An ABSENT outcome: recorded, and with TB = 1 the sender's group takes GLAZE-ABSENT (R181, R187). -/
def absentSend (m : Mach) (vf : Nat) (sd : Send) : Mach :=
  let info := parentOf m vf sd * 2 ^ 24 + sd.chain * 2 ^ 16 + (chainOf (vfst m vf) sd.chain).gen
  let id := chainId sd.chain (chainOf (vfst m vf) sd.chain).gen
  let m := endSend m vf sd 3
  let g := grp m sd.core sd.slot
  if sd.tb && g.active && g.uid == sd.uid then
    haltGroup m sd.core sd.slot { cls := 2, code := fAbsent, word := sd.word, clause := sd.clause, info := info, chain := id }
  else m
/-- One turn of a waiting sender's loop. -/
def creditStep (c t : Nat) (m : Mach) : Mach :=
  match sendAt m c t false with
  | none => m
  | some (vf, sd) =>
    if hasCredit m vf sd then beginSend m vf sd
    else if (runningYard m vf).isNone then m
    else if parentAbsent m vf sd then tryClose vf sd.chain (absentSend m vf sd)
    else if (chainOf (vfst m vf) sd.chain).closing then tryClose vf sd.chain (endSend m vf sd 4)
    else m
def execGlazeCredit (c t : Nat) (s : State) : Host.Outcome State Fault Refusal :=
  onUnit (coreOk c && t < 8) (fun _ m => creditStep c t m) s
/-- A transmission lands in a reserved slot that holds nothing; the sending tile is empty, its bytes unchanged. -/
def landSend (m : Mach) (vf : Nat) (sd : Send) : Mach :=
  let pi := parentOf m vf sd
  let p := memberOf m vf sd.chain pi
  match p.reserved.find? fun j => !p.landed.any (·.2 == j) with
  | none => m
  | some j => match badIn m (tileAddr sd.core sd.tile) 4096 with
  | some (dw, unit) => uncorrFault m vf unit (8 * dw) none
  | none =>
    let k := clusterOf p.core
    let h : Ctx := { vf := vf, slot := sd.slot, uid := sd.uid }
    let m := unitWrite m (recvAddr k j) 4096 (writeBytes m.mem (recvAddr k j) (readBytes m.mem (tileAddr sd.core sd.tile) 4096))
    let m := modMember m vf sd.chain pi fun p => { p with landed := p.landed ++ [(sd.member, j)] }
    let m := modVf m vf fun v => { v with sends := v.sends.filter fun q => q != sd }
    let m := finishGout (rawTileSt m sd.core sd.tile .empty) sd.core h sd.tile 2 sd.chain sd.member
      (glazeStatus (memberOf m vf sd.chain sd.member).round 1 2)
    refreshAdds (count1 m vf 0x0A) k
def landingStep (c t : Nat) (m : Mach) : Mach :=
  match sendAt m c t true with
  | none => m
  | some (vf, sd) => landSend m vf sd
def execContributionLanding (c t : Nat) (s : State) : Host.Outcome State Fault Refusal :=
  onUnit (coreOk c && t < 8) (fun _ m => landingStep c t m) s
/-- The receive that a ready contribution is for. -/
def receiveAt (m : Mach) (k c t : Nat) : Option (Nat × Nat × Nat) :=
  (receives m k).find? fun r => let p := memberOf m r.1 r.2.1 r.2.2; p.core == c && p.tile == t && (tileOwnOf m c t).holder == p.open_
/-- The cluster's adder takes the contribution that has been ready longest, of the virtual functions that run. -/
def addStep (k : Nat) (m : Mach) : Mach :=
  let m := refreshAdds m k
  let runs := fun (a : Nat × Nat × Nat) => (receiveAt m k a.1 a.2.1).any fun r => (runningYard m r.1).isSome
  match (clus m k).adds.find? runs with
  | none => m
  | some (c, t, x) =>
    match receiveAt m k c t with
    | none => m
    | some (vf, n, i) =>
      let q := chainOf (vfst m vf) n
      match (memberOf m vf n i).landed.find? (·.1 == x) with
      | none => m
      | some (_, j) => match (badIn m (tileAddr c t) 4096).orElse fun _ => badIn m (recvAddr k j) 4096 with
        | some (dw, unit) => uncorrFault m vf unit (8 * dw) none
        | none =>
        let m := modMember (addTile m (q.mode == 2) c t j) vf n i (creditNext q i x)
        tryClose vf n (refreshAdds m k)
/-- The adder takes a contribution; a closing chain of a running virtual function ends if nothing is left of it. -/
def glazeAddStep (k : Nat) (m : Mach) : Mach :=
  let m := addStep k m
  m.vfst.foldl (fun m vv =>
    if (runningYard m vv.1).isNone then m
    else vv.2.chains.foldl (fun m nq => if nq.2.closing then tryClose vv.1 nq.1 m else m) m) m
def execGlazeAdd (k : Nat) (s : State) : Host.Outcome State Fault Refusal :=
  onUnit (clusterOk k) (fun _ m => glazeAddStep k m) s

/-! ## gwait (R182) -/

/-- The outcome of a tile's recorded instruction, if it is known without waiting. -/
def outcomeNow (g : Group) (t : Nat) : Option Word :=
  let o := gout g t
  if o.kind == 0 then some 0 else if o.done then some o.status else none
def doGwait (f : FmtA) (mg : Mgmt) : Mach → Mach :=
  let t := tNum f.a
  let d := f.d.toNat
  withDst [.x d] (withTile mg t { dsts := [.x d] } fun m =>
    retireC (match outcomeNow (me m) t with
      | some w => if d == 0 then m else modMe m fun g => claimFor g [{ reg := .x d, val := w }]
      | none => modMe m fun g => { setFe g .claimed (.x d) with gwaits := g.gwaits ++ [(t, d)] }))
def execGwait (f : FmtA) (s : State) : Host.Outcome State Fault Refusal := onMach (fun mg => withPred f.pn f.ps (doGwait f mg)) s
/-- A pending gwait ends a receive that is complete, its register filled and its tile ready in the same cycle. -/
def waitFill (c s n : Nat) (m : Mach) : Mach :=
  let g := grp m c s
  match g.gwaits[n]? with
  | none => m
  | some (t, d) =>
    let o := gout g t
    let p := memberOf m g.vf o.chain o.member
    if o.kind == 1 && p.open_.isSome && ownValueDone m p && p.added == p.expect then
      let m := modGrp m c s fun g => { g with gwaits := g.gwaits.eraseIdx n }
      fillX c s d (glazeStatus p.round p.added 1) (endReceive m g.vf o.chain o.member 1)
    else m
/-- CLAIM_FILL: the n-th completed claim of a group; those after its fills are its pending gwaits. -/
def claimStep (c s n : Nat) (m : Mach) : Mach :=
  let k := (grp m c s).fills.length
  if n < k then fillStep c s n m else waitFill c s (n - k) m
def execClaimFill (c sl n : Nat) (s : State) : Host.Outcome State Fault Refusal :=
  onUnit (groupOk c sl) (fun _ m => claimStep c sl n m) s

end Sys2Proof.Machine
end

