-- ==== Sys2Proof/Machine/System.lean ====
section
/-! DEFINITION. Fences (R209), engine results (R246), counters (R313), rounding seeds (R95), traps (R328), translation invalidation
(R316), privileged registers (R255, R315) and the replay of a logged instruction (R326, R329). -/

namespace Sys2Proof.Machine

/-! ## Fences (R209) -/

/-- An access of the group precedes the control instruction being executed, in program order (R192). -/
def beforeHere (m : Mach) (i : MemOp) : Bool :=
  precedes i (ctlOp m .store) (elemAt 0 0 8 0 0)
/-- Some instruction write of the group before this point is not performed yet, or not issued: what a run in lock-step has still to issue
stands at its vf (R192). -/
def writesPending (m : Mach) : Bool :=
  let g := me m
  g.run.any (fun r => !r.diverged) || g.acc.any (fun i => i.kind.writes && beforeHere m i) || g.recs.any (fun r => r.op.kind.writes && beforeHere m r.op)
    || !g.pushes.isEmpty
def mloadPending (m : Mach) : Bool :=
  (me m).acc.any fun i => isMload i.kind && beforeHere m i
/-- Commands whose barrier increments are in a visible set: their writes (R205 rule 5, R208). -/
def incWrites (m : Mach) (v : Vis) : Vis :=
  ((v.map fun kv => kv.1 / 8).eraseDups).foldl (fun a dw =>
    let h := histOf m dw
    h.zipIdx.foldl (fun a p => if inVis v dw (h.length - p.2) p.1 then mmax a p.1.inc else a) a) []
/-- fence.x completes: what it makes visible, the floor of later commands, its place, and its own writes for fetches (R57). -/
def fenceEffect (m : Mach) : Mach :=
  let g := me m
  let v := mmax (mmax g.vis g.known) (incWrites m g.vis)
  markFenced (modMe m fun g => { g with vis := v, cmdFloor := v, fence := some (markOf g) }) (.group g.uid)
def execFenceX (i : FmtA) (s : State) : Host.Outcome State Fault Refusal :=
  onMach (fun _ => withPred i.pn i.ps fun m =>
    if writesPending m || mloadPending m then suspendC m .accesses else retireC (fenceEffect m)) s
/-- A system-scope access before this point is not complete, or a command has not performed its writes. -/
def systemPending (m : Mach) : Bool :=
  let g := me m
  g.acc.any (fun i => beforeHere m i && i.elems.any (·.loc = .system))
    || (core m m.act.core).jobs.any fun j => j.uid == g.uid && !j.ended
def execFenceSys (i : FmtA) (s : State) : Host.Outcome State Fault Refusal :=
  onMach (fun _ => withPred i.pn i.ps fun m =>
    if writesPending m || mloadPending m then suspendC m .accesses
    else if systemPending m then suspendC m .systemScope
    else retireC (fenceEffect m)) s

/-! ## Results, counters, seeds, traps -/

def execQpop (i : FmtA) (s : State) : Host.Outcome State Fault Refusal :=
  onMach (fun mg => withPred i.pn i.ps (withSrcs [.r i.a i.ta] fun m =>
    let t := takeX mg i.a m
    deliver mg i.d true t.1 t.2 m)) s
def execCntrd (i : FmtA) (s : State) : Host.Outcome State Fault Refusal :=
  onMach (fun _ => withPred i.pn i.ps (withSrcs [.r i.a i.ta] (withDst [.x i.d.toNat] fun m =>
    let n := (getX (me m) i.a.toNat).toNat
    retireC (modMe m fun g => putX g i.d.toNat (if n < 16 then mget 0 (vfst m g.vf).cnt n else 0))))) s
/-- The seed of VP e (R95). -/
def seedVp (seed e : Nat) : Lane :=
  let x : Lane := BitVec.ofNat 32 seed ^^^ BitVec.ofNat 32 (e * 0x9E3779B9)
  if x == 0 then 1 else x
def execSrseed (i : FmtA) (s : State) : Host.Outcome State Fault Refusal :=
  onMach (fun _ => withPred i.pn i.ps (withSrcs [.r i.a i.ta] fun m =>
    if (me m).run.isSome then suspendC m .runEnd
    else
      let seed := bitsOf (getX (me m) i.a.toNat).toNat 31 0
      retireC (modMe m fun g => { g with srs := msetAll 1 [] ((List.range g.vlmax).map fun e => (e, seedVp seed e)) }))) s
/-- trap and brk take effect, then the group halts behind them (R321, R328). -/
def trapWith (code : Nat) (i : FmtA) (s : State) : Host.Outcome State Fault Refusal :=
  onMach (fun _ => withPred i.pn i.ps fun m =>
    let r := actReport m code 0 0 i.md.toNat
    haltGroup (retireC m) m.act.core m.act.slot r) s
def execTrap (i : FmtA) (s : State) : Host.Outcome State Fault Refusal := trapWith fTrap i s
def execBrk (i : FmtA) (s : State) : Host.Outcome State Fault Refusal := trapWith fBreak i s

/-! ## Invalidation (R316) -/

def inLeaf (t : TlbEnt) (va : Nat) : Bool := t.va == (if t.big then va / 2 ^ 29 * 2 ^ 29 else va / 2 ^ 16 * 2 ^ 16)
/-- The name of an instruction of a group among a core's. -/
def opName (c s id : Nat) : Word := BitVec.ofNat 64 (gkey c s + 2 ^ 32 * id)
/-- The instructions of a virtual function that are translated under one of some leaves and have accesses to perform. -/
def translatedOps (m : Mach) (vf : Nat) (ts : List TlbEnt) : List Word :=
  (vfAll m vf).flatMap fun t =>
    (t.2.2.acc.filter fun o => !o.logged && o.elems.any fun el => ts.any fun q => inLeaf q el.va).map fun o => opName t.1 t.2.1 o.id
/-- Some of the named instructions have accesses to perform still. -/
def opsPending (m : Mach) (vf : Nat) (ws : List Word) : Bool :=
  (vfAll m vf).any fun t => t.2.2.acc.any fun o => !o.logged && !o.elems.isEmpty && ws.contains (opName t.1 t.2.1 o.id)
/-- The course of tlbinv and tlbinv.all; after the latter every group sees the PTROOT last written (R315). -/
def invalidate (all : Bool) (hit : TlbEnt → Bool) (m : Mach) : Mach :=
  let vf := (me m).vf
  match (me m).held with
  | some h => if opsPending m vf h.words then suspendC m .translated else retireC m
  | none =>
    if writesPending m then suspendC m .accesses
    else
      let gone := m.tlb.filter fun t => t.vf == vf && hit t
      let m := { m with tlb := m.tlb.filter fun t => !(t.vf == vf && hit t) }
      let m := if all then modVf m vf fun v => { v with ptall := v.ptroot, roots := [] } else m
      let ws := translatedOps m vf gone
      if ws.isEmpty then retireC m
      else suspendC (modMe m fun g => { g with held := some { op := 0, phase := 1, words := ws } }) .translated
def execTlbinv (i : FmtA) (s : State) : Host.Outcome State Fault Refusal :=
  onMach (fun _ => withPred i.pn i.ps (withSrcs [.r i.a i.ta] fun m =>
    let va := (getX (me m) i.a.toNat).toNat
    invalidate false (fun t => inLeaf t va) m)) s
def execTlbinvAll (i : FmtA) (s : State) : Host.Outcome State Fault Refusal :=
  onMach (fun _ => withPred i.pn i.ps (invalidate true fun _ => true)) s

/-! ## Privileged registers (R255, R315) -/

def csrRead (mg : Mgmt) (m : Mach) (n : Nat) : Word :=
  let g := me m
  let v := vfst m g.vf
  match n with
  | 0x40 => if (yrun m (groupYard mg m.act.core g)).policy then 1 else 0
  | 0x41 => v.ptroot
  | 0x42 => v.htbase
  | 0x43 => v.spovf
  | 0x44 => BitVec.ofNat 64 (vfEnt mg g.vf).sizeg
  | n => BitVec.ofNat 64 (mget 0 v.cntsel (n - 0x50))
/-- Reserved bits are discarded (R12). -/
def csrWrite (mg : Mgmt) (n : Nat) (x : Word) (m : Mach) : Mach :=
  let g := me m
  match n with
  | 0x40 => modYrun m (groupYard mg m.act.core g) fun y => { y with policy := x.getLsbD 0 }
  | 0x41 =>
    let r := x &&& 0x000FFFFFFFFF0000
    modVf m g.vf fun v => { v with ptroot := r, roots := mput g.uid r v.roots }
  | 0x42 => modVf m g.vf fun v => { v with htbase := x &&& 0x007FFFFFFFFF0000 }
  | 0x43 => modVf m g.vf fun v => { v with spovf := x &&& 0x007FFFFFFFFFFFFF }
  | n => if 0x50 ≤ n && n < 0x60 then setCntsel m g.vf (n - 0x50) x else m
def execCsrRd (i : FmtI) (s : State) : Host.Outcome State Fault Refusal :=
  onMach (fun mg => withPred i.pn i.ps (withDst [.x i.d.toNat] fun m =>
    retireC (modMe m fun g => putX g i.d.toNat (csrRead mg m i.imm.toNat)))) s
def execCsrWr (i : FmtI) (s : State) : Host.Outcome State Fault Refusal :=
  onMach (fun mg => withPred i.pn i.ps (withSrcs [.r i.a false] fun m =>
    retireC (csrWrite mg i.imm.toNat (getX (me m) i.a.toNat) m))) s

/-! ## Replay (R228, R326, R329) -/

def logEnt (m : Mach) (c i : Nat) : LogEnt := mget {} (core m c).log i
def modLog (m : Mach) (c i : Nat) (f : LogEnt → LogEnt) : Mach := modCore m c fun k => { k with log := mmod {} k.log i f }
/-- A VP's position moved back to an instruction that is to be executed again. -/
def rewindVps (g : Group) (op : MemOp) : Group :=
  match g.run with
  | none => g
  | some r =>
    if r.num != op.run then g
    else if r.diverged then
      setVps g (op.elems.map (·.e)) fun _ => { pc := op.clause, w := op.word, idle := false, parked := none }
    else modRun g fun r => { r with pc := op.clause, w := op.word, from_ := 0 }
/-- A replay that cannot complete frees the entry; the group halts at the instruction, which is to be executed again, its claims
undone (log entry 31). -/
def dropReplay (m : Mach) (c s i : Nat) (op : MemOp) (code e va info : Nat) (chain : Word) : Mach :=
  let m := freeEntry m c i
  let m := modGrp m c s fun g =>
    let g := setFes { g with acc := g.acc.filter (fun o => o.id != op.id), log := none } .full (opClaims op)
    if op.sub == 0 then { g with pc := op.clause, pcword := op.word, held := none } else rewindVps g op
  settleGone (haltFault m c s { cls := 2, code := code, word := op.word, clause := op.clause, addr := va, elem := e, info := info, chain := chain })
    c s
/-- The entry's instruction is translated again; its accesses are then performed in their places. -/
def replayEntry (mg : Mgmt) (m : Mach) (c i : Nat) : Mach :=
  let t := logEnt m c i
  let s := accPlace m c t.slot t.op
  let g := grp m c s
  match (if g.uid == t.uid then findAcc g t.op else none) with
  | none => m
  | some op =>
    let (res, m) := checkOp mg m c g op
    match res with
    | .ok els cut =>
      let rest := fun (g : Group) => { g with acc := g.acc.filter fun o => o.id != op.id }
      let m := modLog (modGrp m c s rest) c i fun t => { t with rpl := true }
      endReplay (enterOp m c s { op with held := true } els cut) c s op.id
    | .fault e va l k =>
      let m := modLog m c i fun t => { t with elem := e, faultVa := va, level := l, cause := k, rpl := false }
      modGrp m c s fun g =>
        if g.status = .halted then g
        else { g with rep := { cls := 1, code := fXlateLog, word := op.word, clause := op.clause, addr := va, elem := e, info := k } }
    | .halt code e va info => dropReplay m c s i op code e va info 0
def execReplack (i : FmtI) (s : State) : Host.Outcome State Fault Refusal :=
  onMach (fun mg => withPred i.pn i.ps (withSrcs [.r i.a false] fun m =>
    let n := (getX (me m) i.a.toNat).toNat
    let t := logEnt m m.act.core n
    let m := retireC m
    if n < 16 && t.used && t.vf == (me m).vf && !t.rpl then replayEntry mg m m.act.core n else m)) s

end Sys2Proof.Machine
end

