-- ==== Sys2Proof/Machine/Issue.lean ====
section
/-! DEFINITION. The issue slot: which candidates are ready (R253, R256, R262), the choice among them (R254, R255, R296), and the fetch
and decoding of a clause (R53 to R57, R73, R264, R324). -/

namespace Sys2Proof.Machine

/-! ## Conditions of waiting candidates (R256) -/

/-- The machine with the acting place at a group's control stream. -/
def actAt (m : Mach) (c s : Nat) : Mach := { m with act := { m.act with core := c, slot := s } }
/-- A blocking condition has cleared for a group. -/
def waitCleared (m : Mach) (c s : Nat) (w : Wait) : Bool :=
  let g := grp m c s
  let here := actAt m c s
  match w with
  | .full rs => rs.all fun r => (getFe g r).holds
  | .unclaimed rs => rs.all fun r => getFe g r != .claimed
  | .sources rs qs us =>
    rs.all (fun r => (getFe g r).holds) && us.all (fun i => !g.run.any (·.awaits i))
      && qs.all fun q => qs.count q ≤ (if q == 0xC9 then g.qout.length else (mget [] g.res (q - 0x90)).length)
  | .uniform i => !g.run.any (·.awaits i)
  | .lane e ls qs out onQout =>
    let last := onQout || e + 1 == (g.run.map (·.vl)).getD 0
    (if e == 0 then ls + qs ≤ g.qin.length else ls ≤ (mget [] g.links (e - 1)).length && qs ≤ g.qin.length)
      && (if last then g.qout.length + out ≤ 16 else (mget [] g.links e).length + out ≤ 4)
  | .qinRoom => g.qin.length < 16
  | .qoutFilled => !g.qout.isEmpty
  | .kFilled q => !(mget [] g.res q).isEmpty
  | .kRoom q => queuedIn m c g.uid q < 8
  | .tile t => tileSt m c t != .filling && tileSt m c t != .draining
  | .tileFault _ => false
  | .lockStep => !g.run.any fun r => !r.diverged
  | .runEnd => g.run.isNone
  | .quiescent => quiescent m c s
  | .accesses => !writesPending here && !mloadPending here
  | .own none => ctlClear g
  | .own (some e) => vpClear g e
  | .window pa n => !rangeBlocked m pa n
  | .op id => !opPending g id
  | .replayed => !accHeld g
  | .logRoom => g.log.isNone && (freeLog m c).isSome
  | .recRoom => vecInFlight g < 8
  | .pushRoom => g.pushes.length < 4
  | .loopRoom => ((loopsOf m (clusterOf c)).filter fun q => q.core == c).length < 4
  | .logRead i => busyV m c s i != some (.logRead i)
  | .pushRead i => busyV m c s i != some (.pushRead i)
  | .loopReg i => busyV m c s i != some (.loopReg i)
  | .loopTile e => !tileInLoop m c s e
  | .loops => !(groupLoops m c s).any fun l => l.uid == g.uid
  | .ending => mayEnd g
  | .child => !liveChild g && !g.forks.head?.any fun f => goneChild m f.uid
  | .systemScope => !systemPending here
  | .translated => !opsPending m g.vf ((g.held.map (·.words)).getD [])
  | .chain n => let q := chainOf (vfst m g.vf) n; !(q.used && q.closing)
  | .barrier pa ph => barPhase (BitVec.ofNat 64 (readLe m.mem pa 8)) != ph

/-- Records of a resumed group that could not be issued yet are issued (R325). -/
def reissueAll (mg : Mgmt) (m : Mach) (c s : Nat) : Mach := (grp m c s).recs.foldl (fun m r => reissue mg m c s r) m
/-- The parked VPs whose condition has cleared rejoin the others (R264). -/
def wakeVps (m : Mach) (c s : Nat) : Mach :=
  let up := fun (p : VpPos) => if p.parked.any (waitCleared m c s) then { p with parked := none } else p
  modGrp m c s fun g => { g with vps := g.vps.map fun kv => (kv.1, up kv.2) }
def wakeStep (mg : Mgmt) (c s : Nat) (vec : Bool) (m : Mach) : Mach :=
  let places := s :: ((allGroups m).filter fun t => t.1 == c && t.2.2.status = .gone && t.2.2.was == s).map (·.2.1)
  let m := places.foldl (fun m s => if (runningYard m (grp m c s).vf).isSome then reissueAll mg m c s else m) m
  let g := grp m c s
  if !g.active then m
  else if vec then
    if g.run.any (·.diverged) then wakeVps m c s
    else if g.waitV.any (waitCleared m c s) then modGrp m c s fun g => { g with waitV := none } else m
  else if g.waitC.any (waitCleared m c s) then modGrp m c s fun g => { g with waitC := none } else m
def execClauseWake (c sl : Nat) (vec : Bool) (s : State) : Host.Outcome State Fault Refusal :=
  onUnit (groupOk c sl) (fun mg m => wakeStep mg c sl vec m) s

/-! ## Hints (R52, R56) -/

/-- The bytes of a doubleword of code as they stand; none where it is not translated for execution. -/
def codeWord (mg : Mgmt) (m : Mach) (vf uid va : Nat) : Option Word :=
  match (translate mg m vf uid .exec va).1 with
  | .ok pa loc _ => some (BitVec.ofNat 64 (devRead m vf loc pa 8))
  | _ => none
/-- A W code's register is claimed; a v or c register in some VP below vl, which inside a run is the run's own (R56, R260). -/
def hintClaimed (g : Group) (vec : Bool) (b : Byte) : Bool :=
  let n := b.toNat
  let vl := if vec then (g.run.map (·.vl)).getD 0 else g.vl
  let below := fun (f : Nat → Reg) => (List.range vl).any fun e => getFe g (f e) == .claimed
  if n == 0xFF then false
  else if vec then
    if n < 0x40 then n < g.nregs && below (Reg.v n)
    else if n < 0x48 then below (Reg.c (n - 0x40))
    else 0x80 ≤ n && ((g.run.map (·.uwait)).getD []).contains (n - 0x80)
  else if n < 0x80 then getFe g (.x n) == .claimed
  else if n < 0x88 then getFe g (.p (n - 0x80)) == .claimed
  else n < 0x90 && below (Reg.c (n - 0x88))
/-- The hint conditions for starting a clause. -/
def hintsHold (m : Mach) (c s : Nat) (vec : Bool) (h : Header) : Bool :=
  let g := grp m c s
  !h.waits.any (hintClaimed g vec)
    && !(h.ewDray && (core m c).jobs.any (·.uid == g.uid))
    && !(h.ewLat && (groupLoops m c s).any (·.uid == g.uid))
    && !(h.ewBaler && (g.acc.any balerOp || g.recs.any (fun r => balerOp r.op) || g.fills.any (·.baler)))
    && !(h.ewGlaze && (vfst m g.vf).sends.any (·.uid == g.uid))

/-! ## Candidates (R253, R264) -/

/-- Where a candidate's next clause is issued: clause, word, VPs, and whether it has begun before. -/
structure Place where
  pc : Nat
  w : Nat
  vps : List Nat
  begun : Bool

def posLess (a b : VpPos) : Bool := a.pc < b.pc || (a.pc == b.pc && a.w < b.w)
/-- The least position among some. -/
def minPos : List (Nat × VpPos) → Option VpPos
  | [] => none
  | (_, p) :: r => match minPos r with
    | some q => if posLess p q then some p else some q
    | none => some p
/-- The rule of R264: position, VPs, and whether the rotation point is kept. -/
def divergedPlace (g : Group) (r : Run) : Option Place :=
  let es := (livePositions g).filter fun p => p.2.parked.isNone
  let hs := match r.rp with | some rp => es.filter fun p => rp < p.2.pc | none => []
  (minPos (if hs.isEmpty then es else hs)).map fun q =>
    { pc := q.pc, w := q.w, vps := (es.filter fun p => p.2.pc == q.pc && p.2.w == q.w).map Prod.fst, begun := 1 < q.w }
/-- The next clause of a stream that is not waiting. -/
def placeOf (g : Group) (vec : Bool) : Option Place :=
  if vec then match g.run with
    | none => none
    | some r =>
      if r.diverged then divergedPlace g r
      else if g.waitV.isSome then none
      else some { pc := r.pc, w := r.w, vps := List.range r.vl, begun := g.begunV }
  else if g.waitC.isSome then none
  else some { pc := g.pc, w := g.pcword, vps := [], begun := g.begunC || 1 < g.pcword }
/-- A candidate is ready (R253). -/
def readyAt (mg : Mgmt) (m : Mach) (c s : Nat) (vec : Bool) : Option Place :=
  let g := grp m c s
  if !g.active || !g.recs.isEmpty || !runsIn m mg c g.laneB g.vf then none
  else match placeOf g vec with
    | none => none
    | some p =>
      let held := !p.begun && ((codeWord mg m g.vf g.uid p.pc).bind decodeHeader).any fun h => !hintsHold m c s vec h
      if held then none else some p

/-- A ready candidate of a core: its slot, stream and group. -/
structure Cand where
  slot : Nat
  vec : Bool
  g : Group
  at_ : Place
/-- The lane-set yard's first lane, or 0. -/
def yardKey (mg : Mgmt) (c : Nat) (g : Group) : Nat :=
  let y := groupYardEnt mg c g
  if y.lane then y.b else 0
/-- Ready candidates in order of slot, the vector stream first. -/
def candidates (mg : Mgmt) (m : Mach) (c : Nat) : List Cand :=
  (coreGroups m c).flatMap fun t => [true, false].filterMap fun vec =>
    (readyAt mg m c t.2.1 vec).map fun p => { slot := t.2.1, vec := vec, g := t.2.2, at_ := p }
def Cand.count (k : Cand) : Nat := if k.vec then k.g.cntV else k.g.cntC

/-! ## The choice (R254) -/

def starveCap : Nat := 4096
/-- The first of a list that no other one beats. -/
def best (beats : Cand → Cand → Bool) : List Cand → Option Cand
  | [] => none
  | k :: r => match best beats r with
    | some q => if beats q k then some q else some k
    | none => some k
/-- Step 1: the greatest count at or above the cap; ties to the older group, then to the vector stream. -/
def starved (ks : List Cand) : Option Cand :=
  best (fun q k => k.count < q.count || (k.count == q.count && (q.g.age < k.g.age || (q.g.age == k.g.age && q.vec && !k.vec))))
    (ks.filter fun k => starveCap ≤ k.count)
/-- Of the oldest group, the vector stream first. -/
def oldest (ks : List Cand) : Option Cand :=
  best (fun q k => q.g.age < k.g.age || (q.g.age == k.g.age && q.vec && !k.vec)) ks
def isLast (l : Option Last) (k : Cand) : Bool := l.any fun l => l.slot == k.slot && l.uid == k.g.uid && l.vec == k.vec
/-- Step 2. -/
def greedy (last : Option Last) (ks : List Cand) : Option Cand :=
  if last.any (·.skip) then
    let others := ks.filter fun k => !isLast last k
    oldest (if others.isEmpty then ks else others)
  else match ks.find? (isLast last) with
    | some k => some k
    | none => oldest ks
/-- Step 3: in order of slot with the vector stream first, the first after the one that ended the last clause. -/
def roundRobin (last : Option Last) (ks : List Cand) : Option Cand :=
  let place := fun (s : Nat) (v : Bool) => 2 * s + (if v then 0 else 1)
  let after := match last with
    | some l => ks.find? fun (k : Cand) => place l.slot l.vec < place k.slot k.vec
    | none => none
  after.orElse fun _ => ks.head?
/-- R274: a group that has just yielded gives way to others. -/
def afterYield (ks : List Cand) : List Cand :=
  let others := ks.filter fun k => !k.g.yielded
  if others.isEmpty then ks else others
/-- The choice among the candidates of one yard; one at the starvation cap goes even if its group has just yielded (log entry 133). -/
def chooseIn (policy : Bool) (last : Option Last) (ks : List Cand) : Option Cand :=
  match starved ks with
  | some k => some k
  | none => if policy then roundRobin last (afterYield ks) else greedy last (afterYield ks)
/-- R296: the yard whose turn it is, by first lane; a yard with no ready candidate is skipped. -/
def turnKey (turn : Nat) (keys : List Nat) : Nat :=
  let least := fun (l : List Nat) => l.foldl (fun (a : Option Nat) x => some (match a with | none => x | some b => min b x)) none
  ((least (keys.filter (turn < ·))).orElse fun _ => least keys).getD 0
/-- The candidate a core's issue slot chooses, with its yard's key. -/
def choose (mg : Mgmt) (m : Mach) (c : Nat) : Option (Nat × Cand) :=
  let ks := candidates mg m c
  let key := turnKey (core m c).turn (ks.map fun k => yardKey mg c k.g)
  let mine := ks.filter fun k => yardKey mg c k.g == key
  match mine with
  | [] => none
  | k :: _ => (chooseIn (yrun m (groupYard mg c k.g)).policy (mget none (core m c).last key) mine).map fun k => (key, k)

/-! ## Fetching a clause (R55, R57, R73, R324) -/

/-- Reads doublewords of code, each in a version that the group's fetch floor allows (R57). -/
def fetchWords (m : Mach) (g : Group) (loc : Loc) : List Nat → List Word × Mach
  | [] => ([], m)
  | pa :: r =>
    let (w, m) := if loc = .hbm || (loc = .window && winInMem pa) then
        let (t, m) := takeFrom m (fun i w => inVis g.fetchFloor (pa / 8) i w) pa 8
        (valueTaken m t pa 8, m)
      else (devRead m g.vf loc pa 8, m)
    let (ws, m) := fetchWords m g loc r
    (BitVec.ofNat 64 w :: ws, m)
/-- Why a fetch faults: code, address and INFO. -/
structure FetchBad where
  code : Nat
  addr : Nat
  info : Nat := 0
  deriving DecidableEq, Repr
/-- Where a fetch of one page leads, or its fault. -/
def fetchPage (mg : Mgmt) (m : Mach) (c : Nat) (g : Group) (va : Nat) : Except FetchBad (Nat × Loc) × Mach :=
  let (x, m) := translate mg m g.vf g.uid .exec va
  (match x with
   | .ok pa loc _ => if loc = .window && !windowOk m (groupYardEnt mg c g) g.vf pa then .error { code := fWindow, addr := va } else .ok (pa, loc)
   | .fault _ cause => .error { code := fFetch, addr := va, info := cause }
   | .format l => .error { code := fPte, addr := va, info := l }
   | .segment => .error { code := fSegment, addr := va }
   | .uncorr pa unit => .error { code := fUncorr, addr := pa, info := unit }, m)
/-- The group halts at a fetch: word, address, and the lowest VP of the position. -/
def fetchFault (m : Mach) (c s : Nat) (k : Place) (word : Nat) (b : FetchBad) : Mach :=
  haltFault m c s { cls := 2, code := b.code, word := word, clause := k.pc, addr := b.addr, elem := k.vps.headD 0, info := b.info }
/-- The first of n doublewords of a clause from a place that holds an uncorrectable error, counted from there, and the error (R335). -/
def fetchError (m : Mach) (loc : Loc) (pa n : Nat) : Option (Nat × FetchBad) :=
  if loc = .system then none
  else (List.range n).findSome? fun i => (badIn m (pa + 8 * i) 8).map fun b => (i, { code := fUncorr, addr := 8 * b.1, info := b.2 })
def acceptCls (g : Group) (vec : Bool) (k : Cls) : Bool :=
  match k with
  | .v => vec | .c => !vec | .s => !vec && g.priv
/-- The clause is decoded whole, and its issue begins at the candidate's word. -/
def beginClause (m : Mach) (c key s : Nat) (vec : Bool) (k : Place) (hdr : Word) (ws : List Word) : Mach :=
  match decodeClause (acceptCls (grp m c s) vec) hdr ws with
  | .error (n, _) => fetchFault m c s k n { code := fIllegal, addr := 0 }
  | .ok (h, _) =>
    if ws.length < k.w then fetchFault m c s k k.w { code := fIllegal, addr := 0 }
    else
      let m := if k.begun then m else count1 m (grp m c s).vf 2
      let m := modGrp m c s fun g => if vec then { g with begunV := true } else { g with begunC := true }
      let i : Issue :=
        { key := key, slot := s, vec := vec, cls := h.cls, clause := k.pc, y := h.y, words := ws, next := k.w, vps := k.vps,
          back := false }
      modCore m c fun q => { q with turn := key, issue := some i }
/-- The header's page, then the page of the last byte; nothing is decoded before both are there. -/
def fetchClause (mg : Mgmt) (m : Mach) (c key s : Nat) (vec : Bool) (k : Place) : Mach :=
  let g := grp m c s
  if 2 ^ 55 ≤ k.pc then fetchFault m c s k 0 { code := fRange, addr := k.pc }
  else match fetchPage mg m c g k.pc with
    | (.error b, m) => fetchFault m c s k 0 b
    | (.ok (pa, loc), m) =>
      if let some (_, b) := fetchError m loc pa 1 then fetchFault m c s k 0 b else
      let (hs, m) := fetchWords m g loc [pa]
      let hdr := hs.headD 0
      let n := bitsOf hdr.toNat 61 58 + 1
      let here := (List.range n).map fun i => k.pc + 8 * (i + 1)
      let page2 := (k.pc / 65536 + 1) * 65536
      if let some (i, b) := fetchError m loc pa ((here.filter (· < page2)).length + 1) then fetchFault m c s k i b else
      let (ws, m) := fetchWords m g loc ((here.filter (· < page2)).map fun a => pa + (a - k.pc))
      if k.pc + 8 * (n + 1) ≤ page2 then beginClause m c key s vec k hdr ws
      else if 2 ^ 55 ≤ page2 then fetchFault m c s k 0 { code := fRange, addr := page2 }
      else match fetchPage mg m c g page2 with
        | (.error b, m) => fetchFault m c s k 0 b
        | (.ok (pa2, loc2), m) =>
          if let some (i, b) := fetchError m loc2 pa2 (here.filter (page2 ≤ ·)).length then fetchFault m c s k (ws.length + 1 + i) b else
          let (ws2, m) := fetchWords m g loc2 ((here.filter (page2 ≤ ·)).map fun a => pa2 + (a - page2))
          beginClause m c key s vec k hdr (ws ++ ws2)

/-! ## The events -/

/-- The chosen candidate's count returns to zero; a yield has had its choice. -/
def served (mg : Mgmt) (m : Mach) (c key : Nat) (k : Cand) : Mach :=
  let done := fun (g : Group) => { g with yielded := false }
  let m := (coreGroups m c).foldl (fun m t => if t.2.2.yielded && yardKey mg c t.2.2 == key then modGrp m c t.2.1 done else m) m
  let m := modGrp m c k.slot fun g => if k.vec then { g with cntV := 0 } else { g with cntC := 0 }
  let keep := fun (r : Run) => { r with rp := r.rp.filter (· < k.at_.pc) }
  if k.vec then modGrp m c k.slot fun g => modRun g keep else m
def issueCand (mg : Mgmt) (c : Nat) (kk : Nat × Cand) (m : Mach) : Mach :=
  fetchClause mg (served mg m c kk.1 kk.2) c kk.1 kk.2.slot kk.2.vec kk.2.at_
def choiceStep (mg : Mgmt) (c : Nat) (m : Mach) : Mach :=
  if (core m c).issue.isSome then m
  else match choose mg m c with
    | some kk => issueCand mg c kk m
    | none => m
def execIssueChoice (c : Nat) (s : State) : Host.Outcome State Fault Refusal :=
  onUnit (coreOk c) (fun mg m => choiceStep mg c m) s
/-- The next choice falls on a candidate that has reached the cap. -/
def capStep (mg : Mgmt) (c sl : Nat) (vec : Bool) (m : Mach) : Mach :=
  if (core m c).issue.isSome then m
  else match choose mg m c with
    | some kk => if kk.2.slot == sl && kk.2.vec == vec && starveCap ≤ kk.2.count then issueCand mg c kk m else m
    | none => m
def execStarvationCap (c sl : Nat) (vec : Bool) (s : State) : Host.Outcome State Fault Refusal :=
  onUnit (groupOk c sl) (fun mg m => capStep mg c sl vec m) s

/-- Ready candidates of the yard that holds the turn count the cycles they are not chosen. -/
def countReady (mg : Mgmt) (n : Nat) (m : Mach) : Mach :=
  ((allGroups m).map Prod.fst).eraseDups.foldl (fun m c =>
    let turn := (core m c).turn
    let busy := (core m c).issue
    (candidates mg m c).foldl (fun m k =>
      if yardKey mg c k.g != turn || busy.any (fun i => i.slot == k.slot && i.vec == k.vec) then m
      else modGrp m c k.slot fun g => if k.vec then { g with cntV := g.cntV + n } else { g with cntC := g.cntC + n }) m) m

end Sys2Proof.Machine
end

