-- ==== Sys2Proof/Machine/Edges.lean ====
section
/-! DEFINITION. Slot edges (R304 to R310): the drain, saving and restoring a context position-free (R299, R300), OVERRUN (R306), row
boundaries (R302, R303), early edges and donations (R308, R309). -/

namespace Sys2Proof.Machine

/-! ## Position-free form (R300) -/

/-- How core numbers, group slots, lanes and offsets in local stores and Haylofts change between a yard and a saved context. -/
structure Reloc where
  core : Nat → Nat
  slot : Nat → Nat
  lane : Nat → Nat
  ls : Nat → Nat
  hay : Nat → Nat
def yardLane0 (y : Yard) : Nat := if y.lane then y.b else 0
def hay0 (y : Yard) : Nat := (hayPart y y.core).1
def toPos (y : Yard) : Reloc :=
  { core := savePos y, slot := (· - yardSlot0 y), lane := (· - yardLane0 y), ls := (· - (lsPart y).1), hay := (· - hay0 y) }
def fromPos (y : Yard) : Reloc :=
  { core := posCore y, slot := (· + yardSlot0 y), lane := (· + yardLane0 y), ls := (· + (lsPart y).1), hay := (· + hay0 y) }
/-- A loop keeps the core on which its tile stays (R167, R168). -/
def relocLoop (r : Reloc) (l : Loop) : Loop := { l with slot := r.slot l.slot, baddr := r.hay l.baddr }
def relocOp (r : Reloc) (op : MemOp) : MemOp :=
  { op with kind := match op.kind with | .mload off t2 => .mload (r.hay off) t2 | k => k }
def relocPush (r : Reloc) (p : Push) : Push := { p with core := r.core p.core, slot := r.slot p.slot }
def relocFork (r : Reloc) (f : ForkRec) : ForkRec := { f with b := r.lane f.b, slot := r.slot f.slot, saveMap := 0 }
def relocImg (r : Reloc) (i : Option TileImg) : Option TileImg := i.map fun i => { i with loops := i.loops.map (relocLoop r) }
def relocGroup (r : Reloc) (g : Group) : Group :=
  { g with laneB := r.lane g.laneB, slot0 := r.slot g.slot0, was := r.slot g.was, pushes := g.pushes.map (relocPush r), forks := g.forks.map (relocFork r),
           parent := g.parent.map fun p => (r.slot p.1, p.2), imgs := g.imgs.map fun kv => (kv.1, relocImg r kv.2),
           acc := g.acc.map (relocOp r), recs := g.recs.map fun q => { q with op := relocOp r q.op } }
/-- A place in a local store, of a halo copy that has started. -/
def relocLs (r : Reloc) (pa : Nat) : Nat :=
  match winLoc pa with
  | .core c o => lsAddr (r.core c) (r.ls (o - 0x100000))
  | _ => pa
/-- The operand of dhalo that names a core and an offset in its local store. -/
def relocHalo (r : Reloc) (a : Word) : Word :=
  BitVec.ofNat 64 (r.core (bitsOf a.toNat 40 32) * 2 ^ 32 + r.ls (bitsOf a.toNat 18 0))
def relocJob (r : Reloc) (j : Job) : Job :=
  let halo := j.kind == .halo
  let fixed := halo || j.kind == .tile
  { j with slot := r.slot j.slot, a := if halo then relocHalo r j.a else j.a,
           b := if halo then BitVec.ofNat 64 (r.ls j.b.toNat) else j.b,
           dst := if fixed && j.st != .queued then relocLs r j.dst else j.dst,
           src := if halo && j.st != .queued then relocLs r j.src else j.src }
def relocItem (r : Reloc) (it : Item) : Item :=
  { it with by_ := { it.by_ with core := r.core it.by_.core, laneB := r.lane it.by_.laneB } }
def relocMember (r : Reloc) (p : Member) : Member :=
  let slot := fun (h : Ctx) => { h with slot := r.slot h.slot }
  { p with core := r.core p.core, open_ := p.open_.map slot, was := p.was.map slot }
def relocVf (r : Reloc) (v : VfState) : VfState :=
  let chain := fun (q : Chain) => { q with members := q.members.map (relocMember r) }
  let launched := fun (l : Launched) => { l with places := l.places.map fun p => (r.core p.1, p.2) }
  { v with chains := v.chains.map fun kv => (kv.1, chain kv.2),
           sends := v.sends.map fun d => { d with core := r.core d.core, slot := r.slot d.slot },
           launched := v.launched.map launched, overflow := v.overflow.map (relocItem r) }
def relocOrphan (r : Reloc) (vf : Nat) (o : Orphan) : Orphan :=
  if o.vf == vf then { o with core := r.core o.core, slot := r.slot o.slot, push := relocPush r o.push } else o
def relocEnt (r : Reloc) (t : TileEnt) : TileEnt := { t with lsoff := r.ls t.lsoff }
def relocRecv (r : Reloc) : Recv → Recv
  | .free => .free
  | .reserved c t => .reserved (r.core c) t

/-- The places a driver command names; log entries of a saved context count from 16 until they have theirs. -/
def relocCmd (r : Reloc) (e : Nat → Nat) : Instr → Instr
  | .halt v g => .halt v (g.map fun p => (r.core p.1, r.slot p.2))
  | .resume v c s => .resume v (r.core c) (r.slot s)
  | .stepGroup v c s => .stepGroup v (r.core c) (r.slot s)
  | .replay c i => .replay (r.core c) (e i)
  | .discard c i => .discard (r.core c) (e i)
  | .getvp v c s f n a => .getvp v (r.core c) (r.slot s) f n a
  | .setvp v c s f n a => .setvp v (r.core c) (r.slot s) f n a
  | .wrctx v c s o x => .wrctx v (r.core c) (r.slot s) o x
  | .clearrec c v => .clearrec (r.core c) v
  | i => i

/-! ## Steps 6 and 7: saving, flushing and scrubbing (R304, R305, R310) -/

/-- The clusters on which a yard owns storage. -/
def storeClusters (y : Yard) : List Nat := if y.lane then [clusterOf y.core] else yardClusters y
/-- The cores of a yard, retired ones included. -/
def storeCores (y : Yard) : List Nat := if y.lane then [y.core] else (yardClusters y).flatMap fun k => (List.range 4).map (4 * k + ·)
/-- The window ranges of a yard that an edge saves and scrubs: local stores, Haylofts, receive slots. -/
def scrubRanges (y : Yard) : List (Nat × Nat) :=
  (storeCores y).map (fun c => (lsAddr c (lsPart y).1, (lsPart y).2))
    ++ (storeClusters y).flatMap fun k =>
      (hayAddr k (hay0 y), (hayPart y y.core).2) :: (if y.lane then [] else [(recvAddr k 0, 0x8000)])
/-- All window ranges a yard owns: accumulator tiles too. -/
def yardRanges (y : Yard) : List (Nat × Nat) :=
  scrubRanges y ++ (if y.lane then [] else (storeCores y).map fun c => (tileAddr c 0, 0x8000))
/-- Replies that have landed fill their registers. -/
def landFills (m : Mach) (c s : Nat) : Mach := (grp m c s).fills.foldl (fun m _ => fillStep c s 0 m) m
/-- A poll whose result was not used yet is made again. -/
def dropPoll (h : Held) : Option Held :=
  if h.phase == 2 && 2 ≤ h.words.length then none
  else if h.phase == 3 && 3 ≤ h.words.length then some { h with phase := 1, words := h.words.take 1 } else some h
/-- A group that an edge stops shows code 0x3E, and in vstart where the oldest instruction in flight stopped (R322, R325). -/
def edgeStop (g : Group) : Group :=
  if !g.active then g
  else match (if g.vkept.isSome then none else (g.recs.find? (·.op.vec)).map (·.prog)) with
    | some p => { g with rep := { code := fDriver }, vstart := p, vkept := some g.vstart }
    | none => { g with rep := { code := fDriver } }
/-- A group that goes on after an edge. -/
def edgeResume (g : Group) : Group :=
  if g.active then { g with rep := {}, vstart := g.vkept.getD g.vstart, vkept := none } else g
/-- A group as its saved context holds it; the storage of its registers stays behind (R335). -/
def shelve (r : Reloc) (g : Group) : Group :=
  let g := relocGroup r (edgeStop (healed g))
  { g with forks := g.forks.map healFork, waitC := none, held := g.held.bind dropPoll, saveMap := 0, cntC := 0, cntV := 0,
           linkset := g.linkset.map fun l => { l with intact := false } }
/-- The 1 KiB blocks of some groups in a context area, one after another (R323, log entry 71). -/
def writeBlocks (a : Nat) (gs : List Group) (m : Mach) : Mach :=
  let n := 1024 * gs.length
  let block := fun (mem : Memory) (p : Group × Nat) =>
    (List.range 128).foldl (fun mem i => writeLe mem (a + 1024 * p.2 + 8 * i) 8 (ctxWord p.1 i)) mem
  if hbmBytes < a + n then m
  else blankHist [(a, n)] { m with mem := gs.zipIdx.foldl block m.mem, bad := m.bad.filter fun b => 8 * b.1 + 8 ≤ a || a + n ≤ 8 * b.1 }
/-- The v register and VP of a group, of those that an edge writes to the context area, whose storage fails. -/
def savedReg (g : Group) : Option (Nat × Nat) :=
  g.vfe.findSome? fun kv => if bitAt g.saveMap.toNat kv.1 then (kv.2.find? fun q => q.2 == .failing).map fun q => (kv.1, q.1) else none
/-- The first error that the saving of a context meets: unit and address (R304, R335). -/
def savedError (y : Yard) (vf : Nat) (m : Mach) : Option (Nat × Nat) :=
  match m.bad.find? fun b => (scrubRanges y).any fun q => q.1 ≤ 8 * b.1 && 8 * b.1 < q.1 + q.2 with
  | some b => some (b.2, 8 * b.1)
  | none => (vfGroups m vf).findSome? fun t => (savedReg t.2.2).map fun q => (regUnit, regAddr m t.1 t.2.1 q.1 q.2)
/-- Steps 6 and 7 meet an error: no group's access met it (R335). -/
def meetSaving (y : Yard) (vf : Nat) (m : Mach) : Mach :=
  match savedError y vf m with
  | some (unit, pa) => uncorrFault m vf unit pa none
  | none => m
/-- An LS tile-table entry of the yard's part. -/
def ownsEnt (y : Yard) (kv : Nat × TileEnt) : Bool :=
  8 ≤ kv.1 && (!y.lane || ((lsPart y).1 ≤ kv.2.lsoff && kv.2.lsoff < (lsPart y).1 + (lsPart y).2))
def saveCore (m : Mach) (y : Yard) (vf : Nat) (r : Reloc) (c : Nat) : CoreSave :=
  let k := core m c
  { ls := rangeCells m.mem (lsAddr c (lsPart y).1) (lsPart y).2,
    tiles := (k.tiles.filter (ownsEnt y)).map fun kv => (kv.1, relocEnt r kv.2),
    log := (k.log.filter fun kv => kv.2.vf == vf).map fun kv => (kv.1, { kv.2 with slot := r.slot kv.2.slot }),
    eng := (k.eng.filter fun kv => kv.2.vf == vf).map fun kv => (kv.1, { kv.2 with slot := r.slot kv.2.slot }),
    jobs := (k.jobs.filter fun j => j.vf == vf).map (relocJob r) }
/-- The device epoch that the clocks of a yard's cores are set to (R310). -/
def deviceEpoch (m : Mach) : Nat := m.cores.foldl (fun t kv => max t kv.2.clk) 0
/-- A core's line leases of the virtual function: all of them in a cluster yard. -/
def keepLease (mg : Mgmt) (y : Yard) (vf line : Nat) : Bool := y.lane && segOwner mg (128 * line) != some vf
def clearCore (mg : Mgmt) (y : Yard) (vf epoch : Nat) (m : Mach) (c : Nat) : Mach :=
  let mine := fun (k : Nat) => k / 2 ^ 48 == vf
  let m := ((core m c).baler.filter mine).foldl (fun m _ => count1 m vf 9) m
  modCore m c fun k =>
    let issue := match k.issue with | some i => if (grp m c i.slot).vf == vf then none else some i | none => none
    { k with issue := issue, last := mset none k.last (yardLane0 y) none, tiles := k.tiles.filter fun kv => !ownsEnt y kv,
             log := k.log.filter (fun kv => kv.2.vf != vf), eng := k.eng.filter (fun kv => kv.2.vf != vf),
             jobs := k.jobs.filter (fun j => j.vf != vf), clk := epoch,
             leases := k.leases.filter (fun l => keepLease mg y vf l.1), baler := k.baler.filter fun q => !mine q }
def hayLine (y : Yard) (l : Nat) : Bool := hay0 y ≤ 64 * l && 64 * l < hay0 y + (hayPart y y.core).2
def stallOf (vf : Nat) (t : Stall) : Bool := match t.items with | it :: _ => it.by_.vf == vf | [] => false
def saveCluster (m : Mach) (y : Yard) (vf : Nat) (r : Reloc) (k : Nat) : ClusterSave :=
  let q := clus m k
  let stall := fun (t : Stall) => { t with items := t.items.map (relocItem r), due := t.due - m.now }
  { hay := rangeCells m.mem (hayAddr k (hay0 y)) (hayPart y y.core).2,
    hayInvalid := (q.hayInvalid.filter (hayLine y)).map fun l => l - hay0 y / 64,
    recv := if y.lane then [] else q.recv.map fun kv => (kv.1, relocRecv r kv.2),
    recvBytes := if y.lane then [] else rangeCells m.mem (recvAddr k 0) 0x8000,
    stalls := (q.stalls.filter fun kv => stallOf vf kv.2).map fun kv => (kv.1, stall kv.2),
    rowN := if y.lane then 0 else q.rowN, colN := if y.lane then 0 else q.colN,
    rowBad := if y.lane then [] else q.rowBad, colBad := if y.lane then [] else q.colBad,
    adds := (if y.lane then [] else q.adds.map fun a => (r.core a.1, a.2)), timer := if y.lane then 0x800 else q.timer }
def clearCluster (mg : Mgmt) (y : Yard) (vf : Nat) (m : Mach) (k : Nat) : Mach :=
  modClus m k fun q =>
    { q with loops := q.loops.filter (fun l => l.vf != vf), hayInvalid := q.hayInvalid.filter (fun l => !hayLine y l),
             hayLoading := q.hayLoading.filter (fun l => !hayLine y l), stalls := q.stalls.filter (fun kv => !stallOf vf kv.2),
             recv := if y.lane then q.recv else [], adds := if y.lane then q.adds else [],
             rowN := if y.lane then q.rowN else 0, colN := if y.lane then q.colN else 0,
             rowBad := if y.lane then q.rowBad else [], colBad := if y.lane then q.colBad else [],
             timer := if y.lane then q.timer else 0x800,
             comb := q.comb.filter fun pa => y.lane && segOwner mg pa != some vf }
/-- Key of a group in a saved context: its core's place, and its slot or the place an ended group has. -/
def saveKey (r : Reloc) (t : Nat × Nat × Group) : Nat := gkey (r.core t.1) (if t.2.1 < 64 then r.slot t.2.1 else t.2.1)
/-- Each member keeps the context of its virtual function that owns its tile at the edge (R183). -/
def keepOwner (m : Mach) (vf : Nat) (p : Member) : Member :=
  { p with was := ((tileOwnOf m p.core p.tile).owner.filter fun h => h.vf == vf).orElse fun _ => p.was }
def keepOwners (m : Mach) (vf : Nat) : Mach :=
  modVf m vf fun v => { v with chains := v.chains.map fun kv => (kv.1, { kv.2 with members := kv.2.members.map (keepOwner m vf) }) }
/-- Steps 6 and 7 of R304 for a virtual function on a yard; loops that stand stopped on cores of another yard stay in its context (R168,
R300). The yard's issue policy is no part of the context and stays (log entry 128). -/
def putAway (mg : Mgmt) (m : Mach) (yn vf : Nat) : Mach :=
  let y := yardEnt mg yn
  let r := toPos y
  let m := meetSaving y vf ((vfAll m vf).foldl (fun m t => landFills m t.1 t.2.1) m)
  let blocks := (vfGroups m vf).map fun t => edgeStop t.2.2
  let m := keepOwners m vf
  let cells := (vfAll m vf).map fun t => (saveKey r t, shelve r t.2.2)
  let stopped := ((storeClusters y).flatMap fun k => (clus m k).loops.filter fun l => l.vf == vf).map (relocLoop r)
  let sv : Saved :=
    { yard := yn, groups := msetAll {} [] cells,
      cores := msetAll {} [] ((storeCores y).map fun c => (r.core c, saveCore m y vf r c)),
      clusters := msetAll {} [] ((storeClusters y).zipIdx.map fun k => (k.2, saveCluster m y vf r k.1)),
      loops := (mget {} m.saved vf).loops ++ stopped }
  let m := (storeCores y).foldl (clearCore mg y vf (deviceEpoch m)) m
  let m := (storeClusters y).foldl (clearCluster mg y vf) m
  let zero := (scrubRanges y).foldl (fun mem q => zeroRange mem q.1 q.2) m.mem
  let bad := m.bad.filter fun b => !(scrubRanges y).any fun q => q.1 ≤ 8 * b.1 && 8 * b.1 < q.1 + q.2
  let m := modVf m vf fun v =>
    { relocVf r v with home := none, cmds := v.cmds.map fun d => { d with cmd := relocCmd r id d.cmd } }
  writeBlocks (vfEnt mg vf).ctx blocks <| blankHist (yardRanges y)
    { m with mem := zero, bad := bad, groups := m.groups.filter (fun kg => kg.2.status == .free || kg.2.vf != vf),
             saved := mset {} m.saved vf sv, tlb := m.tlb.filter (fun t => t.vf != vf), l2 := m.l2.filter (fun l => l.vf != vf),
             orphans := m.orphans.map (relocOrphan r vf) }

/-! ## Restoring (R300, R304, R346) -/

/-- The units a saved group needs are there. -/
def groupFits (mg : Mgmt) (y : Yard) (p : Nat) (g : Group) : Bool :=
  let c := posCore y (keyCore p)
  let l := coreLanes mg c
  let b := (fromPos y).lane g.laneB
  y.ownsCore mg c && l.1 ≤ b && b + g.laneL ≤ l.1 + l.2
def contextFits (mg : Mgmt) (m : Mach) (yn vf : Nat) : Bool :=
  (mget {} m.saved vf).groups.all fun kg => groupFits mg (yardEnt mg yn) kg.1 kg.2
/-- R346: a context that cannot be restored stays in its area, its groups halted. -/
def strand (m : Mach) (vf : Nat) : Mach :=
  let halt := fun (g : Group) => if g.active then { g with status := .halted, rep := { code := fDriver } } else g
  { m with saved := mmod {} m.saved vf fun sv => { sv with groups := sv.groups.map fun kg => (kg.1, halt kg.2) } }
/-- A log entry returns to its place, or to the lowest free one; with none free its instruction becomes a record. -/
def restoreLog (r : Reloc) (c : Nat) (m : Mach) (ie : Nat × LogEnt) : Mach :=
  let e := { ie.2 with slot := r.slot ie.2.slot }
  match (if (mget {} (core m c).log ie.1).used then freeLog m c else some ie.1) with
  | some i =>
    let ren := fun (j : Instr) => match j with
      | .replay d n => if d == c && n == 16 + ie.1 then .replay c i else j
      | .discard d n => if d == c && n == 16 + ie.1 then .discard c i else j
      | j => j
    let m := modVf m e.vf fun v => { v with cmds := v.cmds.map fun d => { d with cmd := ren d.cmd } }
    modGrp (modCore m c fun k => { k with log := mset {} k.log i e }) c (accPlace m c e.slot e.op) fun g => { g with log := some i }
  | none => modGrp m c (accPlace m c e.slot e.op) fun g => match findAcc g e.op with
    | some op => { opToRec g op with log := none }
    | none => { g with log := none }
def restoreEng (r : Reloc) (c : Nat) (m : Mach) (ie : Nat × EngRec) : Mach :=
  let e := { ie.2 with slot := r.slot ie.2.slot }
  modCore m c fun k =>
    if !(mget {} k.eng ie.1).used then { k with eng := mset {} k.eng ie.1 e }
    else match (List.range 16).find? fun i => !(mget {} k.eng i).used with
      | some i => { k with eng := mset {} k.eng i e }
      | none => { k with eng := mmod {} k.eng 15 fun e => { e with ovf := true } }
/-- A core of the context comes back; its tile-table entries take the place of others of the same number (log entry 134). -/
def restoreCore (y : Yard) (r : Reloc) (m : Mach) (ps : Nat × CoreSave) : Mach :=
  let c := r.core ps.1
  let m := { m with mem := layRange m.mem (lsAddr c (lsPart y).1) ps.2.ls }
  let m := modCore m c fun k =>
    { k with tiles := msetAll {} k.tiles (ps.2.tiles.map fun kv => (kv.1, relocEnt r kv.2)), jobs := k.jobs ++ ps.2.jobs.map (relocJob r) }
  ps.2.eng.foldl (restoreEng r c) (ps.2.log.foldl (restoreLog r c) m)
/-- A saved loop whose tile the loop's own context still holds, on a core of the receiving yard (R168). -/
def loopHome (y : Yard) (m : Mach) (l : Loop) : Bool :=
  (storeCores y).contains l.core && (tileOwnOf m l.core l.tile).holder.any fun h => h.uid == l.uid
/-- A saved loop returns to the sequencer. -/
def restoreLoop (r : Reloc) (m : Mach) (l : Loop) : Mach :=
  modClus m (clusterOf l.core) fun q => { q with loops := q.loops ++ [relocLoop r l] }
/-- A saved stall returns to its number, or to the lowest that is free; with none free its items wait in the overflow (log entry 140). -/
def restoreStall (k vf : Nat) (m : Mach) (it : Nat × Stall) : Mach :=
  let free := fun i => (mget {} (clus m k).stalls i).items.isEmpty
  match (if free it.1 then some it.1 else (List.range 32).find? free) with
  | some i => modClus m k fun q => { q with stalls := mset {} q.stalls i it.2 }
  | none => modVf m vf fun v => { v with overflow := it.2.items ++ v.overflow }
def restoreCluster (y : Yard) (r : Reloc) (vf start : Nat) (m : Mach) (ps : Nat × ClusterSave) : Mach :=
  match (storeClusters y)[ps.1]? with
  | none => m
  | some k =>
    let stall := fun (t : Stall) => { t with items := t.items.map (relocItem r), due := start + t.due }
    let mem := layRange (layRange m.mem (hayAddr k (hay0 y)) ps.2.hay) (recvAddr k 0) ps.2.recvBytes
    let m := modClus { m with mem := mem } k fun q =>
      { q with hayInvalid := q.hayInvalid ++ ps.2.hayInvalid.map (· + hay0 y / 64),
               recv := if y.lane then q.recv else ps.2.recv.map fun kv => (kv.1, relocRecv r kv.2),
               adds := if y.lane then q.adds else ps.2.adds.map fun a => (r.core a.1, a.2),
               rowN := if y.lane then q.rowN else ps.2.rowN, colN := if y.lane then q.colN else ps.2.colN,
               rowBad := if y.lane then q.rowBad else ps.2.rowBad, colBad := if y.lane then q.colBad else ps.2.colBad,
               timer := if y.lane then q.timer else ps.2.timer }
    (ps.2.stalls.map fun kv => (kv.1, stall kv.2)).foldl (restoreStall k vf) m
/-- Hayloft lines that pending loads of a group will write (R153). -/
def loadingOf (g : Group) : List Nat :=
  (g.acc ++ g.recs.map (·.op)).flatMap fun o => match o.kind with | .mload off _ => hayLines off o.opC.toNat | _ => []
def restoreGroup (r : Reloc) (m : Mach) (kg : Nat × Group) : Mach :=
  let c := r.core (keyCore kg.1)
  let g := edgeResume (relocGroup r kg.2)
  let s := if keySlot kg.1 < 64 then r.slot (keySlot kg.1) else goneSlot m c
  let m := modCore (setGrp m c s g) c fun k => { k with nextAge := max k.nextAge (g.age + 1) }
  modClus m (clusterOf c) fun q => { q with hayLoading := q.hayLoading ++ loadingOf g }
/-- The owner records of a virtual function's tiles name its groups' present slots. -/
def fixOwners (vf : Nat) (m : Mach) : Mach :=
  let fix := fun (h : Ctx) => if h.vf != vf then h else match findUid m h.uid with | some (_, s) => { h with slot := s } | none => h
  let own := fun (o : TileOwn) => { o with owner := o.owner.map fix, holder := o.holder.map fix }
  { m with cores := m.cores.map fun kv => (kv.1, { kv.2 with own := kv.2.own.map fun q => (q.1, own q.2) }) }
/-- What ended groups of the restored groups' slots own and hold on the receiving yard is theirs (R44, log entry 111). -/
def adoptAll (vf : Nat) (m : Mach) : Mach := (vfGroups m vf).foldl (fun m t => adoptTiles m vf t.1 t.2.1 t.2.2.uid) m
/-- Accesses that wait in a restored group are translated afresh; one that no longer passes its checks becomes a record. -/
def retranslate (mg : Mgmt) (c s : Nat) (m : Mach) (op : MemOp) : Mach :=
  if op.logged || op.elems.isEmpty then m
  else match checkOp mg m c (grp m c s) op with
    | (.ok els _, m) => modGrp m c s fun g => { g with acc := updOp { op with elems := els } g.acc }
    | (_, m) => modGrp m c s fun g => { opToRec g op with recs := insertRec { op := op, prog := op.prog } g.recs }
/-- The context of an absent virtual function returns to a yard whose slot starts at a time. -/
def bringIn (mg : Mgmt) (m : Mach) (yn vf start : Nat) : Mach :=
  if (vfst m vf).home.isSome then m
  else if !contextFits mg m yn vf then strand m vf
  else
    let y := yardEnt mg yn
    let r := fromPos y
    let sv := mget {} m.saved vf
    let m := sv.groups.foldl (restoreGroup r) m
    let m := adoptAll vf (fixOwners vf m)
    let m := modVf m vf fun v => { v with cmds := v.cmds.map fun d => { d with cmd := relocCmd r (· + 16) d.cmd } }
    let m := sv.cores.foldl (restoreCore y r) m
    let m := sv.clusters.foldl (restoreCluster y r vf start) m
    let m := (sv.loops.filter (loopHome y m)).foldl (restoreLoop r) m
    let kept : Saved := { yard := yn, loops := sv.loops.filter fun l => !loopHome y m l }
    let m := modVf { m with saved := mset {} m.saved vf kept, orphans := m.orphans.map (relocOrphan r vf) } vf fun v =>
      { relocVf r v with home := some yn }
    let m := blankHist (yardRanges y) m
    (vfAll m vf).foldl (fun m t => t.2.2.acc.foldl (retranslate mg t.1 t.2.1) m) m

/-! ## The drain (R304, R306) -/

/-- Drain steps 1 to 5 begin in a yard, for an edge at a time: vector instructions in flight stop, each with its progress in a record, and
the clauses in progress go on to their ends with vstart as it is (R304, R322). -/
def beginDrain (m : Mach) (yn vf e : Nat) (early : Option (Option Nat)) : Mach :=
  let m := modYrun m yn fun q => { q with phase := .draining vf e, drainFrom := m.now, early := early }
  (vfGroups m vf).foldl (fun m t => stopVectors false m t.1 t.2.1) m
def guardTime (mg : Mgmt) : Nat := mg.guard * cyclesPerUs
def guardStep (mg : Mgmt) (yn : Nat) (m : Mach) : Mach :=
  match (yrun m yn).phase, edgeTime mg m yn with
  | .running v, some e => if e ≤ m.now + guardTime mg then beginDrain m yn v e none else m
  | _, _ => m
def execSlotEdgeGuard (yn : Nat) (s : State) : Host.Outcome State Fault Refusal :=
  onUnit (yardOk yn) (fun mg m => guardStep mg yn m) s

/-- An access that no blocking condition keeps from being performed in the drain. -/
def drainable (m : Mach) (c s : Nat) (op : MemOp) (el : Elem) : Bool :=
  inTurn m c s op el && !blockedEl m op.kind el && holdsTile m c s op.kind
def groupDrained (m : Mach) (c s : Nat) (g : Group) : Bool :=
  g.acc.all fun op => op.logged || ((!op.kind.stays || !op.elems.isEmpty) && op.elems.all fun el => !drainable m c s op el)
def issuing (m : Mach) (vf : Nat) : Bool :=
  m.cores.any fun kv => kv.2.issue.any fun i => (grp m kv.1 i.slot).status != .free && (grp m kv.1 i.slot).vf == vf
/-- Steps 1 to 5 have ended. -/
def drained (m : Mach) (vf : Nat) : Bool :=
  !issuing m vf && !m.sysOut.any (fun a => a.vf == vf) && (vfAll m vf).all (fun t => groupDrained m t.1 t.2.1 t.2.2)
    && (vfst m vf).sends.all fun sd => !sendHolds m vf sd || (!sd.moving && !hasCredit m vf sd)

/-- Performs what the drain still has to perform in HBM and the windows. -/
def forceEl (mg : Mgmt) (c s id e : Nat) (m : Mach) : Mach :=
  match findAcc (grp m c s) id with
  | none => m
  | some op => match op.elems.find? fun el => el.e == e with
    | some el => if el.loc != .system && drainable m c s op el then performOr mg m c s op (sameLoc op el) else m
    | none => m
def forceGroup (mg : Mgmt) (m : Mach) (c s : Nat) : Mach :=
  (grp m c s).acc.foldl (fun m op => op.elems.foldl (fun m el => forceEl mg c s op.id el.e m) m) m
def forceAll (mg : Mgmt) (vf : Nat) : Nat → Mach → Mach
  | 0, m => m
  | n + 1, m => forceAll mg vf n ((vfAll m vf).foldl (fun m t => forceGroup mg m t.1 t.2.1) m)
def forceEnds (m : Mach) (c s : Nat) : Mach :=
  (grp m c s).acc.foldl (fun m op => match op.kind with
    | .tfill e | .tdrain e => if op.elems.isEmpty then tileEndStep c e m else m
    | .mload _ _ => if op.elems.isEmpty then mloadStep c s m else m
    | _ => m) m
/-- Sends that hold a credit land; one whose tile another context has taken lands once its own context holds the tile again (R188). -/
def forceSends (vf : Nat) (m : Mach) : Mach :=
  (vfst m vf).sends.foldl (fun m sd =>
    if !(sendHolds m vf sd) then m
    else if sd.moving then landSend m vf sd
    else if hasCredit m vf sd then landSend (beginSend m vf sd) vf { sd with moving := true } else m) m
/-- Every drain step that no system-scope access can hold. -/
def forceDrain (mg : Mgmt) (vf : Nat) (m : Mach) : Mach :=
  let m := forceAll mg vf ((vfAll m vf).length + 1) m
  forceSends vf ((vfAll m vf).foldl (fun m t => forceEnds m t.1 t.2.1) m)

/-! ## OVERRUN (R306) -/

/-- An access waits behind a logged instruction and keeps its place. -/
def behindLog (g : Group) (op : MemOp) (el : Elem) : Bool :=
  op.logged || g.acc.any fun i => i.logged && (precedes i op el || (i.id < op.id && !precedes op i el))
def lostEl (g : Group) (op : MemOp) (el : Elem) : Bool := el.loc = .system && !behindLog g op el
/-- Takes one access out of the group, its write left to chance. -/
def abandonWrite (mg : Mgmt) (c s : Nat) (op : MemOp) (el : Elem) (m : Mach) : Mach :=
  let g := grp m c s
  dropElem { m with abandoned := m.abandoned ++ [sysAcc mg c s g op el] } c s op.id el.e
/-- The destinations of an abandoned atomic become full holding zero. -/
def zeroDst (op : MemOp) (el : Elem) (g : Group) : Group :=
  match op.kind with
  | .vsc => putC g op.mask el.e false
  | .arrive => holdWords g [0]
  | _ => (dstFills op el 0).foldl (fun g f =>
      let g := applyFill g f
      match f.reg with
      | .x i => captureX g i f.val
      | _ => g) g
def abandonEl (mg : Mgmt) (c s : Nat) (op : MemOp) (m : Mach) (el : Elem) : Mach :=
  match op.kind with
  | .store | .tdrain _ => abandonWrite mg c s op el m
  | .amo _ _ | .vsc | .arrive => modGrp (abandonWrite mg c s op el m) c s (zeroDst op el)
  | _ => m
/-- The lost loads of an instruction become a record that is issued again first. -/
def abandonLoads (op : MemOp) (lost : List Elem) (g : Group) : Group :=
  if (op.kind = .load || op.kind = .vgl) && !lost.isEmpty then
    let rest := op.elems.filter fun el => !lost.contains el
    let cut := fun (o : MemOp) => if o.id != op.id then some o else if rest.isEmpty then none else some { o with elems := rest }
    let first := lost.foldl (fun a el => min a el.e) ((lost.head?.map (·.e)).getD 0)
    { g with acc := g.acc.filterMap cut, recs := insertRec { op := { op with elems := lost, first := first, prog := first }, prog := first } g.recs }
  else g
def abandonOp (mg : Mgmt) (hit : Group → MemOp → Elem → Bool) (c s : Nat) (m : Mach) (op : MemOp) : Mach :=
  let lost := op.elems.filter (hit (grp m c s) op)
  modGrp (lost.foldl (abandonEl mg c s op) m) c s (abandonLoads op lost)
def isAtomic : AccKind → Bool
  | .amo _ _ | .vsc | .arrive => true
  | _ => false
/-- Some system-scope accesses of a group are abandoned. -/
def abandonGroup (mg : Mgmt) (hit : Group → MemOp → Elem → Bool) (m : Mach) (c s : Nat) : Mach :=
  let g := grp m c s
  let gone := fun (a : SysAcc) => a.uid == g.uid && g.acc.any fun op => op.id == a.op && op.elems.any fun el => el.e == a.el.e && hit g op el
  g.acc.foldl (abandonOp mg hit c s) { m with sysOut := m.sysOut.filter fun a => !gone a }
/-- The group's outstanding system-scope accesses are abandoned; it takes OVERRUN, with the address of the first atomic. -/
def overrunGroup (mg : Mgmt) (m : Mach) (c s : Nat) : Mach :=
  let g := grp m c s
  let amo := g.acc.findSome? fun op => if isAtomic op.kind then (op.elems.find? (lostEl g op)).map (·.va) else none
  let hit := g.acc.any fun op => op.elems.any (lostEl g op)
  let m := abandonGroup mg lostEl m c s
  if hit && g.active then
    haltGroup m c s { cls := 3, code := fOverrun, addr := amo.getD 0, info := if amo.isSome then 1 else 0 }
  else m
/-- The outgoing virtual function is stopped at the edge, its drain not complete. -/
def overrun (mg : Mgmt) (vf : Nat) (m : Mach) : Mach :=
  let m := (vfAll m vf).foldl (fun m t => overrunGroup mg m t.1 t.2.1) m
  forceDrain mg vf (haltOthers { m with sysOut := m.sysOut.filter fun a => a.vf != vf } vf fOverrun 0)
def sysLeft (m : Mach) (vf : Nat) : Bool :=
  m.sysOut.any (fun a => a.vf == vf) || (vfAll m vf).any fun t => t.2.2.acc.any fun op => op.elems.any fun el =>
    lostEl t.2.2 op el && drainable m t.1 t.2.1 op el
/-- What the edge itself does to a drain that has not ended. -/
def closeDrain (mg : Mgmt) (vf : Nat) (m : Mach) : Mach :=
  let m := forceDrain mg vf m
  if sysLeft m vf then overrun mg vf m else m

/-! ## Tables at an edge (R302, R308, R346) -/

/-- A yard holds a core, retired or not. -/
def yardHolds (y : Yard) (c : Nat) : Bool := y.v && (if y.lane then y.core == c else y.ownsCluster (clusterOf c))
/-- Retires a lane; a core with a retired lane in either half is retired (R346). -/
def retireLane (mg : Mgmt) (l : Nat) : Mgmt :=
  let lanes := if mg.retLanes.contains l then mg.retLanes else mg.retLanes ++ [l]
  let c := l / 16
  let half := fun hi => lanes.any fun q => q / 16 == c && (8 ≤ q % 16) == hi
  { mg with retLanes := lanes, retCores := if half true && half false && !mg.retCores.contains c then mg.retCores ++ [c] else mg.retCores }
def retireCore (mg : Mgmt) (c : Nat) : Mgmt := { mg with retCores := if mg.retCores.contains c then mg.retCores else mg.retCores ++ [c] }
/-- Another yard that holds a core is in use and has had no edge since a retirement there. -/
def sharedCore (mg : Mgmt) (m : Mach) (yn c : Nat) : Bool :=
  (List.range 32).any fun o => o != yn && yardHolds (yardEnt mg o) c && (yrun m o).phase != .idle && !mg.retSets.contains (c, (yardEnt mg o).b)
/-- A yard lost by a retirement: its core, or its lanes on it. -/
def loses (mg mg' : Mgmt) (y : Yard) (c : Nat) : Bool :=
  let l := coreLanes mg' c
  y.lane && (!mg.retCores.contains c && mg'.retCores.contains c || !(l.1 ≤ y.b && y.b + y.l ≤ l.1 + l.2))
/-- One retirement at an edge of a yard on its core: it takes effect there, or, while another yard runs on the core, for this yard alone. -/
def edgeUnit (m : Mach) (yn c : Nat) (take : Mgmt → Mgmt) (mg : Mgmt) : Mgmt :=
  let y := yardEnt mg yn
  if sharedCore mg m yn c then
    if loses mg (take mg) y c && !mg.retSets.contains (c, y.b) then { mg with retSets := mg.retSets ++ [(c, y.b)] } else mg
  else { take mg with retSets := mg.retSets.filter fun q => q.1 != c }
/-- Retirements that waited for an edge of the yard (R346). -/
def edgeRetire (m : Mach) (yn : Nat) (mg : Mgmt) : Mgmt :=
  let y := yardEnt mg yn
  let core := fun (mg : Mgmt) c => edgeUnit m yn c
    (fun mg => { retireCore mg c with pendCores := mg.pendCores.filter (· != c) }) mg
  let lane := fun (mg : Mgmt) l => edgeUnit m yn (l / 16)
    (fun mg => { retireLane mg l with pendLanes := mg.pendLanes.filter (· != l) }) mg
  (mg.pendLanes.filter fun l => yardHolds y (l / 16)).foldl lane ((mg.pendCores.filter (yardHolds y)).foldl core mg)
/-- Bytes that leave a segment when it changes: start and length. -/
def leaving (old new : VfEnt) : List (Nat × Nat) :=
  let g := 2 ^ 29
  let a := old.baseg
  let b := old.baseg + old.sizeg
  let c := new.baseg
  let d := new.baseg + new.sizeg
  if new.sizeg == 0 || d ≤ a || b ≤ c then [(a * g, (b - a) * g)] else [(a * g, (c - a) * g), (max a d * g, (b - d) * g)]
/-- The Farrier writes zeros over granules and invalidates their lines (R311). -/
def scrubBytes (m : Mach) (rs : List (Nat × Nat)) : Mach :=
  let hit := fun line => rs.any fun r => r.1 ≤ 128 * line && 128 * line < r.1 + r.2
  let clean := fun (k : Core) => { k with leases := k.leases.filter fun l => !hit l.1 }
  blankHist rs { m with mem := rs.foldl (fun mem r => zeroRange mem r.1 r.2) m.mem, l2 := m.l2.filter (fun l => !hit l.line),
                        bad := m.bad.filter (fun b => !hit (b.1 / 16)), cores := m.cores.map fun kv => (kv.1, clean kv.2) }
/-- The change of a segment, with its scrub. -/
def changeSegment (vf size base : Nat) (s : State) : State :=
  let old := vfEnt s.mgmt vf
  let new := { old with sizeg := size, baseg := base }
  { s with mgmt := { s.mgmt with vfs := mset {} s.mgmt.vfs vf new }, m := scrubBytes s.m (leaving old new) }
/-- The segment change that waited for the virtual function's edge. -/
def edgeSegment (vf : Nat) (s : State) : State :=
  match mget none s.mgmt.pendSeg vf with
  | some (size, base) =>
    changeSegment vf size base { s with mgmt := { s.mgmt with pendSeg := mset none s.mgmt.pendSeg vf none } }
  | none => s
/-- Writes of the slot table and SLOTCTL that the next row boundary brings into effect. -/
def applyTable (mg : Mgmt) : Mgmt :=
  let rows := mg.pendRows.foldl (fun t kv => match kv.2 with | some r => mset {} t kv.1 r | none => t) mg.rows
  let mg := { mg with rows := rows, pendRows := [] }
  match mg.pendCtl with
  | some (en, n, g) => { mg with enable := en, nrows := n, guard := g, pendCtl := none }
  | none => mg
/-- Who is to run in a yard in a row. -/
def rowTarget (mg : Mgmt) (r yn : Nat) : Option Nat := (rowRun mg r yn).filter fun v => (yardEnt mg yn).v && (vfEnt mg v).en
/-- The row that starts at a time: the first of the coming rows that does not start before it. -/
def rowStarting (mg : Mgmt) : List Nat → Nat → Nat → Option Nat
  | [], _, _ => none
  | r :: rs, t, e => if e ≤ t then some r else rowStarting mg rs (t + (mget {} mg.rows r).len * cyclesPerUs) e
def targetAt (mg : Mgmt) (m : Mach) (yn e : Nat) : Option Nat :=
  let later := applyTable mg
  if !later.enable then none
  else (rowStarting later (rowsAfter later) (m.rowStart + (mget {} mg.rows mg.row).len * cyclesPerUs) e).bind fun r =>
    rowTarget later r yn
def switchTime (mg : Mgmt) (yn : Nat) : Nat := switchUs (yardEnt mg yn) * cyclesPerUs

/-! ## The edge (R304 step 6, R307) -/

def setPhase (m : Mach) (yn : Nat) (p : Phase) : Mach := modYrun m yn fun q => { q with phase := p }
/-- A virtual function is to start in an idle yard S_y after a time. -/
def admitVf (mg : Mgmt) (m : Mach) (yn : Nat) (vf : Option Nat) (e : Nat) : Mach :=
  match vf with
  | none => setPhase m yn .idle
  | some v => bringIn mg (setPhase m yn (.switching (some v) (e + switchTime mg yn))) yn v (e + switchTime mg yn)
/-- Steps 6 and 7 for the outgoing virtual function, then who comes in. -/
def finishEdge (yn vf e : Nat) (s : State) : State :=
  let q := yrun s.m yn
  let cycles := (min s.m.now e - q.drainFrom) * s.mgmt.clock / 100
  let s := edgeSegment vf { s with m := putAway s.mgmt (countN s.m vf 0x0B cycles) yn vf }
  let mg := edgeRetire s.m yn s.mgmt
  let next := match q.early with | some b => b | none => targetAt mg s.m yn e
  { s with mgmt := mg, m := admitVf mg (modYrun s.m yn fun q => { q with early := none }) yn next e }
def drainCompleteStep (yn : Nat) (s : State) : State :=
  match (yrun s.m yn).phase with
  | .draining v e => if drained s.m v then finishEdge yn v e s else s
  | _ => s
def execDrainComplete (yn : Nat) (s : State) : Host.Outcome State Fault Refusal :=
  if yardOk yn then .next (drainCompleteStep yn s) else .fault .noSuchUnit
/-- The edge arrives before the drain is complete; a clause in progress has come to its boundary before (R304 step 1, log entry 117). -/
def forceEdge (yn vf e : Nat) (s : State) : State := finishEdge yn vf e { s with m := closeDrain s.mgmt vf s.m }
def earlyEdgeStep (yn : Nat) (s : State) : State :=
  match (yrun s.m yn).phase with
  | .draining v e => if (yrun s.m yn).early.isSome && e ≤ s.m.now && !issuing s.m v then forceEdge yn v e s else s
  | _ => s
def execEarlyEdge (yn : Nat) (s : State) : Host.Outcome State Fault Refusal :=
  if yardOk yn then .next (earlyEdgeStep yn s) else .fault .noSuchUnit

/-- Buckets are full. -/
def fillBuckets (mg : Mgmt) (m : Mach) (yn : Nat) : Mach :=
  modYrun m yn fun q => { q with hbm := bucketCap mg yn true, link := bucketCap mg yn false }
/-- Replays that an edge has interrupted go on. -/
def dueReplays (mg : Mgmt) (vf : Nat) (m : Mach) : Mach :=
  (m.cores.flatMap fun kv => (kv.2.log.filter fun q => q.2.vf == vf && q.2.rpl).map fun q => (kv.1, q.1)).foldl
    (fun m q => replayEntry mg m q.1 q.2) m
/-- Closing chains go on to close (R185). -/
def dueCloses (vf : Nat) (m : Mach) : Mach :=
  (vfst m vf).chains.foldl (fun m nq => if nq.2.used && nq.2.closing then closeChain vf nq.1 m else m) m
/-- The incoming virtual function begins to issue: replays and records first. -/
def startVf (mg : Mgmt) (yn vf : Nat) (m : Mach) : Mach :=
  let m := setPhase { m with abandoned := m.abandoned.filter fun a => a.vf != vf } yn (.running vf)
  let m := fillBuckets mg (dueReplays mg vf m) yn
  dueCloses vf ((vfGroups m vf).foldl (fun m t => takeSpill (reissueAll mg m t.1 t.2.1) t.1 t.2.1) m)
/-- The commands that waited for the restore are the next turns, before anything issues (R332). -/
def dueCommands (vf : Nat) (s : State) : State :=
  { s with m := modVf s.m vf (fun v => { v with cmds := [] }), agenda := (vfst s.m vf).cmds.map Turn.driver ++ s.agenda }
def incomingStep (yn : Nat) (s : State) : State :=
  match (yrun s.m yn).phase with
  | .switching (some v) t =>
    if s.m.now < t then s
    else
      let mg := s.mgmt
      let m := bringIn mg s.m yn v t
      if (vfst m v).home != some yn then { s with m := if contextFits mg m yn v then m else setPhase m yn .idle }
      else if !(vfEnt mg v).en then { s with m := setPhase (putAway mg m yn v) yn .idle }
      else dueCommands v { s with m := startVf mg yn v m }
  | _ => s
def execIncomingStart (yn : Nat) (s : State) : Host.Outcome State Fault Refusal :=
  if yardOk yn then .next (incomingStep yn s) else .fault .noSuchUnit

/-! ## Row boundaries (R301 to R303) -/

/-- One yard at a boundary at time e, with who is to run there now. -/
def yardBoundary (mg : Mgmt) (e : Nat) (m : Mach) (yn : Nat) : Mach :=
  let q := yrun m yn
  let next := if mg.enable then rowTarget mg mg.row yn else none
  let m := fillBuckets mg m yn
  if q.gift.any (e < ·) then m
  else
    let m := modYrun m yn fun q => { q with gift := none }
    match q.phase with
    | .idle => admitVf mg m yn next e
    | .running v => if next == some v then m else beginDrain m yn v (m.now + guardTime mg) (some next)
    | .draining v t => if q.early.isSome then modYrun m yn fun q => { q with early := some next } else setPhase m yn (.draining v t)
    | .switching w _ =>
      if w == next then m
      else admitVf mg (match w with
        | some v => if (vfst m v).home == some yn then putAway mg m yn v else m
        | none => m) yn next e
def forceDue (s : State) (yn : Nat) : State :=
  match (yrun s.m yn).phase with
  | .draining v e => if e ≤ s.m.now then forceEdge yn v e s else s
  | _ => s
/-- An edge is due in a yard whose virtual function has a clause in progress: it comes once the clause has reached its boundary. -/
def edgeHeld (m : Mach) (yn : Nat) : Bool :=
  match (yrun m yn).phase with
  | .draining v e => e ≤ m.now && issuing m v
  | _ => false
/-- The rows in use, from the first. -/
def usedRows (mg : Mgmt) : List Nat := (List.range mg.nrows).filter fun r => (mget {} mg.rows r).rv
/-- A row begins at a time, in the table as it stands. -/
def enterRow (s : State) (row e : Nat) : State :=
  let mg := { s.mgmt with row := row }
  { s with mgmt := mg, m := (List.range 32).foldl (yardBoundary mg e) { s.m with rowStart := e } }
def rowStep (s : State) : State :=
  let e := s.m.rowStart + (mget {} s.mgmt.rows s.mgmt.row).len * cyclesPerUs
  if !s.mgmt.enable || s.m.now < e || (List.range 32).any (edgeHeld s.m) then s
  else
    let s := (List.range 32).foldl forceDue s
    let mg := applyTable s.mgmt
    let mg := { mg with enable := mg.enable && !(usedRows mg).isEmpty }
    enterRow { s with mgmt := mg } ((rowsAfter mg).headD mg.row) e
def execRowBoundary (s : State) : Host.Outcome State Fault Refusal := .next (rowStep s)
/-- ENABLE is set, or cleared, between rows: table writes take effect at once, and the first row in use begins. -/
def startTable (s : State) : State :=
  let mg := applyTable s.mgmt
  match usedRows mg with
  | r :: _ => if mg.enable then enterRow { s with mgmt := mg } r s.m.now else { s with mgmt := mg }
  | [] => { s with mgmt := { mg with enable := false } }

/-! ## Donation (R309) and edges to idle (R308) -/

/-- The yards in which the table in use runs a virtual function. -/
def vfYards (mg : Mgmt) (vf : Nat) : List Nat :=
  (List.range 32).filter fun yn => (usedRows mg).any fun r => rowRun mg r yn == some vf
/-- Yards of one shape (R300). -/
def sameShape (a b : Yard) : Bool :=
  a.lane == b.lane && (if a.lane then a.l == b.l else (yardClusters a).length == (yardClusters b).length)
/-- The virtual function is on its cores or on its way there. -/
def occupies (m : Mach) (vf : Nat) : Bool :=
  (vfst m vf).home.isSome || (List.range 32).any fun yn => match (yrun m yn).phase with
    | .running v => v == vf | .draining v _ => v == vf | .switching v _ => v == some vf | .idle => false
def beneficiary (mg : Mgmt) (m : Mach) (yn me_ : Nat) (a : Nat) : Option Nat :=
  let v := bitsOf a 8 0
  if bitAt a 9 || bitsOf a 63 10 != 0 || !(vfEnt mg v).en || v == me_ || occupies m v
    || !((vfYards mg v).all fun o => sameShape (yardEnt mg o) (yardEnt mg yn)) then none
  else some v
def yieldSlot (mg : Mgmt) (a : Nat) (m : Mach) : Mach :=
  let vf := (me m).vf
  let yn := groupYard mg m.act.core (me m)
  let need := (mg.guard + switchUs (yardEnt mg yn) + 10) * cyclesPerUs * mg.clock / 100
  if (yrun m yn).phase != .running vf || slotLeft mg m yn < need then m
  else
    let till := (edgeTime mg m yn).getD (m.rowStart + (mget {} mg.rows mg.row).len * cyclesPerUs)
    let who := beneficiary mg m yn vf a
    modYrun (beginDrain m yn vf (m.now + guardTime mg) (some who)) yn fun q => { q with gift := some till }
def execSlotyield (i : FmtA) (s : State) : Host.Outcome State Fault Refusal :=
  onMach (fun mg => withPred i.pn i.ps (withSrcs [.r i.a i.ta] fun m =>
    retireC (yieldSlot mg (getX (me m) i.a.toNat).toNat m))) s
/-- An edge to idle GUARD from now, in every yard that runs one of some virtual functions. -/
def edgeToIdle (mg : Mgmt) (hit : Nat → Bool) (m : Mach) : Mach :=
  (List.range 32).foldl (fun m yn => match (yrun m yn).phase with
    | .running v => if hit v then beginDrain m yn v (m.now + guardTime mg) (some none) else m
    | _ => m) m
/-- Every yard takes an edge to idle: a drain that has begun ends in it, and what is on its way in goes back (R351). -/
def allToIdle (mg : Mgmt) (m : Mach) : Mach :=
  (List.range 32).foldl (fun m yn => match (yrun m yn).phase with
    | .draining v e => modYrun m yn fun q => { q with phase := .draining v (min e (m.now + guardTime mg)), early := some none }
    | .switching w _ => setPhase (match w with
      | some v => if (vfst m v).home == some yn then putAway mg m yn v else m
      | none => m) yn .idle
    | _ => m) (edgeToIdle mg (fun _ => true) m)

end Sys2Proof.Machine
end

