-- ==== Sys2Proof/Machine/Driver.lean ====
section
/-! DEFINITION. The driver commands (R185, R327, R330 to R332): status, deferral for an absent virtual function, and effects. -/

namespace Sys2Proof.Machine

/-! ## Statuses (R332, R343) -/

def okSt : Nat := 0
def invalidRecord : Nat := 1
def noSlot : Nat := 2
def notHalted : Nat := 3
def noEntry : Nat := 4
def denied : Nat := 5
def busySt : Nat := 6
def notHolder : Nat := 7
def staleEpoch : Nat := 8
def refusedSt : Nat := 9
def unknownSt : Nat := 10
def authSt : Nat := 11

/-- A command ends with a status and results. -/
def answer (st : Nat) (res : List Word) (s : State) : State := { s with mgmt := { s.mgmt with status := some st, result := res } }
/-- A command that succeeds with an effect on the machine. -/
def done (m : Mach) (s : State) : State := answer okSt [] { s with m := m }
/-- Host memory at a host address, through the bridging port (R339). -/
def hostPa (a : Nat) : Nat := 0xD * 2 ^ 48 + a % 2 ^ 48
def hostRead (m : Mach) (a : Nat) : Word := BitVec.ofNat 64 (readLe m.mem (hostPa a) 8)
def hostWrite (m : Mach) (a : Nat) (w : Word) : Mach := { m with mem := writeLe m.mem (hostPa a) 8 w.toNat }
def hostWrites (m : Mach) (a : Nat) (ws : List Word) : Mach := ws.zipIdx.foldl (fun m p => hostWrite m (a + 8 * p.2) p.1) m

/-! ## Ports (R342) -/

def portOf (mg : Mgmt) (p : Nat) : Port := mget {} mg.ports p
def modPort (mg : Mgmt) (p : Nat) (f : Port → Port) : Mgmt := { mg with ports := mmod {} mg.ports p f }
def reqOpcode (h : Word) : Nat := bitsOf h.toNat 7 0
/-- The answer goes to the port that asked: status, tag, number of results and opcode, then the results. -/
def respond (s : State) : State :=
  match s.mgmt.from_, s.mgmt.status with
  | some (p, h), some st =>
    let head := fieldW st 63 56 + fieldW (bitsOf h.toNat 23 16) 23 16 + fieldW s.mgmt.result.length 15 8 + fieldW (reqOpcode h) 7 0
    let mg := modPort s.mgmt p fun q => { q with resp := BitVec.ofNat 64 head :: s.mgmt.result, busy := false }
    let first := mg.queue.head? == some p
    { s with mgmt := { mg with from_ := none, queue := mg.queue.erase p, msix := mg.msix ++ [if p == 1 then 0 else 64],
                               cur := if first then none else mg.cur, got := if first then [] else mg.got } }
  | _, _ => s

/-! ## Absent virtual functions and slot edges (R332) -/

/-- The yard by which a saved context was made position-free. -/
def savedYard (mg : Mgmt) (m : Mach) (vf : Nat) : Yard := yardEnt mg (mget {} m.saved vf).yard
/-- The command waits for the restore of the virtual function's context; its status waits with it. -/
def deferCmd (vf : Nat) (i : Instr) (s : State) : State :=
  let d : Deferred := { port := s.mgmt.from_, cmd := relocCmd (toPos (savedYard s.mgmt s.m vf)) id i }
  { s with m := modVf s.m vf (fun v => { v with cmds := v.cmds ++ [d] }), mgmt := { s.mgmt with status := none, result := [] } }
/-- A slot edge of a yard is in progress: it drains, or may not have ended step 7. -/
def edgeHere (m : Mach) (yn : Nat) : Bool × Mach :=
  match (yrun m yn).phase with
  | .draining _ _ => (true, m)
  | .switching _ _ => let (k, m) := pick m 2; (k == 0, m)
  | _ => (false, m)
/-- Goes on with a command of a resident virtual function unless its yard is at a slot edge; with EN clear it is denied (log entry 118). -/
def whenSettled (vf : Nat) (i : Instr) (k : State → State) (s : State) : State :=
  if !(vfEnt s.mgmt vf).en then answer denied [] s
  else match (vfst s.m vf).home with
  | none => deferCmd vf i s
  | some yn =>
    let (b, m) := edgeHere s.m yn
    if b then answer busySt [] { s with m := m } else k { s with m := m }
/-- The same for a command on a group of the virtual function. -/
def onGroup (vf c sl : Nat) (i : Instr) (k : State → State) (s : State) : State :=
  whenSettled vf i (fun s => if (grp s.m c sl).status = .free || (grp s.m c sl).vf != vf then answer denied [] s else k s) s

/-- A command that goes to host memory waits while no route leads there (R25, R340, log entry 141). -/
def overHost (k : State → State) (s : State) : State :=
  if hostUp s.mgmt then k s else { s with mgmt := { s.mgmt with status := none, result := [] } }
/-- The same for a command on a group, which leaves the queue meanwhile. -/
def groupOverHost (vf : Nat) (i : Instr) (k : State → State) (s : State) : State :=
  if hostUp s.mgmt then k s
  else
    let d : Deferred := { port := s.mgmt.from_, cmd := i }
    { s with m := modVf s.m vf (fun v => { v with cmds := v.cmds ++ [d] }), mgmt := { s.mgmt with status := none, result := [] } }
/-- Commands that have waited for a route on resident virtual functions are the next turns. -/
def routedCommands (s : State) : State :=
  let due := s.m.vfst.filter fun kv => !kv.2.cmds.isEmpty && (runningYard s.m kv.1).isSome
  if due.isEmpty || !hostUp s.mgmt then s
  else
    let ready := fun (kv : Nat × VfState) => due.any (·.1 == kv.1)
    { s with m := { s.m with vfst := s.m.vfst.map fun kv => if ready kv then (kv.1, { kv.2 with cmds := [] }) else kv },
             agenda := (due.flatMap fun kv => kv.2.cmds.map Turn.driver) ++ s.agenda }

/-! ## START (R85, R86, R282) -/

/-- The yard whose shape a virtual function runs in. -/
def shapeYard (mg : Mgmt) (m : Mach) (vf : Nat) : Option Nat :=
  match (vfst m vf).home with
  | some yn => some yn
  | none => match vfYards mg vf with
    | yn :: _ => some yn
    | [] => if (mget {} m.saved vf).groups.isEmpty then none else some (mget {} m.saved vf).yard
/-- One turn of START: the next doubleword of the record is read, and after the sixteenth the record is accepted or refused. -/
def startCmd (vf rec_ tsbase : Nat) (s : State) : State :=
  let mg := s.mgmt
  if !(vfEnt mg vf).en then answer denied [] s
  else if rec_ % 128 != 0 then answer invalidRecord [] s
  else overHost (fun s =>
  let ws := mg.got ++ [hostRead s.m (rec_ + 8 * mg.got.length)]
  if ws.length < 16 then { s with mgmt := { mg with got := ws, status := none, result := [] } }
  else
    match shapeYard mg s.m vf with
    | none => answer noSlot [] s
    | some yn => match acceptRecord mg s.m vf (yardEnt mg yn) (vfst s.m vf).home.isSome false 0 s.m.host ws with
      | .invalid => answer invalidRecord [] s
      | .noPlace => answer noSlot [] s
      | .busy => answer busySt [] s
      | .ok m => done (modVf m vf fun v => { v with tsbase := tsbase % 2 ^ 55 }) s) s
def execStart (vf rec_ tsbase : Nat) (s : State) : Host.Outcome State Fault Refusal :=
  if vfOk vf then .next (startCmd vf rec_ tsbase s) else .fault .noSuchUnit

/-! ## HALT, RESUME, RESUMEVF, STEP (R321, R322, R325) -/

def haltByDriver (m : Mach) (c s : Nat) : Mach := if (grp m c s).active then haltGroup m c s { code := fDriver } else m
def haltCmd (vf : Nat) (g : Option (Nat × Nat)) (s : State) : State :=
  match g with
  | some (c, sl) => onGroup vf c sl (.halt vf g) (fun s => done (haltByDriver s.m c sl) s) s
  | none => whenSettled vf (.halt vf g) (fun s => done ((vfGroups s.m vf).foldl (fun m t => haltByDriver m t.1 t.2.1) s.m) s) s
def execHalt (vf : Nat) (g : Option (Nat × Nat)) (s : State) : Host.Outcome State Fault Refusal :=
  if vfOk vf && (match g with | some (c, sl) => groupOk c sl | none => true) then .next (haltCmd vf g s) else .fault .noSuchUnit
/-- Halted in class 2 or by the driver. -/
def mayResume (g : Group) : Bool := g.status == .halted && (g.rep.cls == 2 || g.rep.code == fDriver)
def resumeCmd (vf c sl : Nat) (step : Bool) (i : Instr) (s : State) : State :=
  onGroup vf c sl i (fun s =>
    if !mayResume (grp s.m c sl) then answer notHalted [] s
    else done (modGrp (resumeGroup s.mgmt s.m c sl) c sl fun g => { g with stepping := step && g.active }) s) s
def execResume (vf c sl : Nat) (s : State) : Host.Outcome State Fault Refusal :=
  if vfOk vf && groupOk c sl then .next (resumeCmd vf c sl false (.resume vf c sl) s) else .fault .noSuchUnit
def execStepGroup (vf c sl : Nat) (s : State) : Host.Outcome State Fault Refusal :=
  if vfOk vf && groupOk c sl then .next (resumeCmd vf c sl true (.stepGroup vf c sl) s) else .fault .noSuchUnit
def resumeAll (mg : Mgmt) (vf : Nat) (m : Mach) : Mach :=
  let m := modVf m vf fun v => { v with stopped := false }
  (vfGroups m vf).foldl (fun m t =>
    if t.2.2.status == .halted && t.2.2.rep.cls == 3 then resumeGroup mg m t.1 t.2.1 else m) m
def execResumeVf (vf : Nat) (s : State) : Host.Outcome State Fault Refusal :=
  if vfOk vf then .next (whenSettled vf (.resumeVf vf) (fun s => done (resumeAll s.mgmt vf s.m) s) s) else .fault .noSuchUnit

/-! ## REPLAY and DISCARD (R326, R327) -/

/-- An absent virtual function whose saved context has the entry, the lowest number first. -/
def savedEntry (mg : Mgmt) (m : Mach) (c i : Nat) : Option Nat :=
  (m.saved.find? fun kv =>
    let y := yardEnt mg kv.2.yard
    yardHolds y c && (mget {} (mget {} kv.2.cores (savePos y c)).log i).used).map Prod.fst
/-- Goes on with the entry of a core, the virtual function's own that the command names by it. -/
def onEntry (c i : Nat) (cmd : Instr) (k : LogEnt → State → State) (s : State) : State :=
  let t := logEnt s.m c i
  if t.used then
    whenSettled t.vf cmd (fun s => if t.rpl then answer noEntry [] s else k t s) s
  else match savedEntry s.mgmt s.m c i with
    | some vf => whenSettled vf cmd id s
    | none => answer noEntry [] s
def execReplay (c i : Nat) (s : State) : Host.Outcome State Fault Refusal :=
  if coreOk c then .next (onEntry c i (.replay c i) (fun _ s => done (replayEntry s.mgmt s.m c i) s) s) else .fault .noSuchUnit
/-- The instruction becomes a record of its group, which halts; of a group that has ended it is lost (log entry 23). -/
def discardEntry (c i : Nat) (t : LogEnt) (m : Mach) : Mach :=
  let s := accPlace m c t.slot t.op
  let m := freeEntry m c i
  let m := if (grp m c s).status = .gone then dropOp (modGrp m c s fun g => { g with log := none }) c s t.op
    else modGrp m c s fun g => match findAcc g t.op with
      | some op => { opToRec g op with log := none }
      | none => { g with log := none }
  let r : Report := { cls := 2, code := fXlate, word := t.word, clause := t.clause, addr := t.faultVa, elem := t.elem, info := t.cause }
  if (grp m c s).active then haltGroup m c s r else m
def execDiscard (c i : Nat) (s : State) : Host.Outcome State Fault Refusal :=
  if coreOk c then .next (onEntry c i (.discard c i) (fun t s => done (discardEntry c i t s.m) s) s) else .fault .noSuchUnit

/-! ## GETVP and SETVP (R323, R332) -/

/-- A VP's position: its own in a diverged run, the shared one in lock-step, and where it goes on if it has completed a suspended
instruction; outside a run it is idle where its program counter was left (R37, R47, R262). -/
def vpState (g : Group) (e : Nat) : VpPos :=
  match g.run with
  | none => { vpIdle with pc := pcOf g e }
  | some r =>
    if r.vl ≤ e then { vpIdle with pc := pcOf g e }
    else if r.diverged then vpPos g e
    else if e < r.from_ then { pc := r.past.1, w := r.past.2, idle := false, parked := none }
    else { pc := r.pc, w := r.w, idle := false, parked := none }
def vpWords (g : Group) (e : Nat) : List Word :=
  let p := vpState g e
  [BitVec.ofNat 64 (fieldW p.w 63 59 + (if p.idle then 2 ^ 58 else 0) + (if p.parked.isSome then 2 ^ 57 else 0) + fieldW p.pc 54 0),
   BitVec.ofNat 64 (fullBits 8 (fun j => getFe g (.c j e) == .full) * 2 ^ 40 + fullBits 8 (fun j => getC g j e) * 2 ^ 32
     + (mget 1 g.srs e).toNat)]
def getvpCmd (vf c sl first count addr : Nat) (s : State) : State :=
  onGroup vf c sl (.getvp vf c sl first count addr) (fun s =>
    let g := grp s.m c sl
    if g.vlmax < first + count then answer denied [] s
    else groupOverHost vf (.getvp vf c sl first count addr)
      (fun s => done (hostWrites s.m addr ((List.range count).flatMap fun i => vpWords g (first + i))) s) s) s
def execGetvp (vf c sl first count addr : Nat) (s : State) : Host.Outcome State Fault Refusal :=
  if vfOk vf && groupOk c sl then .next (getvpCmd vf c sl first count addr s) else .fault .noSuchUnit

/-- A full bit the driver writes: a claimed register stays claimed until its producer completes (R33). -/
def setFull (g : Group) (r : Reg) (full : Bool) : Group :=
  if getFe g r == .claimed then g else setFe g (if full then .full else .opened) r
/-- The c registers and the rounding state of a VP; a zero state is written as 1, as srseed writes it (R95, log entry 119). -/
def setVpMasks (g : Group) (e : Nat) (w : Word) : Group :=
  let g := (List.range 8).foldl (fun g j => setFull { g with c := if j == 0 then g.c else mmod [] g.c j fun r => mset false r e (w.getLsbD (32 + j)) }
    (.c j e) (w.getLsbD (40 + j))) g
  { g with srs := mset 1 g.srs e (if w.extractLsb' 0 32 = 0 then 1 else w.extractLsb' 0 32) }
/-- A VP's position with the fields of its record written. -/
def writePos (old : VpPos) (w : Word) : VpPos :=
  { pc := bitsOf w.toNat 54 0, w := max 1 (bitsOf w.toNat 63 59), idle := w.getLsbD 58,
    parked := if w.getLsbD 57 then some (old.parked.getD (.full [])) else none }
/-- The run after its positions were written: as it was if none changes, over if all are idle, in lock-step still if all VPs share one. -/
def setVpRun (g : Group) (r : Run) (ts : List VpPos) : Group :=
  let p := ts.headD vpIdle
  let vps := msetAll vpIdle [] (ts.zipIdx.map fun q => (q.2, q.1))
  if ts.all (·.idle) then endRun { g with waitV := none, run := some { r with diverged := true }, vps := vps }
  else if !r.diverged && ts == (List.range r.vl).map (vpState g) then g
  else if !r.diverged && ts.all (fun q => q = { p with parked := none }) then
    { g with waitV := none, run := some { r with pc := p.pc, w := p.w, from_ := 0 } }
  else { g with waitV := none, run := some { r with diverged := true, from_ := 0 }, vps := vps }
/-- The positions of the VPs of the run, and the program counters of those outside it, as the driver writes them (R47). -/
def setVpPos (g : Group) (ps : List (Nat × Word)) : Group :=
  let vl := (g.run.map (·.vl)).getD 0
  let out : List (Nat × Word) := ps.filter fun p => vl ≤ p.1
  let g := { g with pcs := out.foldl (fun (t : Map Nat) (p : Nat × Word) => mput p.1 (bitsOf p.2.toNat 54 0) t) g.pcs }
  match g.run with
  | none => g
  | some r =>
    if out.length == ps.length then g
    else setVpRun g r ((List.range r.vl).map fun e => match ps.find? (fun p => p.1 == e) with
      | some p => writePos (vpState g e) p.2
      | none => vpState g e)
def setvpCmd (vf c sl first count addr : Nat) (s : State) : State :=
  onGroup vf c sl (.setvp vf c sl first count addr) (fun s =>
    let g := grp s.m c sl
    if g.status != .halted || g.vlmax < first + count then answer denied [] s
    else groupOverHost vf (.setvp vf c sl first count addr) (fun s =>
      let ps := (List.range count).map fun i => (first + i, hostRead s.m (addr + 16 * i))
      let qs := (List.range count).map fun i => (first + i, hostRead s.m (addr + 16 * i + 8))
      done (modGrp s.m c sl fun g => setVpPos (qs.foldl (fun g q => setVpMasks g q.1 q.2) g) ps) s) s) s
def execSetvp (vf c sl first count addr : Nat) (s : State) : Host.Outcome State Fault Refusal :=
  if vfOk vf && groupOk c sl then .next (setvpCmd vf c sl first count addr s) else .fault .noSuchUnit

/-! ## WRCTX, CLEARREC, CLOSECHAIN -/

/-- A field of the context block that WRCTX writes. -/
def writeCtx (g : Group) (off : Nat) (x : Word) : Option Group :=
  let n := x.toNat
  match off with
  | 0x20 =>
    let scan := g.scan.filter fun q => q.clause == bitsOf n 54 0 && q.word == bitsOf n 63 59
    some { g with pcword := max 1 (bitsOf n 63 59), pc := bitsOf n 54 0, held := none, begunC := false, waitC := none, scan := scan }
  | 0x28 => some { g with vstart := min 1024 (bitsOf n 26 16), vkept := none, scan := g.scan.filter fun q => q.prog == bitsOf n 26 16 }
  | 0x30 => some { g with ftz := x.getLsbD 12, drm := if 6 ≤ bitsOf n 10 8 then g.drm else x.extractLsb' 8 3, fflags := x.extractLsb' 0 5 }
  | 0x38 => some ((List.range 8).foldl (fun g j =>
      setFull { g with p := if j == 0 then g.p else mset false g.p j (x.getLsbD j) } (.p j) (x.getLsbD (8 + j))) g)
  | 0x40 => some ((List.range 64).foldl (fun g j => setFull g (.x j) (x.getLsbD j)) g)
  | 0x48 => some ((List.range 64).foldl (fun g j => setFull g (.x (64 + j)) (x.getLsbD j)) g)
  | 0x68 => some { g with tsave := bitsOf n 54 12 * 4096 }
  | _ => none
def wrctxCmd (vf c sl off : Nat) (x : Word) (s : State) : State :=
  onGroup vf c sl (.wrctx vf c sl off x) (fun s =>
    let g := grp s.m c sl
    match (if g.status = .halted then writeCtx g off x else none) with
    | some g => done (setGrp s.m c sl g) s
    | none => answer denied [] s) s
def execWrctx (vf c sl off : Nat) (x : Word) (s : State) : Host.Outcome State Fault Refusal :=
  if vfOk vf && groupOk c sl then .next (wrctxCmd vf c sl off x s) else .fault .noSuchUnit
def clearRecs (c vf : Nat) (m : Mach) : Mach := modCore m c fun k => { k with eng := k.eng.filter fun kv => kv.2.vf != vf || !kv.2.used }
def execClearrec (c vf : Nat) (s : State) : Host.Outcome State Fault Refusal :=
  if coreOk c && vfOk vf then .next (whenSettled vf (.clearrec c vf) (fun s => done (clearRecs c vf s.m) s) s) else .fault .noSuchUnit
def closechainCmd (vf : Nat) (id : Word) (s : State) : State :=
  whenSettled vf (.closechain vf id) (fun s =>
    if !idCurrent (vfst s.m vf) id || (chainOf (vfst s.m vf) (idChain id)).closing then answer denied [] s
    else done (closeChain vf (idChain id) s.m) s) s
def execClosechain (vf : Nat) (id : Word) (s : State) : Host.Outcome State Fault Refusal :=
  if vfOk vf then .next (closechainCmd vf id s) else .fault .noSuchUnit

/-! ## RESETVF (R331) -/

/-- An access in flight is performed, or not. -/
def maybePerform (mg : Mgmt) (c s : Nat) (op : MemOp) (m : Mach) (el : Elem) : Mach :=
  if !drainable m c s op el && !(m.sysOut.any fun a => a.uid == (grp m c s).uid && a.op == op.id && a.el.e == el.e) then m
  else
    let (k, m) := pick m 2
    if k == 0 then performOr mg m c s op [el] else m
def flushGroup (mg : Mgmt) (m : Mach) (c s : Nat) : Mach :=
  (grp m c s).acc.foldl (fun m op => op.elems.foldl (maybePerform mg c s op) m) m
/-- Tiles that the virtual function owns are released; what another context holds in one is saved first (R44). -/
def freeTiles (mg : Mgmt) (vf : Nat) (m : Mach) : Mach :=
  (m.cores.map Prod.fst).foldl (fun m c => (List.range 8).foldl (fun m t =>
    if (tileOwnOf m c t).owner.any (·.vf == vf) then
      let m := if (tileOwnOf m c t).holder.any (·.vf != vf) then saveImage mg m c t else m
      setTileOwn (rawTileSt (wipeTile m c t) c t .empty) c t {}
    else m) m) m
/-- Entries of LS tiles whose copy is gone. -/
def freeLsTiles (y : Yard) (t : Map TileEnt) : Map TileEnt :=
  t.map fun kv => if ownsEnt y kv && (kv.2.st == .filling || kv.2.st == .draining) then (kv.1, { kv.2 with st := .empty }) else kv
def resetCores (y : Yard) (vf : Nat) (m : Mach) : Mach :=
  (storeCores y).foldl (fun m c =>
    let off := fun (i : Issue) => (grp m c i.slot).vf == vf
    modCore m c fun k =>
      { k with issue := k.issue.filter (fun i => !off i), jobs := k.jobs.filter (fun j => j.vf != vf), log := k.log.filter (fun kv => kv.2.vf != vf),
               eng := k.eng.filter (fun kv => kv.2.vf != vf), tiles := freeLsTiles y k.tiles }) m
def resetClusters (y : Yard) (vf : Nat) (m : Mach) : Mach :=
  (storeClusters y).foldl (fun m k => modClus m k fun q =>
    { q with loops := q.loops.filter (fun l => l.vf != vf), stalls := q.stalls.filter (fun kv => !stallOf vf kv.2),
             hayLoading := q.hayLoading.filter (fun l => !hayLine y l), recv := if y.lane then q.recv else [],
             adds := if y.lane then q.adds else [], rowN := if y.lane then q.rowN else 0, colN := if y.lane then q.colN else 0,
             rowBad := if y.lane then q.rowBad else [], colBad := if y.lane then q.colBad else [],
             timer := if y.lane then q.timer else 0x800 }) m
/-- Bytes a context area needs for a yard's shape (R348). -/
def contextSize (y : Yard) : Nat :=
  let k := 1024
  let mb := 1048576
  if y.lane then 64 * k + (mb + 512 * k) * y.l / 16 + y.l * (32 * k) + 128 * k
  else 64 * k + (yardClusters y).length * (4 * (mb + 512 * k + 128 * k) + 2 * mb + 64 * k)
/-- The bytes of the context area are cleared. -/
def clearArea (mg : Mgmt) (vf : Nat) (m : Mach) : Mach :=
  match shapeYard mg m vf with
  | some yn => scrubBytes m [((vfEnt mg vf).ctx, contextSize (yardEnt mg yn))]
  | none => m
def resetVf (mg : Mgmt) (vf : Nat) (m : Mach) : Mach :=
  let m := (vfAll m vf).foldl (fun m t => flushGroup mg m t.1 t.2.1) m
  let m := match (vfst m vf).home with
    | some yn => resetClusters (yardEnt mg yn) vf (resetCores (yardEnt mg yn) vf m)
    | none => m
  let m := clearArea mg vf (freeTiles mg vf m)
  let m := { m with groups := m.groups.filter (fun kg => kg.2.status == .free || kg.2.vf != vf), saved := mset {} m.saved vf {},
                    orphans := m.orphans.filter (fun o => o.vf != vf), sysOut := m.sysOut.filter fun a => a.vf != vf }
  modVf m vf fun v =>
    { v with cnt := [], chains := [], sends := [], launched := [], overflow := [], ovTail := 0, stopped := false, cmds := [] }
/-- The commands that waited for the context are denied: it is gone (log entry 120). -/
def denyCmds (ds : List Deferred) (s : State) : State :=
  let mg := s.mgmt
  let t := ds.foldl (fun s d => respond (answer denied [] { s with mgmt := { s.mgmt with from_ := d.port } })) s
  { t with mgmt := { t.mgmt with from_ := mg.from_, status := mg.status, result := mg.result } }
def resetVfCmd (vf : Nat) (s : State) : State :=
  if !(vfEnt s.mgmt vf).en then answer denied [] s
  else done (resetVf s.mgmt vf s.m) (denyCmds (vfst s.m vf).cmds s)
def execResetvf (vf : Nat) (s : State) : Host.Outcome State Fault Refusal :=
  if vfOk vf then .next (resetVfCmd vf s) else .fault .noSuchUnit

end Sys2Proof.Machine
end

