-- ==== Sys2Proof/Machine/Farrier.lean ====
section
/-! DEFINITION. The Farrier: the configuration semaphore (R344), the management commands (R294 to R303, R308, R311, R341, R345 to
R351), errors (R333 to R335), links (R340, R341, R346), resets and limits (R347, R349 to R351). -/

namespace Sys2Proof.Machine

/-! ## CFGSEM and doorbells (R342, R344) -/

/-- 1.000 s. -/
def semTime : Nat := 1000000 * cyclesPerUs
/-- The semaphore without a holder whose timer has expired. -/
def expire (now : Nat) (mg : Mgmt) : Mgmt := if mg.holder != 0 && mg.semDue ≤ now then { mg with holder := 0 } else mg
/-- A write of 1 or 2 by a port. -/
def semWrite (p : Nat) (acquire : Bool) (now : Nat) (mg : Mgmt) : Mgmt :=
  let mg := expire now mg
  if acquire then
    if mg.holder != 0 && mg.holder != p then mg
    else { mg with holder := p, epoch := if mg.holder == p then mg.epoch else (mg.epoch + 1) % 65536, semDue := now + semTime }
  else if mg.holder == p then { mg with holder := 0 } else mg
/-- A write by a port; the mailbox's is taken before one that the sideband has made in the same cycle. -/
def semStep (p : Nat) (acquire : Bool) (s : State) : State :=
  let mg := s.mgmt
  let now := s.m.now
  if !portUp mg p then s
  else if p == 2 then
    let was : SemWrite := { at_ := now, acquire := acquire, holder := mg.holder, epoch := mg.epoch, due := mg.semDue }
    { s with mgmt := { semWrite 2 acquire now mg with semSide := some was } }
  else match mg.semSide.filter fun w => w.at_ == now with
    | some w =>
      { s with mgmt := semWrite 2 w.acquire now (semWrite 1 acquire now { mg with holder := w.holder, epoch := w.epoch, semDue := w.due }) }
    | none => { s with mgmt := semWrite 1 acquire now mg }
def acquireStep (p : Nat) (s : State) : State := semStep p true s
def execCfgsemAcquire (p : Nat) (s : State) : Host.Outcome State Fault Refusal :=
  if portOk p then .next (acquireStep p s) else .fault .noSuchUnit
def releaseStep (p : Nat) (s : State) : State := semStep p false s
def execCfgsemRelease (p : Nat) (s : State) : Host.Outcome State Fault Refusal :=
  if portOk p then .next (releaseStep p s) else .fault .noSuchUnit
def semTimeout (s : State) : State := { s with mgmt := expire s.m.now s.mgmt }
def execCfgsemTimeout (s : State) : Host.Outcome State Fault Refusal := .next (semTimeout s)
/-- The sideband's doorbell rang in the present cycle: its request is not taken before one of the mailbox's in the same cycle. -/
def justRang (s : State) (p : Nat) : Bool := p == 2 && (portOf s.mgmt 2).rang == s.m.now
def doorbellStep (p : Nat) (s : State) : State :=
  let mg := s.mgmt
  if (portOf mg p).busy || !portUp mg p then s
  else
    let queue := if p == 1 && mg.queue == [2] && justRang s 2 then [1, 2] else mg.queue ++ [p]
    { s with mgmt := { modPort mg p (fun q => { q with busy := true, rang := s.m.now }) with queue := queue } }
def execDoorbell (p : Nat) (s : State) : Host.Outcome State Fault Refusal :=
  if portOk p then .next (doorbellStep p s) else .fault .noSuchUnit

/-! ## Arguments -/

def arg (s : State) (i : Nat) : Word := (s.mgmt.args[i]?).getD 0
def argN (s : State) (i : Nat) : Nat := (arg s i).toNat
def setMgmt (mg : Mgmt) (s : State) : State := { s with mgmt := mg }
def succeed (mg : Mgmt) (s : State) : State := answer okSt [] (setMgmt mg s)
/-- MSI-X vectors 0 and 1, and 64 and 65 for the in-band interrupts of the sideband. -/
def raiseAlert (mg : Mgmt) : Mgmt := { mg with alert := true, msix := mg.msix ++ [1, 65] }

/-! ## YARDSET (R294, R295) -/

/-- Four doublewords of a yard-table entry, and an entry as four doublewords. -/
def yardOf (w0 w1 w2 w3 : Nat) : Yard :=
  { v := bitAt w0 63, lane := bitAt w0 62, core := bitsOf w0 40 32, b := bitsOf w0 11 8, l := bitsOf w0 4 0,
    cl := w1 + bitsOf w2 31 0 * 2 ^ 64, wlog := bitsOf w3 19 16, wbase := bitsOf w3 9 0 }
def yardWords (y : Yard) : List Nat :=
  [(if y.v then 2 ^ 63 else 0) + (if y.lane then 2 ^ 62 else 0) + fieldW y.core 40 32 + fieldW y.b 11 8 + fieldW y.l 4 0,
   y.cl % 2 ^ 64, y.cl / 2 ^ 64 % 2 ^ 32, fieldW y.wlog 19 16 + fieldW y.wbase 9 0]
/-- A V entry is well formed. -/
def yardWf (mg : Mgmt) (y : Yard) : Bool :=
  let wlogOk := 5 ≤ y.wlog && y.wlog ≤ 10 && y.wbase % 2 ^ y.wlog == 0
  let kindOk :=
    if y.lane then
      (y.l == 1 || y.l == 2 || y.l == 4 || y.l == 8 || y.l == 16) && y.b % y.l == 0 && y.cl == 0 && y.core < 384
        && !mg.retCores.contains y.core
    else
      y.core == 0 && y.b == 0 && y.l == 0 && (List.range 96).any fun k =>
        bitAt y.cl k && (List.range 4).any fun i => !mg.retCores.contains (4 * k + i)
  wlogOk && kindOk
/-- Two yards do not share a cluster, a core, a lane or a set. -/
def yardsApart (a b : Yard) : Bool :=
  let sets := a.wbase + 2 ^ a.wlog ≤ b.wbase || b.wbase + 2 ^ b.wlog ≤ a.wbase
  let units := match a.lane, b.lane with
    | false, false => a.cl &&& b.cl == 0
    | true, true => a.core != b.core || a.b + a.l ≤ b.b || b.b + b.l ≤ a.b
    | true, false => !bitAt b.cl (clusterOf a.core)
    | false, true => !bitAt a.cl (clusterOf b.core)
  sets && units
def yardTableOk (mg : Mgmt) (t : Map Yard) : Bool :=
  let ys := t.filter fun kv => kv.2.v
  ys.all (fun kv => yardWf mg kv.2) && ys.all fun a => ys.all fun b => a.1 == b.1 || yardsApart a.2 b.2
/-- Entries given as index and four doublewords each. -/
def yardArgs : List Word → Option (List (Nat × Yard))
  | [] => some []
  | i :: a :: b :: c :: d :: r =>
    if 32 ≤ i.toNat then none else (yardArgs r).map fun l => (i.toNat, yardOf a.toNat b.toNat c.toNat d.toNat) :: l
  | _ => none
def yardset (s : State) : State :=
  match yardArgs s.mgmt.args with
  | none => answer refusedSt [] s
  | some es =>
    let t := msetAll {} s.mgmt.yards es
    let runs := es.any fun e => e.2 != yardEnt s.mgmt e.1 && (yrun s.m e.1).phase != .idle
    if runs || !yardTableOk s.mgmt t then answer refusedSt [] s else succeed { s.mgmt with yards := t } s
def execYardset (s : State) : Host.Outcome State Fault Refusal := .next (yardset s)

/-! ## VFSET (R299, R308, R311) -/

def granules : Nat := 1536
def vfWords (v : VfEnt) : List Nat :=
  [(if v.en then 2 ^ 63 else 0) + (if v.privok then 2 ^ 62 else 0) + (if v.linkok then 2 ^ 61 else 0),
   fieldW v.sizeg 26 16 + fieldW v.baseg 10 0, fieldW v.seed 44 0, fieldW (v.ctx / 4096) 51 12]
/-- The segments that other virtual functions have, a change that waits for an edge not counted. -/
def segTaken (mg : Mgmt) (vf size base : Nat) : Bool :=
  mg.vfs.any fun kv => kv.1 != vf && base < kv.2.baseg + kv.2.sizeg && kv.2.baseg < base + size
def setEn (mg : Mgmt) (vf : Nat) (w0 w3 : Nat) : Mgmt :=
  { mg with vfs := mmod {} mg.vfs vf fun v =>
      { v with en := bitAt w0 63, privok := bitAt w0 62, linkok := bitAt w0 61, ctx := bitsOf w3 51 12 * 4096 } }
/-- A virtual function whose EN is clear takes an edge to idle. -/
def idleDisabled (s : State) : State := { s with m := edgeToIdle s.mgmt (fun v => !(vfEnt s.mgmt v).en) s.m }
/-- A segment change: at once, or at the next edge of a virtual function on its cores. -/
def segmentCmd (vf size base : Nat) (s : State) : State :=
  let v := vfEnt s.mgmt vf
  if v.sizeg == size && v.baseg == base then { s with mgmt := { s.mgmt with pendSeg := mset none s.mgmt.pendSeg vf none } }
  else if (vfst s.m vf).home.isSome then
    { s with mgmt := { s.mgmt with pendSeg := mset none s.mgmt.pendSeg vf (some (size, base)) } }
  else changeSegment vf size base s
/-- One entry: number and four doublewords; with no argument, EN of every entry is cleared (R308). -/
def vfset (s : State) : State :=
  if s.mgmt.args.isEmpty then
    answer okSt [] (idleDisabled (setMgmt { s.mgmt with vfs := s.mgmt.vfs.map fun kv => (kv.1, { kv.2 with en := false }) } s))
  else
    let vf := argN s 0
    let size := bitsOf (argN s 2) 26 16
    let base := bitsOf (argN s 2) 10 0
    if 512 ≤ vf || granules < base + size || segTaken s.mgmt vf size base
        || s.mgmt.pendSeg.any (fun kv => kv.1 != vf && kv.2.any fun q => base < q.2 + q.1 && q.2 < base + size) then
      answer refusedSt [] s
    else answer okSt [] (idleDisabled (segmentCmd vf size base (setMgmt (setEn s.mgmt vf (argN s 1) (argN s 4)) s)))
def execVfset (s : State) : Host.Outcome State Fault Refusal := .next (vfset s)

/-! ## SLOTSET and SLOTCTL (R301 to R303, R348) -/

def slotOf (w : Nat) : SlotEnt :=
  { run := bitAt w 63, vf := bitsOf w 56 48, hbmsh := bitsOf w 47 40, linksh := bitsOf w 39 32, slack := bitAt w 31 }
def slotWord (e : SlotEnt) : Nat :=
  (if e.run then 2 ^ 63 else 0) + fieldW e.vf 56 48 + fieldW e.hbmsh 47 40 + fieldW e.linksh 39 32 + (if e.slack then 2 ^ 31 else 0)
def rowWord (r : Row) : Nat := (if r.rv then 2 ^ 63 else 0) + fieldW r.len 16 0
/-- Bytes of a context area: from CTX to the next segment, context area or end of HBM. -/
def contextRoom (mg : Mgmt) (vf : Nat) : Nat :=
  let a := (vfEnt mg vf).ctx
  let inside := mg.vfs.any fun kv => kv.2.baseg * 2 ^ 29 ≤ a && a < (kv.2.baseg + kv.2.sizeg) * 2 ^ 29
  let ends := (mg.vfs.flatMap fun kv =>
    (if kv.2.sizeg == 0 then [] else [kv.2.baseg * 2 ^ 29]) ++ (if kv.1 == vf then [] else [kv.2.ctx])).filter (a < ·)
  if inside || granules * 2 ^ 29 ≤ a || mg.vfs.any (fun kv => kv.1 != vf && kv.2.en && kv.2.ctx == a) then 0
  else ends.foldl min (granules * 2 ^ 29) - a
def sumOf (f : SlotEnt → Nat) (r : Row) : Nat := r.ents.foldl (fun t kv => t + f kv.2) 0
/-- The yards a virtual function appears in, over rows in use. -/
def yardsIn (rows : Map Row) (vf : Nat) : List Nat :=
  (List.range 32).filter fun yn => rows.any fun kv => kv.2.rv && (mget {} kv.2.ents yn).run && (mget {} kv.2.ents yn).vf == vf
/-- A RUN entry of a row is in order. -/
def entOk (mg : Mgmt) (rows : Map Row) (yn : Nat) (e : SlotEnt) : Bool :=
  let v := vfEnt mg e.vf
  let y := yardEnt mg yn
  v.en && y.v && (yardsIn rows e.vf).all (fun o => sameShape (yardEnt mg o) y)
    && !(e.hbmsh == 0 && !e.slack && v.sizeg != 0) && !(e.linksh == 0 && !e.slack && v.linkok)
    && contextSize y ≤ contextRoom mg e.vf
/-- The row in use that runs before a row, of the rows that run. -/
def rowBefore (rows : Map Row) (r : Nat) : Option Nat :=
  let used := (rows.filter fun kv => kv.2.rv).map Prod.fst
  ((used.filter (· < r)).getLast?).orElse fun _ => used.getLast?
def rowEnt (rows : Map Row) (r yn : Nat) : SlotEnt := mget {} (mget {} rows r).ents yn
/-- Long enough for the yards that change hands at its start. -/
def rowLenOk (mg : Mgmt) (guard : Nat) (rows : Map Row) (r : Nat) : Bool :=
  match rowBefore rows r with
  | none => true
  | some p => (List.range 32).all fun yn =>
    let a := rowEnt rows p yn
    let b := rowEnt rows r yn
    (a.run == b.run && (!a.run || a.vf == b.vf)) || switchUs (yardEnt mg yn) + guard + 10 ≤ (mget {} rows r).len
/-- R302, R303 and R348 for one row of a table, in use or not, its length against the changes of hands apart; LEN is that of a row in use. -/
def rowOk (mg : Mgmt) (rows : Map Row) (r : Nat) : Bool :=
  let w := mget {} rows r
  let runs := w.ents.filter fun kv => kv.2.run
  (!w.rv || (50 ≤ w.len && w.len ≤ 100000)) && (sumOf (·.hbmsh) w ≤ 256 && sumOf (·.linksh) w ≤ 256
    && runs.all (fun a => runs.all fun b => a.1 == b.1 || a.2.vf != b.2.vf) && runs.all (fun kv => entOk mg rows kv.1 kv.2))
/-- Every row that runs is long enough, of the first n. -/
def lensOk (mg : Mgmt) (guard n : Nat) (rows : Map Row) : Bool :=
  let used := rows.filter fun kv => kv.1 < n
  used.all fun kv => !kv.2.rv || rowLenOk mg guard used kv.1
/-- The table and GUARD as they will stand at the next boundary. -/
def nextTable (mg : Mgmt) : Mgmt := applyTable mg
/-- Row and first yard, the row's first doubleword, then entries of consecutive yards. -/
def slotset (s : State) : State :=
  let mg := s.mgmt
  let next := nextTable mg
  let r := argN s 0 % 256
  let y0 := argN s 0 / 256
  let ents := (mg.args.drop 2).zipIdx.map fun p => (y0 + p.2, slotOf p.1.toNat)
  let old := mget {} next.rows r
  let row : Row := { rv := bitAt (argN s 1) 63, len := bitsOf (argN s 1) 16 0, ents := msetAll {} old.ents ents }
  let rows := mset {} next.rows r row
  if 64 ≤ r || 32 < y0 + ents.length || !rowOk mg rows r || !lensOk mg next.guard next.nrows rows then answer refusedSt [] s
  else if mg.enable then succeed { mg with pendRows := mset none mg.pendRows r (some row) } s
  else succeed { mg with rows := mset {} mg.rows r row } s
def execSlotset (s : State) : Host.Outcome State Fault Refusal := .next (slotset s)
/-- SLOTCTL, then GUARD; NROWS 0 stands for 64. -/
def slotctl (s : State) : State :=
  let mg := s.mgmt
  let n := bitsOf (argN s 0) 5 0
  let rows := if n == 0 then 64 else n
  let guard := bitsOf (argN s 1) 9 0
  if guard < 5 || 1000 < guard || !lensOk mg guard rows (nextTable mg).rows then answer refusedSt [] s
  else
    let mg := { mg with pendCtl := some (bitAt (argN s 0) 63, rows, guard) }
    answer okSt [] (if mg.enable then setMgmt mg s else startTable (setMgmt mg s))
def execSlotctl (s : State) : Host.Outcome State Fault Refusal := .next (slotctl s)

/-- R298: the command waits while the virtual function is on its cores; then its lines leave every cache and the seed changes. -/
def seedset (s : State) : State :=
  let vf := argN s 0
  if 512 ≤ vf then answer refusedSt [] s
  else if (vfst s.m vf).home.isSome then { s with mgmt := { s.mgmt with status := none } }
  else
    let clean := fun (k : Core) => { k with leases := k.leases.filter fun l => segOwner s.mgmt (128 * l.1) != some vf }
    let m := { s.m with l2 := s.m.l2.filter (fun l => l.vf != vf), cores := s.m.cores.map fun kv => (kv.1, clean kv.2) }
    let seed := bitsOf (argN s 1) 44 0
    succeed { s.mgmt with vfs := mmod {} s.mgmt.vfs vf fun v => { v with seed := seed } } { s with m := m }
def execSeedset (s : State) : Host.Outcome State Fault Refusal := .next (seedset s)

/-! ## Retirement (R346, R347) -/

/-- R346: every route is computed again, by the links that are not retired. -/
def recomputeRoutes (mg : Mgmt) : Mgmt :=
  let ls := (List.range 18).filter fun l => (linkOf mg l).st != 2
  { mg with routes := msetAll none mg.routes ((List.range 64).filterMap fun d => (boardRoute ls d).map fun r => (d, some r)) }
/-- A virtual function loses its accesses that left by a link, those of its ended groups too: the groups take UNCORRECTABLE with INFO 8, the
others halt with them. -/
def loseLink (mg : Mgmt) (l vf : Nat) (m : Mach) : Mach :=
  let out := m.sysOut.filter fun a => a.vf == vf && a.link == some l
  if out.isEmpty then m
  else
    let hit := fun (g : Group) (op : MemOp) (el : Elem) => out.any fun a => a.uid == g.uid && a.op == op.id && a.el.e == el.e
    let one := fun (m : Mach) (t : Nat × Nat × Group) =>
      match out.find? fun a => a.uid == t.2.2.uid with
      | none => m
      | some a =>
        let m := abandonGroup mg hit m t.1 t.2.1
        if (grp m t.1 t.2.1).active then haltGroup m t.1 t.2.1 { cls := 3, code := fUncorr, addr := a.el.pa, info := 8 } else m
    haltOthers ((vfAll m vf).foldl one m) vf fUncorr 0
def markRetired (mg : Mgmt) : Mgmt := raiseAlert { mg with replace := true }
def modLink (mg : Mgmt) (l : Nat) (f : LinkSt → LinkSt) : Mgmt := { mg with links := mmod {} mg.links l f }
def retireLink (l : Nat) (s : State) : State :=
  let m := (s.m.vfst.map Prod.fst).foldl (fun m vf => loseLink s.mgmt l vf m) s.m
  routedCommands { s with m := m, mgmt := recomputeRoutes (markRetired (modLink s.mgmt l fun q => { q with st := 2 })) }
/-- A yard on the core is in use. -/
def coreInUse (mg : Mgmt) (m : Mach) (c : Nat) : Bool :=
  (List.range 32).any fun yn => yardHolds (yardEnt mg yn) c && (yrun m yn).phase != .idle
def retireBank (n : Nat) (s : State) : State :=
  let m := { s.m with l2 := s.m.l2.filter fun l => l.shed * 31 + l.bank != n }
  { s with m := m, mgmt := { s.mgmt with retBanks := if s.mgmt.retBanks.contains n then s.mgmt.retBanks else s.mgmt.retBanks ++ [n] } }
/-- Retires lane (0), core (1), L2 bank (2) or link (3) n; lanes and cores in use at the next edge of their yard. -/
def retireUnit (kind n : Nat) (s : State) : State :=
  let mg := s.mgmt
  match kind with
  | 0 => setMgmt (markRetired (if coreInUse mg s.m (n / 16) then { mg with pendLanes := mg.pendLanes ++ [n] } else retireLane mg n)) s
  | 1 => setMgmt (markRetired (if coreInUse mg s.m n then { mg with pendCores := mg.pendCores ++ [n] } else retireCore mg n)) s
  | 2 => let s := retireBank n s; setMgmt (markRetired s.mgmt) s
  | _ => retireLink n s
def unitExists (kind n : Nat) : Bool :=
  (kind == 0 && n < 6144) || (kind == 1 && n < 384) || (kind == 2 && n < 248) || (kind == 3 && n < 18)
def retireCmd (s : State) : State :=
  if unitExists (argN s 0) (argN s 1) then answer okSt [] (retireUnit (argN s 0) (argN s 1) s) else answer refusedSt [] s
def execRetire (s : State) : Host.Outcome State Fault Refusal := .next (retireCmd s)
def execClearalert (s : State) : Host.Outcome State Fault Refusal := .next (succeed { s.mgmt with alert := false } s)

/-! ## Errors (R333 to R335) -/

/-- The virtual function that owns the data at an address of a unit (R334). -/
def dataOwner (mg : Mgmt) (m : Mach) (unit pa : Nat) : Option Nat :=
  let yardVf := fun (c lane : Nat) => match yardAt mg c lane with
    | none => none
    | some yn => match (yrun m yn).phase with
      | .running v => some v | .draining v _ => some v | .switching v _ => v | .idle => none
  if unit ≤ 3 then segOwner mg pa
  else match winLoc pa with
    | .core c o =>
      if unit == 7 then ((tileOwnOf m c ((o - 0x180000) / 0x1000)).owner).map (·.vf)
      else yardVf c (if unit == 5 then o / 0x10000 else (o - 0x100000) / 0x8000)
    | .cluster k o => yardVf (4 * k + o / 0x80000) (o % 0x80000 / 0x8000)
    | .nowhere => none
/-- The unit that retirement would take out: kind and number. -/
def failingUnit (mg : Mgmt) (m : Mach) (unit pa : Nat) : Option (Nat × Nat) :=
  match unit with
  | 2 => let h := homeOf mg m pa; some (2, h.shed * 31 + h.bank)
  | 4 | 7 => match winLoc pa with | .core c _ => some (1, c) | _ => none
  | 5 => match winLoc pa with | .core c o => some (0, 16 * c + o / 0x10000) | _ => none
  | _ => none
def hourTime : Nat := 3600 * 1000000 * cyclesPerUs
/-- A corrected error is noted against its unit; more than 1,000 in an hour retire it. -/
def noteCorrected (kind n : Nat) (s : State) : State :=
  let key := 8192 * kind + n
  let times := ((mget [] s.mgmt.recent key).filter fun t => s.m.now < t + hourTime) ++ [s.m.now]
  let s := setMgmt { s.mgmt with recent := mset [] s.mgmt.recent key times } s
  if 1000 < times.length then retireUnit kind n s else s
def singleBit (unit pa : Nat) (vf : Option Nat) (s : State) : State :=
  let owner := if unit == 2 || unit == 3 then vf.orElse fun _ => dataOwner s.mgmt s.m unit pa else dataOwner s.mgmt s.m unit pa
  let m := match owner with | some v => count1 s.m v 0x0E | none => s.m
  let mg := { s.mgmt with corr := mmod 0 s.mgmt.corr unit (· + 1) }
  match failingUnit mg m unit pa with
  | some (k, n) => noteCorrected k n { s with m := m, mgmt := mg }
  | none => { s with m := m, mgmt := mg }
def unitCode (u : Nat) : Bool := 1 ≤ u && u ≤ 7
def execSingleBitError (unit pa : Nat) (vf : Option Nat) (s : State) : Host.Outcome State Fault Refusal :=
  if unitCode unit then .next (singleBit unit pa vf s) else .fault .noSuchUnit
/-- The instruction whose access met an error at an address: one of the group's accesses there, else where its issue stands. -/
def meetingReport (m : Mach) (c sl pa : Nat) : Report :=
  let g := grp m c sl
  let hit := fun (op : MemOp) => (op.elems.find? fun el => el.pa < pa / 8 * 8 + 8 && pa / 8 * 8 < el.pa + el.size).map fun el =>
    ({ word := op.word, clause := op.clause, elem := el.e } : Report)
  (g.acc.findSome? hit).getD { word := g.pcword, clause := g.pc }
/-- A copy that the next level has as well: a line of L1, or one of L2 that has not been written (R333). -/
def cleanCopy (m : Mach) (unit pa : Nat) : Bool := unit == 3 || (unit == 2 && !mget false m.dirty (pa / 128))
/-- An uncorrectable error: in a clean copy it is recovered and counts as corrected; any other marks the doubleword, whose registers fail if
it lies in a register file, faults the owner and retires the unit in whose storage it lies (R333, R335, R346). -/
def uncorrectable (unit pa : Nat) (at_ : Option (Nat × Nat)) (s : State) : State :=
  if cleanCopy s.m unit pa then singleBit unit pa none s
  else
    let m := { s.m with bad := mset 0 s.m.bad (pa / 8) unit }
    let mg := { s.mgmt with uncorr := mmod 0 s.mgmt.uncorr unit (· + 1) }
    let met := at_.map fun t => (t.1, t.2, meetingReport m t.1 t.2 pa)
    let m := match dataOwner mg m unit pa with
      | some v => uncorrFault (if unit == regUnit then failRegs m (pa / 8) else m) v unit pa met
      | none => m
    match failingUnit mg m unit pa with
    | some (k, n) => retireUnit k n { s with m := m, mgmt := mg }
    | none => { s with m := m, mgmt := mg }
def execUncorrectable (unit pa : Nat) (at_ : Option (Nat × Nat)) (s : State) : Host.Outcome State Fault Refusal :=
  if unitCode unit then .next (uncorrectable unit pa at_ s) else .fault .noSuchUnit

/-! ## Links (R341, R346) -/

def execFlitCrcError (l : Nat) (s : State) : Host.Outcome State Fault Refusal :=
  if linkOk l then .next (setMgmt (modLink s.mgmt l fun q => { q with crc := q.crc + 1 }) s) else .fault .noSuchUnit
def linkDown (l : Nat) (mg : Mgmt) : Mgmt := modLink mg l fun q => if q.st == 0 then { q with st := 1, fails := 0 } else q
def execLinkDown (l : Nat) (s : State) : Host.Outcome State Fault Refusal :=
  if linkOk l then .next (setMgmt (linkDown l s.mgmt) s) else .fault .noSuchUnit
def linkRetrained (l : Nat) (ok : Bool) (mg : Mgmt) : Mgmt :=
  modLink mg l fun q =>
    if q.st != 1 then q else if ok then { q with st := 0, fails := 0 } else if q.fails < 2 then { q with fails := q.fails + 1 } else q
def execLinkRetrained (l : Nat) (ok : Bool) (s : State) : Host.Outcome State Fault Refusal :=
  if linkOk l then .next (routedCommands (setMgmt (linkRetrained l ok s.mgmt) s)) else .fault .noSuchUnit
def retrainFailure (l : Nat) (s : State) : State :=
  if (linkOf s.mgmt l).st == 1 && (linkOf s.mgmt l).fails == 2 then retireLink l s else s
def execLinkRetrainFailure (l : Nat) (s : State) : Host.Outcome State Fault Refusal :=
  if linkOk l then .next (retrainFailure l s) else .fault .noSuchUnit

/-! ## RESYNC (R345) -/

def bitList (n : Nat) (f : Nat → Bool) : Nat := fullBits n f
def coreCode (mg : Mgmt) (c : Nat) : Nat :=
  if mg.retCores.contains c then 3
  else match coreLanes mg c with
    | (0, 16) => 0 | (0, _) => 1 | _ => 2
/-- An engine fault record of the virtual function is in use, on a core or in its saved context. -/
def engPending (m : Mach) (vf : Nat) : Bool :=
  let used := fun (t : Map EngRec) => t.any fun kv => kv.2.used && kv.2.vf == vf
  m.cores.any (fun kv => used kv.2.eng) || (mget {} m.saved vf).cores.any fun kv => used kv.2.eng
/-- The first pending fault code: of the halted groups in order of slot and core, then of an instruction in the operand log, then of an engine
(R320, log entry 91). -/
def pendingCode (m : Mach) (vf : Nat) (gs : List Group) : Nat :=
  match gs.find? fun g => g.status == .halted && g.rep.code != 0 with
  | some g => g.rep.code
  | none => if gs.any (·.log.isSome) then fXlateLog else if engPending m vf then fEngine else 0
/-- Groups of a virtual function, resident or saved. -/
def contextGroups (m : Mach) (vf : Nat) : List Group :=
  (vfGroups m vf).map (·.2.2) ++ ((mget {} m.saved vf).groups.map Prod.snd).filter fun g => g.status != .free
def vfSummary (mg : Mgmt) (m : Mach) (vf : Nat) : Nat :=
  let gs := contextGroups m vf
  let halted := gs.filter fun g => g.status == .halted
  let home := (vfst m vf).home
  let st := if !(vfEnt mg vf).en then 0 else if !gs.isEmpty && halted.length == gs.length then 3 else if home.isSome then 2 else 1
  fieldW st 63 60 + fieldW (home.getD (mget {} m.saved vf).yard) 52 48 + fieldW halted.length 47 40
    + fieldW (pendingCode m vf gs) 7 0
/-- Sums of n fields of a width, the first lowest. -/
def packFields (w : Nat) (xs : List Nat) : Nat := xs.zipIdx.foldl (fun t p => t + p.1 % 2 ^ w * 2 ^ (w * p.2)) 0
/-- A number as n little-endian doublewords. -/
def toWords (n x : Nat) : List Nat := (List.range n).map fun i => x / 2 ^ (64 * i) % 2 ^ 64
def slotctlWord (mg : Mgmt) : Nat := (if mg.enable then 2 ^ 63 else 0) + fieldW mg.nrows 5 0
def cfgsemWord (mg : Mgmt) : Nat := fieldW mg.epoch 47 32 + fieldW mg.holder 1 0
/-- Offsets and doublewords of the summary that need not be zero; the six counts at 0x0040 are fields of 16 bits, the clusters lowest (log entry
129). -/
def summaryHead (mg : Mgmt) (m : Mach) : List (Nat × List Nat) :=
  let bank := fun i => mg.retBanks.contains i
  let lanesGone := (List.range 384).foldl (fun t c => t + (16 - (if mg.retCores.contains c then 0 else (coreLanes mg c).2))) 0
  let counts := [96, 384 - mg.retCores.length, 6144 - lanesGone, 248 - mg.retBanks.length,
                 18 - (mg.links.filter fun kv => kv.2.st == 2).length, 12]
  [(0x0000, [0x56534E59 + 2 ^ 32]), (0x0008, [(Config.firmware mg.image).toNat]), (0x0010, [0x10000]),
   (0x0018, [cfgsemWord mg + fieldW mg.device 15 8 + fieldW mg.bridging 23 16]), (0x0040, toWords 2 (packFields 16 counts)),
   (0x0080, toWords 12 (packFields 2 ((List.range 384).map (coreCode mg)))), (0x00E0, toWords 4 (bitList 248 bank)),
   (0x0100, toWords 4 (packFields 8 ((List.range 18).map fun l => (linkOf mg l).st))),
   (0x0120, [(if mg.alert then 1 else 0) + (if mg.replace then 2 else 0)]),
   (0x0140, (List.range 7).flatMap fun u => [mget 0 mg.corr (u + 1), mget 0 mg.uncorr (u + 1)]),
   (0x1600, [slotctlWord mg, mg.guard, mg.row, (m.now - m.rowStart) / cyclesPerUs])]
def summaryTables (mg : Mgmt) (m : Mach) : List (Nat × List Nat) :=
  [(0x0200, (List.range 512).map (vfSummary mg m)), (0x1200, (List.range 32).flatMap fun y => yardWords (yardEnt mg y))]
    ++ (mg.rows.map fun kv => (0x1640 + 0x200 * kv.1, rowWord kv.2 :: (List.range 32).map fun y => slotWord (mget {} kv.2.ents y)))
    ++ mg.vfs.map fun kv => (0x9640 + 32 * kv.1, vfWords kv.2)
/-- The tables with every completed command in them, those included that wait for a boundary or an edge. -/
def asCommanded (mg : Mgmt) : Mgmt :=
  let seg := fun (t : Map VfEnt) (kv : Nat × Option (Nat × Nat)) => match kv.2 with
    | some (size, base) => mmod {} t kv.1 fun v => { v with sizeg := size, baseg := base }
    | none => t
  let mg := applyTable mg
  mg.pendLanes.foldl retireLane (mg.pendCores.foldl retireCore { mg with vfs := mg.pendSeg.foldl seg mg.vfs })
def resync : State → State := overHost fun s =>
  let a := argN s 0
  let m := { s.m with mem := zeroRange s.m.mem (hostPa a) 0xE000 }
  let mg := asCommanded s.mgmt
  done ((summaryHead mg s.m ++ summaryTables mg s.m).foldl (fun m p =>
    hostWrites m (a + p.1) (p.2.map (BitVec.ofNat 64))) m) s
def execResync (s : State) : Host.Outcome State Fault Refusal := .next (resync s)

/-! ## TELEMETRY, ATTEST, FWSTAGE, POWERCAP, WINBASE (R341, R349, R351) -/

def nextTick (s : State) : State := { s with m := { s.m with tick := s.m.tick + 1 } }
/-- Power, inlet and junction temperature, the ratios of the main and the fabric clock in %, twelve stack temperatures, link error counts in pairs. -/
def telemetry (s : State) : State :=
  let read := fun i => ((Config.telemetry s.m.tick)[i]?).getD 0
  let errs := (List.range 9).map fun i => BitVec.ofNat 64 (packFields 32 [(linkOf s.mgmt (2 * i)).crc, (linkOf s.mgmt (2 * i + 1)).crc])
  answer okSt ([read 0, read 1, read 2, BitVec.ofNat 64 s.mgmt.clock, BitVec.ofNat 64 s.mgmt.clock] ++ (List.range 12).map (fun i => read (3 + i)) ++ errs) (nextTick s)
def execTelemetry (s : State) : Host.Outcome State Fault Refusal := .next (telemetry s)
def exactly (n : Nat) (ws : List Word) : List Word := (List.range n).map fun i => (ws[i]?).getD 0
/-- The image and the yard and virtual-function tables, as they are hashed. -/
def attested (mg : Mgmt) : List Word :=
  mg.image ++ ((List.range 32).flatMap fun y => (yardWords (yardEnt mg y)).map (BitVec.ofNat 64))
    ++ (List.range 512).flatMap fun v => (vfWords (vfEnt mg v)).map (BitVec.ofNat 64)
def attest (s : State) : State :=
  let h := exactly 8 (Config.digest (attested s.mgmt))
  let n := exactly 8 s.mgmt.args
  answer okSt (h ++ n ++ exactly 17 (Config.signature (h ++ n))) s
def execAttest (s : State) : Host.Outcome State Fault Refusal := .next (attest s)
/-- The image lies at a host address and has a number of doublewords. -/
def fwstage : State → State := overHost fun s =>
  let img := (List.range (argN s 1 % 2 ^ 24)).map fun i => hostRead s.m (argN s 0 + 8 * i)
  if Config.verify img then succeed { s.mgmt with staged := img } s else answer authSt [] s
def execFwstage (s : State) : Host.Outcome State Fault Refusal := .next (fwstage s)
/-- A cap outside the range of R351 is refused (log entry 137). -/
def powercap (s : State) : State :=
  if 1200 ≤ argN s 0 && argN s 0 ≤ 2200 then succeed { s.mgmt with powercap := argN s 0 } s else answer refusedSt [] s
def execPowercap (s : State) : Host.Outcome State Fault Refusal := .next (powercap s)
def execWinbase (s : State) : Host.Outcome State Fault Refusal := .next (succeed { s.mgmt with winbase := argN s 0 } s)

/-- The main and fabric clocks are lowered by one step of 5 %. -/
def slower (mg : Mgmt) : Mgmt := { mg with clock := if mg.clock ≤ 5 then mg.clock else mg.clock - 5 }
def execThermalThrottle (s : State) : Host.Outcome State Fault Refusal := .next (setMgmt (slower s.mgmt) s)
def execPowerThrottle (s : State) : Host.Outcome State Fault Refusal := .next (setMgmt (slower s.mgmt) s)
def thermalTrip (s : State) : State :=
  { s with mgmt := raiseAlert s.mgmt, m := allToIdle s.mgmt s.m }
def execThermalTrip (s : State) : Host.Outcome State Fault Refusal := .next (thermalTrip s)

/-! ## Resets (R347, R349, R350) -/

/-- What lies outside the device: host memory and the memory of peers. -/
def outside (m : Memory) : Memory := m.filter fun c => c.1 / 2 ^ 48 == 0xD || c.1 / 2 ^ 48 == 0xE
/-- Every table at its reset value, every storage zero, writes on their way to other devices and the host left to chance; units that fail the self-test are retired, and the image is verified. -/
def coldReset (s : State) : State :=
  let bad := fun i n => (((Config.selfTest s.m.tick)[i]?).getD []).filter (· < n)
  let img := if s.mgmt.staged.isEmpty then s.mgmt.image else s.mgmt.staged
  let late := s.m.abandoned ++ s.m.sysOut.filter fun a => a.kind.writes
  let mg : Mgmt := { device := s.mgmt.device, bridging := s.mgmt.bridging, image := img, recovery := !Config.verify img }
  let mg := (bad 1 6144).foldl retireLane ((bad 0 384).foldl retireCore { mg with retBanks := bad 2 248 })
  let mg := if (bad 3 18).isEmpty then mg else recomputeRoutes ((bad 3 18).foldl (fun mg l => modLink mg l fun q => { q with st := 2 }) mg)
  let any := !(mg.retCores.isEmpty && mg.retLanes.isEmpty && mg.retBanks.isEmpty && mg.links.isEmpty)
  { m := { mem := outside s.m.mem, host := [], hostData := s.m.hostData, abandoned := late.filter (fun a => (ownHbm s.mgmt a.el).loc = .system), now := s.m.now,
           nextUid := s.m.nextUid, tick := s.m.tick + 1 },
    mgmt := if any then markRetired mg else mg, agenda := s.agenda }
def execColdReset (s : State) : Host.Outcome State Fault Refusal := .next (coldReset s)
def execResetDevice (s : State) : Host.Outcome State Fault Refusal := .next (coldReset s)
/-- The Farrier alone is re-run; the mailbox does not answer until it is ready. -/
def farrierRestart (s : State) : State := answer okSt [] (setMgmt { s.mgmt with up := false, cur := none, got := [] } s)
def execFarrierRestart (s : State) : Host.Outcome State Fault Refusal := .next (farrierRestart s)
def execFarrierReady (s : State) : Host.Outcome State Fault Refusal := .next (setMgmt { s.mgmt with up := true } s)

end Sys2Proof.Machine
end

