-- ==== Sys2Proof/Machine/TileFault.lean ====
section
/-! DEFINITION. The tile fault (R165, R166): the save sequencer's turn for a held use, and for a logged use that is performed again
(R228). -/

namespace Sys2Proof.Machine

/-- Ends the wait of a group held for a tile. -/
def wakeTile (m : Mach) (c s : Nat) : Mach := modGrp m c s fun g => { g with waitC := none }
/-- No context holds the tile; its values are gone. -/
def dropHolder (m : Mach) (c t : Nat) : Mach :=
  setTileOwn (rawTileSt (wipeTile m c t) c t .empty) c t { tileOwnOf m c t with holder := none }
/-- The sequencer cannot serve a use of the tile yet: the tile is still being written or sent, or its holder's save area lies among claimed
registers (R51, R166). -/
def tileWaits (mg : Mgmt) (m : Mach) (c s t : Nat) : Bool :=
  tileBusy mg m c t || ((tileOwnOf m c t).holder != some (ctxOf m c s) && (saveWait mg m c t).isSome)
/-- Steps 2 to 4 of R166, after which no version of what another context held can be read (R5); with an image that cannot be restored, what failed, and the tile is left without a holder. -/
def serveTile (mg : Mgmt) (c s t : Nat) (m : Mach) : CheckRes × Mach :=
  let h := (tileOwnOf m c t).holder
  if h = some (ctxOf m c s) then (.ok [] [], holdTile m c s t)
  else match restoreImage mg (if h.isSome then saveImage mg m c t else m) c s t with
    | (.ok _ _, m) => (.ok [] [], holdTile (if h.isSome then blankHist [(tileAddr c t, 4096)] m else m) c s t)
    | (r, m) => (r, dropHolder m c t)

/-! ## A logged use -/

/-- The course of an instruction that names an accumulator tile, its predicate true. -/
def tileBody (mg : Mgmt) : Instr → Mach → Mach
  | .tfill f => tileCopy false f mg
  | .tdrain f => tileCopy true f mg
  | .tfree f => doTfree f mg
  | .twait f => doTwait f mg
  | .mzero f => doMzero f mg
  | .mread f => doMread f mg
  | .mloop fmt f => doMloop fmt f mg
  | .gopen f => doGopen f mg
  | .gsend f => doGsend f mg
  | .gwait f => doGwait f mg
  | _ => id
/-- The group as the logged use saw it: its sources as captured, its destinations free. -/
def asLogged (op : MemOp) (u : TileUse) (g : Group) : Group :=
  let g := setFes { g with acc := g.acc.filter fun o => o.id != op.id, log := none, run := none, held := none, waitC := none, waitV := none,
                           stepping := false, status := .running, vl := u.vl, vstart := u.vstart } .full u.dsts
  let g := u.xs.foldl (fun g p => putX g p.1 p.2) g
  if u.msel == 0 then g else (List.range g.vlmax).foldl (fun g e => putC g u.msel e (bitAt u.mask e)) g
/-- What the use changed in its group; registers that were captured and are no destination are as the group has them now. -/
def afterUse (u : TileUse) (now done : Group) : Group :=
  let g := { now with acc := done.acc, nextOp := done.nextOp, seq := done.seq, fills := done.fills, gwaits := done.gwaits,
                      gout := done.gout, log := done.log, rep := (if done.log.isSome then done.rep else now.rep),
                      x := done.x, xfe := done.xfe, vfe := done.vfe }
  (u.xs.filter fun p => !u.dsts.contains (.x p.1)).foldl (fun g p =>
    { g with x := mset 0 g.x p.1 (mget 0 now.x p.1), xfe := mset .full g.xfe p.1 (mget .full now.xfe p.1) }) g
/-- The log entry of a use, while it is replayed. -/
def useEntry (m : Mach) (c : Nat) (g : Group) (op : MemOp) : Option Nat := g.log.filter fun i => (logEnt m c i).op == op.id
/-- A check of the use failed again: a translation fault logs it, another halts the group at it, with the chain that it names (R187). -/
def useFailed (c s : Nat) (op : MemOp) (r : CheckRes) (chain : Word) (m : Mach) : Mach :=
  let g := grp m c s
  let drop := fun (g : Group) => { g with acc := g.acc.filter fun o => o.id != op.id }
  match useEntry m c g op, r with
  | some i, .halt code e va info => dropReplay m c s i op code e va info chain
  | some i, .fault e va l k =>
    let m := modLog m c i fun q => { q with elem := e, faultVa := va, level := l, cause := k, rpl := false }
    modGrp m c s fun g =>
      let g := { g with acc := updOp { op with logged := true } g.acc }
      if g.status = .halted then g
      else { g with rep := { cls := 1, code := fXlateLog, word := op.word, clause := op.clause, addr := va, elem := e, info := k } }
  | none, .halt code e va info =>
    if (grp m c s).status = .gone then dropOp m c s op.id
    else haltFault (modGrp m c s fun g => opToRec g op) c s
      { cls := 2, code := code, word := op.word, clause := op.clause, addr := va, elem := e, info := info, chain := chain }
  | none, .fault e va l k =>
    match (if g.log.isSome then none else freeLog m c) with
    | some i => holdOp (modGrp m c s drop) c s i op e va l k
    | none => m
  | _, _ => m
/-- The use executes, its tile held: it completes, waits on, or halts its group. -/
def runUse (mg : Mgmt) (c s : Nat) (op : MemOp) (u : TileUse) (m : Mach) : Mach :=
  match decodeWord .s op.instr with
  | .error _ => m
  | .ok i =>
    let g := grp m c s
    let k := core m c
    let act : Act := { core := c, slot := s, clause := op.clause, word := op.word, count := op.word + 1, instr := op.instr }
    let m1 := match useEntry m c g op with | some i => freeEntry m c i | none => m
    let m1 := tileBody mg i { modGrp m1 c s (asLogged op u) with act := act }
    let g1 := grp m1 c s
    let back := modCore { m1 with act := m.act } c fun q => { q with issue := k.issue, last := k.last }
    if g1.waitC.isSome then m
    else if g1.status = .halted then
      let m2 := modCore (modGrp back c s fun _ => g) c fun q => { q with log := k.log }
      useFailed c s op (.halt g1.rep.code g1.rep.elem g1.rep.addr g1.rep.info) g1.rep.chain m2
    else settleGone (modGrp back c s fun _ => afterUse u g g1) c s
/-- The sequencer's turn for the use of a tile that a group has to perform again. -/
def useStep (mg : Mgmt) (c s t : Nat) (m : Mach) : Mach :=
  match (grp m c s).acc.findSome? fun o => match o.kind with
      | .use u => if o.logged || u.tile != t then none else some (o, u)
      | _ => none with
  | none => m
  | some (op, u) =>
    if (grp m c s).acc.any fun o => (o.logged || o.kind.isUse) && o.id < op.id then m
    else if tileOwnOf m c t = { owner := some (ctxOf m c s), holder := some (ctxOf m c s), save := (tileOwnOf m c t).save } then
      runUse mg c s op u m
    else if tileWaits mg m c s t then m
    else match serveTile mg c s t m with
      | (.ok _ _, m) => runUse mg c s op u m
      | (r, m) => useFailed c s op r 0 m

/-- The group of a slot, or one that has ended there, with a use of tile t to perform again (R273). -/
def usePlace (m : Mach) (c s t : Nat) : Nat :=
  let has := fun (g : Group) => g.acc.any fun o => !o.logged && (match o.kind with | .use u => u.tile == t | _ => false)
  if has (grp m c s) then s
  else (((allGroups m).find? fun q => q.1 == c && q.2.2.status = .gone && q.2.2.was == s && has q.2.2).map (·.2.1)).getD s
/-- TILE_FAULT: a waiting use of tile t is served, or one that is performed again. An image that cannot be restored leaves the
tile without a holder, and the use meets the fault as it issues. -/
def tileFaultStep (mg : Mgmt) (c s t : Nat) (m : Mach) : Mach :=
  if (grp m c s).waitC == some (.tileFault t) then
    if tileWaits mg m c s t then m else wakeTile (serveTile mg c s t m).2 c s
  else useStep mg c (usePlace m c s t) t m
def execTileFault (c sl t : Nat) (s : State) : Host.Outcome State Fault Refusal :=
  onUnit (groupOk c sl && t < 8) (fun mg m => tileFaultStep mg c sl t m) s

end Sys2Proof.Machine
end

