-- ==== Sys2Proof/Machine/Dispatch.lean ====
section
/-! DEFINITION. One arm per instruction: each calls its meaning. -/

namespace Sys2Proof.Machine

def exec (i : Instr) (s : State) : Host.Outcome State Fault Refusal :=
  match i with
  | .issueChoice core => Sys2Proof.Machine.execIssueChoice core s
  | .starvationCap core slot vec => Sys2Proof.Machine.execStarvationCap core slot vec s
  | .clauseWake core slot vec => Sys2Proof.Machine.execClauseWake core slot vec s
  | .claimFill core slot n => Sys2Proof.Machine.execClaimFill core slot n s
  | .lineFill pa => Sys2Proof.Machine.execLineFill pa s
  | .logicalClockTick core => Sys2Proof.Machine.execLogicalClockTick core s
  | .balerWindow core => Sys2Proof.Machine.execBalerWindow core s
  | .combiningBuffer cluster entry => Sys2Proof.Machine.execCombiningBuffer cluster entry s
  | .vglLinkDrop core slot n => Sys2Proof.Machine.execVglLinkDrop core slot n s
  | .latticeStep cluster => Sys2Proof.Machine.execLatticeStep cluster s
  | .mloopComplete core tile => Sys2Proof.Machine.execMloopComplete core tile s
  | .tileFault core slot tile => Sys2Proof.Machine.execTileFault core slot tile s
  | .tileFillComplete core entry => Sys2Proof.Machine.execTileFillComplete core entry s
  | .mloadComplete core slot => Sys2Proof.Machine.execMloadComplete core slot s
  | .glazeCredit core tile => Sys2Proof.Machine.execGlazeCredit core tile s
  | .contributionLanding core tile => Sys2Proof.Machine.execContributionLanding core tile s
  | .glazeAdd cluster => Sys2Proof.Machine.execGlazeAdd cluster s
  | .drayCommandStart core job => Sys2Proof.Machine.execDrayCommandStart core job s
  | .drayChunk core job => Sys2Proof.Machine.execDrayChunk core job s
  | .drayResult core job => Sys2Proof.Machine.execDrayResult core job s
  | .pushRegisterMove core slot n => Sys2Proof.Machine.execPushRegisterMove core slot n s
  | .packerTimer cluster stall => Sys2Proof.Machine.execPackerTimer cluster stall s
  | .packedGroupStart cluster stall => Sys2Proof.Machine.execPackedGroupStart cluster stall s
  | .overflowRefill cluster vf => Sys2Proof.Machine.execOverflowRefill cluster vf s
  | .launchGroupStart vf n => Sys2Proof.Machine.execLaunchGroupStart vf n s
  | .hostAccess wr pa size data => Sys2Proof.Machine.execHostAccess wr pa size data s
  | .peerAccess dev wr pa size data => Sys2Proof.Machine.execPeerAccess dev wr pa size data s
  | .flitCrcError link => Sys2Proof.Machine.execFlitCrcError link s
  | .linkRetrainFailure link => Sys2Proof.Machine.execLinkRetrainFailure link s
  | .uncorrectable unit pa grp => Sys2Proof.Machine.execUncorrectable unit pa grp s
  | .slotEdgeGuard yard => Sys2Proof.Machine.execSlotEdgeGuard yard s
  | .drainComplete yard => Sys2Proof.Machine.execDrainComplete yard s
  | .incomingStart yard => Sys2Proof.Machine.execIncomingStart yard s
  | .cfgsemAcquire port => Sys2Proof.Machine.execCfgsemAcquire port s
  | .cfgsemRelease port => Sys2Proof.Machine.execCfgsemRelease port s
  | .doorbell port => Sys2Proof.Machine.execDoorbell port s
  | .start vf rec tsbase => Sys2Proof.Machine.execStart vf rec tsbase s
  | .halt vf grp => Sys2Proof.Machine.execHalt vf grp s
  | .resume vf core slot => Sys2Proof.Machine.execResume vf core slot s
  | .resumeVf vf => Sys2Proof.Machine.execResumeVf vf s
  | .stepGroup vf core slot => Sys2Proof.Machine.execStepGroup vf core slot s
  | .replay core entry => Sys2Proof.Machine.execReplay core entry s
  | .discard core entry => Sys2Proof.Machine.execDiscard core entry s
  | .getvp vf core slot first count addr => Sys2Proof.Machine.execGetvp vf core slot first count addr s
  | .setvp vf core slot first count addr => Sys2Proof.Machine.execSetvp vf core slot first count addr s
  | .wrctx vf core slot off val => Sys2Proof.Machine.execWrctx vf core slot off val s
  | .clearrec core vf => Sys2Proof.Machine.execClearrec core vf s
  | .resetvf vf => Sys2Proof.Machine.execResetvf vf s
  | .closechain vf id => Sys2Proof.Machine.execClosechain vf id s
  | .vopenWrite val => Sys2Proof.Machine.execVopenWrite val s
  | .xopenWrite val => Sys2Proof.Machine.execXopenWrite val s
  | .qinWrite val => Sys2Proof.Machine.execQinWrite val s
  | .qoutRead d => Sys2Proof.Machine.execQoutRead d s
  | .tileownWrite val => Sys2Proof.Machine.execTileownWrite val s
  | .fmodeWrite val => Sys2Proof.Machine.execFmodeWrite val s
  | .vstartWrite val => Sys2Proof.Machine.execVstartWrite val s
  | .vdirtyClear val => Sys2Proof.Machine.execVdirtyClear val s
  | .fflagsClear val => Sys2Proof.Machine.execFflagsClear val s
  | .tileTableWrite core entry val => Sys2Proof.Machine.execTileTableWrite core entry val s
  | .packerTimerWrite cluster val => Sys2Proof.Machine.execPackerTimerWrite cluster val s
  | .cntselWrite vf n val => Sys2Proof.Machine.execCntselWrite vf n val s
  | .registerWrite pa val => Sys2Proof.Machine.execRegisterWrite pa val s
  | .add f => Sys2Proof.Machine.execAdd f s
  | .sub f => Sys2Proof.Machine.execSub f s
  | .mul f => Sys2Proof.Machine.execMul f s
  | .mulh f => Sys2Proof.Machine.execMulh f s
  | .div f => Sys2Proof.Machine.execDiv f s
  | .rem f => Sys2Proof.Machine.execRem f s
  | .and f => Sys2Proof.Machine.execAnd f s
  | .or f => Sys2Proof.Machine.execOr f s
  | .xor f => Sys2Proof.Machine.execXor f s
  | .andn f => Sys2Proof.Machine.execAndn f s
  | .shl f => Sys2Proof.Machine.execShl f s
  | .shr f => Sys2Proof.Machine.execShr f s
  | .sra f => Sys2Proof.Machine.execSra f s
  | .rot f => Sys2Proof.Machine.execRot f s
  | .min f => Sys2Proof.Machine.execMin f s
  | .max f => Sys2Proof.Machine.execMax f s
  | .clz f => Sys2Proof.Machine.execClz f s
  | .popc f => Sys2Proof.Machine.execPopc f s
  | .sext f => Sys2Proof.Machine.execSext f s
  | .zext f => Sys2Proof.Machine.execZext f s
  | .sel f => Sys2Proof.Machine.execSel f s
  | .lea f => Sys2Proof.Machine.execLea f s
  | .addImm f => Sys2Proof.Machine.execAddImm f s
  | .mulImm f => Sys2Proof.Machine.execMulImm f s
  | .andImm f => Sys2Proof.Machine.execAndImm f s
  | .orImm f => Sys2Proof.Machine.execOrImm f s
  | .xorImm f => Sys2Proof.Machine.execXorImm f s
  | .shlImm f => Sys2Proof.Machine.execShlImm f s
  | .shrImm f => Sys2Proof.Machine.execShrImm f s
  | .sraImm f => Sys2Proof.Machine.execSraImm f s
  | .rotImm f => Sys2Proof.Machine.execRotImm f s
  | .movi f => Sys2Proof.Machine.execMovi f s
  | .movhi f => Sys2Proof.Machine.execMovhi f s
  | .cmp cond f => Sys2Proof.Machine.execCmp cond f s
  | .cmpImm cond f => Sys2Proof.Machine.execCmpImm cond f s
  | .pand f => Sys2Proof.Machine.execPand f s
  | .por f => Sys2Proof.Machine.execPor f s
  | .pxor f => Sys2Proof.Machine.execPxor f s
  | .pnot f => Sys2Proof.Machine.execPnot f s
  | .fadd f => Sys2Proof.Machine.execFadd f s
  | .fmul f => Sys2Proof.Machine.execFmul f s
  | .ffma f => Sys2Proof.Machine.execFfma f s
  | .fcvt f => Sys2Proof.Machine.execFcvt f s
  | .br f => Sys2Proof.Machine.execBr f s
  | .call f => Sys2Proof.Machine.execCall f s
  | .loop f => Sys2Proof.Machine.execLoop f s
  | .jmpr f => Sys2Proof.Machine.execJmpr f s
  | .ret f => Sys2Proof.Machine.execRet f s
  | .stop f => Sys2Proof.Machine.execStop f s
  | .yield f => Sys2Proof.Machine.execYield f s
  | .setvl f => Sys2Proof.Machine.execSetvl f s
  | .vregs f => Sys2Proof.Machine.execVregs f s
  | .vf f => Sys2Proof.Machine.execVf f s
  | .vfwait f => Sys2Proof.Machine.execVfwait f s
  | .fork f => Sys2Proof.Machine.execFork f s
  | .join f => Sys2Proof.Machine.execJoin f s
  | .spawn f => Sys2Proof.Machine.execSpawn f s
  | .launch f => Sys2Proof.Machine.execLaunch f s
  | .vld f => Sys2Proof.Machine.execVld f s
  | .vldff f => Sys2Proof.Machine.execVldff f s
  | .vst f => Sys2Proof.Machine.execVst f s
  | .vlds f => Sys2Proof.Machine.execVlds f s
  | .vsts f => Sys2Proof.Machine.execVsts f s
  | .vldx f => Sys2Proof.Machine.execVldx f s
  | .vstx f => Sys2Proof.Machine.execVstx f s
  | .vgl f => Sys2Proof.Machine.execVgl f s
  | .vsc f => Sys2Proof.Machine.execVsc f s
  | .vamo op f => Sys2Proof.Machine.execVamo op f s
  | .vpush f => Sys2Proof.Machine.execVpush f s
  | .ld f => Sys2Proof.Machine.execLd f s
  | .st f => Sys2Proof.Machine.execSt f s
  | .amo op f => Sys2Proof.Machine.execAmo op f s
  | .fenceX f => Sys2Proof.Machine.execFenceX f s
  | .fenceSys f => Sys2Proof.Machine.execFenceSys f s
  | .mand f => Sys2Proof.Machine.execMand f s
  | .mor f => Sys2Proof.Machine.execMor f s
  | .mnot f => Sys2Proof.Machine.execMnot f s
  | .mset f => Sys2Proof.Machine.execMset f s
  | .mcount f => Sys2Proof.Machine.execMcount f s
  | .mfirst f => Sys2Proof.Machine.execMfirst f s
  | .mprefix f => Sys2Proof.Machine.execMprefix f s
  | .vredAdd f => Sys2Proof.Machine.execVredAdd f s
  | .vredMin f => Sys2Proof.Machine.execVredMin f s
  | .vredMax f => Sys2Proof.Machine.execVredMax f s
  | .vscan f => Sys2Proof.Machine.execVscan f s
  | .vcompress f => Sys2Proof.Machine.execVcompress f s
  | .vslideup f => Sys2Proof.Machine.execVslideup f s
  | .vslidedown f => Sys2Proof.Machine.execVslidedown f s
  | .vmexp f => Sys2Proof.Machine.execVmexp f s
  | .vquant f => Sys2Proof.Machine.execVquant f s
  | .vunion f => Sys2Proof.Machine.execVunion f s
  | .dcopy f => Sys2Proof.Machine.execDcopy f s
  | .dcopy2d f => Sys2Proof.Machine.execDcopy2d f s
  | .dfill f => Sys2Proof.Machine.execDfill f s
  | .dcompact f => Sys2Proof.Machine.execDcompact f s
  | .dhalo f => Sys2Proof.Machine.execDhalo f s
  | .dtile f => Sys2Proof.Machine.execDtile f s
  | .dcopyBar f => Sys2Proof.Machine.execDcopyBar f s
  | .dcopy2dBar f => Sys2Proof.Machine.execDcopy2dBar f s
  | .dfillBar f => Sys2Proof.Machine.execDfillBar f s
  | .dcompactBar f => Sys2Proof.Machine.execDcompactBar f s
  | .dhaloBar f => Sys2Proof.Machine.execDhaloBar f s
  | .dtileBar f => Sys2Proof.Machine.execDtileBar f s
  | .tfill f => Sys2Proof.Machine.execTfill f s
  | .tdrain f => Sys2Proof.Machine.execTdrain f s
  | .tfree f => Sys2Proof.Machine.execTfree f s
  | .twait f => Sys2Proof.Machine.execTwait f s
  | .qpop f => Sys2Proof.Machine.execQpop f s
  | .mloop fmt f => Sys2Proof.Machine.execMloop fmt f s
  | .mload f => Sys2Proof.Machine.execMload f s
  | .mzero f => Sys2Proof.Machine.execMzero f s
  | .mread f => Sys2Proof.Machine.execMread f s
  | .gchain f => Sys2Proof.Machine.execGchain f s
  | .gopen f => Sys2Proof.Machine.execGopen f s
  | .gsend f => Sys2Proof.Machine.execGsend f s
  | .gwait f => Sys2Proof.Machine.execGwait f s
  | .gclose f => Sys2Proof.Machine.execGclose f s
  | .barr f => Sys2Proof.Machine.execBarr f s
  | .bwait f => Sys2Proof.Machine.execBwait f s
  | .bsync f => Sys2Proof.Machine.execBsync f s
  | .slotyield f => Sys2Proof.Machine.execSlotyield f s
  | .cntrd f => Sys2Proof.Machine.execCntrd f s
  | .srseed f => Sys2Proof.Machine.execSrseed f s
  | .trap f => Sys2Proof.Machine.execTrap f s
  | .brk f => Sys2Proof.Machine.execBrk f s
  | .tlbinv f => Sys2Proof.Machine.execTlbinv f s
  | .tlbinvAll f => Sys2Proof.Machine.execTlbinvAll f s
  | .csrRd f => Sys2Proof.Machine.execCsrRd f s
  | .csrWr f => Sys2Proof.Machine.execCsrWr f s
  | .replack f => Sys2Proof.Machine.execReplack f s
  | .vadd f => Sys2Proof.Machine.execVadd f s
  | .vsub f => Sys2Proof.Machine.execVsub f s
  | .vmul f => Sys2Proof.Machine.execVmul f s
  | .vmulh f => Sys2Proof.Machine.execVmulh f s
  | .vmad f => Sys2Proof.Machine.execVmad f s
  | .vand f => Sys2Proof.Machine.execVand f s
  | .vor f => Sys2Proof.Machine.execVor f s
  | .vxor f => Sys2Proof.Machine.execVxor f s
  | .vshl f => Sys2Proof.Machine.execVshl f s
  | .vshr f => Sys2Proof.Machine.execVshr f s
  | .vsra f => Sys2Proof.Machine.execVsra f s
  | .vmin f => Sys2Proof.Machine.execVmin f s
  | .vmax f => Sys2Proof.Machine.execVmax f s
  | .vclz f => Sys2Proof.Machine.execVclz f s
  | .vpopc f => Sys2Proof.Machine.execVpopc f s
  | .vsel f => Sys2Proof.Machine.execVsel f s
  | .vmov f => Sys2Proof.Machine.execVmov f s
  | .vmovi f => Sys2Proof.Machine.execVmovi f s
  | .vfadd f => Sys2Proof.Machine.execVfadd f s
  | .vfsub f => Sys2Proof.Machine.execVfsub f s
  | .vfmul f => Sys2Proof.Machine.execVfmul f s
  | .vfma f => Sys2Proof.Machine.execVfma f s
  | .vfms f => Sys2Proof.Machine.execVfms f s
  | .vfnma f => Sys2Proof.Machine.execVfnma f s
  | .vfmin f => Sys2Proof.Machine.execVfmin f s
  | .vfmax f => Sys2Proof.Machine.execVfmax f s
  | .vfrcp f => Sys2Proof.Machine.execVfrcp f s
  | .vfrsq f => Sys2Proof.Machine.execVfrsq f s
  | .vfsqrt f => Sys2Proof.Machine.execVfsqrt f s
  | .vfexp2 f => Sys2Proof.Machine.execVfexp2 f s
  | .vflog2 f => Sys2Proof.Machine.execVflog2 f s
  | .vfcmp f => Sys2Proof.Machine.execVfcmp f s
  | .vfclass f => Sys2Proof.Machine.execVfclass f s
  | .vcvt f => Sys2Proof.Machine.execVcvt f s
  | .vpack f => Sys2Proof.Machine.execVpack f s
  | .vunpack f => Sys2Proof.Machine.execVunpack f s
  | .qput f => Sys2Proof.Machine.execQput f s
  | .vfetch f => Sys2Proof.Machine.execVfetch f s
  | .vbru f => Sys2Proof.Machine.execVbru f s
  | .vStop f => Sys2Proof.Machine.execVStop f s
  | .vSpawn f => Sys2Proof.Machine.execVSpawn f s
  | .pld f => Sys2Proof.Machine.execPld f s
  | .pst f => Sys2Proof.Machine.execPst f s
  | .pamo op f => Sys2Proof.Machine.execPamo op f s
  | .earlyEdge yard => Sys2Proof.Machine.execEarlyEdge yard s
  | .accessPerformed core slot op elem => Sys2Proof.Machine.execAccessPerformed core slot op elem s
  | .systemScopeAck core slot n => Sys2Proof.Machine.execSystemScopeAck core slot n s
  | .singleBitError unit pa vf => Sys2Proof.Machine.execSingleBitError unit pa vf s
  | .linkDown link => Sys2Proof.Machine.execLinkDown link s
  | .linkRetrained link ok => Sys2Proof.Machine.execLinkRetrained link ok s
  | .rowBoundary => Sys2Proof.Machine.execRowBoundary s
  | .cfgsemTimeout => Sys2Proof.Machine.execCfgsemTimeout s
  | .resync => Sys2Proof.Machine.execResync s
  | .telemetry => Sys2Proof.Machine.execTelemetry s
  | .attest => Sys2Proof.Machine.execAttest s
  | .yardset => Sys2Proof.Machine.execYardset s
  | .vfset => Sys2Proof.Machine.execVfset s
  | .slotset => Sys2Proof.Machine.execSlotset s
  | .slotctl => Sys2Proof.Machine.execSlotctl s
  | .seedset => Sys2Proof.Machine.execSeedset s
  | .retire => Sys2Proof.Machine.execRetire s
  | .powercap => Sys2Proof.Machine.execPowercap s
  | .fwstage => Sys2Proof.Machine.execFwstage s
  | .resetDevice => Sys2Proof.Machine.execResetDevice s
  | .farrierRestart => Sys2Proof.Machine.execFarrierRestart s
  | .clearalert => Sys2Proof.Machine.execClearalert s
  | .winbase => Sys2Proof.Machine.execWinbase s
  | .coldReset => Sys2Proof.Machine.execColdReset s
  | .thermalThrottle => Sys2Proof.Machine.execThermalThrottle s
  | .thermalTrip => Sys2Proof.Machine.execThermalTrip s
  | .powerThrottle => Sys2Proof.Machine.execPowerThrottle s
  | .farrierReady => Sys2Proof.Machine.execFarrierReady s

end Sys2Proof.Machine
end

