-- ==== Sys2Proof/Machine/Turn.lean ====
section
/-! DEFINITION. Which instruction a turn of an agent executes, and what the passing of time does (R9, R254, R256, R342). -/

namespace Sys2Proof.Machine

/-- The instruction that core c's issue slot executes next: a choice at a clause boundary, else the next word of the clause being
issued, with the place of the word made the acting one (R256). The whole clause was decoded when it was chosen (R73), so a word
that does not decode here stands in no clause and leads to a new choice. -/
def issueInstr (s : State) (c : Nat) : Instr × State :=
  match (core s.m c).issue with
  | none => (.issueChoice c, s)
  | some i =>
    let w := (i.words[i.next - 1]?).getD 0
    match decodeWord i.cls w with
    | .ok ins =>
      (ins, { s with m := { s.m with act := { core := c, slot := i.slot, vec := i.vec, cls := i.cls, clause := i.clause,
                                               word := i.next, count := i.words.length, instr := w, vps := i.vps } } })
    | .error _ => (.issueChoice c, s)

/-- Main-clock cycles in a span of time at the current clock (R351); the span is in 1/1,400 µs. -/
def cyclesIn (mg : Mgmt) (n : Nat) : Nat := n * mg.clock / 100
/-- A bucket refills at the yard's share, up to 2 µs of it (R303). -/
def refillBucket (mg : Mgmt) (n yn : Nat) (hbm : Bool) (q : YardRun) : YardRun :=
  setBucket hbm (min (bucketCap mg yn hbm) (bucket q hbm + n * tokenRate hbm * shareOf mg yn hbm)) q
/-- How long of a span a request of the yard waits at a limiter: until its bucket holds a token (R303, R312, log entry 16). -/
def heldFor (mg : Mgmt) (n yn : Nat) (hbm : Bool) (q : YardRun) : Nat :=
  let rate := tokenRate hbm * shareOf mg yn hbm
  if !waits q hbm || 0 < bucket q hbm then 0 else if rate == 0 then n else min n ((-bucket q hbm).toNat / rate + 1)
/-- What a span of time does in one yard: its buckets refill, and usable time and the time at a limiter count for the virtual function
that runs. -/
def passYard (mg : Mgmt) (n : Nat) (m : Mach) (yn : Nat) : Mach :=
  let held := cyclesIn mg (max (heldFor mg n yn true (yrun m yn)) (heldFor mg n yn false (yrun m yn)))
  let m := modYrun m yn fun q => refillBucket mg n yn false (refillBucket mg n yn true q)
  match (yrun m yn).phase with
  | .running v => countN (countN m v 1 (cyclesIn mg n)) v 0x0F held
  | .draining v _ => countN m v 0x0F held
  | _ => m
/-- Time passes: the clock, the counts of waiting candidates (R254), usable time (R312), buckets. -/
def passTime (n : Nat) (s : State) : State :=
  let m := (List.range 32).foldl (passYard s.mgmt n) (countReady s.mgmt (cyclesIn s.mgmt n) s.m)
  { s with m := { m with now := m.now + n } }

/-! ## Requests (R342 to R344) -/

def reqLen (h : Word) : Nat := bitsOf h.toNat 15 8
def reqEpoch (h : Word) : Nat := bitsOf h.toNat 47 32
def reqReserved (h : Word) : Bool := bitsOf h.toNat 63 48 != 0 || bitsOf h.toNat 31 24 != 0
/-- The command of an opcode with its arguments; those not sent read as zero, and RESET has no argument above 1 (log entry 136). -/
def requestInstr (op : Nat) (args : List Word) : Option Instr :=
  let a := fun i => ((args[i]?).getD 0).toNat
  let w := fun i => (args[i]?).getD 0
  match op with
  | 0x01 => some (.start (a 0) (a 1) (a 2))
  | 0x02 => some (.halt (a 0) (if args.length ≤ 1 then none else some (a 1, a 2)))
  | 0x03 => some (.resume (a 0) (a 1) (a 2))
  | 0x04 => some (.resumeVf (a 0))
  | 0x05 => some (.stepGroup (a 0) (a 1) (a 2))
  | 0x06 => some (.replay (a 0) (a 1))
  | 0x07 => some (.discard (a 0) (a 1))
  | 0x08 => some (.getvp (a 0) (a 1) (a 2) (a 3) (a 4) (a 5))
  | 0x09 => some (.setvp (a 0) (a 1) (a 2) (a 3) (a 4) (a 5))
  | 0x0A => some (.wrctx (a 0) (a 1) (a 2) (a 3) (w 4))
  | 0x0B => some (.clearrec (a 0) (a 1))
  | 0x0C => some (.resetvf (a 0))
  | 0x0D => some (.closechain (a 0) (w 1))
  | 0x20 => some .resync
  | 0x21 => some .telemetry
  | 0x22 => some .attest
  | 0x30 => some .yardset
  | 0x31 => some .vfset
  | 0x32 => some .slotset
  | 0x33 => some .slotctl
  | 0x34 => some .seedset
  | 0x35 => some .retire
  | 0x36 => some .powercap
  | 0x37 => some .fwstage
  | 0x38 => if a 0 == 0 then some .resetDevice else if a 0 == 1 then some .farrierRestart else none
  | 0x39 => some .clearalert
  | 0x3A => some .winbase
  | _ => none
/-- What the Farrier does with a request before it executes it: a status that ends it, UNKNOWN for a LEN above 31 (log entry 135), or its
command. -/
def admitRequest (mg : Mgmt) (p : Nat) (h : Word) (args : List Word) : Except Nat Instr :=
  if reqReserved h || 31 < reqLen h || (requestInstr (reqOpcode h) []).isNone then .error unknownSt
  else if mg.recovery && reqOpcode h != 0x37 && reqOpcode h != 0x38 then .error refusedSt
  else if 0x30 ≤ reqOpcode h && mg.holder != p then .error notHolder
  else if 0x30 ≤ reqOpcode h && reqEpoch h != mg.epoch then .error staleEpoch
  else match requestInstr (reqOpcode h) args with
    | none => .error unknownSt
    | some i => if i.wellFormed then .ok i else .error denied
/-- The state in which the Farrier executes a request of a port. -/
def serving (p : Nat) (req : Word) (args : List Word) (s : State) : State :=
  setMgmt { expire s.m.now s.mgmt with from_ := some (p, req), args := args, status := none, result := [] } s
/-- The oldest submitted request: its command with its arguments in place, or the state in which it has been answered; one accepted
before goes on, whoever holds the semaphore by now (R344). -/
def farrierInstr (s : State) : Except State (Instr × State) :=
  match s.mgmt.queue with
  | [] => .error s
  | p :: _ =>
    if !s.mgmt.up || justRang s p then .error s
    else match s.mgmt.cur with
      | some a => .ok (a.cmd, serving p a.req a.args s)
      | none =>
        let req := (portOf s.mgmt p).req
        let h := (req[0]?).getD 0
        let args := (req.drop 1).take (reqLen h)
        let s := serving p h args s
        match admitRequest s.mgmt p h args with
        | .error st => .error (respond (answer st [] s))
        | .ok i => .ok (i, s)
/-- The command goes on in a later turn: START has read a part of its record (R86), SEEDSET waits for an edge (R298), a command that goes to
host memory for a route (R340). -/
def goesOn (i : Instr) : Bool :=
  match i with
  | .start _ _ _ | .seedset | .resync | .fwstage => true
  | _ => false
/-- After its command: a request that has a status is answered; one that waits for a restore leaves the queue unanswered, and one that
goes on stays first (R298, R332). -/
def endRequest (i : Instr) (s : State) : State :=
  match s.mgmt.status, s.mgmt.from_ with
  | some _, _ => respond s
  | none, some (p, h) =>
    if goesOn i then setMgmt { s.mgmt with from_ := none, cur := some { req := h, args := s.mgmt.args, cmd := i } } s
    else setMgmt { s.mgmt with from_ := none, queue := s.mgmt.queue.erase p } s
  | none, none => s
/-- A driver command that has waited for a restore. -/
def driverInstr (d : Deferred) (s : State) : Instr × State :=
  (d.cmd, setMgmt { s.mgmt with from_ := d.port, args := [], status := none, result := [] } s)
/-- What follows an outcome of the Farrier's command. -/
def afterCommand (i : Instr) : Host.Outcome State Fault Refusal → Host.Outcome State Fault Refusal
  | .next s => .next (endRequest i s)
  | o => o

/-- The machine with an instruction in core 0's issue slot, for group slot 0 of a virtual function whose control thread runs;
for a word of the V class, in a run of one VP. -/
def placeWord (cls : Cls) (w : Word) (m : Mach) : Mach :=
  let v := cls = .v
  let g : Group :=
    { status := .running, vf := 1, priv := true, uid := 1, vlmax := 256, vl := 1, entry := 64, pc := 64,
      run := if v then some { num := 0, vl := 1, seq := 0, ux := [], uwait := [], uopen := [], upend := [], diverged := false, pc := 64, w := 1, rp := none,
                              from_ := 0 } else none }
  let m := setGrp m 0 0 g
  modCore m 0 fun k => { k with issue := some { key := 0, slot := 0, vec := v, cls := cls, clause := 64, y := false, words := [w], next := 1,
                                                vps := if v then [0] else [], back := false } }

/-- The same, from the opcode table's numbering of an instruction's bits. -/
def placeTableWord (nbits w : Nat) (m : Mach) : Mach :=
  if nbits ≤ 64 then
    let x := BitVec.ofNat 64 w
    placeWord (match decodeWord .s x with | .ok _ => .s | .error _ => .v) x m
  else match decodeHeader (BitVec.ofNat 64 w) with
    | some h => placeWord h.cls (BitVec.ofNat 64 (w / 2 ^ 64)) m
    | none => m

end Sys2Proof.Machine
end

