-- ==== Sys2Proof/Machine/Step.lean ====
section
/-! DEFINITION. One step of the device: one turn of one agent. -/

namespace Sys2Proof.Machine

/-- What a turn executes. -/
def runTurn (t : Turn) (s : State) : Host.Outcome State Fault Refusal :=
  match t with
  | .issue c => if coreOk c then exec (issueInstr s c).1 (issueInstr s c).2 else .fault .noSuchUnit
  | .event i => if (encode i).isNone && i.wellFormed then exec i s else .fault .noSuchUnit
  | .farrier => match farrierInstr s with
    | .ok (i, s) => afterCommand i (exec i s)
    | .error s => .next s
  | .driver d => afterCommand d.cmd (exec (driverInstr d s).1 (driverInstr d s).2)
  | .pass n => .next (passTime n s)

/-- The next turn of the agenda, or, when it lists none, a turn of the free schedule (log entry 1). -/
def step (s : State) : Host.Outcome State Fault Refusal :=
  match s.agenda with
  | t :: r => runTurn t { s with agenda := r }
  | [] => runTurn ((Config.schedule s.m.tick).getD (.pass 1)) { s with m := { s.m with tick := s.m.tick + 1 } }

/-- The state with an instruction placed in the issue slot that the next step serves (log entry 2). -/
def State.withFetchWord (s : State) (nbits w : Nat) : State :=
  { s with m := placeTableWord nbits w s.m, agenda := [.issue 0] }

end Sys2Proof.Machine
end

