-- ==== Sys2Proof/Safety.lean ====
section
/-! DEFINITION. What counts as a safe run, and the terms in which statements say what an instruction does and what it leaves alone. -/

namespace Sys2Proof

/-- A run of n steps from s that stops at no fault and no refusal. -/
def SafeRun (n : Nat) (s : Machine.State) : Prop := ∃ t, core.run n s = .next t

namespace Machine

/-- An instruction completes: exec answers a next state, of which P holds. -/
def Goes (i : Instr) (s : State) (P : State → Prop) : Prop := ∃ t, exec i s = .next t ∧ P t

/-- Between two machines nothing differs but the acting group, what the core's issue slot issues, and event counts: every other group,
every other part of a core or virtual function, and every byte of memory is as it was. -/
structure OnlyActing (m n : Mach) : Prop where
  parts : n = { m with groups := n.groups, cores := n.cores, vfst := n.vfst }
  groups : ∀ k, k ≠ gkey m.act.core m.act.slot → mget {} n.groups k = mget {} m.groups k
  cores : ∀ c, core n c = { core m c with issue := (core n c).issue, last := (core n c).last }
  counts : ∀ v, vfst n v = { vfst m v with cnt := (vfst n v).cnt }
  bytes : ∀ a, readByte n.mem a = readByte m.mem a

/-- A state in which only the acting group has changed, to g. -/
def ActsOnly (s t : State) (g : Group) : Prop := t = { s with m := t.m } ∧ OnlyActing s.m t.m ∧ me t.m = g

/-- A state in which only the group in slot sl of core c has changed, to g. -/
def GroupOnly (s t : State) (c sl : Nat) (g : Group) : Prop :=
  t = { s with m := { s.m with groups := t.m.groups } } ∧ (∀ k, k ≠ gkey c sl → mget {} t.m.groups k = mget {} s.m.groups k) ∧
    grp t.m c sl = g
/-- The same of the acting group. -/
def MeOnly (s t : State) (g : Group) : Prop := GroupOnly s t s.m.act.core s.m.act.slot g

/-- The control stream at the place after the acting word: the next word of the clause, or the sequential clause (R53). -/
def afterWord (a : Act) (g : Group) : Group :=
  if a.word < a.count then { g with pcword := a.word + 1, held := none }
  else { g with pc := seqClause a, pcword := 1, held := none, begunC := false }

/-- The predicate of a C-class instruction lets it execute (R59): p0, or a full predicate register that is true, or false with PN. -/
def PredTrue (s : State) (pn : Bool) (ps : BitVec 3) : Prop :=
  ps = 0 ∨ (getFe (me s.m) (.p ps.toNat) = .full ∧ getP (me s.m) ps.toNat = !pn)
/-- No STEP command is outstanding for the acting group (R332). -/
def Unstepped (s : State) : Prop := (me s.m).stepping = false

/-- The scalar sources of an instruction, by code and trap bit, as fields. -/
def fields (srcs : List (BitVec 8 × Bool)) : List CSrc := srcs.map fun p => .r p.1 p.2
/-- Every source is full, or its queue holds an entry (R34). -/
def SrcsFull (s : State) (srcs : List (BitVec 8 × Bool)) : Prop := firstEmpty (me s.m) [] (fields srcs) = none
/-- The values of scalar sources, and the machine once they have been read: a queue has lost the entries taken (R34, R45). -/
def readSrcs (s : State) (srcs : List (BitVec 8 × Bool)) : List Word × Mach :=
  takeXs s.mgmt (srcs.map Prod.fst) (modMe s.m (absorbSrcs (fields srcs)))

end Machine

end Sys2Proof
end

