-- ==== Sys2Proof/Certificates/Slice0/Obligations.lean ====
section
/-! DEFINITION. The statements for the provers. -/

namespace Sys2Proof.Machine

/-- Keys strictly rise. -/
def RisingKeys {α : Type} (t : Map α) : Prop := (t.map Prod.fst).Pairwise (· < ·)
/-- Memory has its canonical form, and the keys of the tables of groups, cores, virtual functions and selected events rise: what every
reachable state has. -/
structure Canonical (s : State) : Prop where
  mem : s.m.mem.wf = true
  groups : RisingKeys s.m.groups
  cores : RisingKeys s.m.cores
  cntsel : ∀ v, RisingKeys (vfst s.m v).cntsel
  vfs : RisingKeys s.mgmt.vfs

/-! ## Scalar instructions (R105 to R116) -/

/-- What a scalar instruction reads, where its result goes, and the result from the values of its sources. -/
structure ScalarForm where
  pn : Bool
  ps : BitVec 3
  d : BitVec 8
  srcs : List (BitVec 8 × Bool)
  value : List Word → Word

/-- A 64-bit operand read as TYPE says: signed under .i64 (3), unsigned under .n64 (R109). -/
def operandInt (ty : BitVec 4) (w : Word) : Int := if ty = 3 then w.toInt else (w.toNat : Int)
/-- The range of TYPE (R13, R109). -/
def rangeInt (ty : BitVec 4) (x : Int) : Int :=
  if ty = 3 then max (-9223372036854775808) (min x 9223372036854775807) else max 0 (min x 18446744073709551615)
/-- wrap, or sat where SAT asks for it. -/
def resultInt (i : FmtA) (x : Int) : Word := BitVec.ofInt 64 (if i.sat then rangeInt i.ty x else x)
def two (i : FmtA) (f : Word → Word → Word) : ScalarForm :=
  { pn := i.pn, ps := i.ps, d := i.d, srcs := [(i.a, i.ta), (i.b, i.tb)], value := fun v => f (v.headD 0) ((v.drop 1).headD 0) }
def one (i : FmtA) (f : Word → Word) : ScalarForm :=
  { pn := i.pn, ps := i.ps, d := i.d, srcs := [(i.a, i.ta)], value := fun v => f (v.headD 0) }
def imm1 (i : FmtI) (f : Word → Word → Word) : ScalarForm :=
  { pn := i.pn, ps := i.ps, d := i.d, srcs := [(i.a, false)], value := fun v => f (v.headD 0) (i.imm.signExtend 64) }
/-- A shift amount: the low six bits of B. -/
def low6 (w : Word) : Nat := w.toNat % 64

/-- The effects of R109 to R111. -/
def scalarForm : Instr → Option ScalarForm
  | .add i => some (two i fun a b => resultInt i (operandInt i.ty a + operandInt i.ty b))
  | .sub i => some (two i fun a b => resultInt i (operandInt i.ty a - operandInt i.ty b))
  | .mul i => some (two i fun a b => resultInt i (operandInt i.ty a * operandInt i.ty b))
  | .mulh i => some (two i fun a b => BitVec.ofInt 64 (operandInt i.ty a * operandInt i.ty b / 18446744073709551616))
  | .div i => some (two i fun a b =>
      if b = 0 then BitVec.allOnes 64 else BitVec.ofInt 64 ((operandInt i.ty a).tdiv (operandInt i.ty b)))
  | .rem i => some (two i fun a b => if b = 0 then a else BitVec.ofInt 64 ((operandInt i.ty a).tmod (operandInt i.ty b)))
  | .and i => some (two i fun a b => a &&& b)
  | .or i => some (two i fun a b => a ||| b)
  | .xor i => some (two i fun a b => a ^^^ b)
  | .andn i => some (two i fun a b => a &&& ~~~b)
  | .shl i => some (two i fun a b => a <<< low6 b)
  | .shr i => some (two i fun a b => a >>> low6 b)
  | .sra i => some (two i fun a b => a.sshiftRight (low6 b))
  | .rot i => some (two i fun a b => a.rotateLeft (low6 b))
  | .min i => some (two i fun a b => if operandInt i.ty b < operandInt i.ty a then b else a)
  | .max i => some (two i fun a b => if operandInt i.ty a < operandInt i.ty b then b else a)
  | .clz i => some (one i fun a => if a = 0 then 64 else BitVec.ofNat 64 (63 - Nat.log2 a.toNat))
  | .popc i => some (one i fun a => BitVec.ofNat 64 ((List.range 64).filter fun k => a.getLsbD k).length)
  | .sext i => some (one i fun a =>
      if i.ty = 0 then (a.setWidth 8).signExtend 64 else if i.ty = 1 then (a.setWidth 16).signExtend 64 else (a.setWidth 32).signExtend 64)
  | .zext i => some (one i fun a => if i.ty = 4 then a % 256 else if i.ty = 5 then a % 65536 else a % 4294967296)
  | .sel i => some { two i fun _ _ => 0 with
      srcs := [(i.a, i.ta), (i.b, i.tb), (i.c, i.tc)],
      value := fun v => if (v.drop 2).headD 0 = 0 then (v.drop 1).headD 0 else v.headD 0 }
  | .lea i => some (two i fun a b => a + b * BitVec.ofNat 64 (2 ^ (i.md.toNat % 8)))
  | .addImm i => some (imm1 i fun a b => a + b)
  | .mulImm i => some (imm1 i fun a b => a * b)
  | .andImm i => some (imm1 i fun a b => a &&& b)
  | .orImm i => some (imm1 i fun a b => a ||| b)
  | .xorImm i => some (imm1 i fun a b => a ^^^ b)
  | .shlImm i => some (imm1 i fun a b => a <<< low6 b)
  | .shrImm i => some (imm1 i fun a b => a >>> low6 b)
  | .sraImm i => some (imm1 i fun a b => a.sshiftRight (low6 b))
  | .rotImm i => some (imm1 i fun a b => a.rotateLeft (low6 b))
  | .movi i => some { imm1 i fun _ b => b with srcs := [] }
  | .movhi i => some (imm1 i fun a _ => i.imm ++ a.setWidth 32)
  | _ => none

end Sys2Proof.Machine

open Sys2Proof Sys2Proof.Machine

/-- R109 to R111: a scalar integer instruction whose predicate is true, whose sources are full and whose x destination is not claimed
completes: the destination, unless it is x0, holds the result and is full, the control stream moves to the next word, and nothing else
changes. -/
def Obligations.ScalarIntegerResult : Prop :=
  ∀ (i : Instr) (F : ScalarForm) (s : State), scalarForm i = some F → i.wellFormed = true → PredTrue s F.pn F.ps → SrcsFull s F.srcs →
    Unstepped s → F.d.toNat < 0x80 → F.srcs.all (fun p => p.1 != 0xC9) = true → getFe (me s.m) (.x F.d.toNat) ≠ .claimed →
    Goes i s fun t => ActsOnly s t
      (afterWord s.m.act (putX (me (readSrcs s F.srcs).2) F.d.toNat (F.value (readSrcs s F.srcs).1)))

/-! ## Predicates (R112, R113) -/

namespace Sys2Proof.Machine

/-- A instruction that writes a predicate: its sources, and the predicate from their values. -/
structure PredForm where
  pn : Bool
  ps : BitVec 3
  d : BitVec 8
  srcs : List (BitVec 8 × Bool)
  value : List Word → Bool

/-- The condition codes of R112: bit 3 selects unsigned comparison. -/
def conditionHolds (cond : BitVec 4) (a b : Word) : Bool :=
  match cond.toNat with
  | 0 | 8 => a == b
  | 1 | 9 => a != b
  | 2 => a.slt b
  | 3 => a.sle b
  | 4 => b.slt a
  | 5 => b.sle a
  | 10 => a.ult b
  | 11 => a.ule b
  | 12 => b.ult a
  | 13 => b.ule a
  | _ => false
def predicates (i : FmtA) (f : Bool → Bool → Bool) : PredForm :=
  let value := fun (v : List Word) => f (v.headD 0 = 1) ((v.drop 1).headD 0 = 1)
  { pn := i.pn, ps := i.ps, d := i.d, srcs := [(i.a, i.ta), (i.b, i.tb)], value := value }
def predForm : Instr → Option PredForm
  | .cmp cond i =>
    let value := fun (v : List Word) => conditionHolds cond (v.headD 0) ((v.drop 1).headD 0)
    some { pn := i.pn, ps := i.ps, d := i.d, srcs := [(i.a, i.ta), (i.b, i.tb)], value := value }
  | .cmpImm cond i =>
    let value := fun (v : List Word) => conditionHolds cond (v.headD 0) (i.imm.signExtend 64)
    some { pn := i.pn, ps := i.ps, d := i.d, srcs := [(i.a, false)], value := value }
  | .pand i => some (predicates i fun a b => a && b)
  | .por i => some (predicates i fun a b => a || b)
  | .pxor i => some (predicates i fun a b => a ^^ b)
  | .pnot i => some { predicates i (fun a _ => !a) with srcs := [(i.a, i.ta)] }
  | _ => none

end Sys2Proof.Machine

/-- R112, R113: a comparison or predicate instruction whose predicate is true, whose sources are full and whose destination is not
claimed completes: the destination, unless it is p0, holds the result and is full, and nothing else changes. -/
def Obligations.PredicateResult : Prop :=
  ∀ (i : Instr) (F : PredForm) (s : State), predForm i = some F → i.wellFormed = true → PredTrue s F.pn F.ps → SrcsFull s F.srcs →
    Unstepped s → getFe (me s.m) (.p (F.d.toNat - 0x80)) ≠ .claimed →
    Goes i s fun t => ActsOnly s t
      (afterWord s.m.act (putP (me (readSrcs s F.srcs).2) (F.d.toNat - 0x80) (F.value (readSrcs s F.srcs).1)))

/-! ## Scalar floating point (R114 to R116) -/

namespace Sys2Proof.Machine

/-- A scalar FP instruction: its sources, and from the group's modes and their values the result word and the flags. -/
structure FpForm where
  pn : Bool
  ps : BitVec 3
  d : BitVec 8
  srcs : List (BitVec 8 × Bool)
  value : Group → List Word → Word × BitVec 5

/-- The format a TYPE code of R115 names, and an operand of it: the low bits of the register. -/
def typeFmt (ty : BitVec 4) : Fmt := if ty = 8 then f64 else if ty = 10 then f16 else if ty = 11 then bf16 else f32
def operandFp (ty : BitVec 4) (w : Word) : Val := (typeFmt ty).decode (w.toNat % 2 ^ (typeFmt ty).width)
/-- The result in the low bits, the high bits zero. -/
def lowBits (r : FRes) : Word × BitVec 5 := (BitVec.ofNat 64 r.bits, r.fl)
def fpForm : Instr → Option FpForm
  | .fadd i =>
    let value := fun (g : Group) (v : List Word) => lowBits ((typeFmt i.ty).add (rmOf i.rnd g.drm false) i.sat false 0
      (operandFp i.ty (v.headD 0)) (operandFp i.ty ((v.drop 1).headD 0)))
    some { pn := i.pn, ps := i.ps, d := i.d, srcs := [(i.a, i.ta), (i.b, i.tb)], value := value }
  | .fmul i =>
    let value := fun (g : Group) (v : List Word) => lowBits ((typeFmt i.ty).mul (rmOf i.rnd g.drm false) i.sat false 0
      (operandFp i.ty (v.headD 0)) (operandFp i.ty ((v.drop 1).headD 0)))
    some { pn := i.pn, ps := i.ps, d := i.d, srcs := [(i.a, i.ta), (i.b, i.tb)], value := value }
  | .ffma i =>
    let value := fun (g : Group) (v : List Word) => lowBits ((typeFmt i.ty).fma (rmOf i.rnd g.drm false) i.sat false 0
      (operandFp i.ty (v.headD 0)) (operandFp i.ty ((v.drop 1).headD 0)) (operandFp i.ty ((v.drop 2).headD 0)))
    some { pn := i.pn, ps := i.ps, d := i.d, srcs := [(i.a, i.ta), (i.b, i.tb), (i.c, i.tc)], value := value }
  | .fcvt i => match i.srcTy, i.resTy with
    | some from_, some to_ =>
      let value := fun (g : Group) (v : List Word) =>
        let r := convert from_ to_ (rmOf i.rnd g.drm false) i.sat false 0 (v.headD 0).toNat
        if to_ = .i8 ∨ to_ = .i16 ∨ to_ = .i32 ∨ to_ = .i64 ∨ to_ = .i4 then (BitVec.ofInt 64 (sext r.bits to_.width), r.fl) else lowBits r
      some { pn := i.pn, ps := i.ps, d := i.d, srcs := [(i.a, i.ta)], value := value }
    | _, _ => none
  | _ => none

end Sys2Proof.Machine

/-- R114 to R116: a scalar floating-point instruction whose predicate is true, whose sources are full and whose destination is not
claimed completes: the destination holds the rounded result, fflags gains its flags, and nothing else changes. -/
def Obligations.ScalarFpResult : Prop :=
  ∀ (i : Instr) (F : FpForm) (s : State), fpForm i = some F → PredTrue s F.pn F.ps → SrcsFull s F.srcs →
    Unstepped s → getFe (me s.m) (.x F.d.toNat) ≠ .claimed →
    Goes i s fun t =>
      let g := me (readSrcs s F.srcs).2
      let r := F.value g (readSrcs s F.srcs).1
      ActsOnly s t (afterWord s.m.act { putX g F.d.toNat r.1 with fflags := g.fflags ||| r.2 })

/-! ## System registers (R36, R42, R45, R46) -/

namespace Sys2Proof.Machine

/-- The acting group after a write of a system register that needs no unit of the core. -/
def sysWritten (d : BitVec 8) (v : Word) (g : Group) : Option Group :=
  if d = 0xC2 then some { g with vstart := if v.toNat < 1024 then v.toNat else 1024 }
  else if d = 0xC3 then some { g with vdirty := g.vdirty &&& ~~~v }
  else if d = 0xC8 then some { g with qin := g.qin ++ [v.setWidth 32] }
  else if d = 0xCA then some { g with fflags := g.fflags &&& ~~~(v.setWidth 5) }
  else if d = 0xCB then
    some { g with ftz := v.getLsbD 4, drm := if v.extractLsb' 0 3 = 6 ∨ v.extractLsb' 0 3 = 7 then g.drm else v.extractLsb' 0 3 }
  else none
/-- The row of the opcode table that writes a system register. -/
def sysWriteOf : Instr → Option (BitVec 8 × Word)
  | .vstartWrite v => some (0xC2, v)
  | .vdirtyClear v => some (0xC3, v)
  | .qinWrite v => some (0xC8, v)
  | .fflagsClear v => some (0xCA, v)
  | .fmodeWrite v => some (0xCB, v)
  | _ => none
/-- qin takes a push of the acting group's control stream: it has room, and beside a diverged run no earlier access of the stream is
left (R42, R196). Other destinations wait for neither. -/
def QinTakes (d : BitVec 8) (g : Group) : Prop :=
  d = 0xC8 → g.qin.length < 16 ∧ (g.run.any (·.diverged) = true → ctlClear g = true)

end Sys2Proof.Machine

/-- R42, R45, R46: a write of vstart, vdirty, fflags or fmode, or of qin while it has room, stores what its rule says into that
register of the acting group, and changes nothing else; a full qin blocks. -/
def Sys2Proof.Machine.SystemRegisterWrite : Prop :=
  ∀ (i : Instr) (d : BitVec 8) (v : Word) (s : State) (g : Group), sysWriteOf i = some (d, v) → sysWritten d v (me s.m) = some g →
    (QinTakes d (me s.m) → Goes i s fun t => MeOnly s t g) ∧
    (d = 0xC8 → 16 ≤ (me s.m).qin.length → Goes i s fun t => ActsOnly s t { me s.m with waitC := some .qinRoom })

/-- R36: a write of vopen or xopen while no selected register is claimed makes exactly the selected registers open, in every VP, and
changes no value and no other register; selected bits at or above the declared count have no effect. While a selected register is
claimed the write waits for the claim. -/
def Obligations.OpenRegisters : Prop :=
  ∀ (v : Word) (s : State),
    ((∀ i e, i < (me s.m).nregs → e < (me s.m).vlmax → v.getLsbD i = true → getFe (me s.m) (.v i e) ≠ .claimed) →
      Goes (.vopenWrite v) s fun t => ∃ g, MeOnly s t g ∧ g = { me s.m with vfe := g.vfe } ∧
        ∀ i e, e < (me s.m).vlmax →
          getFe g (.v i e) = if i < (me s.m).nregs ∧ v.getLsbD i = true then .opened else getFe (me s.m) (.v i e)) ∧
    ((∀ i, i < 64 → v.getLsbD i = true → getFe (me s.m) (.x i) ≠ .claimed) →
      Goes (.xopenWrite v) s fun t => ∃ g, MeOnly s t g ∧ g = { me s.m with xfe := g.xfe } ∧
        ∀ i, getFe g (.x i) = if 0 < i ∧ v.getLsbD i = true then .opened else getFe (me s.m) (.x i)) ∧
    ((∃ i e, i < (me s.m).nregs ∧ e < (me s.m).vlmax ∧ v.getLsbD i = true ∧ getFe (me s.m) (.v i e) = .claimed) →
      Goes (.vopenWrite v) s fun t => ∃ rs, ActsOnly s t { me s.m with waitC := some (.unclaimed rs) } ∧
        ∀ r, r ∈ rs ↔ ∃ i e, i < (me s.m).nregs ∧ e < (me s.m).vlmax ∧ v.getLsbD i = true ∧ r = .v i e) ∧
    ((∃ i, i < 64 ∧ v.getLsbD i = true ∧ getFe (me s.m) (.x i) = .claimed) →
      Goes (.xopenWrite v) s fun t => ∃ rs, ActsOnly s t { me s.m with waitC := some (.unclaimed rs) } ∧
        ∀ r, r ∈ rs ↔ ∃ i, i < 64 ∧ v.getLsbD i = true ∧ r = .x i)

/-- R42, R33: a read of a qout that holds an entry pops it. An x destination that is not claimed is claimed, and is filled with the
entry, zero-extended, when the read completes; x0 discards it; a system register is written. An empty qout blocks. -/
def Sys2Proof.Machine.QoutRead : Prop :=
  ∀ (d : BitVec 8) (s : State),
    ((me s.m).qout = [] → Goes (.qoutRead d) s fun t => ActsOnly s t { me s.m with waitC := some .qoutFilled }) ∧
    ∀ w r, (me s.m).qout = w :: r →
      (d.toNat < 0x80 → d ≠ 0 → getFe (me s.m) (.x d.toNat) ≠ .claimed →
        let g := setFe { me s.m with qout := r } .claimed (.x d.toNat)
        let f : Fill := { reg := .x d.toNat, val := w.setWidth 64 }
        Goes (.qoutRead d) s fun t => MeOnly s t { g with fills := g.fills ++ [f] }) ∧
      (d = 0 → Goes (.qoutRead d) s fun t => MeOnly s t { me s.m with qout := r }) ∧
      (∀ g, sysWritten d (w.setWidth 64) { me s.m with qout := r } = some g → QinTakes d (me s.m) →
        Goes (.qoutRead d) s fun t => MeOnly s t g)

/-- R33, R42, R45, R46: writes of system registers, and reads of qout. -/
def Obligations.SystemRegisterAccess : Prop := SystemRegisterWrite ∧ QoutRead


/-! ## Control flow, lengths and runs (R39, R40, R258 to R274) -/

namespace Sys2Proof.Machine

/-- Target of a format-B transfer: the clause address plus eight times the signed offset, modulo 2^64. -/
def relTarget (s : State) (f : FmtB) : Nat := (((s.m.act.clause : Int) + 8 * f.off.toInt) % 18446744073709551616).toNat
/-- The group with its control stream sent to a clause, whose fetch sees what the group has seen (R57). -/
def sentTo (s : State) (target : Nat) (g : Group) : Group :=
  { g with fetchFloor := mmax g.fetchFloor (fetchable s.m g.vis), pc := target, pcword := 1, held := none, begunC := false }
/-- The group after reading one x register. -/
def afterX (s : State) (r : BitVec 8) (trap : Bool) : Group := me (readSrcs s [(r, trap)]).2
/-- Reading x register r of the acting group does not block. -/
def XFull (s : State) (r : BitVec 8) : Prop := r.toNat < 0x80 ∧ getFe (me s.m) (.x r.toNat) = .full
/-- The acting group has no run in lock-step: none, or one that has diverged (R264). -/
def NoLockStep (s : State) : Prop := ((me s.m).run.any fun r => !r.diverged) = false
/-- The value of an x register of the acting group. -/
def xVal (s : State) (r : BitVec 8) : Word := getX (me s.m) r.toNat
/-- The group g halted with a report, its pc and registers as they were (R321); what its vector instructions have still to do, and
whether vstart shows where they stopped, is left to the statements on R325, and a diverged run may have its rotation point set (R264). -/
def HaltedAs (g h : Group) (r : Report) : Prop :=
  ∃ acc recs vstart vkept run,
    h = { g with status := .halted, rep := r, waitC := none, waitV := none, stepping := false, acc := acc, recs := recs,
                 vstart := vstart, vkept := vkept, run := run, linkset := g.linkset.map fun l => { l with intact := false } } ∧
    run.map (fun q => { q with rp := none }) = g.run.map fun q => { q with rp := none }
/-- Nothing but the acting group, now halted, and what the core's slot issues has changed. -/
def Halts (s t : State) (g : Group) (r : Report) : Prop := ActsOnly s t (me t.m) ∧ HaltedAs g (me t.m) r
/-- The report of a class-2 fault of the acting instruction. -/
def reportOf (s : State) (code elem addr info : Nat) : Report :=
  { cls := 2, code := code, word := s.m.act.word, clause := s.m.act.clause, addr := addr, elem := elem, info := info }

end Sys2Proof.Machine

/-- R271: the taken transfers of the control stream. br, jmpr and ret send it to their target; call writes the address of the next clause
to its register first; loop leaves a zero counter alone and goes on, and otherwise takes one from it and transfers unless it is then
zero. Nothing else changes. -/
def Sys2Proof.Machine.ControlTransfer : Prop :=
  ∀ s : State, Unstepped s →
    (∀ f : FmtB, PredTrue s f.pn f.ps → relTarget s f < 2 ^ 55 →
      Goes (.br f) s (fun t => ActsOnly s t (sentTo s (relTarget s f) (me s.m))) ∧
      (XFull s f.a →
        let g := afterX s f.a false
        Goes (.call f) s (fun t => ActsOnly s t
          (sentTo s (relTarget s f) (putX g f.a.toNat (BitVec.ofNat 64 (s.m.act.clause + 8 * (s.m.act.count + 1)))))) ∧
        Goes (.loop f) s (fun t => ActsOnly s t
          (if xVal s f.a = 0 then afterWord s.m.act g
           else if xVal s f.a = 1 then afterWord s.m.act (putX g f.a.toNat 0)
           else sentTo s (relTarget s f) (putX g f.a.toNat (xVal s f.a - 1)))))) ∧
    (∀ (i : Instr) (f : FmtA), i = .jmpr f ∨ i = .ret f → PredTrue s f.pn f.ps → XFull s f.a → (xVal s f.a).toNat < 2 ^ 55 →
      (xVal s f.a).toNat % 8 = 0 →
      Goes i s (fun t => ActsOnly s t (sentTo s (xVal s f.a).toNat (afterX s f.a f.ta))))

/-- R272: a target with a bit above 54 set halts the group with ADDRESS-RANGE, a misaligned target of jmpr or ret with TARGET-ALIGN,
before the link is written; the report holds the target, and the pc stays at the clause. -/
def Sys2Proof.Machine.BadTargetHalts : Prop :=
  ∀ s : State,
    (∀ f : FmtB, PredTrue s f.pn f.ps → 2 ^ 55 ≤ relTarget s f →
      Goes (.br f) s (fun t => Halts s t { me s.m with held := none } (reportOf s 0x03 0 (relTarget s f) 0)) ∧
      (XFull s f.a →
        Goes (.call f) s (fun t => Halts s t { afterX s f.a false with held := none } (reportOf s 0x03 0 (relTarget s f) 0)))) ∧
    (∀ (i : Instr) (f : FmtA), i = .jmpr f ∨ i = .ret f → PredTrue s f.pn f.ps → XFull s f.a →
      (2 ^ 55 ≤ (xVal s f.a).toNat →
        Goes i s fun t => Halts s t { afterX s f.a f.ta with held := none } (reportOf s 0x03 0 (xVal s f.a).toNat 0)) ∧
      ((xVal s f.a).toNat < 2 ^ 55 → (xVal s f.a).toNat % 8 ≠ 0 →
        Goes i s fun t => Halts s t { afterX s f.a f.ta with held := none } (reportOf s 0x05 0 (xVal s f.a).toNat 0)))

/-- R271, R272: the transfers of the control stream, and those that a bad target halts. -/
def Obligations.ControlTransfers : Prop := ControlTransfer ∧ BadTargetHalts


/-- R258: setvl. R40, R259: vregs in a quiescent group that is neither a child nor has a live one. R274: yield. R268: vfwait outside a
run. Each changes what is said here and nothing else. -/
def Obligations.LengthsAndYield : Prop :=
  ∀ s : State, Unstepped s →
    (∀ f : FmtA, PredTrue s f.pn f.ps → XFull s f.a → getFe (me s.m) (.x f.d.toNat) ≠ .claimed →
      Goes (.setvl f) s fun t =>
        let n := if (xVal s f.a).toNat < (me s.m).vlmax then (xVal s f.a).toNat else (me s.m).vlmax
        ActsOnly s t (afterWord s.m.act (putX { afterX s f.a f.ta with vl := n, vstart := 0 } f.d.toNat (BitVec.ofNat 64 n)))) ∧
    (∀ f : FmtI, PredTrue s f.pn f.ps → (me s.m).parent = none → liveChild (me s.m) = false →
      quiescent s.m s.m.act.core s.m.act.slot = true →
      Goes (.vregs f) s fun t => ActsOnly s t (afterWord s.m.act
        { me s.m with
          nregs := f.imm.toNat, vlmax := vlmaxOf f.imm.toNat (me s.m).gcount (me s.m).laneL, vl := 0
          v := [], vfe := [], c := [], cfe := [], links := [], qin := [], qout := [], vdirty := 0, saveMap := BitVec.allOnes 64 })) ∧
    (∀ f : FmtA, PredTrue s f.pn f.ps →
      Goes (.yield f) s fun t =>
        let a := (core s.m s.m.act.core).nextAge
        ActsOnly { s with m := modCore s.m s.m.act.core fun k => { k with nextAge := a + 1 } } t
          (afterWord s.m.act { me s.m with age := a, yielded := true })) ∧
    (∀ f : FmtA, PredTrue s f.pn f.ps → (me s.m).run = none →
      Goes (.vfwait f) s fun t => ActsOnly s t (afterWord s.m.act (me s.m)))

/-- R260, R263: a vf outside a run captures vl and the uniform x registers, but for those that are claimed or open, and starts the vector stream,
in lock-step, at its target; with vl zero the run is over at once. The control stream goes on. That an x register open at the vf stays to be
captured is the model's choice (log entry 108). -/
def Sys2Proof.Machine.RunStart : Prop :=
  ∀ (s : State) (f : FmtB), Unstepped s → PredTrue s f.pn f.ps → (me s.m).run = none → relTarget s f < 2 ^ 55 →
    Goes (.vf f) s fun t => ∃ g, ActsOnly s t (afterWord s.m.act g) ∧
      g = { me s.m with run := g.run, runs := (me s.m).runs + 1, seq := (me s.m).seq + 1, vps := [], begunV := false,
                        fetchFloor := mmax (me s.m).fetchFloor (fetchable s.m (me s.m).vis) } ∧
      if (me s.m).vl = 0 then g.run = none
      else ∃ r, g.run = some r ∧ r.vl = (me s.m).vl ∧ r.diverged = false ∧ r.pc = relTarget s f ∧ r.w = 1 ∧ r.ux = (me s.m).x ∧
        (∀ i, i ∈ r.uwait ↔ (i, FE.claimed) ∈ (me s.m).xfe) ∧ ∀ i, i ∈ r.uopen ↔ (i, FE.opened) ∈ (me s.m).xfe

/-- R266 to R268: in the lock-step phase, vfetch by every executing VP and vbru on a mask bit that all share send the run to their target;
stop by every executing VP ends it, the program counters of its VPs staying where they are (R47); on a false bit vbru goes on. Nothing but
the run has changed. -/
def Sys2Proof.Machine.LockStepTransfer : Prop :=
  ∀ (s : State) (r : Run), Unstepped s → (me s.m).run = some r → r.diverged = false → r.from_ = 0 → s.m.act.vps = List.range r.vl →
    0 < r.vl →
    (∀ f : FmtB, f.ps = 0 → relTarget s f < 2 ^ 55 →
      Goes (.vfetch f) s (fun t => ∃ r', ActsOnly s t { me s.m with run := some r', vps := (me t.m).vps, begunV := false } ∧
        r'.vl = r.vl ∧ r'.ux = r.ux ∧ r'.diverged = true ∧
        ∀ e, e < r.vl → vpPos (me t.m) e = { pc := relTarget s f, w := 1, idle := false, parked := none }) ∧
      (isC f.a = true → (∀ e, e < r.vl → getFe (me s.m) (.c (f.a.toNat - 0x40) e) = .full) →
        ∀ b, (∀ e, e < r.vl → getC (me s.m) (f.a.toNat - 0x40) e = b) →
          Goes (.vbru f) s (fun t => ActsOnly s t
            { me s.m with
              begunV := if b ∨ s.m.act.count ≤ s.m.act.word then false else (me s.m).begunV
              run := some { r with
                pc := if b then relTarget s f else if s.m.act.word < s.m.act.count then s.m.act.clause
                      else (s.m.act.clause + 8 * (s.m.act.count + 1)) % 18446744073709551616
                w := if b then 1 else if s.m.act.word < s.m.act.count then s.m.act.word + 1 else 1 } }))) ∧
    (∀ f : FmtA, f.ps = 0 → Goes (.vStop f) s fun t => ActsOnly s t { me s.m with run := none, vps := [], pcs := (me t.m).pcs } ∧
      ∀ e, pcOf (me t.m) e = if e < r.vl then r.pc else pcOf (me s.m) e)

/-- R260, R261, R266 to R268: a run starts, and its transfers in lock-step. -/
def Obligations.RunsAndTheirTransfers : Prop := RunStart ∧ LockStepTransfer


/-! ## Ending, splitting and creating groups (R273, R276 to R282) -/

/-- R273: a stop that nothing keeps waiting frees the group's slot and the issue slot; memory, tile contents and their owners, queued
commands, and the registers of every other group stay as they are. What the group has still to perform stays, with its visible set, in a
place apart from the slots (the model's reading, log entry 23). A stop that must wait leaves the group, but for STATE, as it is. -/
def Obligations.StopEndsGroup : Prop :=
  ∀ (s : State) (f : FmtA), PredTrue s f.pn f.ps → s.m.act.slot < 64 →
    (mayEnd (me s.m) = true → ∀ k?, k? = (if (me s.m).acc = [] then none else some (goneSlot s.m s.m.act.core)) →
      Goes (.stop f) s fun t => grp t.m s.m.act.core s.m.act.slot = {} ∧ (core t.m s.m.act.core).issue = none ∧ t.mgmt = s.mgmt ∧
        t.m.mem = s.m.mem ∧ t.m.hist = s.m.hist ∧
        (∀ c, (core t.m c).own = (core s.m c).own ∧ (core t.m c).jobs = (core s.m c).jobs ∧ (core t.m c).tiles = (core s.m c).tiles) ∧
        (∀ k, k? = some k → let h := grp t.m s.m.act.core k
          h.status = .gone ∧ h.acc = (me s.m).acc ∧ h.vis = (me s.m).vis ∧ h.uid = (me s.m).uid ∧ h.vf = (me s.m).vf) ∧
        ∀ k, k ≠ gkey s.m.act.core s.m.act.slot → (∀ j, k? = some j → k ≠ gkey s.m.act.core j) →
          let g := mget {} s.m.groups k
          let h := mget {} t.m.groups k
          h.status = g.status ∧ h.x = g.x ∧ h.xfe = g.xfe ∧ h.p = g.p ∧ h.v = g.v ∧ h.vfe = g.vfe ∧ h.c = g.c ∧ h.pc = g.pc) ∧
    (mayEnd (me s.m) = false →
      Goes (.stop f) s fun t => ActsOnly s t { me s.m with status := .ending, waitC := some .ending })

/-- R279: fork in a quiescent group. With one lane, a live child or no free slot it only writes false. Otherwise the parent keeps the
lower half of the lanes and of the VPs with their values, the child runs on the upper half from the next clause with x1 to x8 of the
parent and zero v registers, and the destination is true. x7 and x8 are the child's own part of an area where the frame description has
a size for it (R82, R352). A fork waits for the control stream's earlier accesses, which the child is to see (R275, R196). The model's own
readings: the child has the parent's privilege (log entry 47), and its x1 to x8 are full where the parent's are claimed or open (log entry
125). -/
def Sys2Proof.Machine.ForkSplits : Prop :=
  ∀ (s : State) (f : FmtA), Unstepped s → PredTrue s f.pn f.ps → getFe (me s.m) (.p (f.d.toNat - 0x80)) ≠ .claimed →
    quiescent s.m s.m.act.core s.m.act.slot = true →
    let g := me s.m
    let c := s.m.act.core
    let found := freeSlot s.m c (yardSlots (groupYardEnt s.mgmt c g) 64)
    (ctlClear g = false → Goes (.fork f) s fun t => ActsOnly s t { g with waitC := some (.own none) }) ∧ (ctlClear g = true →
    ((g.laneL ≤ 1 ∨ liveChild g = true ∨ found = none) →
      Goes (.fork f) s fun t => ActsOnly s t (afterWord s.m.act (putP g (f.d.toNat - 0x80) false))) ∧
    (∀ sc, 1 < g.laneL → liveChild g = false → found = some sc → sc ≠ s.m.act.slot → sc < 64 → s.m.act.slot < 64 →
      Goes (.fork f) s fun t =>
        let p := me t.m
        let k := grp t.m c sc
        let l := g.laneL
        let half := yardEnt s.mgmt ((yardAt s.mgmt c (g.laneB + l / 2)).getD 0)
        let part := fun (base size : Nat) (given : Word) =>
          if size = 0 then given else BitVec.ofNat 64 (base + 128 * size * areaIndex s.mgmt half c sc)
        p = { afterWord s.m.act g with
              laneL := p.laneL, vlmax := p.vlmax, vl := p.vl, v := p.v, vfe := p.vfe, c := p.c, cfe := p.cfe, srs := p.srs, pcs := p.pcs
              forks := p.forks, pend := p.pend, p := p.p, pfe := p.pfe } ∧
        p.laneB = g.laneB ∧ p.laneL = l / 2 ∧ p.vlmax = g.vlmax / 2 ∧
        p.vl = ((List.range g.vl).filter fun e => decide (e % l < l / 2)).length ∧ p.x = g.x ∧
        getFe p (.p (f.d.toNat - 0x80)) = .full ∧ getP p (f.d.toNat - 0x80) = true ∧
        (∀ i e, e % l < l / 2 → getV p i (e / l * (l / 2) + e % l) = getV g i e ∧
          getFe p (.v i (e / l * (l / 2) + e % l)) = getFe g (.v i e) ∧
          mget false (mget [] p.c i) (e / l * (l / 2) + e % l) = mget false (mget [] g.c i) e ∧
          mget 1 p.srs (e / l * (l / 2) + e % l) = mget 1 g.srs e) ∧
        k.status = .running ∧ k.vf = g.vf ∧ k.laneB = g.laneB + l / 2 ∧ k.laneL = l / 2 ∧ k.vlmax = g.vlmax / 2 ∧
        k.vl + p.vl = g.vl ∧ k.pc = seqClause s.m.act ∧ (∀ i e, getV k i e = 0) ∧ (∀ r, getFe k r = .full) ∧
        (∀ i, 1 ≤ i → i ≤ 6 → getX k i = getX g i) ∧ getX k 7 = part g.frame.x7 g.frame.fpart (getX g 7) ∧
        getX k 8 = part g.frame.x8 g.frame.spart (getX g 8) ∧ (∀ i, 8 < i → getX k i = 0) ∧ k.nregs = g.nregs ∧ k.gcount = g.gcount ∧
        k.priv = g.priv ∧ k.frame = g.frame ∧ k.vis = g.vis ∧ k.ftz = g.ftz ∧ k.drm = g.drm ∧ k.fflags = 0 ∧ k.vstart = 0 ∧
        t.m.mem = s.m.mem))

/-- R280: join in a parent whose child has ended, once it is quiescent, restores the lanes, VLMAX and vl of before the fork; the lower
VPs keep the parent's v and c registers with their full bits and rounding states, the upper ones take those that the child left, and the
parent's visible set gains the child's. It waits for the child, and for what a child that has ended has still to perform. In a group that
has no child and is none it has no effect. That the upper VPs take the child's values in place of the parent's own of before the fork is the
model's choice (log entry 28). -/
def Sys2Proof.Machine.JoinReunites : Prop :=
  ∀ (s : State) (f : FmtA), Unstepped s → PredTrue s f.pn f.ps → (me s.m).parent = none →
    ((me s.m).forks = [] → Goes (.join f) s fun t => ActsOnly s t (afterWord s.m.act (me s.m))) ∧
    (∀ k r, (me s.m).forks = k :: r → k.done = true → goneChild s.m k.uid = false →
      quiescent s.m s.m.act.core s.m.act.slot = true → 1 < k.l →
      Goes (.join f) s fun t => ∃ g, ActsOnly s t (afterWord s.m.act g) ∧
        g = { me s.m with
              laneB := g.laneB, laneL := g.laneL, vlmax := g.vlmax, vl := g.vl, v := g.v, vfe := g.vfe, c := g.c, cfe := g.cfe
              srs := g.srs, pcs := g.pcs, saveMap := g.saveMap, pend := g.pend, forks := g.forks, vis := g.vis } ∧
        g.saveMap = (me s.m).saveMap ||| k.saveMap ∧
        g.laneB = k.b ∧ g.laneL = k.l ∧ g.vlmax = k.vlmax ∧ g.vl = k.vl ∧ g.forks = r ∧ g.x = (me s.m).x ∧
        g.vis = mmax (me s.m).vis k.vis ∧
        (∀ i e, let n := e / (k.l / 2) * k.l + e % (k.l / 2)
          getV g i n = getV (me s.m) i e ∧ getV g i (n + k.l / 2) = mget 0 (mget [] k.v i) e ∧
          getFe g (.v i n) = getFe (me s.m) (.v i e) ∧ getFe g (.v i (n + k.l / 2)) = mget .full (mget [] k.vfe i) e ∧
          mget false (mget [] g.c i) n = mget false (mget [] (me s.m).c i) e ∧
          mget false (mget [] g.c i) (n + k.l / 2) = mget false (mget [] k.c i) e ∧
          mget FE.full (mget [] g.cfe i) n = mget .full (mget [] (me s.m).cfe i) e ∧
          mget FE.full (mget [] g.cfe i) (n + k.l / 2) = mget .full (mget [] k.cfe i) e ∧
          mget 1 g.srs n = mget 1 (me s.m).srs e ∧ mget 1 g.srs (n + k.l / 2) = mget 1 k.srs e)) ∧
    (∀ k r, (me s.m).forks = k :: r → k.done = false ∨ goneChild s.m k.uid = true →
      Goes (.join f) s fun t => ActsOnly s t { me s.m with waitC := some .child })

/-- R279, R280: fork and join. -/
def Obligations.ForkAndJoin : Prop := ForkSplits ∧ JoinReunites


/-- R276, R277: a spawn whose item finds a stall adds it there, with its entry clause, argument and the spawning group's
identity, and goes on; the stall's timer starts with its first item. It waits for the control stream's earlier accesses, which the new
group is to see (R275, R196). -/
def Sys2Proof.Machine.SpawnIntoStall : Prop :=
  ∀ (s : State) (f : FmtA) (n : Nat), Unstepped s → PredTrue s f.pn f.ps → XFull s f.a → XFull s f.b →
    SrcsFull s [(f.a, f.ta), (f.b, f.tb)] → (xVal s f.a).toNat < 2 ^ 55 → (xVal s f.a).toNat % 8 = 0 →
    let m := (readSrcs s [(f.a, f.ta), (f.b, f.tb)]).2
    let it : Item := { entry := (xVal s f.a).toNat, arg := xVal s f.b, by_ := starterOf s.mgmt m }
    (ctlClear (me s.m) = false → Goes (.spawn f) s fun t => ActsOnly s t { me m with waitC := some (.own none) }) ∧
    (ctlClear (me s.m) = true → findStall (clus s.m (clusterOf s.m.act.core)) (actLaneYard s.mgmt s.m) it = some n →
    Goes (.spawn f) s fun t =>
      let old := mget {} (clus s.m (clusterOf s.m.act.core)).stalls n
      let new := mget {} (clus t.m (clusterOf s.m.act.core)).stalls n
      new.items = old.items ++ [it] ∧
      new.due = (if old.items = [] then s.m.now + (clus s.m (clusterOf s.m.act.core)).timer else old.due) ∧
      me t.m = afterWord s.m.act (me m) ∧ t.m.mem = s.m.mem ∧ t.mgmt = s.mgmt ∧
      ∀ j, j ≠ n → mget {} (clus t.m (clusterOf s.m.act.core)).stalls j = mget {} (clus s.m (clusterOf s.m.act.core)).stalls j)

/-- R276: V spawn by the executing VPs of a lock-step run: each active VP places one item, in ascending order, and where all find room
the vector stream goes on; where one finds none, the group halts with SPAWN-OVERFLOW and no item is placed. -/
def Sys2Proof.Machine.VectorSpawn : Prop :=
  ∀ (s : State) (f : FmtA) (r : Run), Unstepped s → (me s.m).run = some r → r.diverged = false → r.from_ = 0 → f.ps = 0 →
    0x80 ≤ f.a.toNat → 0x80 ≤ f.b.toNat → r.uwait = [] → r.uopen = [] → s.m.act.vps ≠ [] →
    (∀ e ∈ s.m.act.vps, vpClear (me s.m) e = true) →
    let u := fun (c : BitVec 8) => if c = 0x80 then (0 : Word) else mget 0 r.ux (c.toNat - 0x80)
    (u f.a).toNat < 2 ^ 55 → (u f.a).toNat % 8 = 0 →
    let m := learnLanes s.m.act.vps [{ code := f.a, wide := true, trap := f.ta }, { code := f.b, wide := true, trap := f.tb }] s.m
    let its : List Item := s.m.act.vps.map fun _ => { entry := (u f.a).toNat, arg := u f.b, by_ := starterOf s.mgmt m }
    (∀ m', placeItems s.mgmt (actLaneYard s.mgmt s.m) m its = some m' → spawnWait s.mgmt (actLaneYard s.mgmt s.m) m its = none →
      Goes (.vSpawn f) s fun t => t = { s with m := retireV m' }) ∧
    (placeItems s.mgmt (actLaneYard s.mgmt s.m) m its = none →
      Goes (.vSpawn f) s fun t => Halts { s with m := m } t (me m) (reportOf s 0x0A (s.m.act.vps.headD 0) 0 0))

/-- R276, R277: spawn of the control stream, and of VPs. -/
def Obligations.Spawns : Prop := SpawnIntoStall ∧ VectorSpawn


/-- R86, R281: launch. A record address that is not 128-byte aligned makes the destination false with no read. Once the record's
sixteen doublewords have been read, a valid record that can be placed is accepted at the end of the virtual function's list and the
destination is true; an invalid one makes it false and changes nothing else. -/
def Obligations.LaunchAccepts : Prop :=
  ∀ (s : State) (f : FmtA), Unstepped s → PredTrue s f.pn f.ps → XFull s f.a → getFe (me s.m) (.p (f.d.toNat - 0x80)) ≠ .claimed →
    let m := (readSrcs s [(f.a, f.ta)]).2
    let y := groupYardEnt s.mgmt s.m.act.core (me s.m)
    let setP := fun (b : Bool) => afterWord s.m.act (putP (me m) (f.d.toNat - 0x80) b)
    ((me s.m).held = none → (xVal s f.a).toNat % 128 ≠ 0 → Goes (.launch f) s fun t => ActsOnly s t (setP false)) ∧
    (∀ h, (me s.m).held = some h → (∀ o ∈ (me s.m).acc, o.id ≠ h.op) →
      let rec_ := recordOf h.words
      (recordValid (vfEnt s.mgmt (me s.m).vf) (yardLaneCount y) rec_ = false → Goes (.launch f) s fun t => ActsOnly s t (setP false)) ∧
      (∀ places, recordValid (vfEnt s.mgmt (me s.m).vf) (yardLaneCount y) rec_ = true → (vfst s.m (me s.m).vf).launched.length < 16 →
        placeRecord s.mgmt y (fun c => coreQualifies m y rec_.ngroups c) rec_ = some places →
        Goes (.launch f) s fun t => ∃ l, me t.m = setP true ∧
          (vfst t.m (me s.m).vf).launched = (vfst s.m (me s.m).vf).launched ++ [l] ∧ l.entry = rec_.entry ∧ l.nregs = rec_.nregs ∧
          l.gcount = rec_.ngroups ∧ l.places = places ∧ t.m.mem = s.m.mem ∧ t.mgmt = s.mgmt))

/-! ## Lane instructions (R118 to R129) -/

namespace Sys2Proof.Machine

/-- A lane instruction: the v registers it names, its sources and destination, and from the group's modes, the VP's number, its operands
and its rounding state the results, flags and new rounding state. -/
structure LaneForm where
  pn : Bool
  ps : BitVec 3
  named : List Nat
  srcs : List VSrc
  d : VDst
  f : Group → LaneFn

/-- A sub-element of width w as a signed number. -/
def signedSub (w x : Nat) : Int := (BitVec.ofNat w x).toInt
/-- TYPE codes 0 to 3 are signed, 4 to 7 unsigned (R62). -/
def subInt (ty : BitVec 4) (x : Nat) : Int := if ty.toNat < 4 then signedSub (codeWidth ty) x else x
/-- The range of a type. -/
def subRange (ty : BitVec 4) (x : Int) : Int :=
  if ty.toNat < 4 then max (-2 ^ (codeWidth ty - 1)) (min x (2 ^ (codeWidth ty - 1) - 1)) else max 0 (min x (2 ^ codeWidth ty - 1))
/-- wrap, or sat. -/
def subResult (ty : BitVec 4) (sat : Bool) (x : Int) : Nat := ((if sat then subRange ty x else x) % 2 ^ codeWidth ty).toNat
def laneA (i : FmtA) (srcs : List VSrc) (wide : Bool) (f : Group → LaneFn) : LaneForm :=
  { pn := i.pn, ps := i.ps, named := vNamed srcs (.v i.d wide), srcs := srcs, d := .v i.d wide, f := f }
/-- An integer instruction of n sources: each sub-element alone, no flags. -/
def laneInts (n : Nat) (i : FmtA) (f : Nat → Nat → Nat → Nat) : LaneForm :=
  let wide := i.ty = 3 ∨ i.ty = 7
  laneA i (vsrcs i n wide) wide fun _ _ v sr => ([mapSubs (codeWidth i.ty) (fun x => f (x.headD 0) (x.getD 1 0) (x.getD 2 0)) v], 0, sr)
/-- A floating-point instruction of n sources that rounds each sub-element in the instruction's mode. -/
def laneFps (n : Nat) (i : FmtA) (f : Fmt → RM → Bool → Nat → Val → Val → Val → FRes) : LaneForm :=
  let wide := i.ty = 8
  let w := codeWidth i.ty
  laneA i (vsrcs i n wide) wide fun g _ v sr =>
    let mode := rmOf i.rnd g.drm true
    let val := fun (x : List Nat) (k : Nat) => ((x.map ((typeFmt i.ty).decodeFtz g.ftz))[k]?).getD (.inf false)
    let r := roundLanes w w (mode == .sr) (fun s x => f (typeFmt i.ty) mode g.ftz s (val x 0) (val x 1) (val x 2)) v sr
    ([r.1], r.2.1, r.2.2)
/-- One that gives bits without rounding. -/
def laneBits (n : Nat) (i : FmtA) (f : Fmt → Bool → Nat → Nat → FRes) : LaneForm :=
  let wide := i.ty = 8
  let w := codeWidth i.ty
  laneA i (vsrcs i n wide) wide fun g _ v sr =>
    let r := roundLanes w w false (fun _ x => f (typeFmt i.ty) g.ftz (x.headD 0) (x.getD 1 0)) v sr
    ([r.1], r.2.1, sr)
/-- 64-bit type codes of R62. -/
def sixtyFour (ty : BitVec 4) : Bool := ty = 3 ∨ ty = 7 ∨ ty = 8
/-- vpack and vunpack: ns registers from A into nd registers from D. -/
def lanePack (i : FmtA) (ns nd : Nat) (from_ to_ : ElemTy) : LaneForm :=
  let f : Group → LaneFn := fun g _ v sr =>
    let mode := rmOf i.rnd g.drm true
    let r := roundSubs (mode == .sr) (packOne i mode g.ftz) ((subList from_.width v).map fun x => [x]) sr
    ((chunks (32 / to_.width) nd r.1).map fun x => BitVec.ofNat 64 (joinSubs to_.width x), r.2.1, r.2.2)
  { pn := i.pn, ps := i.ps, named := (List.range ns).map (i.a.toNat + ·) ++ (List.range nd).map (i.d.toNat + ·),
    srcs := (List.range ns).map fun k => vsrc (i.a + BitVec.ofNat 8 k) false i.ta, d := .many i.d.toNat nd, f := f }

/-- The effects of R119 to R129. -/
def laneForm : Instr → Option LaneForm
  | .vadd i => some (laneInts 2 i fun a b _ => subResult i.ty i.sat (subInt i.ty a + subInt i.ty b))
  | .vsub i => some (laneInts 2 i fun a b _ => subResult i.ty i.sat (subInt i.ty a - subInt i.ty b))
  | .vmul i => some (laneInts 2 i fun a b _ => subResult i.ty i.sat (subInt i.ty a * subInt i.ty b))
  | .vmulh i => some (laneInts 2 i fun a b _ => subResult i.ty false (subInt i.ty a * subInt i.ty b / 2 ^ codeWidth i.ty))
  | .vmad i => some (laneInts 3 i fun a b c => subResult i.ty i.sat (subInt i.ty a * subInt i.ty b + subInt i.ty c))
  | .vand i => some (laneInts 2 i fun a b _ => a &&& b)
  | .vor i => some (laneInts 2 i fun a b _ => a ||| b)
  | .vxor i => some (laneInts 2 i fun a b _ => a ^^^ b)
  | .vshl i => some (laneInts 2 i fun a b _ => a * 2 ^ (b % codeWidth i.ty) % 2 ^ codeWidth i.ty)
  | .vshr i => some (laneInts 2 i fun a b _ => a / 2 ^ (b % codeWidth i.ty))
  | .vsra i => some (laneInts 2 i fun a b _ => (signedSub (codeWidth i.ty) a / 2 ^ (b % codeWidth i.ty) % 2 ^ codeWidth i.ty).toNat)
  | .vmin i => some (laneInts 2 i fun a b _ => if subInt i.ty b < subInt i.ty a then b else a)
  | .vmax i => some (laneInts 2 i fun a b _ => if subInt i.ty a < subInt i.ty b then b else a)
  | .vclz i => some (laneInts 1 i fun a _ _ => if a = 0 then codeWidth i.ty else codeWidth i.ty - 1 - Nat.log2 a)
  | .vpopc i => some (laneInts 1 i fun a _ _ => ((List.range (codeWidth i.ty)).filter a.testBit).length)
  | .vsel i =>
    let w := sixtyFour i.ty
    some (laneA i [vsrc i.a w i.ta, vsrc i.b w i.tb, vsrc i.c false i.tc] w fun _ _ v sr =>
      ([if v.getD 2 0 = 0 then v.getD 1 0 else v.headD 0], 0, sr))
  | .vmov i => some (laneA i [vsrc i.a (sixtyFour i.ty) i.ta] (sixtyFour i.ty) fun _ _ v sr => ([v.headD 0], 0, sr))
  | .vmovi i =>
    let f : Group → LaneFn := fun _ _ _ sr => ([i.imm.setWidth 64], 0, sr)
    some { pn := i.pn, ps := i.ps, named := vNamed [] (.v i.d false), srcs := [], d := .v i.d false, f := f }
  | .vfadd i => some (laneFps 2 i fun fm mode ftz s a b _ => fm.add mode i.sat ftz s a b)
  | .vfsub i => some (laneFps 2 i fun fm mode ftz s a b _ => fm.add mode i.sat ftz s a b.neg)
  | .vfmul i => some (laneFps 2 i fun fm mode ftz s a b _ => fm.mul mode i.sat ftz s a b)
  | .vfma i => some (laneFps 3 i fun fm mode ftz s a b c => fm.fma mode i.sat ftz s a b c)
  | .vfms i => some (laneFps 3 i fun fm mode ftz s a b c => fm.fma mode i.sat ftz s a b c.neg)
  | .vfnma i => some (laneFps 3 i fun fm mode ftz s a b c => fm.fma mode i.sat ftz s a.neg b c)
  | .vfmin i => some (laneBits 2 i fun fm ftz a b => fm.minmax false ftz a b)
  | .vfmax i => some (laneBits 2 i fun fm ftz a b => fm.minmax true ftz a b)
  | .vfrcp i => some (laneFps 1 i fun fm mode ftz s a _ _ => fm.elem .rcp mode i.sat ftz s a)
  | .vfrsq i => some (laneFps 1 i fun fm mode ftz s a _ _ => fm.elem .rsq mode i.sat ftz s a)
  | .vfsqrt i => some (laneFps 1 i fun fm mode ftz s a _ _ => fm.elem .sqrt mode i.sat ftz s a)
  | .vfexp2 i => some (laneFps 1 i fun fm mode ftz s a _ _ => fm.elem .exp2 mode i.sat ftz s a)
  | .vflog2 i => some (laneFps 1 i fun fm mode ftz s a _ _ => fm.elem .log2 mode i.sat ftz s a)
  | .vfclass i =>
    let f := fun (fm : Fmt) (ftz : Bool) (a _ : Nat) => ({ bits := fm.classify ftz a } : FRes)
    some (laneBits 1 i f)
  | .vfcmp i =>
    let w := codeWidth i.ty
    let srcs := vsrcs i 2 (sixtyFour i.ty)
    let f : Group → LaneFn := fun g _ v sr =>
      let x := subsAt w v 0
      let r := (typeFmt i.ty).compare (i.md.toNat % 8) g.ftz (x.headD 0) (x.getD 1 0)
      ([if r.1 then 1 else 0], r.2, sr)
    some { pn := i.pn, ps := i.ps, named := vNamed srcs (.c (i.d.toNat - 0x40)), srcs := srcs, d := .c (i.d.toNat - 0x40), f := f }
  | .vcvt i => match i.srcTy, i.resTy with
    | some a, some d =>
      some (laneA i [vsrc i.a (a.width = 64) i.ta] (d.width = 64) fun g _ v sr =>
        let mode := rmOf i.rnd g.drm true
        let r := roundSubs (mode == .sr) (fun s x => convert a d mode i.sat g.ftz s (x.headD 0)) [subsAt a.width v 0] sr
        ([BitVec.ofNat 64 (r.1.headD 0)], r.2.1, r.2.2))
    | _, _ => none
  | .vpack i => match i.srcTy, i.resTy with
    | some a, some d => some (lanePack i (a.width / d.width) 1 a d)
    | _, _ => none
  | .vunpack i => match i.srcTy, i.resTy with
    | some a, some d => some (lanePack i 1 (d.width / a.width) a d)
    | _, _ => none
  | .qput i =>
    let w := sixtyFour i.ty
    some (laneA i [vsrc i.a w i.ta] w fun _ _ v sr => (if w then [v.headD 0 &&& 0xFFFFFFFF, v.headD 0 >>> 32] else [v.headD 0], 0, sr))
  | _ => none

/-- A register source or destination: no queue. -/
def LaneForm.onRegisters (F : LaneForm) : Prop :=
  F.srcs.any isQueueSrc = false ∧ (match F.d with | .v c _ => c.toNat < 0x40 | _ => True)
/-- The destination is a queue. -/
def LaneForm.pushes (F : LaneForm) : Prop := match F.d with | .v c _ => 0x40 ≤ c.toNat | _ => False
/-- The results of VP e in its registers. -/
def laneWrite (d : VDst) (g : Group) (e : Nat) (out : List Word) : Group :=
  match d with
  | .none => g
  | .v c wide => putW g wide c.toNat e (out.headD 0)
  | .many b _ => out.zipIdx.foldl (fun g p => putV g (b + p.2) e (p.1.setWidth 32)) g
  | .c i => putC g i e ((out.headD 0).getLsbD 0)
/-- One VP's execution on registers: operands read, result written, flags gained, rounding state moved on. -/
def laneOne (F : LaneForm) (g : Group) (e : Nat) : Group :=
  let r := F.f g e (F.srcs.map fun q => vValue g q e) (mget 1 g.srs e)
  laneWrite F.d { g with fflags := g.fflags ||| r.2.1, srs := mset 1 g.srs e r.2.2 } e r.1
/-- What comes with the fills of source registers read in some VPs, or captured by the run (R196, R263). -/
def learned (srcs : List VSrc) (act : List Nat) (g : Group) : Group :=
  srcs.foldl (fun g q =>
    if q.code.toNat < 0x40 then (regsOf q.wide q.code.toNat).foldl (fun g i => absorbReg g false i act) g
    else if 0x80 ≤ q.code.toNat ∧ act ≠ [] then
      (((g.run.map (·.upend)).getD []).filter fun k => k.reg == q.code.toNat - 0x80).foldl (fun g k => learn g k.vis) g
    else g) g
/-- The machine once some VPs have read their sources: what came with the fills is the group's past, and, of a run in lock-step, the past of
the commands and fences that stand after its vf and still wait (R192, R196, R206). -/
def lanesRead (s : State) (srcs : List VSrc) (act : List Nat) : Mach :=
  let m := modMe s.m (learned srcs act)
  if (me s.m).run.any (·.diverged) then m
  else
    let after := fun (p : Mark) => ((me s.m).run.map (·.seq)).getD 0 < p.seq
    gainAt m s.m.act.core s.m.act.slot after (learned srcs act { me s.m with vis := [] }).vis
/-- Nothing makes the lane instruction block, trap or fault before any VP takes part. -/
def LaneReady (s : State) (F : LaneForm) : Prop :=
  let act := vActive s.m F.pn F.ps
  (act ≠ [] → ∀ i ∈ F.named, i < (me s.m).nregs) ∧ vPredWait s.m F.ps = none ∧
    vFirstEmpty (me s.m) act (F.srcs.filter fun q => !isQueueSrc q) = none ∧ dstWait s.m (vDstFe F.d act) = none

end Sys2Proof.Machine

/-- R118 to R128: a lane instruction on registers that nothing holds back executes in each of its VPs whose predicate is true, in
ascending order: its result is written and full, its flags are ORed into fflags, under SR its rounding state advances, and the vector
stream goes on. Nothing else changes. -/
def Obligations.LaneResult : Prop :=
  ∀ (i : Instr) (F : LaneForm) (s : State), laneForm i = some F → i.wellFormed = true → F.onRegisters → LaneReady s F →
    let act := vActive s.m F.pn F.ps
    let m := lanesRead s F.srcs act
    exec i s = .next { s with m := retireV (modMe m fun _ => act.foldl (laneOne F) (me m)) }

namespace Sys2Proof.Machine

/-- What VP e does in a lane instruction that names a queue. -/
inductive QueueStep where
  | done (g : Group)
  | empty (q : VSrc)
  | noRoom

/-- VP e's operands in field order: a queue source takes the oldest entry of qin, or of the link into e (R42, R118). -/
def queueTake (e : Nat) : List VSrc → Group → Except VSrc (List Word × Group)
  | [], g => .ok ([], g)
  | q :: r, g =>
    let rest := fun (x : Word) (g : Group) => match queueTake e r g with
      | .ok (xs, g) => .ok (x :: xs, g)
      | .error q => .error q
    if q.code = 0x4B ∨ (q.code = 0x48 ∧ e = 0) then match g.qin with
      | [] => .error q
      | x :: l => rest (x.setWidth 64) { g with qin := l }
    else if q.code = 0x48 then match mget [] g.links (e - 1) with
      | [] => .error q
      | x :: l => rest (x.setWidth 64) { g with links := mset [] g.links (e - 1) l }
    else rest (vValue g q e) g
/-- VP e pushes onto qout when the destination names it or e is the last VP of the run, else onto the link to the next VP. -/
def ontoQout (g : Group) (code : BitVec 8) (e : Nat) : Bool := code = 0x4B ∨ g.run.map (·.vl) = some (e + 1)
/-- The fills that the results of VP e become when a queue was read (R33). -/
def laneFills (d : VDst) (e : Nat) (out : List Word) : List Fill :=
  match d with
  | .none => []
  | .c i => [{ reg := .c i e, val := out.headD 0 % 2 }]
  | .many b _ => out.zipIdx.map fun p => { reg := .v (b + p.2) e, val := p.1 % 4294967296 }
  | .v c wide =>
    [{ reg := .v c.toNat e, val := out.headD 0 % 4294967296,
       hi := if wide then some (.v (c.toNat + 1) e, out.headD 0 / 4294967296) else none }]
/-- VP e: nothing is popped until every queue it reads holds its entry, and nothing at all happens until its destination has room. -/
def queueOne (F : LaneForm) (g : Group) (e : Nat) : QueueStep :=
  match queueTake e F.srcs g with
  | .error q => .empty q
  | .ok (vals, p) =>
    let r := F.f g e vals (mget 1 g.srs e)
    let h := { p with fflags := p.fflags ||| r.2.1, srs := mset 1 p.srs e r.2.2 }
    let fs := laneFills F.d e r.1
    let new : List Lane := r.1.map fun x => x.setWidth 32
    match F.d with
    | .v c wide =>
      if 0x40 ≤ c.toNat then
        if ontoQout h c e then (if h.qout.length + new.length ≤ 16 then .done { h with qout := h.qout ++ new } else .noRoom)
        else if (mget [] h.links e).length + new.length ≤ 4 then .done { h with links := mset [] h.links e (mget [] h.links e ++ new) }
        else .noRoom
      else if F.srcs.any isQueueSrc then .done { setFes h .claimed (fs.flatMap fillRegs) with fills := h.fills ++ fs }
      else .done (putW h wide c.toNat e (r.1.headD 0))
    | d =>
      if F.srcs.any isQueueSrc then .done { setFes h .claimed (fs.flatMap fillRegs) with fills := h.fills ++ fs }
      else .done (laneWrite d h e r.1)
/-- What VP e waits for: as many entries of qprev and of qin as it pops, and room for as many as it pushes onto qnext or qout. -/
def queueWait (F : LaneForm) (e : Nat) : Wait :=
  let pops := fun (c : BitVec 8) => (F.srcs.filter fun q => q.code = c).length
  let room := match F.d with | .v c wide => if c.toNat < 0x40 then 0 else if wide then 2 else 1 | _ => 0
  .lane e (pops 0x48) (pops 0x4B) room (match F.d with | .v c _ => c = 0x4B | _ => false)
/-- The VPs in ascending order, as far as they go. -/
def queueAll (F : LaneForm) : List Nat → Group → Group × Option (Nat × QueueStep)
  | [], g => (g, none)
  | e :: r, g => match queueOne F g e with
    | .done g => queueAll F r g
    | st => (g, some (e, st))

end Sys2Proof.Machine

/-- R42, R118, R129: a lane instruction with a queue among its sources or as its destination executes in its VPs in ascending order. Each
takes the oldest entries of qin or of the link into its VP, in field order, and pushes its result onto qout or the link to the next VP, a
64-bit qput as two entries with the low half first; a register destination of popped entries is claimed, and filled when the instruction
completes. At an empty queue it blocks in that VP, or takes EMPTY-SOURCE under the trap bit, and without room it blocks there, none of that
VP's pops and pushes having taken place, until it finds all the entries and the room it needs. In a diverged run a push comes after the VP's
earlier accesses (R196). Of several empty sources the first in field order decides between trap and wait: the model's choice (log entry
112). -/
def Obligations.CrossLaneQueues : Prop :=
  ∀ (i : Instr) (F : LaneForm) (s : State), laneForm i = some F → i.wellFormed = true → LaneReady s F → ¬ F.onRegisters →
    let act := vActive s.m F.pn F.ps
    (F.pushes → (me s.m).run.any (·.diverged) = true → ∀ e ∈ act, vpClear (me s.m) e = true) →
    let m := lanesRead s F.srcs act
    let stopped := fun (g : Group) => modMe m fun _ => g
    match queueAll F act (me m) with
    | (g, none) => exec i s = .next { s with m := retireV (stopped g) }
    | (g, some (e, .noRoom)) =>
      exec i s = .next { s with m := blockV (stopped g) e (queueWait F e) }
    | (g, some (e, .empty q)) =>
      if q.trap then Goes i s fun t => (me t.m).status = .halted ∧ (me t.m).rep = reportOf s 0x02 e 0 q.code.toNat
      else exec i s = .next { s with m := blockV (stopped g) e (queueWait F e) }
    | (_, some (_, .done _)) => True

/-! ## Masks and control-issued vector operations (R117, R130 to R137) -/

namespace Sys2Proof.Machine

/-- An instruction with a mask destination: its sources, and from the group the bits below vl. -/
structure MaskForm where
  pn : Bool
  ps : BitVec 3
  d : BitVec 8
  srcs : List (BitVec 8 × Bool)
  bit : Group → Nat → Bool
/-- Bit e of the m register that a field names. -/
def mBit (g : Group) (r : BitVec 8) (e : Nat) : Bool := getC g (r.toNat - 0x88) e
def mask2 (i : FmtA) (f : Bool → Bool → Bool) : MaskForm :=
  { pn := i.pn, ps := i.ps, d := i.d, srcs := [(i.a, i.ta), (i.b, i.tb)], bit := fun g e => f (mBit g i.a e) (mBit g i.b e) }
def mask1 (i : FmtA) (bit : Group → Nat → Bool) : MaskForm := { pn := i.pn, ps := i.ps, d := i.d, srcs := [(i.a, i.ta)], bit := bit }
/-- The effects of R117. -/
def maskForm : Instr → Option MaskForm
  | .mand i => some (mask2 i fun a b => a && b)
  | .mor i => some (mask2 i fun a b => a || b)
  | .mnot i => some (mask1 i fun g e => !mBit g i.a e)
  | .mset i => some (mask1 i fun g e => e < (getX g i.a.toNat).toNat)
  | .mfirst i => some (mask1 i fun g e => (List.range e).all fun k => !mBit g i.a k)
  | _ => none
/-- The number of true bits of a mask source below a position. -/
def maskCount (g : Group) (r : BitVec 8) (n : Nat) : Nat := ((List.range n).filter (mBit g r)).length

/-- A control-issued vector operation: mask field, the v registers it names, its sources and destinations at the active elements, and
from the active elements and the group the group it leaves; and whether the storage that it reads beside its sources is sound (R335). -/
structure VecForm where
  pn : Bool
  ps : BitVec 3
  named : List Nat
  srcs : Group → List Nat → List CSrc
  dsts : Group → List Nat → List Reg
  result : List Nat → Group → Group
  sound : Group → List Nat → Bool := fun _ _ => true

/-- A v operand of 32 or 64 bits at some elements. -/
def vAt (wide : Bool) (r : BitVec 8) (es : List Nat) (t : Bool) : CSrc := .v (regsOf wide r.toNat) es t
def regsAt (is es : List Nat) : List Reg := is.flatMap fun i => es.map (Reg.v i)
def redForm (i : FmtA) (f : RM → Nat → Nat → Nat × BitVec 5) : VecForm :=
  let w := sixtyFour i.ty
  let result := fun (act : List Nat) (g : Group) =>
    let leaves := (List.range g.vl).map fun e => if act.contains e then some (getW g w i.a.toNat e).toNat else none
    let r := treeOf (f (rmOf i.rnd g.drm false)) (treeDepth g.vl) leaves
    let x : Word := if i.ty = 2 then BitVec.ofInt 64 (signedSub 32 r.1) else BitVec.ofNat 64 r.1
    { putX g i.d.toNat x with fflags := g.fflags ||| r.2 }
  { pn := i.pn, ps := i.ps, named := regsOf w i.a.toNat, srcs := fun _ act => [vAt w i.a act i.ta], dsts := fun _ _ => [.x i.d.toNat],
    result := result }
/-- Where each active element of a slide is read from: none leaves the element alone, some none writes zero. -/
def slideForm (i : FmtA) (src : Nat → Nat → Nat → Option (Option Nat)) : VecForm :=
  let w := sixtyFour i.ty
  let from_ := fun (g : Group) (e : Nat) => src g.vl (getX g i.b.toNat).toNat e
  let result := fun (act : List Nat) (g : Group) =>
    putEls g w i.d.toNat (act.filterMap fun e => (from_ g e).map fun x => (e, (x.map fun k => (getW g w i.a.toNat k).toNat).getD 0))
  { pn := i.pn, ps := i.ps, named := regsOf w i.a.toNat ++ regsOf w i.d.toNat,
    srcs := fun g act => [vAt w i.a (act.filterMap fun e => (from_ g e).join) i.ta, .r i.b i.tb],
    dsts := fun _ act => regsAt (regsOf w i.d.toNat) act, result := result }
/-- The effects of R132 and R134 to R137. -/
def vecForm : Instr → Option VecForm
  | .vredAdd i => some (redForm i fun mode => addEl i.ty mode)
  | .vredMin i => some (redForm i fun _ => minmaxEl i.ty false)
  | .vredMax i => some (redForm i fun _ => minmaxEl i.ty true)
  | .vcompress i =>
    let w := sixtyFour i.ty
    let result := fun (act : List Nat) (g : Group) =>
      putEls g w i.d.toNat (((act.filter (mBit g i.b)).map fun e => (getW g w i.a.toNat e).toNat).zipIdx.map fun p => (p.2, p.1))
    some { pn := i.pn, ps := i.ps, named := regsOf w i.a.toNat ++ regsOf w i.d.toNat,
           srcs := fun _ act => [vAt w i.a act i.ta, .r i.b i.tb],
           dsts := fun g _ => regsAt (regsOf w i.d.toNat) (List.range g.vl), result := result }
  | .vslideup i => some (slideForm i fun _ o e => if e < o then none else some (some (e - o)))
  | .vslidedown i => some (slideForm i fun vl o e => if e + o < vl then some (some (e + o)) else some none)
  | .vmexp i =>
    let d := i.d.toNat
    let result := fun (act : List Nat) (g : Group) =>
      let code := fun (j : Nat) => scaleCode i.ty ((act.filter fun e => e / 32 = j).map fun e => (getV g i.a.toNat e).toNat)
      let blocks := List.range ((g.vl + 31) / 32)
      setFes (putVs g d (blocks.map fun j => (j, setByte (getV g d j) (i.md.toNat % 4) (code j)))) .failing
        ((blocks.filter fun j => getFe g (.v d j) = .failing).map (Reg.v d))
    some { pn := i.pn, ps := i.ps, named := [i.a.toNat, d], srcs := fun _ act => [vAt false i.a act i.ta],
           dsts := fun g _ => regsAt [d] (List.range ((g.vl + 31) / 32)), result := result }
  | .vquant i => match i.resTy, tyOf (i.c.extractLsb' 0 4) 0 with
    | some dst, some src =>
      let result := fun (act : List Nat) (g : Group) =>
        let mode := rmOf i.rnd g.drm true
        let out := act.map fun e =>
          let sr := mget 1 g.srs e
          let byte := (getV g i.b.toNat (e / 32)).toNat / 2 ^ (8 * (i.md.toNat % 4)) % 256
          let r := quantEl dst src mode i.sat (srNext sr).toNat byte (getV g i.a.toNat e).toNat
          (e, r, if mode = .sr ∧ r.advances = true then srNext sr else sr)
        let h := putVs g i.d.toNat (out.map fun t => (t.1, BitVec.ofNat 32 t.2.1.bits))
        { h with srs := out.foldl (fun q t => mset 1 q t.1 t.2.2) h.srs,
                 fflags := h.fflags ||| out.foldl (fun (a : BitVec 5) t => a ||| t.2.1.fl) 0 }
      some { pn := i.pn, ps := i.ps, named := [i.a.toNat, i.b.toNat, i.d.toNat],
             srcs := fun _ act => [vAt false i.a act i.ta, vAt false i.b act i.tb], dsts := fun _ act => regsAt [i.d.toNat] act,
             result := result, sound := fun g act => act.all fun e => getFe g (.v i.b.toNat (e / 32)) != .failing }
    | _, _ => none
  | .vunion i =>
    let a := i.a.toNat
    let b := i.b.toNat
    let d := i.d.toNat
    let result := fun (act : List Nat) (g : Group) =>
      let r := unionOf (rmOf i.rnd g.drm false) (i.md.getLsbD 0) (2 * g.vl) (streamOf g a act) (streamOf g b act)
      let h := putX (putUnion g d g.vl 0 r.1) i.c.toNat (BitVec.ofNat 64 r.1.length)
      { h with fflags := h.fflags ||| r.2 }
    some { pn := i.pn, ps := i.ps, named := [a, a + 1, b, b + 1, d, d + 1, d + 2, d + 3],
           srcs := fun _ act => [.v [a, a + 1] act i.ta, .v [b, b + 1] act i.tb],
           dsts := fun g _ => .x i.c.toNat :: regsAt [d, d + 1, d + 2, d + 3] (List.range g.vl), result := result }
  | _ => none

/-- The elements a vector instruction acts on: from vstart to vl − 1, where its mask selects (R59, R130). -/
def activeOf (g : Group) (pn : Bool) (ps : BitVec 3) : List Nat :=
  (List.range g.vl).filter fun e => decide (g.vstart ≤ e) && (ps == 0 || getC g ps.toNat e != pn)
/-- The governing mask is full below vl. -/
def MaskFull (s : State) (ps : BitVec 3) : Prop := ps = 0 ∨ ∀ e, e < (me s.m).vl → getFe (me s.m) (.c ps.toNat e) = .full

end Sys2Proof.Machine

/-- R117: outside a run, a mask instruction whose predicate is true, whose sources are full and whose destination is not claimed below vl
writes its bits below vl, leaves those above alone, and changes nothing else; mcount writes the number of true bits below vl to its x
register, and mprefix the number before each position to its v register. -/
def Obligations.MaskResult : Prop :=
  ∀ s : State, Unstepped s → (me s.m).run = none →
    (∀ (i : Instr) (F : MaskForm), maskForm i = some F → PredTrue s F.pn F.ps → SrcsFull s F.srcs →
      (∀ e, e < (me s.m).vl → getFe (me s.m) (.c (F.d.toNat - 0x88) e) ≠ .claimed) →
      Goes i s fun t =>
        let g := me (readSrcs s F.srcs).2
        let d := F.d.toNat - 0x88
        ∃ h, ActsOnly s t (afterWord s.m.act h) ∧ h = { g with c := h.c, cfe := h.cfe } ∧
          (∀ e, d ≠ 0 → e < g.vl → e < g.vlmax → getC h d e = F.bit g e ∧ getFe h (.c d e) = .full) ∧
          (∀ j e, j ≠ d ∨ g.vl ≤ e → getC h j e = getC g j e ∧ getFe h (.c j e) = getFe g (.c j e))) ∧
    (∀ i : FmtA, PredTrue s i.pn i.ps → SrcsFull s [(i.a, i.ta)] →
      (getFe (me s.m) (.x i.d.toNat) ≠ .claimed →
        Goes (.mcount i) s fun t => ActsOnly s t (afterWord s.m.act
          (putX (me s.m) i.d.toNat (BitVec.ofNat 64 (maskCount (me s.m) i.a (me s.m).vl))))) ∧
      (i.d.toNat < (me s.m).nregs → dstWait s.m (regsAt [i.d.toNat] (List.range (me s.m).vl)) = none →
        Goes (.mprefix i) s fun t => ∃ h, ActsOnly s t (afterWord s.m.act h) ∧
          (∀ e, e < (me s.m).vl → getV h i.d.toNat e = BitVec.ofNat 32 (maskCount (me s.m) i.a e) ∧ getFe h (.v i.d.toNat e) = .full) ∧
          (∀ j e, j ≠ i.d.toNat ∨ (me s.m).vl ≤ e → getV h j e = getV (me s.m) j e) ∧ h.x = (me s.m).x ∧ h.c = (me s.m).c))

/-- R130 to R132, R134 to R137: outside a run, a control-issued vector operation on declared registers, whose mask and sources are full and whose
destinations are not held, acts on its active elements together: its results and flags are those of its rule, vstart becomes zero, and
nothing else changes. vquant examines B in the active VPs alone, whichever VPs hold its scales (log entry 35). -/
def Sys2Proof.Machine.VectorCompletes : Prop :=
  ∀ (i : Instr) (F : VecForm) (s : State), vecForm i = some F → i.wellFormed = true → Unstepped s → (me s.m).run = none →
    (∀ r ∈ F.named, r < (me s.m).nregs) → MaskFull s F.ps →
    let act := activeOf (me s.m) F.pn F.ps
    let g := absorbSrcs (F.srcs (me s.m) act) (me s.m)
    firstEmpty (me s.m) [] (F.srcs (me s.m) act) = none → dstWait s.m (F.dsts (me s.m) act) = none →
    F.sound (me s.m) act = true →
    Goes i s fun t => ActsOnly s t (afterWord s.m.act { F.result act g with vstart := 0 })

namespace Sys2Proof.Machine

/-- The running value that the acting vscan resumes from: that of the scan which stopped at this word with vstart here (R102). -/
def runningValue (s : State) : Option Nat :=
  (me s.m).scan.bind fun q =>
    if q.clause = s.m.act.clause ∧ q.word = s.m.act.word ∧ q.instr = s.m.act.instr ∧ q.prog = (me s.m).vstart then q.val.map (·.toNat)
    else none
/-- The group after the elements es of a vscan, and the running value they leave. -/
def scanned (i : FmtA) (from_ : Option Nat) (es : List Nat) (g : Group) : Group × Option Nat :=
  let w := sixtyFour i.ty
  let r := scanOf (addEl i.ty (rmOf i.rnd g.drm false)) from_ (es.map fun e => (getW g w i.a.toNat e).toNat)
  let h := putEls g w i.d.toNat (es.zip r.1)
  ({ h with fflags := h.fflags ||| r.2 }, (r.1.getLast?).orElse fun _ => from_)

end Sys2Proof.Machine

/-- R102, R130: outside a run, a vscan on declared registers, whose mask and source are full and whose destination is not held, folds its
active elements in ascending order, from the running value where it resumes. It completes with vstart zero, or stops at the end of an
element group with vstart there and the running value kept (log entry 122); with one element group left it completes. -/
def Sys2Proof.Machine.VectorScan : Prop :=
  ∀ (i : FmtA) (s : State), (Instr.vscan i).wellFormed = true → Unstepped s → (me s.m).run = none →
    (∀ r ∈ regsOf (sixtyFour i.ty) i.a.toNat ++ regsOf (sixtyFour i.ty) i.d.toNat, r < (me s.m).nregs) → MaskFull s i.ps →
    let w := sixtyFour i.ty
    let act := activeOf (me s.m) i.pn i.ps
    let srcs := [vAt w i.a act i.ta]
    let g := absorbSrcs srcs (me s.m)
    firstEmpty (me s.m) [] srcs = none → dstWait s.m (regsAt (regsOf w i.d.toNat) act) = none → vecInFlight (me s.m) < 8 →
    Goes (.vscan i) s fun t => ∃ n,
      let r := scanned i (runningValue s) (act.filter fun e => decide (e < n)) g
      (n = g.vl ∨ (g.vstart < n ∧ n < g.vl ∧ n % g.laneL = 0 ∧ 1 < (g.vl + g.laneL - 1) / g.laneL - g.vstart / g.laneL)) ∧
      ActsOnly { s with m := { s.m with tick := t.m.tick } } t
        (if n = g.vl then afterWord s.m.act { r.1 with vstart := 0, scan := none }
         else
          let kept : Scan :=
            { clause := s.m.act.clause, word := s.m.act.word, instr := s.m.act.instr, prog := n, val := r.2.map (BitVec.ofNat 64) }
          { r.1 with vstart := n, scan := some kept })

/-- R102, R130 to R137: control-issued vector operations complete, and vscan completes or keeps its place. -/
def Obligations.VectorOperation : Prop := VectorCompletes ∧ VectorScan


/-! ## Memory instructions (R212 to R228) -/

namespace Sys2Proof.Machine

/-- A memory instruction: the v registers it names, its sources at the active elements, and its access record. -/
structure MemForm where
  pn : Bool
  ps : BitVec 3
  named : List Nat
  srcs : List Nat → List CSrc
  op : Mach → List Nat → MemOp
  /-- A vgl forgets the links of the one before (R202). -/
  fresh : Bool := false

/-- An element access before translation. -/
def elAccess (e va size : Nat) (data cmp : Word) : Elem :=
  { e := e, va := va, pa := 0, loc := .hbm, size := size, uc := false, data := data, cmp := cmp }
/-- Base register plus the displacement in units of the access size, an address modulo 2^64. -/
def baseAddr (g : Group) (f : FmtM) (x : Int) : Nat :=
  (((getX g f.base.toNat).toNat + f.off.toInt * (2 ^ f.sz.toNat : Nat) + x) % 18446744073709551616).toNat
/-- Address of an element: by access size, by the stride in x[C], or by the 32-bit index in v[C]. -/
def unitAddr (f : FmtM) (g : Group) (e : Nat) : Nat := baseAddr g f ((2 ^ f.sz.toNat * e : Nat) : Int)
def strideAddr (f : FmtM) (g : Group) (e : Nat) : Nat := baseAddr g f ((getX g f.index.toNat).toInt * e)
def indexAddr (f : FmtM) (g : Group) (e : Nat) : Nat := baseAddr g f ((getV g f.index.toNat e).toNat : Int)
/-- The v registers of the data operand, and of the compare operand that follows it. -/
def dataOf (f : FmtM) : List Nat := if f.sz = 3 then [f.data.toNat, f.data.toNat + 1] else [f.data.toNat]
def casBase (f : FmtM) : Nat := f.data.toNat + (dataOf f).length
def casOf (f : FmtM) : List Nat := (dataOf f).map (· + (dataOf f).length)
def vecMemForm (f : FmtM) (addr : FmtM → Group → Nat → Nat) (extra : List CSrc) (idx : Bool) (kind : AccKind) (stores cas : Bool)
    (fix : Group → MemOp → MemOp) : MemForm :=
  let index := if idx then [f.index.toNat] else []
  let data := (if stores then dataOf f else []) ++ (if cas then casOf f else [])
  let srcs := fun (act : List Nat) => (if stores then [CSrc.v data act false] else []) ++ [.r f.base f.tbase] ++ extra
    ++ (if idx then [.v index act false] else [])
  let op := fun (m : Mach) (act : List Nat) =>
    let g := me m
    let d := fun (e : Nat) => if stores then getW g (f.sz == 3) f.data.toNat e else 0
    let x := fun (e : Nat) => if cas then getW g (f.sz == 3) (casBase f) e else 0
    let els := act.map fun e => elAccess e (addr f g e) (2 ^ f.sz.toNat) (d e) (x e)
    let o := ctlOp m kind
    fix g { o with
      size := 2 ^ f.sz.toNat, scope := f.scope, elems := els, vec := true, srcs := index ++ data, opA := getX g f.base.toNat,
      first := g.vstart, prog := g.vstart }
  { pn := f.pn, ps := f.ps, named := dataOf f ++ (if cas then casOf f else []) ++ index, srcs := srcs, op := op }
def into (f : FmtM) (_ : Group) (op : MemOp) : MemOp := { op with dst := .v f.data.toNat }

/-- The control-issued vector accesses of R215 to R224. -/
def vectorMemory : Instr → Option MemForm
  | .vld f => some (vecMemForm f unitAddr [] false .load false false (into f))
  | .vldff f =>
    let fix := fun (g : Group) (op : MemOp) => { into f g op with mask := f.ps.toNat, ff := if f.ps = 0 then none else some f.pn }
    some (vecMemForm f unitAddr [] false .load false false fix)
  | .vst f => some (vecMemForm f unitAddr [] false .store true false fun _ op => op)
  | .vlds f =>
    let fix := fun (g : Group) (op : MemOp) => { into f g op with opB := getX g f.index.toNat }
    some (vecMemForm f strideAddr [.r f.index false] false .load false false fix)
  | .vsts f => some (vecMemForm f strideAddr [.r f.index false] false .store true false fun g op => { op with opB := getX g f.index.toNat })
  | .vldx f => some (vecMemForm f indexAddr [] true .load false false (into f))
  | .vstx f => some (vecMemForm f indexAddr [] true .store true false fun _ op => op)
  | .vgl f => some { vecMemForm f indexAddr [] true .vgl false false (into f) with fresh := true }
  | .vsc f => some (vecMemForm f indexAddr [] true .vsc true false fun _ op => { op with mask := f.ps.toNat })
  | .vamo o f => some (vecMemForm f indexAddr [] true (.amo o f.sz5) true (o == 7) (into f))
  | _ => none

/-- A scalar access of R225, with its x sources in field order. -/
def oneAccess (f : FmtM) (kind : AccKind) (srcs : List (BitVec 8 × Bool)) (dst : Dst) (signed : Bool) (data cmp : Group → Word) : MemForm :=
  let op := fun (m : Mach) (_ : List Nat) =>
    let g := me m
    let x := srcs.map fun p => getX g p.1.toNat
    let o := ctlOp m kind
    { o with
        dst := dst, signed := signed, size := 2 ^ f.sz.toNat, scope := f.scope,
        elems := [elAccess 0 (baseAddr g f 0) (2 ^ f.sz.toNat) (data g) (cmp g)], opA := x.headD 0, opB := (x.drop 1).headD 0,
        opC := (x.drop 2).headD 0 }
  { pn := f.pn, ps := f.ps, named := [], srcs := fun _ => fields srcs, op := op }
/-- ld zero-extends; an atomic returns the old value, signed for the signed minimum and maximum; .cas compares with x[D] and stores
x[C]. -/
def scalarMemory : Instr → Option MemForm
  | .ld f => some (oneAccess f .load [(f.base, f.tbase)] (.x f.data.toNat) false (fun _ => 0) fun _ => 0)
  | .st f => some (oneAccess f .store [(f.data, false), (f.base, f.tbase)] .none false (fun g => getX g f.data.toNat) fun _ => 0)
  | .amo o f => some (oneAccess f (.amo o f.sz5) ([(f.data, false), (f.base, f.tbase)] ++ (if o = 7 then [(f.index, false)] else []))
      (.x f.data.toNat) (f.sz5 && (o == 1 || o == 2)) (fun g => getX g (if o = 7 then f.index else f.data).toNat)
      fun g => getX g f.data.toNat)
  | _ => none

/-- Issuing a memory instruction touches, beside the acting group, only what the core issues, its merge windows, cached translations, the
free-choice counter and event counts: no other group, and no byte of memory. -/
structure IssueOnly (m n : Mach) : Prop where
  parts : n = { m with groups := n.groups, cores := n.cores, clusters := n.clusters, vfst := n.vfst, tlb := n.tlb, tick := n.tick }
  groups : ∀ k, k ≠ gkey m.act.core m.act.slot → mget {} n.groups k = mget {} m.groups k
  cores : ∀ c, core n c = { core m c with issue := (core n c).issue, last := (core n c).last, baler := (core n c).baler }
  clusters : ∀ k, clus n k = { clus m k with comb := (clus n k).comb }
  counts : ∀ v, vfst n v = { vfst m v with cnt := (vfst n v).cnt }

/-- The registers an instruction claims: its destinations at its elements, and the mask bits that a vsc writes. -/
def claimsOf (op : MemOp) (r : Reg) : Prop :=
  match r with
  | .x i => op.dst = .x i ∧ i ≠ 0 ∧ op.elems ≠ []
  | .v i e => (∃ d, op.dst = .v d ∧ (i = d ∨ (op.size = 8 ∧ i = d + 1))) ∧ ∃ el ∈ op.elems, el.e = e
  | .c i e => op.kind = .vsc ∧ i = op.mask ∧ i ≠ 0 ∧ ∃ el ∈ op.elems, el.e = e
  | .p _ => False
/-- The group g has become h by entering op with its elements els: the instruction stands among the accesses, its destinations are
claimed, and no value and no other bit has changed. -/
def Entered (g h : Group) (op : MemOp) (els : List Elem) : Prop :=
  h = { g with acc := insertOp { op with elems := els, logged := false } g.acc, nextOp := g.nextOp + 1, seq := h.seq, xfe := h.xfe,
               vfe := h.vfe, cfe := h.cfe, vstart := h.vstart, linkset := h.linkset, linkOp := h.linkOp } ∧
    (∀ r, claimsOf op r → getFe h r = .claimed) ∧ ∀ r, ¬ claimsOf op r → getFe h r = getFe g r

end Sys2Proof.Machine

/-- R215 to R217, R219 to R225, R228: a load, store or atomic of the control thread whose predicate or mask and sources are full, whose
destinations are not held, which finds room among the eight records, and all of whose accesses pass every check, is entered: its accesses, at
the addresses of its form, wait to be performed, its destinations are claimed, and the control stream goes on; vstart becomes zero after a
vector instruction. No byte of memory changes yet. That it is entered beside a logged instruction too, its accesses waiting behind that one,
is the model's reading of R228 (log entry 18). -/
def Sys2Proof.Machine.MemoryInstructionEnters : Prop :=
  ∀ (i : Instr) (F : MemForm) (s : State), i.wellFormed = true → Unstepped s →
    let c := s.m.act.core
    (vectorMemory i = some F → NoLockStep s → (∀ r ∈ F.named, r < (me s.m).nregs) → MaskFull s F.ps →
      let act := activeOf (me s.m) F.pn F.ps
      let m := modMe s.m (absorbSrcs (F.srcs act))
      let op := F.op m act
      act ≠ [] → firstEmpty (me s.m) [] (F.srcs act) = none → dstWait m (opClaims op) = none →
      vecInFlight (me m) < 8 → ∀ els, (checkOp s.mgmt m c (me m) op).1 = .ok els [] → els ≠ [] →
      Goes i s fun t => t = { s with m := t.m } ∧ IssueOnly s.m t.m ∧ ∃ h, me t.m = afterWord s.m.act h ∧ Entered (me m) h op els ∧
        h.vstart = 0 ∧ h.seq = (me m).seq + (if s.m.act.vec then 0 else 1) ∧
        h.linkset = (if F.fresh then [] else (me m).linkset) ∧ h.linkOp = (if F.fresh then op.id else (me m).linkOp)) ∧
    (scalarMemory i = some F → PredTrue s F.pn F.ps → firstEmpty (me s.m) [] (F.srcs []) = none →
      let m := modMe s.m (absorbSrcs (F.srcs []))
      let op := F.op m []
      dstWait m (opClaims op) = none →
      ∀ els, (checkOp s.mgmt m c (me m) op).1 = .ok els [] → (mayRecord (me m) { op with elems := els } = true → vecInFlight (me m) < 8) →
      els ≠ [] →
      Goes i s fun t => t = { s with m := t.m } ∧ IssueOnly s.m t.m ∧ ∃ h, me t.m = afterWord s.m.act h ∧ Entered (me m) h op els ∧
        h.vstart = (me m).vstart ∧ h.seq = (me m).seq + (if s.m.act.vec then 0 else 1) ∧ h.linkset = (me m).linkset ∧
        h.linkOp = (me m).linkOp)

namespace Sys2Proof.Machine

/-- A VP-issued memory instruction (R226): what each VP reads, and the access record over the active VPs. -/
structure VpMemForm where
  pn : Bool
  ps : BitVec 3
  named : List Nat
  srcs : List VSrc
  d : VDst
  op : Mach → List Nat → MemOp

/-- Each VP's address is its 64-bit base operand plus the displacement in units of the access size. -/
def vpAddr (f : FmtM) (g : Group) (e : Nat) : Nat :=
  (((vValue g (vsrc f.base true f.tbase) e).toNat + f.off.toInt * (2 ^ f.sz.toNat : Nat)) % 18446744073709551616).toNat
def vpMemForm (f : FmtM) (kind : AccKind) (stores cas : Bool) (dst : Dst) : VpMemForm :=
  let wide := f.sz == 3
  let data := vsrc f.data wide false
  let swap := vsrc f.index wide false
  let srcs := (if stores then [data] else []) ++ [vsrc f.base true f.tbase] ++ (if cas then [swap] else [])
  let named := dataOf f ++ (if f.base.toNat < 0x40 then [f.base.toNat, f.base.toNat + 1] else [])
    ++ (if cas then regsOf wide f.index.toNat else [])
  let op := fun (m : Mach) (act : List Nat) =>
    let g := me m
    let d := fun (e : Nat) => if cas then vValue g swap e else if stores then vValue g data e else 0
    let x := fun (e : Nat) => if cas then vValue g data e else 0
    let els := act.map fun e => elAccess e (vpAddr f g e) (2 ^ f.sz.toNat) (d e) (x e)
    let o := vpOp m kind
    let reads := named.filter fun i => srcs.any fun q => i == q.code.toNat || (q.wide && i == q.code.toNat + 1)
    let a : Word := if 0x80 ≤ f.base.toNat then vValue g (vsrc f.base true f.tbase) 0 else 0
    { o with dst := dst, size := 2 ^ f.sz.toNat, scope := f.scope, elems := els, srcs := reads, opA := a }
  { pn := f.pn, ps := f.ps, named := named, srcs := srcs, d := if dst = .none then .none else .v f.data wide, op := op }
def vpMemory : Instr → Option VpMemForm
  | .pld f => some (vpMemForm f .load false false (.v f.data.toNat))
  | .pst f => some (vpMemForm f .store true false .none)
  | .pamo o f => some (vpMemForm f (.amo o f.sz5) true (o == 7) (.v f.data.toNat))
  | _ => none

end Sys2Proof.Machine

/-- R226: a VP-issued load, store or atomic that nothing holds back and whose accesses pass every check is entered with one access for
each active VP, and the vector stream goes on. -/
def Sys2Proof.Machine.VpMemoryEnters : Prop :=
  ∀ (i : Instr) (F : VpMemForm) (s : State), vpMemory i = some F → i.wellFormed = true →
    (∀ r ∈ F.named, r < (me s.m).nregs) → vPredWait s.m F.ps = none →
    let act := vActive s.m F.pn F.ps
    vFirstEmpty (me s.m) act (F.srcs.filter fun q => !isQueueSrc q) = none → dstWait s.m (vDstFe F.d act) = none → act ≠ [] →
    let m := lanesRead s F.srcs act
    let op := F.op m act
    ∀ els, (checkOp s.mgmt m s.m.act.core (me m) op).1 = .ok els [] →
    (mayRecord (me m) { op with elems := els } = true → vecInFlight (me m) < 8) → els ≠ [] →
    Goes i s fun t => ∃ n, t = { s with m := retireV n } ∧ IssueOnly m n ∧ Entered (me m) (me n) op els ∧
      (me n).vstart = (me m).vstart ∧ (me n).seq = (me m).seq + (if s.m.act.vec then 0 else 1) ∧ (me n).linkset = (me m).linkset ∧
      (me n).linkOp = (me m).linkOp

/-- R213, R215 to R226: memory instructions of the control thread and of VPs are entered. -/
def Obligations.MemoryInstructionsEnter : Prop := MemoryInstructionEnters ∧ VpMemoryEnters


/-- R229 to R231: a vpush of count registers outside a lock-step phase, its sources full and fewer than four pushes outstanding, to a
target that passes the checks of R230, is outstanding from then on, and the control stream goes on with vstart zero. A target that is not
a group of the virtual function, has too few registers or too small a VLMAX halts the sender with PUSH-TARGET and INFO 1, 2 or 3. vstart
zero after a vpush is inferred from R39 (log entry 58). -/
def Sys2Proof.Machine.PushEnters : Prop :=
  ∀ (s : State) (i : FmtA) (c r sl : Nat), Unstepped s → PredTrue s i.pn i.ps → NoLockStep s → i.a.toNat < 0x80 →
    c < 384 → r < 64 → sl < 64 → (xVal s i.a).toNat = c * 65536 + r * 256 + sl →
    let n := i.md.toNat + 1
    let regs := (List.range n).map (i.b.toNat + ·)
    let srcs : List CSrc := [.r i.a i.ta, .v regs (activeOf (me s.m) false 0) i.tb]
    (∀ v ∈ regs, v < (me s.m).nregs) → firstEmpty (me s.m) [] srcs = none → (me s.m).pushes.length < 4 →
    pushInYard (groupYardEnt s.mgmt s.m.act.core (me s.m)) { core := c, dreg := r, slot := sl } = true →
    let g := absorbSrcs srcs (me s.m)
    let k := grp s.m c sl
    let p : Push := { core := c, slot := sl, uid := k.uid, dreg := r, src := i.b.toNat, count := n, moved := 0, first := g.vstart, vl := g.vl,
                      at_ := { seq := g.seq, opId := g.nextOp, live := g.run.map (·.num) } }
    let halts := fun (info : Nat) => Goes (.vpush i) s fun t => Halts s t { g with held := none } (reportOf s 0x08 0 0 info)
    (k.here = false ∨ k.vf ≠ g.vf → (c, sl) ≠ (s.m.act.core, s.m.act.slot) → halts 1) ∧
    (k.here = true → k.vf = g.vf → (c, sl) ≠ (s.m.act.core, s.m.act.slot) →
      (k.nregs < r + n → halts 2) ∧ (r + n ≤ k.nregs → k.vlmax < g.vl → halts 3) ∧
      (r + n ≤ k.nregs → g.vl ≤ k.vlmax →
        Goes (.vpush i) s fun t => ActsOnly s t (afterWord s.m.act { g with pushes := g.pushes ++ [p], seq := g.seq + 1, vstart := 0 })))

/-- R231: when every earlier access of the sender is performed and the next destination register of its oldest push is open in every VP
from vstart to vl − 1 of the target, the register moves: those VPs of the target hold the sender's values, full, and its vdirty bit is
set; nothing else of the target, of any other group but the sender's list of pushes, or of the rest of the device changes. R335: if the
storage of the sender's register fails in one of those VPs, nothing moves, and the running sender halts with its virtual function. -/
def Sys2Proof.Machine.PushMovesRegister : Prop :=
  ∀ (s : State) (c sl : Nat) (p : Push) (rest : List Push), groupOk c sl = true → (grp s.m c sl).pushes = p :: rest →
    pushInTurn (grp s.m c sl) p = true → (grp s.m p.core p.slot).here = true → (grp s.m p.core p.slot).uid = p.uid →
    gkey p.core p.slot ≠ gkey c sl → p.first < p.vl →
    (∀ e, p.first ≤ e → e < p.vl → getFe (grp s.m p.core p.slot) (.v (p.dreg + p.moved) e) = .opened) →
    let fails := ∃ e, p.first ≤ e ∧ e < p.vl ∧ getFe (grp s.m c sl) (.v (p.src + p.moved) e) = .failing
    (fails → (grp s.m c sl).active = true → Goes (.pushRegisterMove c sl 0) s fun t =>
      (grp t.m c sl).status = .halted ∧ (grp t.m c sl).rep.code = 0x3F ∧ (grp t.m c sl).rep.info = 0x30 ∧
      ∀ i e, getV (grp t.m p.core p.slot) i e = getV (grp s.m p.core p.slot) i e) ∧
    (¬ fails → Goes (.pushRegisterMove c sl 0) s fun t =>
      let d := p.dreg + p.moved
      let old := grp s.m p.core p.slot
      let new := grp t.m p.core p.slot
      t = { s with m := { s.m with groups := t.m.groups } } ∧
      (∀ e, p.first ≤ e → e < p.vl → getV new d e = getV (grp s.m c sl) (p.src + p.moved) e ∧ getFe new (.v d e) = .full) ∧
      (∀ i e, i ≠ d ∨ e < p.first ∨ p.vl ≤ e → getV new i e = getV old i e ∧ getFe new (.v i e) = getFe old (.v i e)) ∧
      new = { old with v := new.v, vfe := new.vfe, vdirty := old.vdirty ||| (1 <<< d), saveMap := new.saveMap, pend := new.pend } ∧
      grp t.m c sl = { grp s.m c sl with
        pushes := (if p.moved + 1 < p.count then [{ p with moved := p.moved + 1 }] else []) ++ rest } ∧
      ∀ k, k ≠ gkey c sl → k ≠ gkey p.core p.slot → mget {} t.m.groups k = mget {} s.m.groups k)

/-- R229 to R231: a vpush is entered, and moves its registers. -/
def Obligations.Pushes : Prop := PushEnters ∧ PushMovesRegister


/-! ## Fences, counters, seeds, traps, invalidation, privileged registers, replay (R95, R209, R255, R313 to R316, R328, R329) -/

namespace Sys2Proof.Machine

/-- The acting group's virtual function may gain event counts, and the group may change, but every write of memory is where it was, those
of the group now made visible. -/
def FenceOnly (s t : State) (g : Group) : Prop :=
  t = { s with m := t.m } ∧ OnlyActing { s.m with hist := t.m.hist } t.m ∧ me t.m = g ∧
    ∀ d, histOf t.m d = (histOf s.m d).map fun w => { w with fenced := w.fenced || decide (w.by_ = .group (me s.m).uid) }

end Sys2Proof.Machine

/-- R209: a fence whose group has no earlier write or mload outstanding or still to be issued (and, for fence.sys, no system-scope access and no command
either) completes: the group's visible set gains the writes of every command whose completion it knows of, later commands start from
that set, and no memory changes. Otherwise it suspends. -/
def Sys2Proof.Machine.Fences : Prop :=
  ∀ (s : State) (f : FmtA), Unstepped s → PredTrue s f.pn f.ps →
    let v := mmax (mmax (me s.m).vis (me s.m).known) (incWrites s.m (me s.m).vis)
    let done := fun (i : Instr) =>
      Goes i s fun t => FenceOnly s t (afterWord s.m.act { me s.m with vis := v, cmdFloor := v, fence := some (markOf (me s.m)) })
    let waits := fun (i : Instr) (w : Wait) => Goes i s fun t => ActsOnly s t { me s.m with waitC := some w }
    (writesPending s.m = false → mloadPending s.m = false →
      done (.fenceX f) ∧ (systemPending s.m = false → done (.fenceSys f)) ∧ (systemPending s.m = true → waits (.fenceSys f) .systemScope)) ∧
    (writesPending s.m = true ∨ mloadPending s.m = true → waits (.fenceX f) .accesses ∧ waits (.fenceSys f) .accesses)

/-- R313: cntrd reads a counter of the issuing virtual function, or zero from 16 on. R95, R269: srseed outside a run seeds every VP below
VLMAX from the low 32 bits of its source, never with zero; while a run is in progress, in lock-step or diverged, it holds its clause.
Nothing else changes. -/
def Sys2Proof.Machine.CounterReadAndSeed : Prop :=
  ∀ (s : State) (f : FmtA), Unstepped s → PredTrue s f.pn f.ps → XFull s f.a →
    (getFe (me s.m) (.x f.d.toNat) ≠ .claimed →
      let n := (xVal s f.a).toNat
      Goes (.cntrd f) s fun t => ActsOnly s t (afterWord s.m.act
        (putX (afterX s f.a f.ta) f.d.toNat (if n < 16 then mget 0 (vfst s.m (me s.m).vf).cnt n else 0)))) ∧
    ((me s.m).run.isSome = true → Goes (.srseed f) s fun t => ActsOnly s t { afterX s f.a f.ta with waitC := some .runEnd }) ∧
    ((me s.m).run = none →
      Goes (.srseed f) s fun t => ∃ h, ActsOnly s t (afterWord s.m.act h) ∧ h = { afterX s f.a f.ta with srs := h.srs } ∧
        ∀ e, e < (me s.m).vlmax →
          let x : Lane := (xVal s f.a).setWidth 32 ^^^ BitVec.ofNat 32 (e * 2654435769)
          mget 1 h.srs e = if x = 0 then 1 else x)

/-- R321, R328: trap and brk halt the group with code TRAP or BREAK, their code as INFO and their own clause and word in the report; the pc
is already at the next word. -/
def Sys2Proof.Machine.TrapsHalt : Prop :=
  ∀ (s : State) (i : Instr) (f : FmtA) (code : Nat), (i = .trap f ∧ code = 0x20) ∨ (i = .brk f ∧ code = 0x21) → Unstepped s →
    PredTrue s f.pn f.ps → Goes i s fun t => Halts s t (afterWord s.m.act (me s.m)) (reportOf s code 0 0 f.md.toNat)

/-- R95, R209, R313, R321, R328: fences, cntrd, srseed, trap and brk. -/
def Obligations.FencesTrapsCounters : Prop := Fences ∧ CounterReadAndSeed ∧ TrapsHalt


/-- R316: a tlbinv or tlbinv.all of a group without outstanding writes, when no access translated under what it removes is left to
perform, removes the cached leaf that covers its address, or every one, of its virtual function, and no other; after tlbinv.all every group sees the PTROOT last written
(R315); nothing else changes. -/
def Sys2Proof.Machine.TranslationsRemoved : Prop :=
  ∀ (s : State) (f : FmtA), Unstepped s → PredTrue s f.pn f.ps → (me s.m).held = none → writesPending s.m = false →
    let vf := (me s.m).vf
    let done := fun (i : Instr) (hit : TlbEnt → Bool) (seen : Map VfState) (g : Group) =>
      translatedOps s.m vf (s.m.tlb.filter fun t => t.vf == vf && hit t) = [] →
      Goes i s fun u => ActsOnly
        { s with m := { s.m with tlb := s.m.tlb.filter fun t => !(t.vf == vf && hit t), vfst := seen } } u (afterWord s.m.act g)
    done (.tlbinvAll f) (fun _ => true) (mset {} s.m.vfst vf { vfst s.m vf with ptall := (vfst s.m vf).ptroot, roots := [] }) (me s.m) ∧
    (XFull s f.a → done (.tlbinv f)
      (fun t => t.va == (if t.big then (xVal s f.a).toNat / 536870912 * 536870912 else (xVal s f.a).toNat / 65536 * 65536)) s.m.vfst (afterX s f.a f.ta))

namespace Sys2Proof.Machine

/-- The value csr.rd gives (R255, R315). -/
def privilegedValue (s : State) (n : Nat) : Word :=
  let v := vfst s.m (me s.m).vf
  if n = 0x40 then (if (yrun s.m (groupYard s.mgmt s.m.act.core (me s.m))).policy then 1 else 0)
  else if n = 0x41 then v.ptroot
  else if n = 0x42 then v.htbase
  else if n = 0x43 then v.spovf
  else if n = 0x44 then BitVec.ofNat 64 (vfEnt s.mgmt (me s.m).vf).sizeg
  else BitVec.ofNat 64 (mget 0 v.cntsel (n - 0x50))
/-- What csr.wr does to the registers of the virtual function: reserved bits are discarded, a counter
starts again from zero, and a new PTROOT is seen by the group that writes it alone. -/
def privilegedWrite (uid n : Nat) (x : Word) (v : VfState) : VfState :=
  if n = 0x41 then { v with ptroot := x &&& 0x000FFFFFFFFF0000, roots := mput uid (x &&& 0x000FFFFFFFFF0000) v.roots }
  else if n = 0x42 then { v with htbase := x &&& 0x007FFFFFFFFF0000 }
  else if n = 0x43 then { v with spovf := x &&& 0x007FFFFFFFFFFFFF }
  else { v with cntsel := mset 0 v.cntsel (n - 0x50) (x.toNat % 256), cnt := mset 0 v.cnt (n - 0x50) 0 }

end Sys2Proof.Machine

/-- R255, R315: csr.rd reads, and csr.wr writes, the named privileged register of the issuing virtual function, or issuepol of its yard,
and nothing else changes but event counts. That a csr.rd of PTROOT gives every group the value last written, though other groups translate by
it only after tlbinv.all, is inferred (log entry 32). -/
def Sys2Proof.Machine.PrivilegedRegisters : Prop :=
  ∀ (s : State) (f : FmtI), Unstepped s → PredTrue s f.pn f.ps →
    let n := f.imm.toNat
    (getFe (me s.m) (.x f.d.toNat) ≠ .claimed → Instr.wellFormed (.csrRd f) = true →
      Goes (.csrRd f) s fun t => ActsOnly s t (afterWord s.m.act (putX (me s.m) f.d.toNat (privilegedValue s n)))) ∧
    (XFull s f.a → Instr.wellFormed (.csrWr f) = true →
      let vf := (me s.m).vf
      let y := groupYard s.mgmt s.m.act.core (me s.m)
      let g := afterWord s.m.act (afterX s f.a false)
      (n = 0x40 → Goes (.csrWr f) s fun t => ActsOnly
        { s with m := { s.m with yards := mset {} s.m.yards y { yrun s.m y with policy := (xVal s f.a).getLsbD 0 } } } t g) ∧
      (n ≠ 0x40 → Goes (.csrWr f) s fun t => ActsOnly
        { s with m := { s.m with vfst := mset {} s.m.vfst vf (privilegedWrite (me s.m).uid n (xVal s f.a) (vfst s.m vf)) } } t g))

/-- R329: a replack of an entry that is free, is already replaying or belongs to another virtual function, or of a number above 15, has no
effect but its own retirement; one of an entry of its virtual function acts on it as REPLAY does. It does not wait. -/
def Sys2Proof.Machine.ReplayRequest : Prop :=
  ∀ (s : State) (f : FmtI), Unstepped s → PredTrue s f.pn f.ps → XFull s f.a →
    let n := (xVal s f.a).toNat
    let e := mget {} (core s.m s.m.act.core).log n
    (16 ≤ n ∨ e.used = false ∨ e.rpl = true ∨ e.vf ≠ (me s.m).vf →
      Goes (.replack f) s fun t => ActsOnly s t (afterWord s.m.act (afterX s f.a false))) ∧
    (n < 16 → e.used = true → e.rpl = false → e.vf = (me s.m).vf →
      exec (.replack f) s = .next { s with m := replayEntry s.mgmt (retireC (readSrcs s [(f.a, false)]).2) s.m.act.core n })

/-- R255, R315, R316, R329: tlbinv, csr.rd, csr.wr and replack. -/
def Obligations.PrivilegedInstructions : Prop := TranslationsRemoved ∧ PrivilegedRegisters ∧ ReplayRequest


/-! ## Barriers (R283 to R285) -/

/-- R284, R285: barr and bsync first send their arrival to the barrier's unit and hold their clause, as bwait does its poll, and bsync another
poll once its arrival is performed; barr then writes the phase that the arrival found, bwait ends when a poll finds another phase than its operand's, and bsync when a poll finds another than its own
arrival; a poll of the same phase suspends the group until it passes. -/
def Obligations.Barriers : Prop :=
  ∀ (s : State) (f : FmtA), Unstepped s → PredTrue s f.pn f.ps → XFull s f.a →
    let g := afterX s f.a f.ta
    let after2 := me (readSrcs s [(f.a, f.ta), (f.b, f.tb)]).2
    let clear := fun (id : Nat) => (∀ o ∈ (me s.m).acc, o.id ≠ id) ∧ ∀ r ∈ (me s.m).recs, r.op.id ≠ id
    let phase := fun (w : Word) => w.toNat / 4294967296
    (∀ h w ws, (me s.m).held = some h → h.words = w :: ws → clear h.op → getFe (me s.m) (.x f.d.toNat) ≠ .claimed →
      Goes (.barr f) s fun t => ActsOnly s t (afterWord s.m.act (putX g f.d.toNat (BitVec.ofNat 64 (phase w))))) ∧
    (∀ h pa w ws, (me s.m).held = some h → h.words = pa :: w :: ws → clear h.op → XFull s f.b →
      let p := (xVal s f.b).toNat % 4294967296
      (phase w ≠ p → Goes (.bwait f) s fun t => ActsOnly s t (afterWord s.m.act after2)) ∧
      (phase w = p → Goes (.bwait f) s fun t => ActsOnly s t { after2 with held := none, waitC := some (.barrier pa.toNat p) })) ∧
    (∀ h w0 pa w ws, (me s.m).held = some h → h.words = w0 :: pa :: w :: ws → clear h.op →
      (phase w ≠ phase w0 → Goes (.bsync f) s fun t => ActsOnly s t (afterWord s.m.act g)) ∧
      (phase w = phase w0 → Goes (.bsync f) s fun t =>
        let again : Held := { op := h.op, phase := 1, words := [w0] }
        ActsOnly s t { g with held := some again, waitC := some (.barrier pa.toNat (phase w0)) })) ∧
    let sends := fun (i : Instr) (m : Mach) (kind : AccKind) (b : Word) (phase : Nat) (keep : List Word) =>
      let op := { ctlOp m kind with
        scope := f.md.extractLsb' 0 2, elems := [elAccess 0 (xVal s f.a).toNat 8 0 0], opA := xVal s f.a, opB := b }
      ∀ els, (checkOp s.mgmt m s.m.act.core (me m) op).1 = .ok els [] → els ≠ [] →
        (mayRecord (me m) { op with elems := els } = true → vecInFlight (me m) < 8) →
        Goes i s fun t => t = { s with m := t.m } ∧ IssueOnly s.m t.m ∧ me t.m =
          { me m with
            acc := insertOp { op with elems := els } (me m).acc, nextOp := (me m).nextOp + 1, seq := (me m).seq + 1
            held := some { op := op.id, phase := phase, words := keep }, waitC := some (.op op.id) }
    let one := (readSrcs s [(f.a, f.ta)]).2
    let both := (readSrcs s [(f.a, f.ta), (f.b, f.tb)]).2
    ((me s.m).held = none →
      (getFe (me s.m) (.x f.d.toNat) ≠ .claimed → sends (.barr f) one .arrive 0 0 []) ∧ sends (.bsync f) one .arrive 0 0 [] ∧
      (XFull s f.b → sends (.bwait f) both .poll (xVal s f.b) 2 [])) ∧
    (∀ h w0, (me s.m).held = some h → h.words = [w0] → clear h.op → sends (.bsync f) one .poll 0 3 [w0])

/-! ## The Dray engine (R41, R207, R233 to R246) -/

namespace Sys2Proof.Machine

/-- The kind of a Dray command, whether it names a completion barrier, and its fields. -/
def drayForm : Instr → Option (JobKind × Bool × FmtE)
  | .dcopy f => some (.copy, false, f)
  | .dcopy2d f => some (.copy2d, false, f)
  | .dfill f => some (.fill, false, f)
  | .dcompact f => some (.compact, false, f)
  | .dhalo f => some (.halo, false, f)
  | .dtile f => some (.tile, false, f)
  | .dcopyBar f => some (.copy, true, f)
  | .dcopy2dBar f => some (.copy2d, true, f)
  | .dfillBar f => some (.fill, true, f)
  | .dcompactBar f => some (.compact, true, f)
  | .dhaloBar f => some (.halo, true, f)
  | .dtileBar f => some (.tile, true, f)
  | _ => none
/-- The x register of the completion barrier. -/
def barField (f : FmtE) : BitVec 8 := f.imm.extractLsb' 8 8
def drayFields (bar : Bool) (f : FmtE) : List (BitVec 8 × Bool) :=
  [(f.a, false), (f.b, false), (f.c, false)] ++ (if bar then [(barField f, false)] else [])
/-- The command as it stands in its queue. -/
def queuedJob (s : State) (g : Group) (kind : JobKind) (bar : Bool) (f : FmtE) : Job :=
  let seen := g.vis.filter fun kv => escopeCovers f.escope s.m.act.core kv.1
  { id := s.m.nextUid, vf := g.vf, slot := s.m.act.slot, uid := g.uid, queue := f.queue.toNat, kind := kind, acq := f.acq, rel := f.rel,
    escope := f.escope, bar := bar, a := getX g f.a.toNat, b := getX g f.b.toNat, c := getX g f.c.toNat,
    barAddr := (if bar then getX g (barField f).toNat else 0), tag := f.imm.toNat % 256, clause := s.m.act.clause, word := s.m.act.word,
    st := .queued, at_ := { seq := g.seq, opId := g.nextOp, live := g.run.map (·.num) }, fence := g.fence, floor := mmax g.cmdFloor (if f.acq then seen else []), hfloor := mmax g.cmdFloor g.vis }
/-- The machine with a command added to its core's queues. -/
def withJob (m : Mach) (j : Job) : Mach :=
  modCore { m with nextUid := m.nextUid + 1 } m.act.core fun k => { k with jobs := k.jobs ++ [j] }
/-- The machine with a tile-table entry in a state. -/
def withTileSt (m : Mach) (c e : Nat) (st : TState) : Mach :=
  modCore m c fun k => { k with tiles := mmod {} k.tiles e fun t => { t with st := st } }

end Sys2Proof.Machine

/-- R41, R233, R242, R243: a Dray command whose predicate is true, whose sources are full and whose queue has fewer than eight commands
waiting is added at the end of its queue with the values of its registers, and the control stream goes on; dtile makes its LS tile
filling. A full queue suspends it. dhalo outside the yard's local stores takes WINDOW-RANGE, dtile of a bad entry LATTICE-OPERAND. -/
def Obligations.EngineCommandQueued : Prop :=
  ∀ (s : State) (i : Instr) (kind : JobKind) (bar : Bool) (f : FmtE), drayForm i = some (kind, bar, f) → i.wellFormed = true → Unstepped s →
    PredTrue s f.pn f.ps → SrcsFull s (drayFields bar f) →
    let c := s.m.act.core
    let g := me (readSrcs s (drayFields bar f)).2
    let y := groupYardEnt s.mgmt c (me s.m)
    let e := (xVal s f.a).toNat
    let haloFits := haloOk y c (xVal s f.a) (xVal s f.b) (xVal s f.c) = true
    let tileFits := 8 ≤ e ∧ e < 32 ∧ (xVal s f.c).toNat < 2 ^ 32 ∧ lsTileValid y (tileEnt s.m c e) = true
    let free := tileSt s.m c e = .empty ∨ tileSt s.m c e = .ready
    (queuedIn s.m c (me s.m).uid f.queue.toNat < 8 → (kind = .halo → haloFits) → (kind = .tile → tileFits ∧ free) →
      Goes i s fun t =>
        let m := withJob s.m (queuedJob s g kind bar f)
        ActsOnly { s with m := if kind = .tile then withTileSt m c e .filling else m } t (afterWord s.m.act g)) ∧
    (8 ≤ queuedIn s.m c (me s.m).uid f.queue.toNat → (kind = .halo → haloFits) → (kind = .tile → tileFits ∧ free) →
      Goes i s fun t => ActsOnly s t { g with waitC := some (.kRoom f.queue.toNat) }) ∧
    (kind = .halo → ¬ haloFits → Goes i s fun t => Halts s t { g with held := none } (reportOf s 0x07 0 0 0)) ∧
    (kind = .tile → ¬ tileFits → Goes i s fun t => Halts s t { g with held := none } (reportOf s 0x10 0 0 0))

/-- R207, R246: a qpop of a result FIFO that holds a word pops the oldest into its destination, which is claimed and filled with it; the
writes of a command with REL join the visible set, and its completion is known from then on. An empty FIFO blocks, or traps under TA. -/
def Sys2Proof.Machine.ResultPopped : Prop :=
  ∀ (s : State) (f : FmtA) (q : Nat), Unstepped s → PredTrue s f.pn f.ps → q < 16 → f.a.toNat = 0x90 + q → f.d.toNat < 0x80 →
    (∀ r rest, mget [] (me s.m).res q = r :: rest → f.d ≠ 0 → getFe (me s.m) (.x f.d.toNat) ≠ .claimed →
      Goes (.qpop f) s fun t =>
        let g := { me s.m with res := mset [] (me s.m).res q rest, vis := mmax (me s.m).vis r.rel, known := mmax (me s.m).known r.writes }
        let h := setFe g .claimed (.x f.d.toNat)
        ActsOnly s t (afterWord s.m.act { h with fills := h.fills ++ [({ reg := .x f.d.toNat, val := r.val } : Fill)] })) ∧
    (mget [] (me s.m).res q = [] → f.ta = false → Goes (.qpop f) s fun t => ActsOnly s t { me s.m with waitC := some (.kFilled q) }) ∧
    (mget [] (me s.m).res q = [] → f.ta = true →
      Goes (.qpop f) s fun t => Halts s t { me s.m with held := none } (reportOf s 0x02 0 0 f.a.toNat))

/-- R233, R234, R239: a copy whose turn it is and whose references are direct starts, its stream standing at its two addresses; of zero
length it is over at once. R238, R239: a length of 2^48 or more, or a reference with reserved bits set, ends it with BOUNDS. -/
def Sys2Proof.Machine.CopyStarts : Prop :=
  ∀ (s : State) (c id : Nat) (j : Job) (y : Yard), coreOk c = true → findJob s.m c id = some j → j.kind = .copy →
    enginesRun s.m s.mgmt c j.vf = some y → mayStart s.m c j = true → j.a.getLsbD 63 = false → j.b.getLsbD 63 = false →
    let set := fun (j' : Job) => modCore s.m c fun k => { k with jobs := k.jobs.map fun i => if i.id = j'.id then j' else i }
    (j.c.toNat < 2 ^ 48 → j.a.toNat < 2 ^ 55 → j.b.toNat < 2 ^ 55 → j.desc = 0 →
      let k := { j with dst := j.a.toNat, src := j.b.toNat, st := if j.c = 0 then .stopped else .running }
      exec (.drayCommandStart c id) s = .next { s with m := set k }) ∧
    (2 ^ 48 ≤ j.c.toNat ∨ 2 ^ 55 ≤ j.a.toNat ∨ 2 ^ 55 ≤ j.b.toNat →
      let k := { j with st := .stopped, status := 4 }
      exec (.drayCommandStart c id) s = .next { s with m := set k })

/-- R237, R240: a chunk of dfill to device memory writes its bytes, each the byte of B at its address's place in a doubleword, counts them,
and leaves every other byte of memory alone; the stream ends with the last. -/
def Sys2Proof.Machine.FillChunk : Prop :=
  ∀ (s : State) (c id yn : Nat) (j : Job) (y : Yard) (pa : Nat) (m m' : Mach), coreOk c = true → findJob s.m c id = some j →
    j.kind = .fill → j.st = .running → j.chunks = 0 → j.done = 0 → enginesRun s.m s.mgmt c j.vf = some y → runningYard s.m j.vf = some yn →
    let n := min j.c.toNat (4096 - j.dst % 4096)
    j.c.toNat ≠ 0 →
    engXlate s.mgmt s.m j.vf j.uid y .write j.dst = (.ok pa .hbm .hbm, m) → pa % 4096 = j.dst % 4096 → takeTokens s.mgmt m yn true n = some m' →
    Goes (.drayChunk c id) s fun t =>
      (∀ i, i < n → readByte t.m.mem (pa + i) = j.b.extractLsb' (8 * ((j.dst + i) % 8)) 8) ∧
      (∀ a, a < pa ∨ pa + n ≤ a → readByte t.m.mem a = readByte s.m.mem a) ∧ t.mgmt = s.mgmt ∧
      ∃ k, findJob t.m c id = some k ∧ k.done = n ∧ k.chunks = 1 ∧ k.st = (if j.c.toNat ≤ n then .stopped else .running)

/-- R207, R238: the result of a command without barrier that has ended, is the first of its queue and finds room is placed as STATUS, TAG and
BYTES at the end of its group's result FIFO, with its writes and what they bring with them (R205) if it carried REL, and the command is
gone; no memory changes. -/
def Sys2Proof.Machine.ResultPlaced : Prop :=
  ∀ (s : State) (c id : Nat) (j : Job) (y : Yard), coreOk c = true → findJob s.m c id = some j → j.st = .stopped → j.ended = false →
    j.bar = false → j.kind ≠ .tile → enginesRun s.m s.mgmt c j.vf = some y → earlierJobs s.m c j = [] → j.slot < 64 →
    (grp s.m c j.slot).status ≠ .free → (grp s.m c j.slot).uid = j.uid → (mget [] (grp s.m c j.slot).res j.queue).length < 8 →
    j.status < 256 → j.tag < 256 → j.done < 2 ^ 48 →
    Goes (.drayResult c id) s fun t =>
      let ws := closeVis t.m j.writes
      let r : Result := { val := BitVec.ofNat 64 (j.status * 2 ^ 56 + j.tag * 2 ^ 48 + j.done), rel := if j.rel then ws else [], writes := ws }
      grp t.m c j.slot = { grp s.m c j.slot with res := mset [] (grp s.m c j.slot).res j.queue (mget [] (grp s.m c j.slot).res j.queue ++ [r]) } ∧
      findJob t.m c id = none ∧ (∀ d s', (d, s') ≠ (c, j.slot) → d < 512 → grp t.m d s' = grp s.m d s') ∧ t.m.mem = s.m.mem ∧ t.mgmt = s.mgmt

/-- R41, R237 to R239, R246: a Dray command starts, writes its chunks and places its result, which qpop pops. -/
def Obligations.EngineWork : Prop := ResultPopped ∧ CopyStarts ∧ FillChunk ∧ ResultPlaced


/-! ## Tiles (R44, R146 to R154, R163 to R167) -/

namespace Sys2Proof.Machine

/-- The acting context owns and holds accumulator tile e, or LS entry e is valid for its yard. -/
def TileUsable (s : State) (e : Nat) : Prop :=
  let c := s.m.act.core
  let mine := some (ctxOf s.m c s.m.act.slot)
  if e < 8 then (tileOwnOf s.m c e).owner = mine ∧ (tileOwnOf s.m c e).holder = mine
  else lsTileValid (groupYardEnt s.mgmt c (me s.m)) (tileEnt s.m c e) = true
/-- Group h is g but for recorded Glaze outcomes and the gwaits they end (R182). -/
def OutcomesOnly (g h : Group) : Prop := h = { g with gout := h.gout, gwaits := h.gwaits, fills := h.fills }
/-- The same, but for links that a write of a tile's storage breaks (R202). -/
def OutcomesAndLinks (g h : Group) : Prop :=
  h = { g with gout := h.gout, gwaits := h.gwaits, fills := h.fills, linkset := h.linkset } ∧
    h.linkset.map (fun l => { l with intact := false }) = g.linkset.map fun l => { l with intact := false }
/-- Between two machines nothing has changed but the acting group, to g up to recorded outcomes, those outcomes of other groups, what
the core issues, event counts, and the state of one tile entry, which is now st. -/
structure TileMoves (m n : Mach) (g : Group) (e : Nat) (st : TState) : Prop where
  parts : n = { m with groups := n.groups, cores := n.cores, vfst := n.vfst, saved := n.saved }
  acting : OutcomesOnly g (me n)
  groups : ∀ k, k ≠ gkey m.act.core m.act.slot → OutcomesOnly (mget {} m.groups k) (mget {} n.groups k)
  cores : ∀ c, core n c = { core m c with issue := (core n c).issue, last := (core n c).last, tiles := (core n c).tiles }
  entry : mget {} (core n m.act.core).tiles e = { mget {} (core m m.act.core).tiles e with st := st }
  others : ∀ c k, (c, k) ≠ (m.act.core, e) → mget {} (core n c).tiles k = mget {} (core m c).tiles k
  counts : ∀ v, vfst n v = { vfst m v with cnt := (vfst n v).cnt }
/-- The same, with tile storage written: nothing has changed of memory and of the orders of writes but in one tile, which reads zero, and
no error is left in it. -/
structure TileZeroed (m n : Mach) (g : Group) (t : Nat) (st : TState) : Prop where
  parts : n = { m with groups := n.groups, cores := n.cores, vfst := n.vfst, saved := n.saved, mem := n.mem, hist := n.hist, bad := n.bad }
  acting : OutcomesAndLinks g (me n)
  groups : ∀ k, k ≠ gkey m.act.core m.act.slot → OutcomesAndLinks (mget {} m.groups k) (mget {} n.groups k)
  cores : ∀ c, core n c = { core m c with issue := (core n c).issue, last := (core n c).last, tiles := (core n c).tiles }
  entry : mget {} (core n m.act.core).tiles t = { mget {} (core m m.act.core).tiles t with st := st }
  others : ∀ c k, (c, k) ≠ (m.act.core, t) → mget {} (core n c).tiles k = mget {} (core m c).tiles k
  counts : ∀ v, vfst n v = { vfst m v with cnt := (vfst n v).cnt }
  zero : ∀ i, i < 4096 → readByte n.mem (tileAddr m.act.core t + i) = 0
  bytes : ∀ a, a < tileAddr m.act.core t ∨ tileAddr m.act.core t + 4096 ≤ a → readByte n.mem a = readByte m.mem a
  orders : ∀ d, 8 * d + 8 ≤ tileAddr m.act.core t ∨ tileAddr m.act.core t + 4096 ≤ 8 * d → histOf n d = histOf m d
  errors : (∀ e ∈ n.bad, e ∈ m.bad) ∧ badIn n (tileAddr m.act.core t) 4096 = none
/-- One of the eight records is free for an instruction that could need one (R325). -/
def RecordFor (g : Group) (op : MemOp) (els : List Elem) : Prop := mayRecord g { op with elems := els } = true → vecInFlight g < 8
/-- A tile that is neither filling nor draining. -/
def tileIdle (s : State) (e : Nat) : Prop := tileSt s.m s.m.act.core e = .empty ∨ tileSt s.m s.m.act.core e = .ready

end Sys2Proof.Machine

/-- R148, R151, R163: on a usable tile that is neither filling nor draining (and, for tfree, that no loop of the group reads) tfree makes it
empty, twait only goes on, and mzero makes the accumulator zero and ready; no other byte of memory changes. On one that is filling or
draining each suspends until it has left that state. -/
def Sys2Proof.Machine.TileFreeWaitZero : Prop :=
  ∀ (s : State) (f : FmtA), Unstepped s → PredTrue s f.pn f.ps →
    let e := f.md.toNat
    let t := f.d.toNat - 0xA0
    let g := afterWord s.m.act (me s.m)
    (e < 32 → TileUsable s e → tileIdle s e →
      Goes (.twait f) s (fun u => ActsOnly s u g) ∧
      (tileInLoop s.m s.m.act.core s.m.act.slot e = false →
        Goes (.tfree f) s fun u => TileMoves s.m u.m g e .empty ∧ u.mgmt = s.mgmt)) ∧
    (e < 32 → TileUsable s e → ¬ tileIdle s e →
      Goes (.twait f) s (fun u => ActsOnly s u { me s.m with waitC := some (.tile e) }) ∧
      Goes (.tfree f) s fun u => ActsOnly s u { me s.m with waitC := some (.tile e) }) ∧
    (t < 8 → TileUsable s t → tileIdle s t →
      Goes (.mzero f) s fun u => TileZeroed s.m u.m g t .ready ∧ u.mgmt = s.mgmt) ∧
    (t < 8 → TileUsable s t → ¬ tileIdle s t → Goes (.mzero f) s fun u => ActsOnly s u { me s.m with waitC := some (.tile t) })

/-- R164: outside the lock-step phase of a run, mread of a ready tile the group holds, no doubleword of which has an uncorrectable error, claims its destination in VPs vstart to vl − 1 and fills each with the
accumulator element at B + VP, zero from 1024 on; vstart becomes zero. On an empty tile it takes EMPTY-SOURCE. -/
def Sys2Proof.Machine.AccumulatorRead : Prop :=
  ∀ (s : State) (f : FmtA), Unstepped s → PredTrue s f.pn f.ps → XFull s f.b → NoLockStep s → f.d.toNat < (me s.m).nregs → f.d.toNat < 64 →
    let t := f.a.toNat - 0xA0
    let c := s.m.act.core
    let g := afterX s f.b f.tb
    let es := activeOf (me s.m) false 0
    t < 8 → TileUsable s t →
    (tileSt s.m c t = .ready → dstWait s.m (es.map (Reg.v f.d.toNat)) = none → badIn s.m (tileAddr c t) 4096 = none →
      Goes (.mread f) s fun u => ∃ h, ActsOnly s u (afterWord s.m.act h) ∧ h = { g with vfe := h.vfe, fills := h.fills, vstart := 0 } ∧
        (∀ e ∈ es, getFe h (.v f.d.toNat e) = .claimed) ∧
        h.fills = g.fills ++ es.map fun e =>
          let n := (xVal s f.b).toNat % 4294967296 + e
          let w : Word := BitVec.ofNat 64 (if n < 1024 then readLe s.m.mem (tileAddr c t + 4 * n) 4 else 0)
          ({ reg := .v f.d.toNat e, val := w } : Fill)) ∧
    (tileSt s.m c t = .empty → Goes (.mread f) s fun u => Halts s u { g with held := none } (reportOf s 0x02 0 0 f.a.toNat))

/-- R151, R163, R164: tfree, twait, mzero and mread. -/
def Obligations.TilesUsed : Prop := TileFreeWaitZero ∧ AccumulatorRead


/-- R150: tfill and tdrain of a usable, idle tile (for tdrain a ready one), whose address is a multiple of 64 and passes the checks, make it
filling or draining and enter one access for each doubleword of the tile, from its address upward; no byte moves yet. An address
that is no multiple of 64 takes LATTICE-OPERAND. R153: mload to a range of the Hayloft enters the reads of its memory in the same way. -/
def Obligations.TileCopiesAndLoads : Prop :=
  ∀ (s : State) (f : FmtA), Unstepped s → PredTrue s f.pn f.ps →
    let c := s.m.act.core
    let e := f.md.toNat
    let va := (xVal s f.a).toNat
    let at_ := fun (n : Nat) => (List.range (n / 8)).map fun i => elAccess i ((va + 8 * i) % 18446744073709551616) 8 0 0
    (∀ drain : Bool, XFull s f.a → e < 32 →
      let i := if drain then Instr.tdrain f else .tfill f
      let m := (readSrcs s [(f.a, f.ta)]).2
      let bytes := if e < 8 then 4096 else tileBytes (tileEnt s.m c e)
      let op := { ctlOp m (if drain then .tdrain e else .tfill e) with elems := at_ bytes, opA := BitVec.ofNat 64 va }
      (va % 64 ≠ 0 → Goes i s fun t => Halts s t { me m with held := none } (reportOf s 0x10 0 0 0)) ∧
      (va % 64 = 0 → TileUsable s e → (tileSt s.m c e = .ready ∨ (tileSt s.m c e = .empty ∧ drain = false)) →
        tileInLoop s.m c s.m.act.slot e = false →
        ∀ els n, checkOp s.mgmt m c (me m) op = (.ok els [], n) → RecordFor (me m) op els →
        Goes i s fun t => ∃ g, Entered (me m) g op els ∧ g.seq = (me m).seq + (if s.m.act.vec then 0 else 1) ∧
          TileMoves { s.m with tlb := n.tlb, tick := n.tick } t.m (afterWord s.m.act g) e (if drain then .draining else .filling))) ∧
    (XFull s f.a → XFull s f.b → XFull s f.c →
      let srcs := [(f.a, f.ta), (f.b, f.tb), (f.c, f.tc)]
      let m := (readSrcs s srcs).2
      let off := (xVal s f.b).toNat
      let len := (xVal s f.c).toNat
      let op := { ctlOp m (.mload off (f.ty == 15)) with elems := at_ len, opA := xVal s f.a, opB := xVal s f.b, opC := xVal s f.c }
      let part := hayPart (groupYardEnt s.mgmt c (me s.m)) c
      va % 64 = 0 → off % 64 = 0 → len % 64 = 0 → part.1 ≤ off → off + len ≤ part.1 + part.2 → 0 < len →
      (groupLoops s.m c s.m.act.slot).any (fun l => l.uid == (me s.m).uid) = false →
      ∀ els n, checkOp s.mgmt m c (me m) op = (.ok els [], n) → RecordFor (me m) op els →
      Goes (.mload f) s fun t => ∃ g, Entered (me m) g op els ∧ me t.m = afterWord s.m.act g ∧ t.m.mem = s.m.mem ∧
        (clus t.m (clusterOf c)).hayLoading = (clus s.m (clusterOf c)).hayLoading ++ (List.range (len / 64)).map fun l => off / 64 + l)

/-- R165, R166: the first use of a tile that no context holds and whose image the group has not saved makes the group owner and holder, the tile
empty and zero, with its save area recorded; a use of a tile that another context holds suspends for the tile fault. -/
def Sys2Proof.Machine.TileFirstUse : Prop :=
  ∀ (s : State) (f : FmtA), PredTrue s f.pn f.ps → Unstepped s →
    let c := s.m.act.core
    let t := f.d.toNat - 0xA0
    let mine := ctxOf s.m c s.m.act.slot
    t < 8 →
    ((tileOwnOf s.m c t).holder = none → (me s.m).tsaved.getLsbD t = false →
      Goes (.mzero f) s fun u => tileOwnOf u.m c t = { owner := some mine, holder := some mine, save := (me s.m).tsave } ∧
        tileSt u.m c t = .ready ∧ OutcomesAndLinks (afterWord s.m.act (me s.m)) (me u.m) ∧ (∀ i, i < 4096 → readByte u.m.mem (tileAddr c t + i) = 0) ∧
        ∀ a, a < tileAddr c t ∨ tileAddr c t + 4096 ≤ a → readByte u.m.mem a = readByte s.m.mem a) ∧
    (∀ h, (tileOwnOf s.m c t).holder = some h → h ≠ mine →
      Goes (.mzero f) s fun u => ActsOnly s u { me s.m with waitC := some (.tileFault t) })

/-- R44: a write of tileown whose releases nothing keeps busy makes the acting context owner of every tile with a 1, and leaves each tile
that it owned and that has a 0 unowned, without holder, empty and zero. -/
def Sys2Proof.Machine.TileOwnership : Prop :=
  ∀ (s : State) (v : Word), tileownWait s.mgmt s.m v = none →
    (∀ t, t < 8 → v.getLsbD t = false → (tileOwnOf s.m s.m.act.core t).owner = some (ctxOf s.m s.m.act.core s.m.act.slot) →
      (tileOwnOf s.m s.m.act.core t).holder = none ∨
      (tileOwnOf s.m s.m.act.core t).holder = some (ctxOf s.m s.m.act.core s.m.act.slot)) →
    Goes (.tileownWrite v) s fun u => u.mgmt = s.mgmt ∧ (∀ k, OutcomesAndLinks (mget {} s.m.groups k) (mget {} u.m.groups k)) ∧
      (∀ a, (∀ t, t < 8 → a < tileAddr s.m.act.core t ∨ tileAddr s.m.act.core t + 4096 ≤ a) → readByte u.m.mem a = readByte s.m.mem a) ∧
      let c := s.m.act.core
      let mine := ctxOf s.m c s.m.act.slot
      ∀ t, t < 8 →
        if v.getLsbD t = true then tileOwnOf u.m c t = { tileOwnOf s.m c t with owner := some mine }
        else if (tileOwnOf s.m c t).owner = some mine then
          tileOwnOf u.m c t = {} ∧ tileSt u.m c t = .empty ∧ ∀ i, i < 4096 → readByte u.m.mem (tileAddr c t + i) = 0
        else tileOwnOf u.m c t = tileOwnOf s.m c t

/-! ## The Lattice unit (R138 to R162, R166) -/

namespace Sys2Proof.Machine

/-- The loop that an mloop of the acting group enters, from its count and its x operands. -/
def loopOf (s : State) (g : Group) (fmt : BitVec 3) (f : FmtL) (a : LoopArgs) : Loop :=
  let k := clus s.m (clusterOf s.m.act.core)
  { id := s.m.nextUid, core := s.m.act.core, slot := (ctxOf s.m s.m.act.core s.m.act.slot).slot, uid := g.uid, vf := g.vf, tile := f.tile.toNat, fmt := fmt, steps := a.steps,
    done := 0, a := (if f.incA = 0 then .regs f.asrc.toNat else .tile (a.asrc % 32) (a.asrc / 65536 % 65536)), baddr := a.baddr,
    sparse := f.sparse, mask := a.mask, sbyte := f.sbyte.toNat, bcast := f.bcast, incA := f.incA.toNat, incB := f.incB.toNat, rowK := k.rowN,
    colK := k.colN, rowP := [], colP := [], clause := s.m.act.clause, word := s.m.act.word, seq := g.seq, nregs := g.nregs,
    left := if 64 ≤ s.m.act.slot then some g.v else none }
/-- Contraction positions per step: 16, 16, 32, 32, 64, 32, 64 by format. -/
def positions (fmt : BitVec 3) : Nat := ([16, 16, 32, 32, 64, 32, 64][fmt.toNat]?).getD 0
/-- Bytes of a stored row of B by format: 32 columns of 16, 16, 8, 8, 4, 8 or 2 bits. -/
def rowBytes (fmt : BitVec 3) : Nat := ([64, 64, 32, 32, 16, 32, 8][fmt.toNat]?).getD 0

end Sys2Proof.Machine

/-- R138, R141, R155 to R159: an unbroadcast mloop with A in v registers, outside the lock-step phase of a run, whose tile the group holds and is ready, whose operands
are in range and whose core has fewer than four loops, is accepted: it stands last in its cluster's sequencer with what it read, its tile
is filling, the Hayloft address moves past the bytes it consumes if INCB asks for it and there is a step, and the control stream goes on
without waiting for it. No byte of memory changes. -/
def Obligations.MatrixLoopAccepted : Prop :=
  ∀ (s : State) (fmt : BitVec 3) (f : FmtL), Instr.wellFormed (.mloop fmt f) = true → Unstepped s → PredTrue s f.pn f.ps → NoLockStep s →
    XFull s f.kreg → XFull s f.baddr → f.incA = 0 → f.bcast = 0 → f.sparse = false →
    let c := s.m.act.core
    let k := clusterOf c
    let g := me (readSrcs s [(f.kreg, false), (f.baddr, false)]).2
    let steps := (xVal s f.kreg).toNat % 4294967296
    let p := steps * positions fmt
    let b := (xVal s f.baddr).toNat
    let part := hayPart (groupYardEnt s.mgmt c (me s.m)) c
    let l := loopOf s g fmt f { steps := steps, p := p, asrc := (getX g f.asrc.toNat).toNat, baddr := b, mask := 0, consumed := p * rowBytes fmt }
    TileUsable s f.tile.toNat → tileSt s.m c f.tile.toNat = .ready → steps ≤ 65535 → 32 ≤ (me s.m).vlmax →
    f.asrc.toNat + (p + 32 / aWidth fmt - 1) / (32 / aWidth fmt) ≤ (me s.m).nregs →
    (scaled fmt = true → p ≠ 0 → (p - 1) / 32 < (me s.m).vlmax) → b < 2097152 → part.1 ≤ b → b + p * rowBytes fmt ≤ part.1 + part.2 →
    ((loopsOf s.m k).filter fun q => q.core == c).length < 4 →
    Goes (.mloop fmt f) s fun t =>
      loopsOf t.m k = loopsOf s.m k ++ [l] ∧ (∀ j, j ≠ k → clus t.m j = clus s.m j) ∧ tileSt t.m c f.tile.toNat = .filling ∧
      t.m.mem = s.m.mem ∧ t.mgmt = s.mgmt ∧
      (∀ j, j ≠ gkey c s.m.act.slot → OutcomesOnly (mget {} s.m.groups j) (mget {} t.m.groups j)) ∧
      let h := if f.incB = 1 ∧ steps ≠ 0 then putX g f.baddr.toNat (BitVec.ofNat 64 (b + p * rowBytes fmt)) else g
      OutcomesOnly (afterWord s.m.act { h with seq := g.seq + 1 }) (me t.m)

/-- R139, R140, R145, R160: a turn of a cluster's unit that chooses a dense loop of its own, nothing it reads having an uncorrectable error,
runs one step of it: every cell of the tile takes
the sum of its old value and the products of the step's positions, all from the operands as they stood, and the loop has one step more
behind it; no byte outside the tile changes. A turn that finds no loop to run changes nothing. A step that would read an invalid Hayloft
line leaves the tile empty and zero and halts the group, if it still issues, with HAYLOFT-INVALID and the line's offset. R161, R170: a loop
of a broadcast whose loops have all arrived and do not match leaves the sequencer in that turn instead, and its group halts with
LATTICE-BCAST. R196: what came with the fills of the v registers a step reads becomes known to the loop's group, and to no other. -/
def Sys2Proof.Machine.LatticeStep : Prop :=
  ∀ (s : State) (k : Nat), clusterOk k = true →
    let mismatched := (loopsOf s.m k).find? fun l => l.done == 0 && (runningYard s.m l.vf).isSome && castMismatch s.mgmt s.m l
    (∀ l, mismatched = some l → clusterOf l.core = k → (∀ q ∈ loopsOf s.m k, q.id = l.id → q = l) →
      Goes (.latticeStep k) s fun t => (∀ q ∈ loopsOf t.m k, q.id ≠ l.id) ∧ t.m.mem = s.m.mem ∧ t.mgmt = s.mgmt ∧
        ((grp s.m l.core l.slot).status = .running → (grp s.m l.core l.slot).uid = l.uid →
          (grp t.m l.core l.slot).status = .halted ∧
          (grp t.m l.core l.slot).rep = { cls := 2, code := 0x11, word := l.word, clause := l.clause })) ∧
    (mismatched = none → chooseLoop s.mgmt s.m k = none → exec (.latticeStep k) s = .next s) ∧
    (∀ l, mismatched = none → chooseLoop s.mgmt s.m k = some (l, [l]) → clusterOf l.core = k → l.sparse = false → bFrom s.mgmt s.m k l = l → aFrom s.mgmt s.m k l = l →
      let ps := (List.range (loopK l.fmt)).map (l.done * loopK l.fmt + ·)
      let base := tileAddr l.core l.tile
      (badLine s.m l ps = none → stepBad s.mgmt s.m l = none →
        Goes (.latticeStep k) s fun t =>
          (∀ n, n < 1024 → readLe t.m.mem (base + 4 * n) 4 =
            cellStep s.m l l l ps (readLe s.m.mem (base + 4 * n) 4) (n / 32) (n % 32) % 4294967296) ∧
          (∀ a, a < base ∨ base + 4096 ≤ a → readByte t.m.mem a = readByte s.m.mem a) ∧
          loopsOf t.m k = (loopsOf s.m k).map (fun q => if q.id = l.id then { q with done := q.done + 1 } else q) ∧
          (∀ j, let g := mget {} s.m.groups j
            let h := mget {} t.m.groups j
            h = { g with linkset := h.linkset, vis := h.vis, cmdFloor := h.cmdFloor } ∧
            (j ≠ gkey l.core l.slot ∨ l.left ≠ none ∨ g.uid ≠ l.uid ∨ g.pend = [] → h.vis = g.vis ∧ h.cmdFloor = g.cmdFloor)) ∧
          t.mgmt = s.mgmt) ∧
      (∀ o, badLine s.m l ps = some o → l.tile < 8 →
        Goes (.latticeStep k) s fun t => tileSt t.m l.core l.tile = .empty ∧ (∀ i, i < 4096 → readByte t.m.mem (base + i) = 0) ∧
          (∀ q ∈ loopsOf t.m k, ¬ (q.core = l.core ∧ q.uid = l.uid ∧ q.tile = l.tile)) ∧
          ((grp s.m l.core l.slot).status = .running → (grp s.m l.core l.slot).uid = l.uid →
            (grp t.m l.core l.slot).status = .halted ∧
            (grp t.m l.core l.slot).rep = { cls := 2, code := 0x12, word := l.word, clause := l.clause, info := o })))

/-- R158: the oldest loop of a tile, once all its steps have run and every participant of its broadcasts, if it has any, has accepted its
loop (R162), leaves the sequencer; when it was the last of its tile, and the tile is no
open receiver, the tile is ready. R150: a copy that has moved its last doubleword leaves the tile ready after tfill and empty after
tdrain. R153: an mload that has moved its last doubleword ends the wait for its lines. -/
def Sys2Proof.Machine.TileWorkCompletes : Prop :=
  ∀ (s : State) (c : Nat), coreOk c = true →
    (∀ t l, t < 8 → (loopsOf s.m (clusterOf c)).find? (fun l => l.core == c && l.tile == t) = some l → l.steps ≤ l.done →
      (enginesRun s.m s.mgmt c l.vf).isSome = true → castIn s.mgmt s.m true l = true → castIn s.mgmt s.m false l = true →
      Goes (.mloopComplete c t) s fun u =>
        loopsOf u.m (clusterOf c) = (loopsOf s.m (clusterOf c)).filter (fun q => q.id != l.id) ∧ u.m.mem = s.m.mem ∧ u.mgmt = s.mgmt ∧
        ((∀ q ∈ loopsOf s.m (clusterOf c), q.id ≠ l.id → ¬ (q.core = c ∧ q.tile = t)) →
          (∀ h, (tileOwnOf s.m c t).holder = some h → openAt s.m h c t = none) → tileSt u.m c t = .ready)) ∧
    (∀ e sl op, e < 32 → finished s.m c (fun k => k = .tfill e || k = .tdrain e) = some (sl, op) →
      Goes (.tileFillComplete c e) s fun u => tileSt u.m c e = (if op.kind = .tfill e then .ready else .empty) ∧ u.m.mem = s.m.mem ∧
        u.mgmt = s.mgmt ∧ ∀ o ∈ (grp u.m c sl).acc, o.id ≠ op.id) ∧
    (∀ sl op off, sl < 64 → (grp s.m c sl).acc.find? (fun o => o.elems.isEmpty && !o.logged && isMload o.kind) = some op →
      op.kind = .mload off false →
      Goes (.mloadComplete c sl) s fun u =>
        (clus u.m (clusterOf c)).hayLoading = (clus s.m (clusterOf c)).hayLoading.filter
          (fun l => !(hayLines off op.opC.toNat).contains l) ∧
        (clus u.m (clusterOf c)).hayInvalid = (clus s.m (clusterOf c)).hayInvalid.filter
          (fun l => !(hayLines off op.opC.toNat).contains l) ∧
        u.m.mem = s.m.mem ∧ u.mgmt = s.mgmt ∧ ∀ o ∈ (grp u.m c sl).acc, o.id ≠ op.id)

/-- R138 to R153: steps of a matrix loop, and the completion of work on tiles. -/
def Obligations.LatticeWork : Prop := LatticeStep ∧ TileWorkCompletes


/-- R166: the tile fault of a group held for a tile that nothing keeps busy and that has lost its holder ends the group's wait and makes it owner
and holder; with no saved image the tile is empty and zero. While the tile is busy, nothing happens. -/
def Sys2Proof.Machine.TileFaultServed : Prop :=
  ∀ (s : State) (c sl t : Nat), groupOk c sl = true → t < 8 → (grp s.m c sl).waitC = some (.tileFault t) →
    (tileBusy s.mgmt s.m c t = true → exec (.tileFault c sl t) s = .next s) ∧
    (tileBusy s.mgmt s.m c t = false → (tileOwnOf s.m c t).holder = none → (grp s.m c sl).tsaved.getLsbD t = false →
      Goes (.tileFault c sl t) s fun u =>
        OutcomesAndLinks { grp s.m c sl with waitC := none } (grp u.m c sl) ∧
        tileOwnOf u.m c t = { owner := some (ctxOf s.m c sl), holder := some (ctxOf s.m c sl), save := (grp s.m c sl).tsave } ∧
        tileSt u.m c t = .empty ∧ (∀ i, i < 4096 → readByte u.m.mem (tileAddr c t + i) = 0) ∧
        (∀ a, a < tileAddr c t ∨ tileAddr c t + 4096 ≤ a → readByte u.m.mem a = readByte s.m.mem a) ∧ u.mgmt = s.mgmt)

/-- R44, R165 to R167: who owns and who holds an accumulator tile. -/
def Obligations.TileOwners : Prop := TileFirstUse ∧ TileFaultServed ∧ TileOwnership


/-! ## Glaze (R103, R171 to R187) -/

namespace Sys2Proof.Machine

/-- Core c holds tile t for the acting context, its chain id is current and its chain not closing, and member i of it is that tile. -/
def GlazeMember (s : State) (id : Word) (t i : Nat) : Prop :=
  let v := vfst s.m (me s.m).vf
  idCurrent v id = true ∧ (chainOf v (idChain id)).closing = false ∧ memberAt (chainOf v (idChain id)) s.m.act.core t = some i
/-- The status of a Glaze outcome: the member's round, a count and a code (R182). -/
def outcomeWord (round count code : Nat) : Word := BitVec.ofNat 64 (round % 65536 * 65536 + count * 256 + code)
/-- The context of a send, resident in slot sl of core c, which has recorded it for tile t, has from g to h learnt its outcome w: the
record is done, and the gwaits for the tile are filled with it (R182). -/
def OutcomeKnown (sd : Send) (t : Nat) (w : Word) (g h : Group) : Prop :=
  let o := mget {} g.gout t
  o.kind = 2 → o.done = false → o.chain = sd.chain → o.member = sd.member →
    mget {} h.gout t = { o with done := true, status := w } ∧ h.gwaits = g.gwaits.filter (fun q => q.1 != t) ∧
    h.fills = g.fills ++ (g.gwaits.filter fun q => q.1 == t).map fun q => ({ reg := .x q.2, val := w } : Fill)
/-- The report of a Glaze fault, which names the chain (R187). -/
def chainReport (s : State) (code info : Nat) (id : Word) : Report := { reportOf s code 0 0 info with chain := id }
/-- The record of a Glaze instruction that has just named a tile. -/
def justNamed (kind n i : Nat) : GOut := { kind := kind, done := false, status := 0, chain := n, member := i }

end Sys2Proof.Machine

/-- R180: gopen of a member with children whose tile the group holds, is empty or ready and not yet open, with enough free receive slots,
reserves its slots, raises its round, grants credits to its lowest-ranked children, makes the tile filling (an empty one zero) and
goes on; with too few free slots, or a tile that is open for any context, it takes GLAZE-OVERRESERVE, INFO the number free, and with an id
that is not current GLAZE-CHAIN.
R181: gsend of a ready tile of a member other than the root makes it draining and leaves a send waiting for its credit; of an empty one it
takes EMPTY-SOURCE, of the root GLAZE-CHAIN. Every report names the chain (R187). -/
def Obligations.GlazeOpenAndSend : Prop :=
  ∀ (s : State) (f : FmtA), Unstepped s → PredTrue s f.pn f.ps →
    let c := s.m.act.core
    let k := clusterOf c
    let vf := (me s.m).vf
    (XFull s f.a →
      let t := f.d.toNat - 0xA0
      let id := xVal s f.a
      let n := idChain id
      let g := afterX s f.a f.ta
      let free := freeRecv (clus s.m k)
      t < 8 → TileUsable s t →
      (idCurrent (vfst s.m vf) id = false →
        Goes (.gopen f) s fun u => Halts s u { g with held := none } (chainReport s 0x18 (idChain id * 65536 + idGen id) id)) ∧
      (∀ i, GlazeMember s id t i → let p := memberOf s.m vf n i
        p.expect ≠ 0 →
        (free.length < p.slots ∨ tileOpen s.m vf c t = true →
          Goes (.gopen f) s fun u => Halts s u { g with held := none } (chainReport s 0x19 free.length id)) ∧
        (p.slots ≤ free.length → tileOpen s.m vf c t = false → tileIdle s t →
          Goes (.gopen f) s fun u =>
            let q := memberOf u.m vf n i
            q.round = (p.round + 1) % 65536 ∧ q.open_ = some (ctxOf s.m c s.m.act.slot) ∧ q.reserved = free.take p.slots ∧
            q.granted = (childrenOf (chainOf (vfst s.m vf) n) i).take p.slots ∧ q.credited = q.granted ∧ q.landed = [] ∧ q.added = 0 ∧
            (∀ j ∈ free.take p.slots, mget .free (clus u.m k).recv j = .reserved c t) ∧ tileSt u.m c t = .filling ∧
            me u.m = { afterWord s.m.act { g with gout := mset {} g.gout t (justNamed 1 n i) } with linkset := (me u.m).linkset } ∧
            (tileSt s.m c t = .empty → ∀ a, a < 4096 → readByte u.m.mem (tileAddr c t + a) = 0) ∧
            (tileSt s.m c t = .ready → u.m.mem = s.m.mem) ∧
            ∀ a, a < tileAddr c t ∨ tileAddr c t + 4096 ≤ a → readByte u.m.mem a = readByte s.m.mem a))) ∧
    (XFull s f.b →
      let t := f.a.toNat - 0xA0
      let id := xVal s f.b
      let n := idChain id
      let g := afterX s f.b f.tb
      t < 8 → TileUsable s t → ∀ i, GlazeMember s id t i →
      (i = (chainOf (vfst s.m vf) n).root →
        Goes (.gsend f) s fun u => Halts s u { g with held := none } (chainReport s 0x18 (idChain id * 65536 + idGen id) id)) ∧
      (i ≠ (chainOf (vfst s.m vf) n).root → tileSt s.m c t = .empty →
        Goes (.gsend f) s fun u => Halts s u { g with held := none } (chainReport s 0x02 f.a.toNat id)) ∧
      (i ≠ (chainOf (vfst s.m vf) n).root → tileSt s.m c t = .ready →
        let sd : Send := { core := c, tile := t, slot := (ctxOf s.m c s.m.act.slot).slot, uid := g.uid, chain := n, member := i, tb := f.tb, moving := false,
                           clause := s.m.act.clause, word := s.m.act.word }
        let m := withTileSt s.m c t .draining
        let w := mset {} m.vfst vf { vfst m vf with sends := (vfst m vf).sends ++ [sd] }
        Goes (.gsend f) s fun u => ActsOnly { s with m := { m with vfst := w } } u
          (afterWord s.m.act { g with gout := mset {} g.gout t (justNamed 2 n i) })))

/-- R174, R179: once the header and the entries of a chain have been read, a gchain whose entries break no rule of R175 installs the chain under
the lowest free number and returns its id; with every number in use it returns all ones and installs nothing. R185: gclose of a chain with
nothing open and nothing in the network removes the chain and raises its number's generation. -/
def Sys2Proof.Machine.ChainsMadeAndClosed : Prop :=
  ∀ (s : State) (f : FmtA), Unstepped s → PredTrue s f.pn f.ps → XFull s f.a →
    let vf := (me s.m).vf
    let g := afterX s f.a f.ta
    (∀ h hdr ws, (me s.m).held = some h → h.words = hdr :: ws → ws.length = hdr.toNat % 32 → (∀ o ∈ (me s.m).acc, o.id ≠ h.op) →
      getFe (me s.m) (.x f.d.toNat) ≠ .claimed →
      chainRule s.mgmt (groupYardEnt s.mgmt s.m.act.core (me s.m)) hdr ws = none →
      (∀ n, (List.range 64).find? (fun n => !(chainOf (vfst s.m vf) n).used) = some n →
        Goes (.gchain f) s fun t =>
          let q := chainOf (vfst t.m vf) n
          q.used = true ∧ q.closing = false ∧ q.gen = (chainOf (vfst s.m vf) n).gen ∧ q.mode = hdr.toNat / 65536 % 4 ∧
          q.root = hdr.toNat / 1048576 % 16 ∧ q.members = ws.map memberOfWord ∧
          me t.m = afterWord s.m.act (putX g f.d.toNat (BitVec.ofNat 64 (q.gen * 4294967296 + n))) ∧ t.m.mem = s.m.mem) ∧
      ((List.range 64).find? (fun n => !(chainOf (vfst s.m vf) n).used) = none →
        Goes (.gchain f) s fun t => ActsOnly s t (afterWord s.m.act (putX g f.d.toNat (BitVec.allOnes 64))))) ∧
    ((me s.m).held = none → idCurrent (vfst s.m vf) (xVal s f.a) = true →
      let n := idChain (xVal s f.a)
      let q := chainOf (vfst s.m vf) n
      q.closing = false → (∀ sd ∈ (vfst s.m vf).sends, sd.chain ≠ n) → (∀ p ∈ q.members, p.open_ = none) →
      Goes (.gclose f) s fun t => chainOf (vfst t.m vf) n = { gen := (q.gen + 1) % 65536 } ∧ me t.m = afterWord s.m.act g ∧
        (∀ j, j ≠ n → chainOf (vfst t.m vf) j = chainOf (vfst s.m vf) j) ∧ t.m.mem = s.m.mem)

/-- R182: gwait of a tile the group holds claims its register and goes on; the outcome recorded for the tile, or IDLE, fills it as soon as it
is known, and until then the gwait waits for it. -/
def Sys2Proof.Machine.GlazeWait : Prop :=
  ∀ (s : State) (f : FmtA), Unstepped s → PredTrue s f.pn f.ps → getFe (me s.m) (.x f.d.toNat) ≠ .claimed → f.d ≠ 0 → f.d.toNat < 0x80 →
    let t := f.a.toNat - 0xA0
    let o := mget {} (me s.m).gout t
    let g := setFe (me s.m) .claimed (.x f.d.toNat)
    let filled := fun (w : Word) => Goes (.gwait f) s fun u =>
      ActsOnly s u (afterWord s.m.act { g with fills := g.fills ++ [({ reg := .x f.d.toNat, val := w } : Fill)] })
    t < 8 → TileUsable s t →
    (o.kind = 0 → filled 0) ∧ (o.kind ≠ 0 → o.done = true → filled o.status) ∧
    (o.kind ≠ 0 → o.done = false →
      Goes (.gwait f) s fun u => ActsOnly s u (afterWord s.m.act { g with gwaits := g.gwaits ++ [(t, f.d.toNat)] }))

/-- R174, R179, R182, R185: gchain, gclose and gwait. -/
def Obligations.ChainsAndOutcomes : Prop := ChainsMadeAndClosed ∧ GlazeWait


/-- R176, R181, R183: a turn of a waiting sender that holds a credit uses it and begins to transmit. One without a credit whose parent is absent
ends with its tile ready and its outcome ABSENT (3) with its round, and with TB halts its group with GLAZE-ABSENT (that the outcome is recorded
then too is the model's reading, log entry 46). R181: a transmission of a tile without an
uncorrectable error lands in a slot reserved to the parent's round that holds
nothing: the slot holds the tile's 4096 bytes, the sending tile is empty with its bytes as they were, the send is over, and its outcome is
SENT (2) with its round and a count of one. -/
def Sys2Proof.Machine.ContributionsTravel : Prop :=
  ∀ (s : State) (c t vf : Nat) (sd : Send), coreOk c = true → t < 8 →
    (sendAt s.m c t false = some (vf, sd) → hasCredit s.m vf sd = true →
      let pi := parentOf s.m vf sd
      Goes (.glazeCredit c t) s fun u => u.m.mem = s.m.mem ∧ u.mgmt = s.mgmt ∧
        (vfst u.m vf).sends = (vfst s.m vf).sends.map (fun q => if q = sd then { q with moving := true } else q) ∧
        (pi < (chainOf (vfst s.m vf) sd.chain).members.length →
          memberOf u.m vf sd.chain pi = { memberOf s.m vf sd.chain pi with
            granted := (memberOf s.m vf sd.chain pi).granted.filter (· != sd.member) })) ∧
    (sendAt s.m c t false = some (vf, sd) → hasCredit s.m vf sd = false → (runningYard s.m vf).isSome = true →
      parentAbsent s.m vf sd = true → (chainOf (vfst s.m vf) sd.chain).closing = false → sd.core = c → sd.tile = t →
      Goes (.glazeCredit c t) s fun u => u.m.mem = s.m.mem ∧ u.mgmt = s.mgmt ∧ tileSt u.m c t = .ready ∧
        (∀ q ∈ (vfst u.m vf).sends, q ≠ sd) ∧
        ∀ sl, findUid s.m sd.uid = some (c, sl) →
          OutcomeKnown sd t (outcomeWord (memberOf s.m vf sd.chain sd.member).round 0 3) (grp s.m c sl) (grp u.m c sl) ∧
          (sd.slot = sl → sd.tb = true → (grp s.m c sl).active = true → (grp u.m c sl).status = .halted ∧ (grp u.m c sl).rep.code = 0x1A)) ∧
    (∀ j, sendAt s.m c t true = some (vf, sd) → sd.core = c → sd.tile = t →
      let p := memberOf s.m vf sd.chain (parentOf s.m vf sd)
      let k := clusterOf p.core
      (p.reserved.find? fun j => !p.landed.any (·.2 == j)) = some j → badIn s.m (tileAddr c t) 4096 = none →
      Goes (.contributionLanding c t) s fun u =>
        (∀ i, i < 4096 → readByte u.m.mem (recvAddr k j + i) = readByte s.m.mem (tileAddr c t + i)) ∧
        (∀ a, a < recvAddr k j ∨ recvAddr k j + 4096 ≤ a → readByte u.m.mem a = readByte s.m.mem a) ∧
        tileSt u.m c t = .empty ∧ u.mgmt = s.mgmt ∧ (∀ q ∈ (vfst u.m vf).sends, q ≠ sd) ∧
        ∀ sl, findUid s.m sd.uid = some (c, sl) →
          OutcomeKnown sd t (outcomeWord (memberOf s.m vf sd.chain sd.member).round 1 2) (grp s.m c sl) (grp u.m c sl))

/-- R103, R177: the adder of a cluster takes the contribution that has been ready longest and, no error in slot or tile, adds its 1,024 elements into the receiver's tile,
as INT32 wrap-around in INTEGER mode and as FP32 rounded to nearest even otherwise; no other byte of memory changes. -/
def Sys2Proof.Machine.ContributionAdded : Prop :=
  ∀ (s : State) (k c t x vf n i j : Nat) (rest : List (Nat × Nat × Nat)), clusterOk k = true → clusterOf c = k → t < 8 → j < 8 →
    let m := refreshAdds s.m k
    (clus m k).adds = (c, t, x) :: rest → receiveAt m k c t = some (vf, n, i) → (runningYard s.m vf).isSome = true →
    (memberOf m vf n i).landed.find? (fun l => l.1 == x) = some (x, j) →
    badIn s.m (tileAddr c t) 4096 = none → badIn s.m (recvAddr k j) 4096 = none →
    let word := fun (mem : Memory) (a e : Nat) => readLe mem (a + 4 * e) 4
    Goes (.glazeAdd k) s fun u =>
      (∀ e, e < 1024 → word u.m.mem (tileAddr c t) e =
        (if (chainOf (vfst s.m vf) n).mode = 2
         then (word s.m.mem (tileAddr c t) e + word s.m.mem (recvAddr k j) e) % 4294967296
         else plainAdd f32 (word s.m.mem (tileAddr c t) e) (word s.m.mem (recvAddr k j) e) % 4294967296)) ∧
      (∀ a, a < tileAddr c t ∨ tileAddr c t + 4096 ≤ a → readByte u.m.mem a = readByte s.m.mem a) ∧ u.mgmt = s.mgmt

/-- R176, R177, R181, R183: contributions travel and are added. -/
def Obligations.Contributions : Prop := ContributionsTravel ∧ ContributionAdded


/-! ## The memory system's events (R33, R192 to R211, R220, R223, R303) -/

namespace Sys2Proof.Machine

/-- An element of an instruction of a resident group may be performed now, has a route if it leaves the device, is charged to no empty
limiter, and meets no error. -/
def Performable (s : State) (c sl id e : Nat) (op : MemOp) (el : Elem) : Prop :=
  findAcc (grp s.m c sl) id = some op ∧ op.elems.find? (fun x => x.e == e) = some el ∧ canPerform s.mgmt s.m c sl op el = true ∧
    (el.loc = .system → destUp s.mgmt (destOf el) = true) ∧ vfResident s.m (grp s.m c sl).vf = true ∧ (grp s.m c sl).status ≠ .gone ∧
    (readsOld op.kind = true → el.loc ≠ .system → badIn s.m el.pa el.size = none) ∧ badSource s.m c op el = none ∧
    ((runningYard s.m (grp s.m c sl).vf).isSome = true →
      (limitLoc s.mgmt s.m (groupYard s.mgmt c (grp s.m c sl)) el.loc (el.size * (sameLoc op el).length)).isSome = true)
/-- A place whose bytes lie in memory and may be written. -/
def Stores (el : Elem) : Prop := el.loc = .hbm ∨ (el.loc = .window ∧ winInMem el.pa = true ∧ winReadOnly el.pa = false)
/-- The performance of an access changes nothing of the groups but the links a write breaks, and in its own group what it fills, learns
and has still to perform. -/
def PerformGroups (m n : Mach) (c sl : Nat) : Prop :=
  (∀ k, k ≠ gkey c sl → mget {} n.groups k = { mget {} m.groups k with linkset := (mget {} n.groups k).linkset }) ∧
  grp n c sl = { grp m c sl with acc := (grp n c sl).acc, fills := (grp n c sl).fills, vis := (grp n c sl).vis,
                                 cmdFloor := (grp n c sl).cmdFloor, linkset := (grp n c sl).linkset, log := (grp n c sl).log }
/-- What memory holds where an access reads. -/
def readNow (m : Mach) (el : Elem) : Nat := readLe m.mem el.pa el.size
/-- The atomics of some elements at one location, one after the other: the value left, and the fills of the values they found (R201). -/
def amoAll (op : MemOp) (o : BitVec 3) (c5 : Bool) : List Elem → Nat → Nat × List Fill
  | [], v => (v, [])
  | x :: r, v =>
    let q := amoAll op o c5 r (amoNew o c5 x.size v x.data.toNat x.cmp.toNat % 2 ^ (8 * x.size))
    (q.1, fillsOf op x v ++ q.2)

end Sys2Proof.Machine

/-- R191, R193, R196, R223, R224: an access that may be performed is, with those of its instruction at its location, in ascending order. A
store writes its bytes and no other, the last element's data standing; a load of a doubleword with no earlier version to choose reads
what memory holds, changes no byte, and adds the fill of every destination; an atomic reads the latest value, writes the result of its
operation, and adds the fill of the old value. The elements are then no more among those to perform. -/
def Obligations.AccessPerformed : Prop :=
  ∀ (s : State) (c sl id e : Nat) (op : MemOp) (el : Elem), groupOk c sl = true → Performable s c sl id e op el → el.loc ≠ .system →
    el.size = 1 ∨ el.size = 2 ∨ el.size = 4 ∨ el.size = 8 → el.pa % el.size = 0 → Stores el →
    (∀ x ∈ sameLoc op el, x.size = el.size) →
    let i := Instr.accessPerformed c sl id e
    let frame := fun (t : State) => t.mgmt = s.mgmt ∧ PerformGroups s.m t.m c sl ∧
      (∀ o ∈ (grp t.m c sl).acc, o.id = id → ∀ x ∈ o.elems, ∀ y ∈ sameLoc op el, x.e ≠ y.e)
    let elsewhere := fun (t : State) => ∀ a, a < el.pa ∨ el.pa + el.size ≤ a → readByte t.m.mem a = readByte s.m.mem a
    (op.kind = .store →
      Goes i s fun t => frame t ∧ elsewhere t ∧
        (∀ x, (sameLoc op el).getLast? = some x → readLe t.m.mem el.pa el.size = x.data.toNat % 2 ^ (8 * el.size)) ∧
        (grp t.m c sl).fills = (grp s.m c sl).fills) ∧
    (op.kind = .load → histOf s.m (el.pa / 8) = [] →
      Goes i s fun t => frame t ∧ t.m.mem = s.m.mem ∧
        (grp t.m c sl).fills = (grp s.m c sl).fills ++ (sameLoc op el).flatMap fun x => fillsOf op x (readNow s.m el)) ∧
    (∀ o c5, op.kind = .amo o c5 →
      Goes i s fun t => frame t ∧ elsewhere t ∧
        let r := amoAll op o c5 (sameLoc op el) (readNow s.m el)
        readLe t.m.mem el.pa el.size = r.1 ∧ (grp t.m c sl).fills = (grp s.m c sl).fills ++ r.2)

/-- R210, R303, R340: a system-scope access that may leave is sent by the link of its route, and nothing else changes but the link tokens it
draws; the acknowledgement of a group's first outstanding one, a store, performs it while that link is up at its destination, in HBM where its address is the issuing device's own, and
nowhere at or above the end of a device's HBM (R339). R33: a completed claim fills its register, and both halves of a pair together. R22: a line that a
request waits for is at its home after its fill. R197: a tick advances a core's logical clock and ends the leases it passes. R201,
R202, R220: the end of a Baler window, a combining-buffer entry that leaves and a link that is dropped change only those, and no link is
dropped within 2,048 cycles of being set. -/
def Sys2Proof.Machine.MemorySystemEvents : Prop :=
  ∀ (s : State) (c sl : Nat),
    (∀ id e op el, groupOk c sl = true → Performable s c sl id e op el → el.loc = .system →
      let g := grp s.m c sl
      let a : SysAcc := { core := c, slot := sl, uid := g.uid, vf := g.vf, op := op.id, dest := destOf el,
                          vp := if op.div then some el.e else none, link := linkFor s.mgmt (destOf el), kind := op.kind, el := el }
      Goes (.accessPerformed c sl id e) s fun t =>
        t = { s with m := { s.m with sysOut := s.m.sysOut ++ [a], yards := t.m.yards, tick := t.m.tick } } ∧
        ∀ y, yrun t.m y = { yrun s.m y with link := (yrun t.m y).link, linkWait := (yrun t.m y).linkWait }) ∧
    (∀ a rest op, groupOk c sl = true → s.m.sysOut = a :: rest → a.core = c → a.slot = sl → findAcc (grp s.m c sl) a.op = some op →
      op.kind = .store → (∀ l, a.link = some l → (linkOf s.mgmt l).st = 0) → (grp s.m c sl).status ≠ .gone → a.el.loc = .system → 1 ≤ a.el.size → a.el.size ≤ 8 →
      let own := a.el.pa / 2 ^ 48 = 0xE ∧ a.el.pa / 2 ^ 42 % 64 = s.mgmt.device
      let pa := if own then a.el.pa % 2 ^ 42 else a.el.pa
      Goes (.systemScopeAck c sl 0) s fun t => PerformGroups s.m t.m c sl ∧ t.mgmt = s.mgmt ∧
        (unsupportedAt a.el.pa = false → readLe t.m.mem pa a.el.size = a.el.data.toNat % 2 ^ (8 * a.el.size)) ∧
        ∀ b, unsupportedAt a.el.pa = true ∨ b < pa ∨ pa + a.el.size ≤ b → readByte t.m.mem b = readByte s.m.mem b) ∧
    (∀ n f, groupOk c sl = true → (grp s.m c sl).fills[n]? = some f →
      Goes (.claimFill c sl n) s fun t => ∃ h, GroupOnly s t c sl h ∧ h.fills = (grp s.m c sl).fills.eraseIdx n ∧
        h = { grp s.m c sl with
              fills := h.fills, x := h.x, xfe := h.xfe, p := h.p, pfe := h.pfe, v := h.v, vfe := h.vfe, c := h.c, cfe := h.cfe
              vdirty := h.vdirty, saveMap := h.saveMap, pend := h.pend, run := h.run } ∧
        (∀ i, f.reg = .x i → f.hi = none → i ≠ 0 → getX h i = f.val ∧ getFe h (.x i) = .full ∧
          ∀ j, j ≠ i → getX h j = getX (grp s.m c sl) j ∧ getFe h (.x j) = getFe (grp s.m c sl) (.x j)) ∧
        (∀ i e, f.reg = .v i e → f.hi = none → getV h i e = f.val.setWidth 32 ∧ getFe h (.v i e) = .full ∧ getX h = getX (grp s.m c sl) ∧
          ∀ j d, (j, d) ≠ (i, e) → getV h j d = getV (grp s.m c sl) j d ∧ getFe h (.v j d) = getFe (grp s.m c sl) (.v j d)) ∧
        (∀ i e w, f.reg = .v i e → f.hi = some (.v (i + 1) e, w) →
          getV h i e = f.val.setWidth 32 ∧ getFe h (.v i e) = .full ∧ getV h (i + 1) e = w.setWidth 32 ∧ getFe h (.v (i + 1) e) = .full)) ∧
    (∀ pa vf, pa < 2 ^ 52 → lineWanted s.m (pa / 128) = some vf →
      Goes (.lineFill pa) s fun t => homeOf s.mgmt s.m pa ∈ t.m.l2 ∧ t.m.mem = s.m.mem ∧ t.m.groups = s.m.groups ∧ t.mgmt = s.mgmt) ∧
    (coreOk c = true →
      (Goes (.logicalClockTick c) s fun t => t = { s with m := { s.m with cores := t.m.cores } } ∧
        (∀ d, d ≠ c → core t.m d = core s.m d) ∧
        let k := core s.m c
        core t.m c = { k with clk := k.clk + 1, leases := k.leases.filter fun l => decide (k.clk < l.2) }) ∧
      (Goes (.balerWindow c) s fun t => t = { s with m := { s.m with cores := t.m.cores, vfst := t.m.vfst } } ∧
        (∀ d, d ≠ c → core t.m d = core s.m d) ∧ core t.m c = { core s.m c with baler := [] } ∧
        ∀ v, vfst t.m v = { vfst s.m v with cnt := (vfst t.m v).cnt })) ∧
    (∀ k n, clusterOk k = true →
      Goes (.combiningBuffer k n) s fun t => clus t.m k = { clus s.m k with comb := (clus s.m k).comb.eraseIdx n } ∧
        (∀ j, j ≠ k → clus t.m j = clus s.m j) ∧ t = { s with m := { s.m with clusters := t.m.clusters } }) ∧
    (∀ n, groupOk c sl = true →
      Goes (.vglLinkDrop c sl n) s fun t => ∃ h, GroupOnly s t c sl h ∧ h = { grp s.m c sl with linkset := h.linkset } ∧
        h.linkset[n]? = ((grp s.m c sl).linkset[n]?).map (fun l => if l.since + 2048 < s.m.now then { l with intact := false } else l) ∧
        ∀ j, j ≠ n → h.linkset[j]? = (grp s.m c sl).linkset[j]?)

namespace Sys2Proof.Machine

/-- A path leads from the host to an address: its own memory; device memory in the window that WINBASE places, over the board's route to the
bridging device; or, at the bridging device, the memory of another device over that one's route (R25, R339, R341). -/
def HostPath (mg : Mgmt) (pa : Nat) : Prop :=
  let dev := pa / 2 ^ 42 % 64
  pa / 2 ^ 48 = 0xD ∨ (pa < hbmBytes ∧ hostUp mg = true ∧ mg.winbase ≤ pa ∧ pa < mg.winbase + 2 ^ 36) ∨
    (pa / 2 ^ 48 = 0xE ∧ mg.device = mg.bridging ∧ dev ≠ mg.device ∧ routeUp mg dev = true)

end Sys2Proof.Machine

/-- R25, R210, R211, R341: a host or peer write that a path leads to stores its bytes and no other, and a read of bytes without an error
returns what memory holds and changes no byte; with no path now to an address of the host's space, nothing changes, nor by a write at or
above the end of a device's HBM (R339); an access outside that space stops, as no path ever leads there. That an access without a path changes
nothing (log entry 88) and that one outside the space stops (99, with 97 and 109 for those beyond the device) are the model's choices. -/
def Sys2Proof.Machine.HostAndPeers : Prop :=
  ∀ (s : State) (pa size : Nat) (data : Word), sizeOk size = true → pa % size = 0 →
    let wrote := fun (t : State) => readLe t.m.mem pa size = data.toNat % 2 ^ (8 * size) ∧ t.mgmt = s.mgmt ∧
      (∀ a, a < pa ∨ pa + size ≤ a → readByte t.m.mem a = readByte s.m.mem a) ∧
      ∀ k, mget {} t.m.groups k = { mget {} s.m.groups k with linkset := (mget {} t.m.groups k).linkset }
    let read := fun (t : State) => t.m.hostData = BitVec.ofNat 64 (readLe s.m.mem pa size) ∧ t.m.mem = s.m.mem ∧ t.m.groups = s.m.groups
    (hostReach pa = true → HostPath s.mgmt pa → unsupportedAt pa = false →
      Goes (.hostAccess true pa size data) s wrote ∧ (badIn s.m pa size = none → Goes (.hostAccess false pa size data) s read)) ∧
    (hostReach pa = true → ¬ HostPath s.mgmt pa → ∀ wr, exec (.hostAccess wr pa size data) s = .next s) ∧
    (unsupportedAt pa = true → exec (.hostAccess true pa size data) s = .next s) ∧
    (hostReach pa = false → ∀ wr, exec (.hostAccess wr pa size data) s = .fault .noSuchUnit) ∧
    ∀ dev,
      (peerReach dev pa = true → dev ≠ s.mgmt.device → routeUp s.mgmt dev = true →
        Goes (.peerAccess dev true pa size data) s wrote ∧ (badIn s.m pa size = none → Goes (.peerAccess dev false pa size data) s read)) ∧
      (peerReach dev pa = true → dev = s.mgmt.device ∨ routeUp s.mgmt dev = false →
        ∀ wr, exec (.peerAccess dev wr pa size data) s = .next s) ∧
      (peerReach dev pa = false → ∀ wr, exec (.peerAccess dev wr pa size data) s = .fault .noSuchUnit)

/-- R23, R33, R197, R201, R202, R210, R211, R220: events of the memory system, and accesses of the host and of peers. -/
def Obligations.MemorySystemAndHost : Prop := MemorySystemEvents ∧ HostAndPeers


/-! ## Groups that the device starts, and the issue slot (R37, R53 to R57, R73, R253 to R256, R277, R278, R282) -/

/-- R277, R278: a stall that is full or has timed out starts its packed group where the packer finds a core and slot: the group runs
from the stall's key with one VP for each item, whose argument is in v0:v1, the stall is free, and no other group changes. An expired
timer does the same. R47: its VPs stand at the entry. R278: the oldest overflow item of a cluster moves to a stall that takes it, past
older items of other clusters by the model's reading (log entry 39). -/
def Sys2Proof.Machine.PackedGroupsStart : Prop :=
  ∀ (s : State) (k i : Nat), clusterOk k = true → i < 32 →
    let st := mget {} (clus s.m k).stalls i
    let started := fun (q : Item) (c sl : Nat) (t : State) =>
      let g := grp t.m c sl
      g.status = .running ∧ g.vf = q.by_.vf ∧ g.priv = q.by_.priv ∧ g.pc = q.entry ∧ g.pcword = 1 ∧ g.nregs = q.by_.nregs ∧
        g.gcount = q.by_.gcount ∧ g.vl = st.items.length ∧ g.run = none ∧ g.qin = [] ∧ g.qout = [] ∧ g.fflags = 0 ∧ g.vstart = 0 ∧
        (∀ (e : Nat) (it : Item), st.items[e]? = some it → getV g 0 e = it.arg.setWidth 32 ∧ getV g 1 e = (it.arg >>> 32).setWidth 32) ∧
        (∀ j, j ≠ 7 → j ≠ 8 → getX g j = 0) ∧ (∀ r, getFe g r = .full) ∧ (∀ e, pcOf g e = q.entry) ∧ mget {} (clus t.m k).stalls i = {} ∧
        (∀ j, j ≠ i → mget {} (clus t.m k).stalls j = mget {} (clus s.m k).stalls j) ∧
        (∀ j, j ≠ gkey c sl → mget {} t.m.groups j = mget {} s.m.groups j) ∧ t.m.mem = s.m.mem ∧ t.mgmt = s.mgmt
    (∀ q rest c sl, st.items = q :: rest → st.timed = true ∨ min 64 (vlmaxOf q.by_.nregs q.by_.gcount q.by_.laneL) ≤ st.items.length →
      packCore s.mgmt s.m k st.items.length q.by_ = some (c, sl) → Goes (.packedGroupStart k i) s (started q c sl)) ∧
    (∀ q rest c sl, st.items = q :: rest → st.due ≤ s.m.now →
      packCore s.mgmt s.m k st.items.length q.by_ = some (c, sl) → Goes (.packerTimer k i) s (started q c sl)) ∧
    (∀ vf it before rest n, vfOk vf = true → (runningYard s.m vf).isSome = true → (vfst s.m vf).overflow = before ++ it :: rest →
      (∀ q ∈ before, clusterOf q.by_.core ≠ k) → clusterOf it.by_.core = k →
      findStall (clus s.m k) (yardEnt s.mgmt ((yardAt s.mgmt it.by_.core it.by_.laneB).getD 0)).lane it = some n →
      Goes (.overflowRefill k vf) s fun t => (vfst t.m vf).overflow = before ++ rest ∧
        (mget {} (clus t.m k).stalls n).items = (mget {} (clus s.m k).stalls n).items ++ [it] ∧ t.m.groups = s.m.groups ∧
        t.m.mem = s.m.mem ∧ t.mgmt = s.mgmt)

/-- R37, R282: the next instance of an accepted record starts in the first free slot of its core when the core holds only groups of the
record's G: it runs from the record's entry with its declared count, with x1 to x6 from the record, x7 and x8 as the frame gives them (R82)
and every other x register zero, every register full, vl as the record asks for, and owns the record's tiles; no other group changes. -/
def Sys2Proof.Machine.LaunchedGroupStarts : Prop :=
  ∀ (s : State) (vf n yn c k sl : Nat) (l : Launched) (rest : List (Nat × Nat)), vfOk vf = true →
    (vfst s.m vf).launched[n]? = some l → runningYard s.m vf = some yn → l.places = (c, k) :: rest →
    let y := yardEnt s.mgmt yn
    sameG s.m y c l.gcount = true → freeSlot s.m c (yardSlots y l.gcount) = some sl → l.xs.length = 8 →
    Goes (.launchGroupStart vf n) s fun t =>
      let g := grp t.m c sl
      let vm := vlmaxOf l.nregs l.gcount (yardLanes s.mgmt y c).2
      let idx := areaIndex s.mgmt (yardEnt s.mgmt ((yardAt s.mgmt c (yardLanes s.mgmt y c).1).getD 0)) c sl
      g.status = .running ∧ g.vf = vf ∧ g.priv = l.priv ∧ g.pc = l.entry ∧ g.pcword = 1 ∧ g.nregs = l.nregs ∧ g.gcount = l.gcount ∧
        g.vlmax = vm ∧ g.vl = (if l.vlreq = 0 then vm else min l.vlreq vm) ∧ g.run = none ∧ g.age = (core s.m c).nextAge ∧
        (∀ i, 1 ≤ i → i ≤ 6 → getX g i = (l.xs[i - 1]?).getD 0) ∧ getX g 7 = framePart l.frame.x7 l.frame.fpart idx ((l.xs[6]?).getD 0) ∧
        getX g 8 = framePart l.frame.x8 l.frame.spart idx ((l.xs[7]?).getD 0) ∧ (∀ i, 9 ≤ i → getX g i = 0) ∧ (∀ i e, getV g i e = 0) ∧
        (∀ e, pcOf g e = l.entry) ∧
        (∀ r, getFe g r = .full) ∧ (∀ i, 1 ≤ i → getP g i = false) ∧
        (∀ i, i < l.ntiles → (tileOwnOf t.m c i).owner = some { vf := vf, slot := sl, uid := s.m.nextUid }) ∧
        (∀ j, j ≠ gkey c sl → mget {} t.m.groups j = mget {} s.m.groups j) ∧ t.m.mem = s.m.mem ∧ t.mgmt = s.mgmt

/-- R37, R277, R278, R282: the groups that the device starts. -/
def Obligations.GroupsStart : Prop := PackedGroupsStart ∧ LaunchedGroupStarts


/-- R53 to R57, R73, R256: a core whose issue slot is free and whose choice falls on a candidate fetches its clause. A clause within one page
that decodes in a class its stream accepts begins to issue at the candidate's word; one with a word that does not decode, or of a class
that its stream does not accept (an S clause in a group without PRIV among them), halts the group with ILLEGAL-INSTRUCTION before any word
of it takes effect. A busy slot makes no choice. R254: a choice that falls on a candidate at the starvation cap is the same choice. R256: a
stream whose condition has cleared is ready again. -/
def Obligations.ClauseChosen : Prop :=
  ∀ (s : State) (c : Nat), coreOk c = true →
    ((core s.m c).issue ≠ none → exec (.issueChoice c) s = .next s) ∧
    (∀ key k pa m2 n, (core s.m c).issue = none → choose s.mgmt s.m c = some (key, k) → k.at_.pc < 2 ^ 55 → pa % 8 = 0 →
      let m1 := served s.mgmt s.m c key k
      let g := grp m1 c k.slot
      fetchPage s.mgmt m1 c g k.at_.pc = (.ok (pa, .hbm), m2) →
      let hdr : Word := BitVec.ofNat 64 (readLe s.m.mem pa 8)
      n = hdr.toNat / 2 ^ 58 % 16 + 1 → k.at_.pc % 65536 + 8 * (n + 1) ≤ 65536 →
      (∀ i, i ≤ n → histOf s.m (pa / 8 + i) = [] ∧ badIn m2 (pa + 8 * i) 8 = none) →
      let ws : List Word := (List.range n).map fun i => BitVec.ofNat 64 (readLe s.m.mem (pa + 8 * (i + 1)) 8)
      (∀ h is, decodeClause (acceptCls g k.vec) hdr ws = .ok (h, is) → k.at_.w ≤ n →
        Goes (.issueChoice c) s fun t => t.m.mem = s.m.mem ∧ t.mgmt = s.mgmt ∧
          (core t.m c).issue = some { key := key, slot := k.slot, vec := k.vec, cls := h.cls, clause := k.at_.pc, y := h.y, words := ws,
                                      next := k.at_.w, vps := k.at_.vps, back := false }) ∧
      (∀ w e, decodeClause (acceptCls g k.vec) hdr ws = .error (w, e) →
        Goes (.issueChoice c) s fun t => t.m.mem = s.m.mem ∧ t.mgmt = s.mgmt ∧ (core t.m c).issue = none ∧
          (grp t.m c k.slot).status = .halted ∧ (grp t.m c k.slot).x = (grp s.m c k.slot).x ∧ (grp t.m c k.slot).v = (grp s.m c k.slot).v ∧
          (grp t.m c k.slot).rep = { cls := 2, code := 0x01, word := w, clause := k.at_.pc, elem := k.at_.vps.headD 0 })) ∧
    (∀ sl vec key k, groupOk c sl = true → (core s.m c).issue = none → choose s.mgmt s.m c = some (key, k) → k.slot = sl → k.vec = vec →
      4096 ≤ (if k.vec then k.g.cntV else k.g.cntC) →
      Goes (.starvationCap c sl vec) s fun t => exec (.issueChoice c) s = .next t) ∧
    (∀ sl w, groupOk c sl = true → (grp s.m c sl).recs = [] → (grp s.m c sl).active = true →
      ((grp s.m c sl).waitC = some w →
        Goes (.clauseWake c sl false) s fun t =>
          GroupOnly s t c sl { grp s.m c sl with waitC := if waitCleared s.m c sl w then none else some w }) ∧
      ((grp s.m c sl).waitV = some w → (∀ r, (grp s.m c sl).run = some r → r.diverged = false) →
        Goes (.clauseWake c sl true) s fun t =>
          GroupOnly s t c sl { grp s.m c sl with waitV := if waitCleared s.m c sl w then none else some w }))

/-- R256: a turn of a core's issue slot that has a clause executes the clause's next word, decoded, for the clause's group and VPs; a slot
without a clause makes a choice. The turns come from the agenda in order. -/
def Obligations.StepRunsInstruction : Prop :=
  ∀ (s : State) (c : Nat) (r : List Turn), s.agenda = .issue c :: r → coreOk c = true →
    (∀ (i : Issue) (w : Word) (ins : Instr), (core s.m c).issue = some i → i.words[i.next - 1]? = some w → decodeWord i.cls w = .ok ins →
      let a : Act := { core := c, slot := i.slot, vec := i.vec, cls := i.cls, clause := i.clause, word := i.next, count := i.words.length,
                       instr := w, vps := i.vps }
      step s = exec ins { s with agenda := r, m := { s.m with act := a } }) ∧
    ((core s.m c).issue = none → step s = exec (.issueChoice c) { s with agenda := r })

/-! ## Driver commands (R185, R282, R321 to R327, R330 to R332) -/

namespace Sys2Proof.Machine

/-- The command goes on in a later turn: it changes nothing now. -/
def GoesOnLater (i : Instr) (s : State) : Prop := exec i s = .next { s with mgmt := { s.mgmt with status := none, result := [] } }
/-- A command ends with a status and results, leaving the Farrier's tables as they are, and P holds of the machine it leaves. -/
def Ends (i : Instr) (s : State) (st : Nat) (res : List Word) (P : Mach → Prop) : Prop :=
  Goes i s fun t => P t.m ∧ t.mgmt = { s.mgmt with status := some st, result := res } ∧ t.agenda = s.agenda
/-- A command is turned away with a status and changes nothing else. -/
def Turned (i : Instr) (s : State) (st : Nat) : Prop := Ends i s st [] fun n => n = s.m
/-- The virtual function is enabled and on its cores, and its yard is not at a slot edge. -/
def Settled (s : State) (vf : Nat) : Prop :=
  vfOk vf = true ∧ (vfEnt s.mgmt vf).en = true ∧ ∃ yn v, (vfst s.m vf).home = some yn ∧ (yrun s.m yn).phase = .running v
/-- The group that a command names is one of the virtual function's, on a yard that is not at a slot edge. -/
def Named (s : State) (vf c sl : Nat) : Prop :=
  Settled s vf ∧ groupOk c sl = true ∧ (grp s.m c sl).status ≠ .free ∧ (grp s.m c sl).vf = vf
/-- Of a machine only one group has changed, to g. -/
def OneGroup (m n : Mach) (c sl : Nat) (g : Group) : Prop :=
  n = { m with groups := n.groups } ∧ (∀ k, k ≠ gkey c sl → mget {} n.groups k = mget {} m.groups k) ∧ grp n c sl = g
/-- The record that a launch record's doublewords describe, as it waits at its placement (R83, R281). -/
def acceptedAs (s : State) (ws : List Word) (places : List (Nat × Nat)) : Launched :=
  let r := recordOf ws
  { entry := r.entry, nregs := r.nregs, gcount := r.ngroups, ntiles := r.ntiles, vlreq := r.vlreq, priv := r.flags == 1,
    frame := { x7 := ((r.xs[6]?).getD 0).toNat, x8 := ((r.xs[7]?).getD 0).toNat, fpart := r.fpart, spart := r.spart },
    xs := r.xs, places := places, ftz := false, drm := 0, vis := s.m.host }
/-- A group as it runs again: CLASS and CODE clear, vstart as it was before the halt showed the oldest stopped instruction (R325). -/
def resumed (g : Group) (step : Bool) : Group :=
  { g with status := .running, rep := { g.rep with cls := 0, code := 0 }, vstart := g.vkept.getD g.vstart, vkept := none,
           stepping := step }

end Sys2Proof.Machine

/-- R332, R85, R281, R282: START is turned away with DENIED while EN is clear, with INVALID-RECORD for a record that breaks a rule, with
BUSY at 16 accepted records and with NO-SLOT when the placement cannot be met, and otherwise adds the record at its placement and sets TSBASE.
R86: the record is read a doubleword a turn in ascending order, and the sixteenth turn decides; while no route leads to the host the
command waits (R340, log entry 141). For an absent virtual function the placement is decided at once against its saved context, and reserved
there by place in the yard (log entry 48). That a refused START leaves TSBASE, and that host writes are the record's past, are the model's
choices (log entry 81). -/
def Obligations.StartCommand : Prop :=
  ∀ (s : State) (vf a ts : Nat), vfOk vf = true →
    let ws := s.mgmt.got ++ [hostRead s.m (a + 8 * s.mgmt.got.length)]
    let r := recordOf ws
    let valid := recordValid (vfEnt s.mgmt vf)
    let old := (vfst s.m vf).launched
    let taken := fun (places : List (Nat × Nat)) =>
      Ends (.start vf a ts) s 0 [] fun n => n = { s.m with vfst := n.vfst } ∧ (∀ v, v ≠ vf → vfst n v = vfst s.m v) ∧
        vfst n vf = { vfst s.m vf with launched := old ++ [acceptedAs s ws places], tsbase := ts % 2 ^ 55 }
    ((vfEnt s.mgmt vf).en = false → Turned (.start vf a ts) s 5) ∧
    ((vfEnt s.mgmt vf).en = true →
      (a % 128 ≠ 0 → Turned (.start vf a ts) s 1) ∧
      (a % 128 = 0 → hostUp s.mgmt = false → GoesOnLater (.start vf a ts) s) ∧
      (a % 128 = 0 → hostUp s.mgmt = true → s.mgmt.got.length < 15 → exec (.start vf a ts) s =
        .next { s with mgmt := { s.mgmt with got := ws, status := none, result := [] } }) ∧
      (a % 128 = 0 → hostUp s.mgmt = true → s.mgmt.got.length = 15 →
        (∀ yn, shapeYard s.mgmt s.m vf = some yn →
          let y := yardEnt s.mgmt yn
          (valid (yardLaneCount y) r = false → Turned (.start vf a ts) s 1) ∧
          (valid (yardLaneCount y) r = true → 16 ≤ old.length → Turned (.start vf a ts) s 6) ∧
          (valid (yardLaneCount y) r = true → old.length < 16 → (vfst s.m vf).home.isSome = true →
            (placeRecord s.mgmt y (fun c => coreQualifies s.m y r.ngroups c) r = none → Turned (.start vf a ts) s 2) ∧
            ∀ ps, placeRecord s.mgmt y (fun c => coreQualifies s.m y r.ngroups c) r = some ps → taken ps) ∧
          (valid (yardLaneCount y) r = true → old.length < 16 → (vfst s.m vf).home = none →
            (placeRecord s.mgmt y (fun c => savedQualifies s.mgmt s.m vf y r.ngroups c) r = none → Turned (.start vf a ts) s 2) ∧
            ∀ ps, placeRecord s.mgmt y (fun c => savedQualifies s.mgmt s.m vf y r.ngroups c) r = some ps →
              taken (ps.map fun p => (savePos y p.1, p.2)))) ∧
        (shapeYard s.mgmt s.m vf = none → Turned (.start vf a ts) s 2)))

/-- R321, R322, R325, R332: HALT halts the named group, or every group of the virtual function that issues, with code 0x3E; its registers, pc and
memory stay, and it leaves the issue slot. RESUME and STEP make a group that halted in class 2 or by the driver run again with CLASS and CODE cleared, STEP so that it halts
after one clause, and refuse any other with NOT-HALTED; an in-flight record is issued again first. RESUMEVF does it for the groups halted in
class 3, and for those alone. That vstart comes back to its value before the halt is the model's reading (log entry 10). -/
def Obligations.HaltAndResume : Prop :=
  ∀ (s : State) (vf : Nat),
    (∀ c sl, Named s vf c sl →
      let g := grp s.m c sl
      let may := g.status = .halted ∧ (g.rep.cls = 2 ∨ g.rep.code = 0x3E)
      (g.active = true → Ends (.halt vf (some (c, sl))) s 0 [] fun n =>
        HaltedAs g (grp n c sl) { code := 0x3E } ∧ (∀ i, (core n c).issue = some i → i.slot ≠ sl) ∧
          (∀ k, k ≠ gkey c sl → mget {} n.groups k = mget {} s.m.groups k) ∧ n.mem = s.m.mem) ∧
      (g.active = false → Turned (.halt vf (some (c, sl))) s 0) ∧
      (¬ may → Turned (.resume vf c sl) s 3 ∧ Turned (.stepGroup vf c sl) s 3) ∧
      (may → g.recs = [] → g.spill = none →
        (Ends (.resume vf c sl) s 0 [] fun n => OneGroup s.m n c sl (resumed g false)) ∧
        (Ends (.stepGroup vf c sl) s 0 [] fun n => OneGroup s.m n c sl (resumed g true))) ∧
      (∀ r els m2, may → g.recs = [r] → g.spill = none →
        els ≠ [] → (runningYard s.m vf).isSome = true →
        checkOp s.mgmt (setGrp s.m c sl { resumed g false with stepping := g.stepping }) c { resumed g false with stepping := g.stepping } r.op =
          (.ok els [], m2) →
        Ends (.resume vf c sl) s 0 [] fun n => (grp n c sl).status = .running ∧ (grp n c sl).recs = [] ∧
          (grp n c sl).acc = insertOp { r.op with elems := els, logged := false } g.acc ∧ (grp n c sl).x = g.x ∧ n.mem = s.m.mem)) ∧
    (Settled s vf →
      (Ends (.halt vf none) s 0 [] fun n => n.mem = s.m.mem ∧ ∀ c sl, c < 512 → (grp s.m c sl).active = true → (grp s.m c sl).vf = vf →
        HaltedAs (grp s.m c sl) (grp n c sl) { code := 0x3E }) ∧
      (Canonical s →
        (∀ k, (mget {} s.m.groups k).status = .halted → (mget {} s.m.groups k).vf = vf → (mget {} s.m.groups k).rep.cls = 3 →
          (mget {} s.m.groups k).recs = [] ∧ (mget {} s.m.groups k).spill = none) →
        Ends (.resumeVf vf) s 0 [] fun n => n.mem = s.m.mem ∧ (vfst n vf).stopped = false ∧ ∀ k,
          let g := mget {} s.m.groups k
          (g.status = .halted → g.vf = vf → g.rep.cls = 3 →
            mget {} n.groups k = resumed g g.stepping) ∧
          (¬ (g.status = .halted ∧ g.vf = vf ∧ g.rep.cls = 3) → mget {} n.groups k = g)))

/-- R326, R327, R332: REPLAY of an entry in use translates its instruction afresh: with no fault the instruction's accesses take its place
and the entry is marked as replaying; with another translation fault the entry records it. DISCARD frees the entry, makes the instruction an
in-flight record and halts its group with XLATE-HALT, its pc as it was. Either answers NO-ENTRY for an entry unused or already
replaying, DISCARD for a replaying one by the model's choice (log entry 80). -/
def Obligations.ReplayAndDiscard : Prop :=
  ∀ (s : State) (c i : Nat), coreOk c = true →
    let e := mget {} (core s.m c).log i
    let g := grp s.m c e.slot
    (e.used = false → savedEntry s.mgmt s.m c i = none → Turned (.replay c i) s 4 ∧ Turned (.discard c i) s 4) ∧
    (e.used = true → Settled s e.vf →
      (e.rpl = true → Turned (.replay c i) s 4 ∧ Turned (.discard c i) s 4) ∧
      (∀ op, e.rpl = false → g.uid = e.uid → g.acc.find? (fun o => o.id == e.op) = some op →
        (∀ els m2, checkOp s.mgmt s.m c g op = (.ok els [], m2) → els ≠ [] →
          Ends (.replay c i) s 0 [] fun n => mget {} (core n c).log i = { e with rpl := true } ∧ n.mem = s.m.mem ∧
            (grp n c e.slot).acc = insertOp { op with held := true, elems := els, logged := false } (g.acc.filter fun o => o.id != op.id) ∧
            (grp n c e.slot).x = g.x ∧ (grp n c e.slot).status = g.status) ∧
        (∀ el va level cause m2, checkOp s.mgmt s.m c g op = (.fault el va level cause, m2) →
          Ends (.replay c i) s 0 [] fun n => n.mem = s.m.mem ∧ (grp n c e.slot).acc = g.acc ∧
            mget {} (core n c).log i = { e with elem := el, faultVa := va, level := level, cause := cause, rpl := false })) ∧
      (∀ op, e.rpl = false → g.active = true → g.acc = [op] → op.id = e.op → g.recs = [] →
        Ends (.discard c i) s 0 [] fun n => n.mem = s.m.mem ∧ mget {} (core n c).log i = {} ∧
          (∀ k, k ≠ gkey c e.slot → mget {} n.groups k = mget {} s.m.groups k) ∧
          (grp n c e.slot).run.map (fun q => { q with rp := none }) = g.run.map (fun q => { q with rp := none }) ∧
          grp n c e.slot =
            { g with run := (grp n c e.slot).run, status := .halted, acc := [], recs := [{ op := { op with logged := false, held := true, prog := op.first }, prog := op.first }],
                     log := none, waitC := none, waitV := none, stepping := false,
                     linkset := g.linkset.map (fun l => { l with intact := false }),
                     rep := { cls := 2, code := 0x0E, word := e.word, clause := e.clause, addr := e.faultVa, elem := e.elem,
                              info := e.cause } }))

/-- R332: GETVP writes two doublewords for each VP to host memory, with the VP's position, idle and parked marks, mask registers and rounding
state, and changes nothing else; SETVP of a halted group sets from them the mask registers, their full bits and the rounding states, the
positions of the VPs of its run, and the program counters of VPs outside one (R47). A range beyond VLMAX, or a group that is not halted, is
denied. That SETVP needs a halted group, and positions and counters of VPs outside a run, are log entry 78, claimed registers staying
claimed and cleared bits leaving a register open 79, and that without a route to the host either waits 141: the model's choices. R95: no
rounding state of 0 arises: the model writes 1 for it (log entry 119). -/
def Obligations.VpRecords : Prop :=
  ∀ (s : State) (vf c sl first count a : Nat), Named s vf c sl →
    let g := grp s.m c sl
    let at_ := fun (m : Mach) (i j : Nat) => hostRead m (a + 16 * i + 8 * j)
    (g.vlmax < first + count → Turned (.getvp vf c sl first count a) s 5 ∧ Turned (.setvp vf c sl first count a) s 5) ∧
    (hostUp s.mgmt = false → first + count ≤ g.vlmax → ∀ i,
      i = .getvp vf c sl first count a ∨ (i = .setvp vf c sl first count a ∧ g.status = .halted) →
      Goes i s fun t => t.mgmt = { s.mgmt with status := none, result := [] } ∧ t.agenda = s.agenda ∧ t.m = { s.m with vfst := t.m.vfst } ∧
        vfst t.m vf = { vfst s.m vf with cmds := (vfst s.m vf).cmds ++ [{ port := s.mgmt.from_, cmd := i }] } ∧
        ∀ v, v ≠ vf → vfst t.m v = vfst s.m v) ∧
    (hostUp s.mgmt = true → first + count ≤ g.vlmax → a + 16 * count ≤ 2 ^ 48 →
      Ends (.getvp vf c sl first count a) s 0 [] fun n => n = { s.m with mem := n.mem } ∧
        (∀ pa, pa < hostPa a ∨ hostPa a + 16 * count ≤ pa → readByte n.mem pa = readByte s.m.mem pa) ∧
        ∀ i, i < count →
          let p := vpState g (first + i)
          (at_ n i 0).extractLsb' 59 5 = BitVec.ofNat 5 p.w ∧ (at_ n i 0).getLsbD 58 = p.idle ∧ (at_ n i 0).getLsbD 57 = p.parked.isSome ∧
            (at_ n i 0).extractLsb' 0 55 = BitVec.ofNat 55 p.pc ∧ (at_ n i 1).extractLsb' 0 32 = mget 1 g.srs (first + i) ∧
            ∀ j, j < 8 → ((at_ n i 1).getLsbD (40 + j) = decide (getFe g (.c j (first + i)) = .full)) ∧
              (at_ n i 1).getLsbD (32 + j) = getC g j (first + i)) ∧
    (g.status ≠ .halted → Turned (.setvp vf c sl first count a) s 5) ∧
    (hostUp s.mgmt = true → g.status = .halted → first + count ≤ g.vlmax →
      (∀ r, g.run = some r → ∃ e, e < r.vl ∧ ((e < first ∨ first + count ≤ e) ∧ (vpState g e).idle = false ∨
        ∃ i, i < count ∧ e = first + i ∧ (at_ s.m i 0).getLsbD 58 = false)) →
      Ends (.setvp vf c sl first count a) s 0 [] fun n => ∃ h, OneGroup s.m n c sl h ∧
        h = { g with c := h.c, cfe := h.cfe, srs := h.srs, run := h.run, vps := h.vps, pcs := h.pcs, waitV := h.waitV } ∧
        (∀ e, (e < first ∨ first + count ≤ e) → mget 1 h.srs e = mget 1 g.srs e ∧ vpState h e = vpState g e ∧
          ∀ j, getC h j e = getC g j e ∧ getFe h (.c j e) = getFe g (.c j e)) ∧
        (∀ i, i < count → mget 1 h.srs (first + i) =
            (if (at_ s.m i 1).extractLsb' 0 32 = 0 then 1 else (at_ s.m i 1).extractLsb' 0 32) ∧ ∀ j, 1 ≤ j → j < 8 →
          getC h j (first + i) = (at_ s.m i 1).getLsbD (32 + j) ∧ (getFe g (.c j (first + i)) ≠ .claimed →
            getFe h (.c j (first + i)) = if (at_ s.m i 1).getLsbD (40 + j) then .full else .opened)) ∧
        (g.run = none → h.run = none ∧ h.vps = g.vps ∧ h.waitV = g.waitV) ∧
        (∀ i, i < count → (∀ r, g.run = some r → r.vl ≤ first + i) → pcOf h (first + i) = (at_ s.m i 0).toNat % 2 ^ 55) ∧
        (∀ r, g.run = some r → ∃ q, h.run = some q ∧
          q = { r with diverged := q.diverged, pc := q.pc, w := q.w, from_ := q.from_ } ∧
          ∀ i, i < count → first + i < r.vl →
            let p := vpState h (first + i)
            let w := at_ s.m i 0
            p.idle = w.getLsbD 58 ∧ p.pc = w.toNat % 2 ^ 55 ∧ p.w = max 1 (w.toNat / 2 ^ 59) ∧ p.parked.isSome = w.getLsbD 57))

/-- R332: WRCTX writes PC, VSTART, FMODE and FFLAGS, the predicates, the full bits of x registers or TSAVE of a halted group; any other offset, or
a group that is not halted, is denied. CLEARREC leaves no engine fault record of the virtual function on the core, and the other records as
they are. R185: CLOSECHAIN of a chain with nothing open and nothing on its way removes it and raises the generation; an id that is not current, or
of a closing chain, is denied. Claimed registers staying claimed, cleared bits leaving registers open, a PC word of 0 taken as 1, DRM codes 6
and 7 leaving the mode, and VSTART at most 1024 are the model's choices (log entry 79). -/
def Obligations.ContextWrites : Prop :=
  ∀ (s : State) (vf : Nat),
    (∀ c sl off (x : Word), Named s vf c sl →
      let g := grp s.m c sl
      (g.status ≠ .halted ∨ off ∉ [0x20, 0x28, 0x30, 0x38, 0x40, 0x48, 0x68] → Turned (.wrctx vf c sl off x) s 5) ∧
      (g.status = .halted →
        (off = 0x20 → Ends (.wrctx vf c sl off x) s 0 [] fun n => OneGroup s.m n c sl
          { g with pc := x.toNat % 2 ^ 55, pcword := max 1 (x.toNat / 2 ^ 59), held := none, begunC := false, waitC := none,
                   scan := g.scan.filter fun q => q.clause == x.toNat % 2 ^ 55 && q.word == x.toNat / 2 ^ 59 }) ∧
        (off = 0x28 → Ends (.wrctx vf c sl off x) s 0 [] fun n =>
          OneGroup s.m n c sl { g with vstart := min 1024 (x.toNat / 2 ^ 16 % 2 ^ 11), vkept := none,
                                       scan := g.scan.filter fun q => q.prog == x.toNat / 2 ^ 16 % 2 ^ 11 }) ∧
        (off = 0x30 → Ends (.wrctx vf c sl off x) s 0 [] fun n =>
          let mode : BitVec 3 := x.extractLsb' 8 3
          OneGroup s.m n c sl { g with fflags := x.extractLsb' 0 5, ftz := x.getLsbD 12, drm := if 6 ≤ mode.toNat then g.drm else mode }) ∧
        (off = 0x38 → Ends (.wrctx vf c sl off x) s 0 [] fun n => ∃ h, OneGroup s.m n c sl h ∧
          h = { g with p := h.p, pfe := h.pfe } ∧ ∀ j, 1 ≤ j → j < 8 → getP h j = x.getLsbD j ∧
            (getFe g (.p j) ≠ .claimed → getFe h (.p j) = if x.getLsbD (8 + j) then .full else .opened)) ∧
        (∀ hi, off = 0x40 ∧ hi = 0 ∨ off = 0x48 ∧ hi = 64 → Ends (.wrctx vf c sl off x) s 0 [] fun n => ∃ h, OneGroup s.m n c sl h ∧
          h = { g with xfe := h.xfe } ∧ ∀ j, j < 64 → hi + j ≠ 0 → getFe g (.x (hi + j)) ≠ .claimed →
            getFe h (.x (hi + j)) = if x.getLsbD j then .full else .opened) ∧
        (off = 0x68 → Ends (.wrctx vf c sl off x) s 0 [] fun n =>
          OneGroup s.m n c sl { g with tsave := x.toNat % 2 ^ 55 / 4096 * 4096 }))) ∧
    (∀ c, coreOk c = true → Settled s vf →
      Ends (.clearrec c vf) s 0 [] fun n =>
        n = { s.m with cores := n.cores } ∧ (∀ d, d ≠ c → core n d = core s.m d) ∧ core n c = { core s.m c with eng := (core n c).eng } ∧
        ∀ i, let e := mget {} (core s.m c).eng i
          let h := mget {} (core n c).eng i
          ¬ (h.used = true ∧ h.vf = vf) ∧ (¬ (e.used = true ∧ e.vf = vf) → h = e)) ∧
    (∀ id : Word, Settled s vf →
      let n := idChain id
      let q := chainOf (vfst s.m vf) n
      (idCurrent (vfst s.m vf) id = false ∨ q.closing = true → Turned (.closechain vf id) s 5) ∧
      (idCurrent (vfst s.m vf) id = true → q.closing = false → (∀ sd ∈ (vfst s.m vf).sends, sd.chain ≠ n) →
        (∀ p ∈ q.members, p.open_ = none) →
        Ends (.closechain vf id) s 0 [] fun u => chainOf (vfst u vf) n = { gen := (q.gen + 1) % 65536 } ∧
          (∀ j, j ≠ n → chainOf (vfst u vf) j = chainOf (vfst s.m vf) j) ∧ u.mem = s.m.mem ∧ u.groups = s.m.groups))

/-- R331: after RESETVF the virtual function has no group, no saved context, no tile, no log entry, no engine fault record and no command on
its yard's cores, no chain, no send, no record to launch, no overflow item and no command that waits, and its counters read zero; its context
area reads zero, and where it had no access in flight and no other context's values stand in its tiles, no other byte outside the accumulator
tiles has changed. With EN clear it is denied (log entry 118), and of an absent virtual function it acts at once (log entry 76): the model's
choices. -/
def Sys2Proof.Machine.VirtualFunctionReset : Prop :=
  ∀ (s : State) (vf : Nat), vfOk vf = true →
    ((vfEnt s.mgmt vf).en = false → Turned (.resetvf vf) s 5) ∧ ((vfEnt s.mgmt vf).en = true → Goes (.resetvf vf) s fun t =>
      let n := t.m
      t.agenda = s.agenda ∧ t.mgmt.status = some 0 ∧ t.mgmt.result = [] ∧
      ((vfst s.m vf).cmds = [] → t.mgmt = { s.mgmt with status := some 0, result := [] }) ∧ (vfst n vf).cmds = [] ∧
      (∀ a ∈ n.sysOut, a.vf ≠ vf) ∧ (∀ c sl, c < 512 → ¬ ((grp n c sl).status ≠ .free ∧ (grp n c sl).vf = vf)) ∧ mget {} n.saved vf = {} ∧
      (∀ c t, t < 8 → ∀ h, (tileOwnOf n c t).owner = some h → h.vf ≠ vf) ∧
      (∀ yn c, (vfst s.m vf).home = some yn → c ∈ storeCores (yardEnt s.mgmt yn) →
        (∀ j ∈ (core n c).jobs, j.vf ≠ vf) ∧ ∀ i, ¬ ((mget {} (core n c).log i).used = true ∧ (mget {} (core n c).log i).vf = vf) ∧
          ¬ ((mget {} (core n c).eng i).used = true ∧ (mget {} (core n c).eng i).vf = vf)) ∧
      (∀ i, chainOf (vfst n vf) i = {}) ∧ (vfst n vf).sends = [] ∧ (vfst n vf).launched = [] ∧ (vfst n vf).overflow = [] ∧
      (∀ i, mget 0 (vfst n vf).cnt i = 0) ∧
      ((∀ k, (mget {} s.m.groups k).vf = vf → (mget {} s.m.groups k).acc = []) → Canonical s →
        (∀ c t, (tileOwnOf s.m c t).owner.any (·.vf == vf) = true → (tileOwnOf s.m c t).holder.any (·.vf != vf) = false) →
        let area := fun (a : Nat) => ∃ yn, shapeYard s.mgmt s.m vf = some yn ∧ (vfEnt s.mgmt vf).ctx ≤ a ∧
          a < (vfEnt s.mgmt vf).ctx + contextSize (yardEnt s.mgmt yn)
        (∀ a, area a → readByte n.mem a = 0) ∧
        ∀ a, ¬ area a → (∀ c t, t < 8 → ¬ (tileAddr c t ≤ a ∧ a < tileAddr c t + 4096)) → readByte n.mem a = readByte s.m.mem a))

/-- R332: a command on a virtual function whose context is in its context area is kept there, with no status yet, and changes nothing
else; one whose virtual function's yard drains answers BUSY; with EN clear every one is denied (log entry 118). Which commands are kept so is
the model's reading (log entry 77). -/
def Sys2Proof.Machine.CommandsAtEdges : Prop :=
  ∀ (s : State) (vf c sl : Nat) (i : Instr), vfOk vf = true → groupOk c sl = true →
    (i = .halt vf none ∨ i = .halt vf (some (c, sl)) ∨ i = .resume vf c sl ∨ i = .resumeVf vf ∨ i = .stepGroup vf c sl ∨
      (∃ first count a, i = .getvp vf c sl first count a ∨ i = .setvp vf c sl first count a) ∨ (∃ off x, i = .wrctx vf c sl off x) ∨
      i = .clearrec c vf ∨ ∃ id, i = .closechain vf id) →
    ((vfEnt s.mgmt vf).en = false → Turned i s 5) ∧
    ((vfEnt s.mgmt vf).en = true → (vfst s.m vf).home = none → Goes i s fun t => t.agenda = s.agenda ∧ t.mgmt = { s.mgmt with status := none, result := [] } ∧
      (∃ d : Deferred, d.port = s.mgmt.from_ ∧ vfst t.m vf = { vfst s.m vf with cmds := (vfst s.m vf).cmds ++ [d] }) ∧
      (∀ v, v ≠ vf → vfst t.m v = vfst s.m v) ∧ t.m = { s.m with vfst := t.m.vfst }) ∧
    (∀ yn v e, (vfEnt s.mgmt vf).en = true → (vfst s.m vf).home = some yn → (yrun s.m yn).phase = .draining v e → Turned i s 6)

/-- R331, R332: RESETVF, and commands that meet an absent virtual function or a slot edge. -/
def Obligations.ResetsAndEdgesOfCommands : Prop := VirtualFunctionReset ∧ CommandsAtEdges


/-! ## The management ports and the Farrier (R294 to R303, R308, R311, R333 to R335, R340 to R351) -/

namespace Sys2Proof.Machine

/-- Only the Farrier's tables change, to mg. -/
def MgmtOnly (i : Instr) (s : State) (mg : Mgmt) : Prop := exec i s = .next { s with mgmt := mg }

end Sys2Proof.Machine

/-- R344: a port acquires a free semaphore with an epoch one higher and 1.000 s to run, keeps one it holds, and gets nothing while another port
holds it; a release by the holder frees it, and a semaphore whose time has run out is free, with or without its timeout. Of writes in the
same cycle the mailbox's comes first. R342: a doorbell write submits the port's request, last in the queue but for one of the
mailbox's in the cycle of the sideband's, unless the port's command runs. R341, R342: a write to a port's request buffer is what the request reads
there. R349, R350: a mailbox that does not answer takes none of these. -/
def Sys2Proof.Machine.SemaphoreAndDoorbells : Prop :=
  ∀ (s : State) (p : Nat), portOk p = true →
    let mg := s.mgmt
    let now := s.m.now
    let free : Bool := decide (mg.holder = 0) || decide (mg.semDue ≤ now)
    let none_ := if mg.holder ≠ 0 ∧ mg.semDue ≤ now then { mg with holder := 0 } else mg
    let write := fun (acquire : Bool) => if acquire then Instr.cfgsemAcquire p else .cfgsemRelease p
    let was := fun (acquire : Bool) => ({ at_ := now, acquire := acquire, holder := mg.holder, epoch := mg.epoch, due := mg.semDue } : SemWrite)
    let alone := p = 1 → ∀ w, mg.semSide = some w → w.at_ ≠ now
    let takes := fun (acquire : Bool) (r : Mgmt) =>
      MgmtOnly (write acquire) s { r with semSide := if p = 2 then some (was acquire) else mg.semSide }
    (portUp mg p = false → exec (.cfgsemAcquire p) s = .next s ∧ exec (.cfgsemRelease p) s = .next s ∧ exec (.doorbell p) s = .next s ∧
      ∀ i v, i < 32 → exec (.registerWrite (4096 * (p - 1) + 8 * i) v) s = .next s) ∧
    (portUp mg p = true → alone →
      (free = true → takes true { none_ with holder := p, epoch := (mg.epoch + 1) % 65536, semDue := now + 1400000000 } ∧ takes false none_) ∧
      (free = false → mg.holder = p → takes true { mg with semDue := now + 1400000000 } ∧ takes false { mg with holder := 0 }) ∧
      (free = false → mg.holder ≠ p → takes true mg ∧ takes false mg)) ∧
    (∀ w acquire, portUp mg p = true → p = 1 → mg.semSide = some w → w.at_ = now →
      MgmtOnly (write acquire) s
        (semWrite 2 w.acquire now (semWrite 1 acquire now { mg with holder := w.holder, epoch := w.epoch, semDue := w.due }))) ∧
    (mg.holder ≠ 0 → mg.semDue ≤ now → MgmtOnly .cfgsemTimeout s { mg with holder := 0 }) ∧
    (now < mg.semDue → exec .cfgsemTimeout s = .next s) ∧
    ((portOf mg p).busy = true → exec (.doorbell p) s = .next s) ∧
    ((portOf mg p).busy = false → portUp mg p = true → Goes (.doorbell p) s fun t => t.m = s.m ∧
      t.mgmt.queue = (if p = 1 ∧ mg.queue = [2] ∧ (portOf mg 2).rang = now then [1, 2] else mg.queue ++ [p]) ∧
      portOf t.mgmt p = { portOf mg p with busy := true, rang := now } ∧ (∀ q, q ≠ p → portOf t.mgmt q = portOf mg q) ∧
      t.mgmt = { mg with ports := t.mgmt.ports, queue := t.mgmt.queue }) ∧
    (∀ i v, i < 32 → portUp mg p = true → Goes (.registerWrite (4096 * (p - 1) + 8 * i) v) s fun t => t.m = s.m ∧
      (portOf t.mgmt p).req[i]? = some v ∧
      (∀ j, j < 32 → j ≠ i → ((portOf t.mgmt p).req[j]?).getD 0 = ((portOf mg p).req[j]?).getD 0) ∧
      (∀ q, q ≠ p → portOf t.mgmt q = portOf mg q) ∧ t.mgmt = { mg with ports := t.mgmt.ports })

/-- R342 to R344: when the Farrier takes the oldest request, one with an opcode from 0x30 on is answered NOT-HOLDER if its port does not hold
the semaphore and STALE-EPOCH if its epoch is not the current one; an undefined opcode or a set reserved bit is answered UNKNOWN. The answer
carries the status, the request's tag and opcode and no results, the doorbell reads 0 and the port's interrupt is raised; nothing else
changes. A request of the sideband waits for the end of the cycle in which it was submitted (R342). R349: in recovery only FWSTAGE and RESET are
taken; the others are answered REFUSED, which is the model's choice of status (log entry 74), as UNKNOWN is for a LEN above 31 (log entry 135). -/
def Sys2Proof.Machine.RequestsAnswered : Prop :=
  ∀ (s : State) (r : List Turn) (p : Nat) (q : List Nat), s.agenda = .farrier :: r → s.mgmt.queue = p :: q → s.mgmt.up = true →
    s.mgmt.cur = none → justRang s p = false →
    let h := ((portOf s.mgmt p).req[0]?).getD 0
    let op := h.toNat % 256
    let len := h.toNat / 256 % 256
    let legal := h.toNat / 2 ^ 48 = 0 ∧ h.toNat / 2 ^ 24 % 256 = 0 ∧ len ≤ 31
    let head := fun (st : Nat) => BitVec.ofNat 64 (st * 2 ^ 56 + h.toNat / 2 ^ 16 % 256 * 2 ^ 16 + op)
    let answered := fun (st : Nat) =>
      ∃ t, step s = .next t ∧ t.m = s.m ∧ t.agenda = r ∧ t.mgmt.queue = q ∧
        portOf t.mgmt p = { portOf s.mgmt p with busy := false, resp := [head st] } ∧
        (∀ j, j ≠ p → portOf t.mgmt j = portOf s.mgmt j) ∧ t.mgmt.msix = s.mgmt.msix ++ [if p = 1 then 0 else 64] ∧
        t.mgmt.yards = s.mgmt.yards ∧ t.mgmt.vfs = s.mgmt.vfs ∧ t.mgmt.rows = s.mgmt.rows
    let known := ¬ (op = 0 ∨ (0x0E ≤ op ∧ op < 0x20) ∨ (0x23 ≤ op ∧ op < 0x30) ∨ 0x3B ≤ op)
    let holder := (expire s.m.now s.mgmt).holder
    let open_ := s.mgmt.recovery = false ∨ op = 0x37 ∨ op = 0x38
    (¬ legal ∨ ¬ known → answered 0x0A) ∧
    (legal → known → ¬ open_ → answered 0x09) ∧
    (legal → open_ → 0x30 ≤ op → op ≤ 0x3A → holder ≠ p → answered 0x07) ∧
    (legal → open_ → 0x30 ≤ op → op ≤ 0x3A → holder = p → h.toNat / 2 ^ 32 % 65536 ≠ s.mgmt.epoch → answered 0x08)

/-- R294, R295: YARDSET of one entry installs it, field by field, when the table with it is well formed and the yard's entry stays or the yard
runs nothing; otherwise it is refused and the table unchanged. R298: SEEDSET waits while the virtual function is on its cores; then it
sets the seed, and no line of it is left in L2. The argument layouts are the model's (log entry 73). -/
def Obligations.YardsAndSeeds : Prop :=
  ∀ (s : State),
    (∀ i a b c d : Word, s.mgmt.args = [i, a, b, c, d] → i.toNat < 32 →
      let y : Yard :=
        { v := a.getLsbD 63, lane := a.getLsbD 62, core := a.toNat / 2 ^ 32 % 512, b := a.toNat / 256 % 16, l := a.toNat % 32,
          cl := b.toNat + c.toNat % 2 ^ 32 * 2 ^ 64, wlog := d.toNat / 2 ^ 16 % 16, wbase := d.toNat % 1024 }
      let t := mset {} s.mgmt.yards i.toNat y
      let idle := y = yardEnt s.mgmt i.toNat ∨ (yrun s.m i.toNat).phase = .idle
      (yardTableOk s.mgmt t = true → idle → Goes .yardset s fun u => u.m = s.m ∧ yardEnt u.mgmt i.toNat = y ∧
        (∀ j, j ≠ i.toNat → yardEnt u.mgmt j = yardEnt s.mgmt j) ∧ u.mgmt = { s.mgmt with yards := t, status := some 0, result := [] }) ∧
      (yardTableOk s.mgmt t = false ∨ ¬ idle → Turned .yardset s 9)) ∧
    (∀ vf seed : Word, s.mgmt.args = [vf, seed] → vf.toNat < 512 →
      ((vfst s.m vf.toNat).home ≠ none → MgmtOnly .seedset s { s.mgmt with status := none }) ∧
      ((vfst s.m vf.toNat).home = none → Goes .seedset s fun u =>
        vfEnt u.mgmt vf.toNat = { vfEnt s.mgmt vf.toNat with seed := seed.toNat % 2 ^ 45 } ∧ u.mgmt.status = some 0 ∧
        (∀ v, v ≠ vf.toNat → vfEnt u.mgmt v = vfEnt s.mgmt v) ∧ (∀ l, l ∈ u.m.l2 ↔ l ∈ s.m.l2 ∧ l.vf ≠ vf.toNat) ∧
        u.m.mem = s.m.mem ∧ u.m.groups = s.m.groups))

/-- R299, R308, R311: VFSET of one entry whose segment overlaps no other sets EN, PRIVOK, LINKOK and CTX and leaves the seed. For a virtual
function that is not on its cores a segment change acts at once: what leaves the segment reads zero, every other byte of memory stays; for one
that is on its cores it waits. Clearing EN of a running virtual function begins the drain for an edge to idle GUARD from now, and VFSET without
arguments clears every EN. A segment that another virtual function has, or beyond 1,536 granules, is refused. The argument layout (log
entry 73) and the status REFUSED (75) are the model's choices, and so, no granule being shared, is the refusal for another entry with SIZEG 0
whose BASEG lies strictly inside the new segment. -/
def Obligations.VirtualFunctionTable : Prop :=
  ∀ (s : State),
    (∀ vf w0 w1 w2 w3 : Word, s.mgmt.args = [vf, w0, w1, w2, w3] → vf.toNat < 512 →
      let v := vf.toNat
      let size := w1.toNat / 2 ^ 16 % 2 ^ 11
      let base := w1.toNat % 2 ^ 11
      let old := vfEnt s.mgmt v
      let new := { old with en := w0.getLsbD 63, privok := w0.getLsbD 62, linkok := w0.getLsbD 61, ctx := w3.toNat / 4096 % 2 ^ 40 * 4096 }
      let ends := fun (u : State) => u.mgmt.status = some 0 ∧ ∀ x, x ≠ v → vfEnt u.mgmt x = vfEnt s.mgmt x
      let quiet := ∀ yn x, (yrun s.m yn).phase = .running x → x ≠ v ∧ (vfEnt s.mgmt x).en = true
      (1536 < base + size → Turned .vfset s 9) ∧
      (∀ x, x ≠ v → base < (vfEnt s.mgmt x).baseg + (vfEnt s.mgmt x).sizeg → (vfEnt s.mgmt x).baseg < base + size → Turned .vfset s 9) ∧
      (base + size ≤ 1536 → segTaken s.mgmt v size base = false → s.mgmt.pendSeg = [] →
        (quiet → old.sizeg = size → old.baseg = base → Goes .vfset s fun u => ends u ∧ vfEnt u.mgmt v = new ∧ u.m = s.m) ∧
        (quiet → (vfst s.m v).home = none → (old.sizeg ≠ size ∨ old.baseg ≠ base) → Goes .vfset s fun u => ends u ∧
          vfEnt u.mgmt v = { new with sizeg := size, baseg := base } ∧ u.m.groups = s.m.groups ∧ ∀ a,
            let out := old.baseg * 2 ^ 29 ≤ a ∧ a < (old.baseg + old.sizeg) * 2 ^ 29 ∧
              ¬ (base * 2 ^ 29 ≤ a ∧ a < (base + size) * 2 ^ 29)
            (out → readByte u.m.mem a = 0) ∧ (¬ out → readByte u.m.mem a = readByte s.m.mem a)) ∧
        (quiet → (vfst s.m v).home ≠ none → (old.sizeg ≠ size ∨ old.baseg ≠ base) → Goes .vfset s fun u => ends u ∧
          vfEnt u.mgmt v = new ∧ mget none u.mgmt.pendSeg v = some (size, base) ∧ u.m = s.m) ∧
        (∀ yn, yn < 32 → (yrun s.m yn).phase = .running v → w0.getLsbD 63 = false → old.sizeg = size → old.baseg = base →
          Goes .vfset s fun u => ends u ∧ vfEnt u.mgmt v = new ∧ (yrun u.m yn).phase = .draining v (s.m.now + s.mgmt.guard * 1400) ∧
            (yrun u.m yn).early = some none))) ∧
    (s.mgmt.args = [] → Goes .vfset s fun u => u.mgmt.status = some 0 ∧ (∀ x, vfEnt u.mgmt x = { vfEnt s.mgmt x with en := false }) ∧
      ∀ yn v, yn < 32 → (yrun s.m yn).phase = .running v → (yrun u.m yn).phase = .draining v (s.m.now + s.mgmt.guard * 1400))

/-- R301, R302: SLOTSET of a row that R302, R303 and R348 allow sets it, at once while ENABLE is clear and at the next row boundary while it is
set; a row they do not allow, or one that leaves a row shorter than its changes of hands take, is refused. R301: SLOTCTL with GUARD from 5 to 1,000 sets ENABLE, NROWS and GUARD: while ENABLE is set it
waits for the boundary, with ENABLE clear it acts at once, and setting ENABLE then starts the first row in use, whose virtual functions are on
their way into the idle yards. The argument layouts (log entry 73), NROWS 0 as 64 and the effect at once (68), and the checks against the
table as it will stand (70) are the model's choices. -/
def Obligations.SlotTable : Prop :=
  ∀ (s : State),
    (∀ (i w : Word) (es : List Word), s.mgmt.args = i :: w :: es →
      let r := i.toNat % 256
      let y0 := i.toNat / 256
      let next := nextTable s.mgmt
      let ents := es.zipIdx.map fun p => (y0 + p.2, slotOf p.1.toNat)
      let row : Row := { rv := w.getLsbD 63, len := w.toNat % 2 ^ 17, ents := msetAll {} (mget {} next.rows r).ents ents }
      let ok := r < 64 ∧ y0 + es.length ≤ 32 ∧ rowOk s.mgmt (mset {} next.rows r row) r = true ∧
        lensOk s.mgmt next.guard next.nrows (mset {} next.rows r row) = true
      (¬ ok → Turned .slotset s 9) ∧
      (ok → s.mgmt.enable = false → Goes .slotset s fun u => u.m = s.m ∧ u.mgmt.status = some 0 ∧ mget {} u.mgmt.rows r = row ∧
        (∀ j, j ≠ r → mget {} u.mgmt.rows j = mget {} s.mgmt.rows j) ∧
        u.mgmt = { s.mgmt with rows := u.mgmt.rows, status := some 0, result := [] }) ∧
      (ok → s.mgmt.enable = true → Goes .slotset s fun u => u.m = s.m ∧ mget none u.mgmt.pendRows r = some row ∧
        u.mgmt = { s.mgmt with pendRows := u.mgmt.pendRows, status := some 0, result := [] })) ∧
    (∀ a b : Word, s.mgmt.args = [a, b] →
      let n := if a.toNat % 64 = 0 then 64 else a.toNat % 64
      let g := b.toNat % 1024
      let used := (nextTable s.mgmt).rows.filter fun kv => kv.1 < n
      let fits := ∀ kv ∈ used, kv.2.rv = true → rowLenOk s.mgmt g used kv.1 = true
      (g < 5 ∨ 1000 < g ∨ ¬ fits → Turned .slotctl s 9) ∧
      (5 ≤ g → g ≤ 1000 → fits →
        (s.mgmt.enable = true → Goes .slotctl s fun u => u.m = s.m ∧ u.mgmt =
          { s.mgmt with pendCtl := some (a.getLsbD 63, n, g), status := some 0, result := [] }) ∧
        (s.mgmt.enable = false → a.getLsbD 63 = false → Goes .slotctl s fun u => u.m = s.m ∧ u.mgmt.status = some 0 ∧
          u.mgmt.enable = false ∧ u.mgmt.nrows = n ∧ u.mgmt.guard = g) ∧
        (∀ r, s.mgmt.enable = false → s.mgmt.pendRows = [] → a.getLsbD 63 = true →
          ((List.range n).find? fun j => (mget {} s.mgmt.rows j).rv) = some r → Goes .slotctl s fun u => u.mgmt.status = some 0 ∧
            u.mgmt.enable = true ∧ u.mgmt.nrows = n ∧ u.mgmt.guard = g ∧ u.mgmt.row = r ∧ u.m.rowStart = s.m.now ∧
            ∀ yn, yn < 32 → (yrun s.m yn).phase = .idle → (yrun s.m yn).gift = none → (yardEnt s.mgmt yn).v = true →
              let e := mget {} (mget {} s.mgmt.rows r).ents yn
              (e.run = true → (vfEnt s.mgmt e.vf).en = true →
                (yrun u.m yn).phase = .switching (some e.vf) (s.m.now + (if (yardEnt s.mgmt yn).lane then 8 else 40) * 1400)) ∧
              (e.run = false → (yrun u.m yn).phase = .idle))))

/-- R346, R347: RETIRE of a core, a lane or a bank outside a yard in use retires it, a core in use waits for its yard's edge, and a link is
retired at once; the alert rises with its two interrupts. A unit that the device does not have is refused. R347: CLEARALERT lowers the
alert. RETIRE's arguments (log entry 73), the wait for an edge of each yard (82), the sideband's interrupts (87) and commands that a new route
lets go on (141) are the model's choices. -/
def Sys2Proof.Machine.Retirement : Prop :=
  ∀ (s : State),
    (∀ a b : Word, s.mgmt.args = [a, b] →
      let k := a.toNat
      let n := b.toNat
      let mg := s.mgmt
      let alerted := fun (u : State) => u.mgmt.alert = true ∧ u.mgmt.replace = true ∧ u.mgmt.msix = mg.msix ++ [1, 65] ∧ u.mgmt.status = some 0
      (unitExists k n = false → Turned .retire s 9) ∧
      (k = 1 → n < 384 → coreInUse mg s.m n = false → Goes .retire s fun u => alerted u ∧ u.m = s.m ∧
        (∀ c, c ∈ u.mgmt.retCores ↔ c ∈ mg.retCores ∨ c = n) ∧ u.mgmt.retLanes = mg.retLanes) ∧
      (k = 1 → n < 384 → coreInUse mg s.m n = true → Goes .retire s fun u => alerted u ∧ u.m = s.m ∧ u.mgmt.retCores = mg.retCores ∧
        u.mgmt.pendCores = mg.pendCores ++ [n]) ∧
      (k = 0 → n < 6144 → coreInUse mg s.m (n / 16) = false → Goes .retire s fun u => alerted u ∧ u.m = s.m ∧
        (∀ l, l ∈ u.mgmt.retLanes ↔ l ∈ mg.retLanes ∨ l = n) ∧
        ((∀ l ∈ mg.retLanes, l / 16 = n / 16 → (8 ≤ l % 16 ↔ 8 ≤ n % 16)) → u.mgmt.retCores = mg.retCores) ∧
        ((∃ l ∈ mg.retLanes, l / 16 = n / 16 ∧ ¬ (8 ≤ l % 16 ↔ 8 ≤ n % 16)) → n / 16 ∈ u.mgmt.retCores)) ∧
      (k = 2 → n < 248 → Goes .retire s fun u => alerted u ∧ (∀ j, j ∈ u.mgmt.retBanks ↔ j ∈ mg.retBanks ∨ j = n) ∧
        ∀ l, l ∈ u.m.l2 ↔ l ∈ s.m.l2 ∧ l.shed * 31 + l.bank ≠ n) ∧
      (k = 3 → n < 18 → s.m.sysOut = [] → Goes .retire s fun u => alerted u ∧ u.m.mem = s.m.mem ∧ u.m.groups = s.m.groups ∧
        ((∀ kv ∈ s.m.vfst, kv.2.cmds = []) → u.m = s.m) ∧ (linkOf u.mgmt n).st = 2 ∧
        ∀ j, j ≠ n → linkOf u.mgmt j = linkOf mg j)) ∧
    MgmtOnly .clearalert s { s.mgmt with alert := false, status := some 0, result := [] }

/-- R333 to R335: a single-bit error counts in event 0x0E of the data's owner and in the unit's total, and changes no data; the thousand and
first of a unit in an hour retires it (R346). An uncorrectable error in a clean copy of L1 or L2 is recovered and counts as a corrected one. Any
other marks its doubleword, counts in the unit's total and retires the unit in whose storage it lies; with an owner it halts the group whose
access met it with UNCORRECTABLE, the physical address and the unit, and every other group of the owner, in the context area too, with code
0x3F, 0x30 as INFO; an error that no access met is reported with its address by all of them. With no owner no group is touched. A word of a
register file is a lane register, which fails with it (log entry 84); the unit an error counts against is the model's reading (85). -/
def Sys2Proof.Machine.MemoryErrors : Prop :=
  ∀ (s : State) (u pa : Nat), 1 ≤ u → u ≤ 7 →
    let owner := dataOwner s.mgmt s.m u pa
    let unit := failingUnit s.mgmt s.m u pa
    let clean := u = 3 ∨ (u = 2 ∧ mget false s.m.dirty (pa / 128) = false)
    let noted := fun (k n : Nat) => ((mget [] s.mgmt.recent (8192 * k + n)).filter fun t => s.m.now < t + 5040000000000).length
    let retired := fun (mg : Mgmt) (k n : Nat) => mg.alert = true ∧ mg.replace = true ∧
      (k = 0 → n ∈ mg.retLanes ∨ n ∈ mg.pendLanes) ∧ (k = 1 → n ∈ mg.retCores ∨ n ∈ mg.pendCores) ∧ (k = 2 → n ∈ mg.retBanks)
    (∀ vf, let of := if u = 2 ∨ u = 3 then vf.orElse fun _ => owner else owner
      Goes (.singleBitError u pa vf) s fun t => t.m.mem = s.m.mem ∧ t.m.groups = s.m.groups ∧
        mget 0 t.mgmt.corr u = mget 0 s.mgmt.corr u + 1 ∧ (∀ j, j ≠ u → mget 0 t.mgmt.corr j = mget 0 s.mgmt.corr j) ∧
        (∀ v i, of = some v → Canonical s → mget 0 (vfst s.m v).cntsel i = 0x0E → i < 16 →
          mget 0 (vfst t.m v).cnt i = mget 0 (vfst s.m v).cnt i + 1) ∧ (of = none → t.m = { s.m with l2 := t.m.l2 }) ∧
        ((unit = none ∨ ∃ k n, unit = some (k, n) ∧ noted k n < 1000) → t.m.l2 = s.m.l2 ∧ t.mgmt.alert = s.mgmt.alert ∧
          t.mgmt.retLanes = s.mgmt.retLanes ∧ t.mgmt.retCores = s.mgmt.retCores ∧ t.mgmt.retBanks = s.mgmt.retBanks) ∧
        (∀ k n, unit = some (k, n) → 1000 ≤ noted k n → retired t.mgmt k n)) ∧
    (clean → ∀ at_, exec (.uncorrectable u pa at_) s = exec (.singleBitError u pa none) s) ∧
    (¬ clean → ∀ at_, Goes (.uncorrectable u pa at_) s fun t => t.m.mem = s.m.mem ∧ mget 0 t.m.bad (pa / 8) = u ∧
      (∀ d, d ≠ pa / 8 → mget 0 t.m.bad d = mget 0 s.m.bad d) ∧ mget 0 t.mgmt.uncorr u = mget 0 s.mgmt.uncorr u + 1 ∧
      (owner = none → t.m = { s.m with bad := t.m.bad, l2 := t.m.l2 }) ∧ ∀ k n, unit = some (k, n) → retired t.mgmt k n) ∧
    (∀ v, ¬ clean → owner = some v → Canonical s →
      let away := fun (t : State) (a : Nat) => (vfst t.m v).stopped = true ∧ (mget {} t.m.saved v).groups =
        (mget {} s.m.saved v).groups.map fun kg => (kg.1, haltSaved { cls := 3, code := 0x3F, addr := a, info := 0x30 } kg.2)
      let m := if u = 5 then failRegs s.m (pa / 8) else s.m
      (∀ c sl, c < 512 → (grp s.m c sl).vf = v → (grp s.m c sl).active = true →
        (Goes (.uncorrectable u pa (some (c, sl))) s fun t => away t 0 ∧
          HaltedAs (grp m c sl) (grp t.m c sl) { meetingReport s.m c sl pa with cls := 3, code := 0x30, addr := pa, info := u } ∧
          ∀ d r, d < 512 → gkey d r ≠ gkey c sl → (grp s.m d r).vf = v → (grp s.m d r).active = true →
            HaltedAs (grp m d r) (grp t.m d r) { cls := 3, code := 0x3F, info := 0x30 }) ∧
        (Goes (.uncorrectable u pa none) s fun t => away t pa ∧
          HaltedAs (grp m c sl) (grp t.m c sl) { cls := 3, code := 0x3F, addr := pa, info := 0x30 })))

/-- R333 to R335, R346, R347: units are retired, and memory errors are reported. -/
def Obligations.RetirementAndErrors : Prop := Retirement ∧ MemoryErrors


/-- R341, R346: a flit that fails its check is counted; a link goes down, counts failed retrainings, comes up again when retrained, and is retired
with an alert at the retraining after two failed ones. R340: commands that waited for a route to the host on virtual functions that run are
the next turns once there is one (log entry 141). -/
def Sys2Proof.Machine.Links : Prop :=
  ∀ (s : State) (l : Nat), linkOk l = true →
    let q := linkOf s.mgmt l
    let becomes := fun (i : Instr) (h : LinkSt) =>
      Goes i s fun t => t.m = s.m ∧ linkOf t.mgmt l = h ∧ (∀ j, j ≠ l → linkOf t.mgmt j = linkOf s.mgmt j) ∧
        t.mgmt = { s.mgmt with links := t.mgmt.links }
    let parked := s.m.vfst.filter fun kv => decide (kv.2.cmds ≠ []) && (runningYard s.m kv.1).isSome
    let retrained := fun (ok : Bool) (h : LinkSt) =>
      Goes (.linkRetrained l ok) s fun t => linkOf t.mgmt l = h ∧ (∀ j, j ≠ l → linkOf t.mgmt j = linkOf s.mgmt j) ∧
        t.mgmt = { s.mgmt with links := t.mgmt.links } ∧
        if hostUp t.mgmt = true ∧ parked ≠ [] then
          t.agenda = parked.flatMap (fun kv => kv.2.cmds.map Turn.driver) ++ s.agenda ∧ t.m = { s.m with vfst := t.m.vfst } ∧
            ∀ kv ∈ t.m.vfst, (runningYard s.m kv.1).isSome = true → kv.2.cmds = []
        else t.agenda = s.agenda ∧ t.m = s.m
    becomes (.flitCrcError l) { q with crc := q.crc + 1 } ∧
    (q.st = 0 → becomes (.linkDown l) { q with st := 1, fails := 0 }) ∧ (q.st ≠ 0 → becomes (.linkDown l) q) ∧
    (q.st = 1 → retrained true { q with st := 0, fails := 0 }) ∧
    (q.st = 1 → retrained false { q with fails := if q.fails < 2 then q.fails + 1 else q.fails }) ∧
    (q.st ≠ 1 → ∀ ok, retrained ok q) ∧
    (q.st = 1 → q.fails = 2 → s.m.sysOut = [] → Goes (.linkRetrainFailure l) s fun t => (parked = [] → t.m = s.m) ∧ t.m.mem = s.m.mem ∧ t.m.groups = s.m.groups ∧
      linkOf t.mgmt l = { q with st := 2 } ∧ t.mgmt.alert = true ∧ t.mgmt.replace = true) ∧
    (¬ (q.st = 1 ∧ q.fails = 2) → exec (.linkRetrainFailure l) s = .next s)

/-- R341 to R344, R346: the management ports, the requests that the Farrier answers itself, and the links. -/
def Obligations.PortsAndLinks : Prop := SemaphoreAndDoorbells ∧ RequestsAnswered ∧ Links


/-- R345: RESYNC writes the device summary, 57,344 bytes, at a host address and nothing elsewhere: its magic and version, the semaphore, the
alert, the error totals, the yard table, SLOTCTL and the virtual-function table stand at their offsets, with every completed command in them, one
that still waits for its boundary or edge included. R351: TELEMETRY returns the clock ratio, of the main and of the fabric clock, fourth and
fifth. R349: ATTEST returns the digest, 8 doublewords, the nonce, and the signature over both. RESYNC's argument (log entry 73) and contents
(91, 129), the layout of TELEMETRY (6), the order of ATTEST's results (127), and that RESYNC waits while no route leads to the host (141) are
the model's choices. -/
def Sys2Proof.Machine.DeviceReports : Prop :=
  ∀ (s : State),
    (∀ a : Word, s.mgmt.args = [a] → a.toNat + 0xE000 ≤ 2 ^ 48 → (∀ kv ∈ s.mgmt.rows, kv.1 < 64) → (∀ kv ∈ s.mgmt.vfs, kv.1 < 512) →
      (∀ kv ∈ s.mgmt.pendRows, kv.1 < 64) → (∀ kv ∈ s.mgmt.pendSeg, kv.1 < 512) →
      let mg := asCommanded s.mgmt
      (hostUp s.mgmt = false → GoesOnLater .resync s) ∧ (hostUp s.mgmt = true → Ends .resync s 0 [] fun n => n = { s.m with mem := n.mem } ∧
        (∀ pa, pa < hostPa a.toNat ∨ hostPa a.toNat + 0xE000 ≤ pa → readByte n.mem pa = readByte s.m.mem pa) ∧
        let at_ := fun (o : Nat) => hostRead n (a.toNat + o)
        at_ 0 = 0x156534E59 ∧ (at_ 0x18).extractLsb' 0 2 = BitVec.ofNat 2 s.mgmt.holder ∧
        (at_ 0x18).extractLsb' 32 16 = BitVec.ofNat 16 s.mgmt.epoch ∧ (at_ 0x120).getLsbD 0 = s.mgmt.alert ∧
        (∀ u, u < 7 → at_ (0x140 + 16 * u) = BitVec.ofNat 64 (mget 0 s.mgmt.corr (u + 1)) ∧
          at_ (0x148 + 16 * u) = BitVec.ofNat 64 (mget 0 s.mgmt.uncorr (u + 1))) ∧
        (at_ 0x1600).getLsbD 63 = mg.enable ∧ at_ 0x1608 = BitVec.ofNat 64 mg.guard ∧
        (∀ y i, y < 32 → i < 4 → at_ (0x1200 + 32 * y + 8 * i) = BitVec.ofNat 64 (((yardWords (yardEnt s.mgmt y))[i]?).getD 0)) ∧
        (Canonical s → ∀ v i, v < 512 → i < 4 →
          at_ (0x9640 + 32 * v + 8 * i) = BitVec.ofNat 64 (((vfWords (vfEnt mg v))[i]?).getD 0)))) ∧
    (Goes .telemetry s fun t => t.m = { s.m with tick := s.m.tick + 1 } ∧ t.mgmt.status = some 0 ∧ t.mgmt.result.length = 26 ∧
      t.mgmt.result[3]? = some (BitVec.ofNat 64 s.mgmt.clock) ∧ t.mgmt.result[4]? = some (BitVec.ofNat 64 s.mgmt.clock)) ∧
    (Goes .attest s fun t => t.m = s.m ∧ t.mgmt.status = some 0 ∧
      let h := exactly 8 (Config.digest (attested s.mgmt))
      t.mgmt.result = h ++ exactly 8 s.mgmt.args ++ exactly 17 (Config.signature (h ++ exactly 8 s.mgmt.args)))

/-- R349, R350, R351: POWERCAP takes 1,200 to 2,200 W; FWSTAGE stages an image that verifies, and answers AUTH for one that does not; a throttle
lowers the clocks by one step of 5 %; a thermal trip raises the alert and takes every yard to idle: a running one drains, one that drains
already ends in idle, and one that is on its way to another virtual function goes back. RESET with argument 1
re-runs the Farrier alone; a cold reset, by command or by power, leaves no group, no virtual function, no yard and zero in every byte of
the device's memory. Arguments (log entry 73), REFUSED for another POWERCAP (137), WINBASE unchecked (88), the floor of the throttle (89), the
image that RESET runs (86) and FWSTAGE's wait for a route (141) are the model's choices. -/
def Sys2Proof.Machine.LimitsAndResets : Prop :=
  ∀ (s : State),
    let slow := { s.mgmt with clock := if s.mgmt.clock ≤ 5 then s.mgmt.clock else s.mgmt.clock - 5 }
    (∀ w : Word, s.mgmt.args = [w] →
      (1200 ≤ w.toNat ∧ w.toNat ≤ 2200 → MgmtOnly .powercap s { s.mgmt with powercap := w.toNat, status := some 0, result := [] }) ∧
      (¬ (1200 ≤ w.toNat ∧ w.toNat ≤ 2200) → Turned .powercap s 9) ∧
      MgmtOnly .winbase s { s.mgmt with winbase := w.toNat, status := some 0, result := [] }) ∧
    (∀ a n : Word, s.mgmt.args = [a, n] → n.toNat < 2 ^ 24 →
      let img := (List.range n.toNat).map fun i => hostRead s.m (a.toNat + 8 * i)
      (hostUp s.mgmt = false → GoesOnLater .fwstage s) ∧
      (hostUp s.mgmt = true → Config.verify img = true → MgmtOnly .fwstage s { s.mgmt with staged := img, status := some 0, result := [] }) ∧
      (hostUp s.mgmt = true → Config.verify img = false → Turned .fwstage s 11)) ∧
    MgmtOnly .thermalThrottle s slow ∧ MgmtOnly .powerThrottle s slow ∧
    (Goes .thermalTrip s fun t => t.mgmt = { s.mgmt with alert := true, msix := s.mgmt.msix ++ [1, 65] } ∧
      ((∀ yn w e, yn < 32 → (yrun s.m yn).phase ≠ .switching w e) → t.m.mem = s.m.mem) ∧ ∀ yn, yn < 32 →
        let till := s.m.now + s.mgmt.guard * 1400
        (∀ v, (yrun s.m yn).phase = .running v → (yrun t.m yn).phase = .draining v till ∧ (yrun t.m yn).early = some none) ∧
        (∀ v e, (yrun s.m yn).phase = .draining v e → (yrun t.m yn).phase = .draining v (min e till) ∧ (yrun t.m yn).early = some none) ∧
        ((∃ w e, (yrun s.m yn).phase = .switching w e) ∨ (yrun s.m yn).phase = .idle → (yrun t.m yn).phase = .idle)) ∧
    MgmtOnly .farrierRestart s { s.mgmt with up := false, cur := none, got := [], status := some 0, result := [] } ∧
    MgmtOnly .farrierReady s { s.mgmt with up := true } ∧
    (∀ i, i = .coldReset ∨ i = .resetDevice → Goes i s fun t => t.m.groups = [] ∧ t.m.vfst = [] ∧ t.m.cores = [] ∧ t.m.clusters = [] ∧
      t.m.saved = [] ∧ t.m.yards = [] ∧ t.mgmt.yards = [] ∧ t.mgmt.vfs = [] ∧ t.mgmt.rows = [] ∧ t.mgmt.enable = false ∧
      t.mgmt.guard = 20 ∧ t.mgmt.holder = 0 ∧ t.mgmt.device = s.mgmt.device ∧
      (Canonical s → ∀ a, readByte t.m.mem a = if a / 2 ^ 48 = 0xD ∨ a / 2 ^ 48 = 0xE then readByte s.m.mem a else 0))

/-- R345, R349 to R351: reports of the device, its limits and its resets. -/
def Obligations.ReportsLimitsResets : Prop := DeviceReports ∧ LimitsAndResets


/-! ## Slot edges (R301 to R310), and the registers that the address map holds (R12, R146, R154, R277, R312, R315) -/

/-- R304: GUARD before its edge the drain of a running yard begins, for the virtual function that ran there; memory, the other yards and the
groups of other virtual functions stay. R304, R305, R307: a drain that is complete saves the groups in the context area, by place in the yard,
with registers, full bits and pc, and their save maps clear; R322, R325: one that issued shows code 0x3E and, in vstart, where its oldest
stopped vector instruction goes on (the model's reading, log entries 63 and 10); it scrubs the yard's local stores, Haylofts and receive slots,
writes the groups' 1 KiB blocks to the context area (R323; in this order there by the model's choice, log entry 71) and changes no other byte,
and leaves the virtual function absent and the yard idle where no one comes in; where one does, the yard switches until S_y after the
edge. R335: an error in what it saves halts the groups with it, code 0x3F and the address. -/
def Obligations.DrainAndSave : Prop :=
  ∀ (s : State) (yn v : Nat), yardOk yn = true → Canonical s →
    (∀ e, (yrun s.m yn).phase = .running v → edgeTime s.mgmt s.m yn = some e →
      (e ≤ s.m.now + s.mgmt.guard * 1400 → Goes (.slotEdgeGuard yn) s fun t =>
        (yrun t.m yn).phase = .draining v e ∧ (yrun t.m yn).drainFrom = s.m.now ∧ (yrun t.m yn).early = none ∧
          (∀ j, j ≠ yn → yrun t.m j = yrun s.m j) ∧ t.m.mem = s.m.mem ∧ t.mgmt = s.mgmt ∧
          ∀ k, (mget {} s.m.groups k).vf ≠ v → mget {} t.m.groups k = mget {} s.m.groups k) ∧
      (s.m.now + s.mgmt.guard * 1400 < e → exec (.slotEdgeGuard yn) s = .next s)) ∧
    (∀ e, (yrun s.m yn).phase = .draining v e →
      let y := yardEnt s.mgmt yn
      let place := fun (c sl : Nat) => gkey (savePos y c) (sl - yardSlot0 y)
      let ours := fun (c sl : Nat) => c < 512 ∧ sl < 64 ∧ (grp s.m c sl).status ≠ .free ∧ (grp s.m c sl).vf = v
      (drained s.m v = false → exec (.drainComplete yn) s = .next s) ∧
      (drained s.m v = true → (∀ t ∈ vfAll s.m v, t.2.2.fills = []) → mget none s.mgmt.pendSeg v = none →
        s.mgmt.pendCores = [] → s.mgmt.pendLanes = [] →
        ((yrun s.m yn).early = some none ∨ ((yrun s.m yn).early = none ∧ targetAt s.mgmt s.m yn e = none) →
          Goes (.drainComplete yn) s fun t => (yrun t.m yn).phase = .idle ∧ (vfst t.m v).home = none ∧
            (∀ c sl, c < 512 → ¬ ((grp t.m c sl).status ≠ .free ∧ (grp t.m c sl).vf = v)) ∧
            ((∀ c sl d r, ours c sl → ours d r → place c sl = place d r → c = d ∧ sl = r) → ∀ c sl, ours c sl →
              let g := grp s.m c sl
              let h := mget {} (mget {} t.m.saved v).groups (place c sl)
              let err := savedError y v s.m
              h.x = g.x ∧ h.xfe = g.xfe ∧ h.p = g.p ∧ h.pfe = g.pfe ∧ h.v = g.v ∧ h.vfe = (healed g).vfe ∧ h.c = g.c ∧
                h.cfe = g.cfe ∧ h.pc = g.pc ∧ h.pcword = g.pcword ∧ h.vl = g.vl ∧ h.vps = g.vps ∧ h.pcs = g.pcs ∧
                h.saveMap = 0 ∧ (g.status = .halted → h.status = g.status ∧ h.run = g.run ∧ h.rep = g.rep ∧ h.vstart = g.vstart) ∧
                (∀ u pa, err = some (u, pa) → g.active = true →
                  h.status = .halted ∧ h.rep = { cls := 3, code := 0x3F, addr := pa, info := 0x30 }) ∧
                (err = none → h.status = g.status ∧ h.run = g.run) ∧
                (err = none → g.active = true → h.rep = { code := 0x3E } ∧ h.vkept.getD h.vstart = g.vkept.getD g.vstart ∧
                  ∀ q, g.vkept = none → g.recs.find? (·.op.vec) = some q → h.vstart = q.prog)) ∧
            let base := (vfEnt s.mgmt v).ctx
            let size := 1024 * (vfGroups s.m v).length
            let blocks := base + size ≤ 824633720832
            (blocks → savedError y v s.m = none → ∀ n q i, (vfGroups s.m v)[n]? = some q → i < 128 →
              readLe t.m.mem (base + 1024 * n + 8 * i) 8 = ctxWord (edgeStop q.2.2) i % 2 ^ 64) ∧
            ∀ a, ((∃ q ∈ scrubRanges y, q.1 ≤ a ∧ a < q.1 + q.2) → readByte t.m.mem a = 0) ∧
              ((∀ q ∈ scrubRanges y, ¬ (q.1 ≤ a ∧ a < q.1 + q.2)) → ¬ (blocks ∧ base ≤ a ∧ a < base + size) →
                readByte t.m.mem a = readByte s.m.mem a)) ∧
        (∀ w, (yrun s.m yn).early = some (some w) → Goes (.drainComplete yn) s fun t =>
          (yrun t.m yn).phase = .switching (some w) (e + (if y.lane then 8 else 40) * 1400))))

/-- R300, R304, R307: at S_y after the edge, and not before, the incoming virtual function begins to run with full buckets. A virtual function
that is absent until then gets its groups back at their places in the yard, with their registers and pc; the code and vstart that the edge
showed are gone (R322, R325; the model's reading, log entry 63), and its places move with the yard (log entry 62). -/
def Obligations.IncomingStarts : Prop :=
  ∀ (s : State) (yn v at_ : Nat), yardOk yn = true → (yrun s.m yn).phase = .switching (some v) at_ →
    (s.m.now < at_ → exec (.incomingStart yn) s = .next s) ∧
    (at_ ≤ s.m.now → (vfEnt s.mgmt v).en = true → (vfst s.m v).cmds = [] → (∀ q ∈ (vfst s.m v).chains, q.2.closing = false) →
      ((vfst s.m v).home = some yn → (∀ k, (mget {} s.m.groups k).vf = v → (mget {} s.m.groups k).recs = [] ∧
        (mget {} s.m.groups k).spill = none) → (∀ c q, q ∈ (core s.m c).log → q.2.vf = v → q.2.rpl = false) →
        Canonical s →
        Goes (.incomingStart yn) s fun t => (yrun t.m yn).phase = .running v ∧ (yrun t.m yn).hbm = bucketCap s.mgmt yn true ∧
          (yrun t.m yn).link = bucketCap s.mgmt yn false ∧ t.m.groups = s.m.groups ∧ t.m.mem = s.m.mem ∧ t.mgmt = s.mgmt ∧
          t.agenda = s.agenda) ∧
      ((vfst s.m v).home = none → contextFits s.mgmt s.m yn v = true → Canonical s →
        let y := yardEnt s.mgmt yn
        let sv := mget {} s.m.saved v
        let place := fun (p : Nat) => gkey (posCore y (keyCore p)) (keySlot p + yardSlot0 y)
        let slotted := sv.groups.filter fun kg => keySlot kg.1 < 64
        (∀ kg ∈ sv.groups, kg.2.acc = [] ∧ kg.2.recs = [] ∧ kg.2.spill = none) → (∀ k ∈ sv.cores, k.2.log = []) →
        (slotted.map fun kg => place kg.1).Nodup → (∀ kg ∈ slotted, keySlot kg.1 + yardSlot0 y < 64) →
        (∀ c q, q ∈ (core s.m c).log → q.2.vf = v → q.2.rpl = false) →
        Goes (.incomingStart yn) s fun t => (yrun t.m yn).phase = .running v ∧ (vfst t.m v).home = some yn ∧
          ∀ kg ∈ slotted,
            let g := mget {} t.m.groups (place kg.1)
            g.status = kg.2.status ∧ g.x = kg.2.x ∧ g.xfe = kg.2.xfe ∧ g.p = kg.2.p ∧ g.v = kg.2.v ∧ g.vfe = kg.2.vfe ∧ g.c = kg.2.c ∧
              g.pc = kg.2.pc ∧ g.pcword = kg.2.pcword ∧ g.vl = kg.2.vl ∧ g.run = kg.2.run ∧ g.vps = kg.2.vps ∧ g.pcs = kg.2.pcs ∧
              (kg.2.active = true → g.rep = {} ∧ g.vstart = kg.2.vkept.getD kg.2.vstart) ∧
              (kg.2.active = false → g.rep = kg.2.rep ∧ g.vstart = kg.2.vstart)))

/-- R301, R302: at the end of the running row, and not before, the next row in use begins with the table's pending writes in effect; a yard
that keeps its virtual function goes on running it with full buckets, and a virtual function of the row is on its way into an idle yard.
R308, R309: an early edge that is due and whose virtual function has no clause in progress ends the drain whatever it has left: the virtual function has left the yard, which is idle where the
edge leads to no one. R309: slotyield has no effect where the yard already drains or too little of the slot is left; else the drain begins, for an
edge GUARD from now, and the rest of the slot is given to the beneficiary. The effect of pending table writes at the boundary is the model's
reading (log entry 68), and so is that an edge waits for a clause in progress (117). -/
def Obligations.RowsAndDonations : Prop :=
  ∀ (s : State),
    (let e := s.m.rowStart + (mget {} s.mgmt.rows s.mgmt.row).len * 1400
     (s.mgmt.enable = false ∨ s.m.now < e → exec .rowBoundary s = .next s) ∧
     (∀ r rs, s.mgmt.enable = true → e ≤ s.m.now → (∀ yn v d, (yrun s.m yn).phase ≠ .draining v d) →
       (applyTable s.mgmt).enable = true → rowsAfter (applyTable s.mgmt) = r :: rs →
       Goes .rowBoundary s fun t => t.mgmt = { applyTable s.mgmt with row := r } ∧ t.m.rowStart = e ∧ t.agenda = s.agenda ∧
         ∀ yn, yn < 32 → (yrun s.m yn).gift = none →
           let target := rowTarget (applyTable s.mgmt) r yn
           (∀ v, (yrun s.m yn).phase = .running v → target = some v → (yrun t.m yn).phase = .running v ∧
             (yrun t.m yn).hbm = bucketCap t.mgmt yn true ∧ (yrun t.m yn).link = bucketCap t.mgmt yn false) ∧
           (∀ v, (yrun s.m yn).phase = .idle → target = some v →
             (yrun t.m yn).phase = .switching (some v) (e + (if (yardEnt s.mgmt yn).lane then 8 else 40) * 1400)))) ∧
    (∀ yn v e, yardOk yn = true → (yrun s.m yn).phase = .draining v e →
      (s.m.now < e → exec (.earlyEdge yn) s = .next s) ∧
      (issuing s.m v = true → exec (.earlyEdge yn) s = .next s) ∧
      (e ≤ s.m.now → issuing s.m v = false → (yrun s.m yn).early = some none → Goes (.earlyEdge yn) s fun t =>
        (yrun t.m yn).phase = .idle ∧ (vfst t.m v).home = none ∧ ∀ c sl, c < 512 → ¬ ((grp t.m c sl).status ≠ .free ∧ (grp t.m c sl).vf = v))) ∧
    (∀ f : FmtA, Unstepped s → PredTrue s f.pn f.ps → XFull s f.a →
      let vf := (me s.m).vf
      let yn := groupYard s.mgmt s.m.act.core (me s.m)
      let need := (s.mgmt.guard + (if (yardEnt s.mgmt yn).lane then 8 else 40) + 10) * 1400 * s.mgmt.clock / 100
      let g := afterWord s.m.act (afterX s f.a f.ta)
      ((yrun s.m yn).phase ≠ .running vf ∨ slotLeft s.mgmt s.m yn < need → Goes (.slotyield f) s fun t => ActsOnly s t g) ∧
      ((yrun s.m yn).phase = .running vf → need ≤ slotLeft s.mgmt s.m yn → (∀ k, (mget {} s.m.groups k).vf = vf →
        (mget {} s.m.groups k).acc = []) → Goes (.slotyield f) s fun t =>
          (yrun t.m yn).phase = .draining vf (s.m.now + s.mgmt.guard * 1400) ∧
          (yrun t.m yn).early = some (beneficiary s.mgmt s.m yn vf (xVal s f.a).toNat) ∧ (yrun t.m yn).gift.isSome = true ∧
          me t.m = g ∧ t.m.mem = s.m.mem))

/-- R146: a write of an entry of the tile table from 8 to 31 sets its definition while the entry is empty and has no effect otherwise. R277: a
write of TIMER sets it, at least 64. R312, R315: a write of CNTSEL selects the event and starts its counter from zero. R12, R51: a write through the
window sets a group's x register, and fills it for a run that waits for it too (R263; for a register open at the vf the model's choice, log
entry 108), and clears HAYERR where bit 63 is 1; one to a claimed register waits for the end of the claim. -/
def Obligations.MappedRegisters : Prop :=
  ∀ (s : State) (v : Word),
    (∀ c e, coreOk c = true → e < 32 →
      let old := mget {} (core s.m c).tiles e
      (e < 8 ∨ old.st ≠ .empty → exec (.tileTableWrite c e v) s = .next s) ∧
      (8 ≤ e → old.st = .empty → Goes (.tileTableWrite c e v) s fun t => t.mgmt = s.mgmt ∧ t.m = { s.m with cores := t.m.cores } ∧
        mget {} (core t.m c).tiles e = { st := .empty, ty := v.extractLsb' 58 4, text := v.extractLsb' 56 2, rows := v.toNat / 2 ^ 45 % 2 ^ 11,
                                         cols := v.toNat / 2 ^ 34 % 2 ^ 11, lsoff := v.toNat % 2 ^ 19 } ∧
        (∀ j, j ≠ e → mget {} (core t.m c).tiles j = mget {} (core s.m c).tiles j) ∧
        core t.m c = { core s.m c with tiles := (core t.m c).tiles } ∧ ∀ d, d ≠ c → core t.m d = core s.m d)) ∧
    (∀ k, clusterOk k = true → Goes (.packerTimerWrite k v) s fun t => t.mgmt = s.mgmt ∧ t.m = { s.m with clusters := t.m.clusters } ∧
      clus t.m k = { clus s.m k with timer := max 64 (v.toNat % 65536) } ∧ ∀ j, j ≠ k → clus t.m j = clus s.m j) ∧
    (∀ vf i, vfOk vf = true → i < 16 → Goes (.cntselWrite vf i v) s fun t => t.mgmt = s.mgmt ∧ t.m = { s.m with vfst := t.m.vfst } ∧
      mget 0 (vfst t.m vf).cntsel i = v.toNat % 256 ∧ mget 0 (vfst t.m vf).cnt i = 0 ∧
      (∀ j, j ≠ i → mget 0 (vfst t.m vf).cntsel j = mget 0 (vfst s.m vf).cntsel j ∧
        mget 0 (vfst t.m vf).cnt j = mget 0 (vfst s.m vf).cnt j) ∧ ∀ w, w ≠ vf → vfst t.m w = vfst s.m w) ∧
    (∀ c sl i, groupOk c sl = true → i < 128 → (grp s.m c sl).here = true →
      let pa := coreBase c + 0x190000 + 0x400 * sl + 8 * i
      let k : PendKnow := { isX := true, reg := i, e := 0, vis := [] }
      (getFe (grp s.m c sl) (.x i) = .claimed → exec (.registerWrite pa v) s = .next s) ∧
      (getFe (grp s.m c sl) (.x i) ≠ .claimed → Goes (.registerWrite pa v) s fun t => ∃ h, GroupOnly s t c sl h ∧
        h = { grp s.m c sl with x := h.x, xfe := h.xfe, pend := h.pend, run := h.run } ∧
        h.run = (captureOpen (grp s.m c sl) i v k).run ∧ getX h i = (if i = 0 then 0 else v) ∧ getFe h (.x i) = .full ∧
        ∀ j, j ≠ i → getX h j = getX (grp s.m c sl) j ∧ getFe h (.x j) = getFe (grp s.m c sl) (.x j))) ∧
    (∀ c sl, groupOk c sl = true → v.getLsbD 63 = true → Goes (.registerWrite (coreBase c + 0x1B0400 + 8 * sl) v) s fun t =>
      GroupOnly s t c sl { grp s.m c sl with hayErr := false })

/-! ## Sources, predicates and address checks (R29, R34, R35, R59, R213) -/

/-- R29: x0 reads zero and is always full, p0 and c0 read true and are always full, c0 for the elements below VLMAX; a write of one of them, or
an effect on its full/empty bit, leaves the group as it was. -/
def Obligations.HardWiredRegisters : Prop :=
  ∀ (g : Group),
    (getX g 0 = 0 ∧ getFe g (.x 0) = .full ∧ ∀ v f, putX g 0 v = g ∧ setFe g f (.x 0) = g) ∧
    (getP g 0 = true ∧ getFe g (.p 0) = .full ∧ ∀ b f, putP g 0 b = g ∧ setFe g f (.p 0) = g) ∧
    (∀ e, getC g 0 e = decide (e < g.vlmax) ∧ getFe g (.c 0 e) = .full ∧ ∀ b f, putC g 0 e b = g ∧ setFe g f (.c 0 e) = g)

namespace Sys2Proof.Machine

/-- Predicate, destination and sources of an integer, comparison or predicate instruction of the control thread. -/
def scalarParts (i : Instr) : Option (Bool × BitVec 3 × Reg × List (BitVec 8 × Bool)) :=
  match scalarForm i, predForm i with
  | some F, _ => some (F.pn, F.ps, .x F.d.toNat, F.srcs)
  | none, some F => some (F.pn, F.ps, .p (F.d.toNat - 0x80), F.srcs)
  | none, none => none

end Sys2Proof.Machine

/-- R59: a scalar instruction whose predicate is false has no effect, and one whose predicate register is empty blocks. R34: at an empty source
it takes EMPTY-SOURCE, with the source's code as INFO, where the trap bit of that field is set, and blocks where it is clear. R35: with a
claimed destination it waits for the claim. In each case nothing else changes. Of several empty sources the first in field order decides
by the model's choice (log entry 112). -/
def Sys2Proof.Machine.SourcesAndPredicates : Prop :=
  ∀ (i : Instr) (pn : Bool) (ps : BitVec 3) (d : Reg) (srcs : List (BitVec 8 × Bool)) (s : State), i.wellFormed = true →
    scalarParts i = some (pn, ps, d, srcs) →
    let blocks := fun (g : Group) (w : Wait) => Goes i s fun t => ActsOnly s t { g with waitC := some w }
    (ps ≠ 0 → getFe (me s.m) (.p ps.toNat) = .full → getP (me s.m) ps.toNat = pn → Unstepped s →
      Goes i s fun t => ActsOnly s t (afterWord s.m.act (me s.m))) ∧
    (ps ≠ 0 → getFe (me s.m) (.p ps.toNat) ≠ .full → blocks (me s.m) (.full [.p ps.toNat])) ∧
    (∀ q w, PredTrue s pn ps → firstEmpty (me s.m) [] (fields srcs) = some (q, w) →
      (q.trap = true → Goes i s fun t => Halts s t { me s.m with held := none } (reportOf s 0x02 0 0 q.code)) ∧
      (q.trap = false → blocks (me s.m) w)) ∧
    (PredTrue s pn ps → SrcsFull s srcs → (∀ n, d = .x n → n < 0x80) → getFe (me s.m) d = .claimed →
      blocks (absorbSrcs (fields srcs) (me s.m)) (.unclaimed [d]))

/-- R212, R213: a load, store or atomic of the control thread with an active address that has a bit above 54 set halts the group with
ADDRESS-RANGE, at the first such element; else one with an active address that is not a multiple of its size with ALIGNMENT, and the size as
INFO. No access is performed and no destination claimed. -/
def Sys2Proof.Machine.AddressChecks : Prop :=
  ∀ (i : Instr) (F : MemForm) (s : State), i.wellFormed = true → Unstepped s →
    let act := if (vectorMemory i).isSome then activeOf (me s.m) F.pn F.ps else []
    let m := modMe s.m (absorbSrcs (F.srcs act))
    let op := F.op m act
    ((vectorMemory i = some F ∧ NoLockStep s ∧ (∀ r ∈ F.named, r < (me s.m).nregs) ∧ MaskFull s F.ps ∧ act ≠ [] ∧
        vecInFlight (me m) < 8) ∨ (scalarMemory i = some F ∧ PredTrue s F.pn F.ps)) →
      firstEmpty (me s.m) [] (F.srcs act) = none → dstWait m (opClaims op) = none →
      (∀ el, op.elems.find? (fun el => 2 ^ 55 ≤ el.va) = some el →
        Goes i s fun t => ∃ g, Halts s t g (reportOf s 0x03 el.e el.va 0) ∧ g = { me m with held := none, linkset := g.linkset }) ∧
      (∀ el, (∀ x ∈ op.elems, x.va < 2 ^ 55) → op.elems.find? (fun el => el.va % el.size != 0) = some el →
        Goes i s fun t => ∃ g, Halts s t g (reportOf s 0x04 el.e el.va el.size) ∧ g = { me m with held := none, linkset := g.linkset })

/-- R34, R35, R59, R212, R213: what stops or blocks an instruction before it takes effect. -/
def Obligations.SourceAndAddressChecks : Prop := SourcesAndPredicates ∧ AddressChecks


/-! ## Encodings (R52, R58 to R73), reset (R350), and an invariant of the yard table (R295) -/

/-- R52, R61 to R71: words written out in the spec's examples decode to the instructions they stand for, and the header of a clause of twelve
instructions to its fields. -/
def Obligations.DecodeSampleWords : Prop :=
  let none_ : BitVec 8 := 0xFF
  let a : FmtA := { pn := false, ps := 0, d := 0xFF, a := 0xFF, b := 0xFF, c := 0xFF, ty := 0, rnd := 0, sat := false, ta := false,
                    tb := false, tc := false, md := 0 }
  let k : FmtM := { pn := false, ps := 0, data := 4, base := 9, index := none_, off := 0, scope := 0, sz5 := false, sz := 2, ff := false,
                    tbase := false, nt := false }
  let e : FmtE := { pn := false, ps := 0, queue := 2, acq := true, rel := false, escope := 2, a := 4, b := 5, c := 6, imm := 5 }
  let l : FmtL := { pn := false, ps := 0, tile := 1, rsv := 0, kreg := 4, asrc := 0, baddr := 6, msel := 2, sparse := true, sbyte := 0,
                    bcast := 0, incA := 0, incB := 1 }
  decodeWord .c 0x30000409FF000010 = .ok (.vld k) ∧
  decodeWord .c 0x0800090900000100 = .ok (.addImm { pn := false, ps := 0, d := 9, a := 9, imm := 256 }) ∧
  decodeWord .c 0x0C2081090AFF0000 = .ok (.cmp 2 { a with d := 0x81, a := 9, b := 10 }) ∧
  decodeWord .c 0x2001FF0000000000 = .ok (.br { pn := false, ps := 1, a := none_, off := 0 }) ∧
  decodeWord .v 0x1030030405069020 = .ok (.vfma { a with d := 3, a := 4, b := 5, c := 6, ty := 9, tc := true }) ∧
  decodeWord .c 0x6000200400065001 = .ok (.mloop 0 l) ∧
  decodeWord .c 0x6820FFA314FF0040 = .ok (.gsend { a with a := 0xA3, b := 0x14, tb := true }) ∧
  decodeWord .c 0x50002A0405060005 = .ok (.dcopy e) ∧
  decodeWord .c 0x6C000506FFFF0002 = .ok (.barr { a with d := 5, a := 6, md := 2 }) ∧
  decodeWord .c 0x7000FF05FFFF0000 = .ok (.slotyield { a with a := 5 }) ∧
  decodeHeader 0x2C00FFFFFFFFFFFF = some { cls := .c, count := 11, y := false, ewDray := false, ewLat := false, ewBaler := false,
                                           ewGlaze := false, waits := [0xFF, 0xFF, 0xFF, 0xFF, 0xFF, 0xFF] }

/-- R58 to R73: the word that encodes a well-formed instruction, whatever its operands, is read back as that instruction in its class. -/
def Obligations.DecodeEncode : Prop :=
  ∀ (i : Instr) (k : Cls) (w : Word), encode i = some (k, w) → i.wellFormed = true → decodeWord k w = .ok i

/-- R277, R294, R299, R301, R344, R350: right after reset every byte of the device's memory reads zero, no group and no context is there, every
yard-table, virtual-function-table and slot-table entry, SLOTCTL, CFGSEM and the alert read zero, GUARD reads 20 and every TIMER
0x0800. -/
def Obligations.ResetValues : Prop :=
  let s := State.reset
  (∀ a, a / 2 ^ 48 ≠ 0xD → a / 2 ^ 48 ≠ 0xE → readByte s.m.mem a = 0) ∧ (∀ c sl, (grp s.m c sl).status = .free) ∧
    (∀ v, (vfst s.m v).home = none ∧ (mget {} s.m.saved v).groups = [] ∧ vfEnt s.mgmt v = {}) ∧ (∀ y, yardEnt s.mgmt y = {}) ∧
    (∀ r, mget {} s.mgmt.rows r = {}) ∧ s.mgmt.enable = false ∧ s.mgmt.guard = 20 ∧ s.mgmt.holder = 0 ∧ s.mgmt.epoch = 0 ∧
    s.mgmt.alert = false ∧ (∀ k, (clus s.m k).timer = 0x800)

namespace Sys2Proof.Machine

/-- A yard-table entry names a lane of a core. -/
def OwnsLane (y : Yard) (c l : Nat) : Prop := if y.lane then y.core = c ∧ y.b ≤ l ∧ l < y.b + y.l else y.cl.testBit (c / 4) = true
/-- An L2 set lies in the window of a yard-table entry. -/
def OwnsSet (y : Yard) (n : Nat) : Prop := y.wbase ≤ n ∧ n < y.wbase + 2 ^ y.wlog
/-- No two yards that exist share a lane of a core or a set of L2. -/
def YardsSeparate (mg : Mgmt) : Prop :=
  ∀ i j, i ≠ j → (yardEnt mg i).v = true → (yardEnt mg j).v = true →
    (∀ c l, ¬ (OwnsLane (yardEnt mg i) c l ∧ OwnsLane (yardEnt mg j) c l)) ∧
      ∀ n, ¬ (OwnsSet (yardEnt mg i) n ∧ OwnsSet (yardEnt mg j) n)

end Sys2Proof.Machine

/-- R295: in the state after reset no two yards share a lane or a set; and the model's memory and tables have their canonical form. -/
def Obligations.ResetInvariants : Prop := YardsSeparate State.reset.mgmt ∧ Canonical State.reset

/-- R295: whatever a step does, from any state in which no two yards share a core's lane or a set of L2 it leads to one in which none do. -/
def Obligations.YardsStaySeparate : Prop :=
  ∀ (s t : State), YardsSeparate s.mgmt → step s = .next t → YardsSeparate t.mgmt

/-- The model's own representation: whatever a step does, memory keeps its canonical form and the keys of the tables of groups, cores,
virtual functions and selected events keep rising. -/
def Obligations.TablesStayCanonical : Prop :=
  ∀ (s t : State), Canonical s → step s = .next t → Canonical t
end

