-- ==== Sys2Proof/Laws/Memory.lean ====
section
/-! SUPPORT. Laws of the byte memory: what a read gives after a write, and that every memory operation keeps the canonical form. -/

namespace Sys2Proof.Machine

/-! ## Reads -/

theorem readByte_cons (k : Nat) (b : Byte) (r : Memory) (a : Nat) :
    readByte ((k, b) :: r) a = if a = k then b else if a < k then 0 else readByte r a := by
  simp only [readByte, beq_iff_eq]

theorem readByte_cellsFrom {a x : Nat} (h : a ≤ x) : ∀ m : Memory, readByte (cellsFrom a m) x = readByte m x
  | [] => rfl
  | (k, b) :: r => by
    rw [cellsFrom]
    split
    · rw [readByte_cons, if_neg (by omega), if_neg (by omega), readByte_cellsFrom h r]
    · rfl

theorem readByte_cellsFrom_below {a x : Nat} (h : x < a) : ∀ m : Memory, readByte (cellsFrom a m) x = 0
  | [] => rfl
  | (k, b) :: r => by
    rw [cellsFrom]
    split
    · exact readByte_cellsFrom_below h r
    · rw [readByte_cons, if_neg (by omega), if_pos (by omega)]

theorem readByte_cellsBelow_low {a x : Nat} (h : x < a) (t : Memory) (ht : readByte t x = 0) :
    ∀ m : Memory, readByte (cellsBelow a t m) x = readByte m x
  | [] => ht
  | (k, b) :: r => by
    rw [cellsBelow]
    split
    · rw [readByte_cons, readByte_cons, readByte_cellsBelow_low h t ht r]
    · rw [ht, readByte_cons, if_neg (by omega), if_pos (by omega)]

theorem readByte_cellsBelow_high {a x : Nat} (h : a ≤ x) (t : Memory) : ∀ m : Memory, readByte (cellsBelow a t m) x = readByte t x
  | [] => rfl
  | (k, b) :: r => by
    rw [cellsBelow]
    split
    · rw [readByte_cons, if_neg (by omega), if_neg (by omega), readByte_cellsBelow_high h t r]
    · rfl

theorem readByte_layCells_below {x : Nat} (t : Memory) (ht : readByte t x = 0) :
    ∀ (bs : List Byte) (a : Nat), x < a → readByte (layCells t a bs) x = 0
  | [], _, _ => ht
  | b :: bs, a, h => by
    rw [layCells]
    split
    · exact readByte_layCells_below t ht bs (a + 1) (by omega)
    · rw [readByte_cons, if_neg (by omega), if_pos h]

theorem readByte_layCells (t : Memory) : ∀ (bs : List Byte) (a x : Nat), (∀ y, y < a + bs.length → readByte t y = 0) → a ≤ x →
    readByte (layCells t a bs) x = if x < a + bs.length then (bs[x - a]?).getD 0 else readByte t x
  | [], a, x, _, h => by rw [layCells, if_neg (by simp; omega)]
  | b :: bs, a, x, ht, h => by
    have ht' : ∀ y, y < a + 1 + bs.length → readByte t y = 0 := fun y hy => ht y (by simp; omega)
    rw [layCells]
    by_cases hx : x = a
    · subst hx
      rw [if_pos (show x < x + (b :: bs).length by simp), Nat.sub_self, List.getElem?_cons_zero, Option.getD_some]
      by_cases hb : b = 0
      · rw [if_pos (by simp [hb]), hb, readByte_layCells_below t (ht x (by simp)) bs (x + 1) (by omega)]
      · rw [if_neg (by simpa using hb), readByte_cons, if_pos rfl]
    · have ih := readByte_layCells t bs (a + 1) x ht' (by omega)
      have e : x - a = (x - (a + 1)) + 1 := by omega
      have cond : (x < a + (b :: bs).length) = (x < a + 1 + bs.length) := by simp; omega
      rw [e, List.getElem?_cons_succ]
      simp only [cond]
      split
      · exact ih
      · rw [readByte_cons, if_neg hx, if_neg (by omega)]; exact ih

/-- A byte after a write of a block: the block's byte inside it, and the byte as it was outside. -/
theorem readByte_writeBytes (m : Memory) (a : Nat) (bs : List Byte) (x : Nat) :
    readByte (writeBytes m a bs) x = if a ≤ x ∧ x < a + bs.length then (bs[x - a]?).getD 0 else readByte m x := by
  have low : ∀ y, y < a + bs.length → readByte (cellsFrom (a + bs.length) m) y = 0 := fun y hy => readByte_cellsFrom_below hy m
  unfold writeBytes
  by_cases h : a ≤ x
  · rw [readByte_cellsBelow_high h, readByte_layCells _ _ _ _ low h]
    by_cases hx : x < a + bs.length
    · rw [if_pos hx, if_pos ⟨h, hx⟩]
    · rw [if_neg hx, if_neg (fun q => hx q.2), readByte_cellsFrom (show a + bs.length ≤ x by omega)]
  · rw [if_neg (fun q => h q.1)]
    exact readByte_cellsBelow_low (by omega) _ (readByte_layCells_below _ (low x (by omega)) bs a (by omega)) m

/-- A byte after a range was zeroed. -/
theorem readByte_zeroRange (m : Memory) (a n x : Nat) :
    readByte (zeroRange m a n) x = if a ≤ x ∧ x < a + n then 0 else readByte m x := by
  unfold zeroRange
  by_cases h : a ≤ x
  · rw [readByte_cellsBelow_high h]
    by_cases hx : x < a + n
    · rw [if_pos ⟨h, hx⟩, readByte_cellsFrom_below hx]
    · rw [if_neg (fun q => hx q.2), readByte_cellsFrom (show a + n ≤ x by omega)]
  · rw [if_neg (fun q => h q.1)]
    exact readByte_cellsBelow_low (by omega) _ (readByte_cellsFrom_below (by omega) m) m

theorem length_leBytes : ∀ n v, (leBytes n v).length = n
  | 0, _ => rfl
  | n + 1, v => by rw [leBytes, List.length_cons, length_leBytes n]

/-- A byte outside the place written stays. -/
theorem readByte_writeLe_other {m : Memory} {a n v x : Nat} (h : x < a ∨ a + n ≤ x) : readByte (writeLe m a n v) x = readByte m x := by
  rw [writeLe, readByte_writeBytes, length_leBytes, if_neg (by omega)]

theorem getElem?_leBytes : ∀ (n v i : Nat), i < n → (leBytes n v)[i]? = some (BitVec.ofNat 8 (v / 256 ^ i))
  | n + 1, v, 0, _ => by simp [leBytes]
  | n + 1, v, i + 1, h => by
    rw [leBytes, List.getElem?_cons_succ, getElem?_leBytes n (v / 256) i (by omega), Nat.div_div_eq_div_mul, Nat.pow_succ, Nat.mul_comm]

theorem leNat_leBytes : ∀ (n v : Nat), leNat (leBytes n v) = v % 256 ^ n
  | 0, v => by rw [leBytes, leNat, Nat.pow_zero, Nat.mod_one]
  | n + 1, v => by
    rw [leBytes, leNat, leNat_leBytes n, Nat.pow_succ, Nat.mul_comm (256 ^ n), Nat.mod_mul, BitVec.toNat_ofNat]

theorem readBytes_eq (m : Memory) : ∀ (n a : Nat) (bs : List Byte), bs.length = n →
    (∀ i, i < n → readByte m (a + i) = (bs[i]?).getD 0) → readBytes m a n = bs
  | 0, _, bs, h, _ => (List.eq_nil_of_length_eq_zero h).symm
  | n + 1, a, b :: bs, h, hb => by
    rw [readBytes]
    congr 1
    · simpa using hb 0 (by omega)
    · refine readBytes_eq m n (a + 1) bs (by simpa using h) fun i hi => ?_
      have := hb (i + 1) (by omega)
      rw [List.getElem?_cons_succ] at this
      rw [← this]; congr 1; omega

/-- Reading what was written, in the width it was written. -/
theorem readLe_writeLe_same (m : Memory) (a n v : Nat) : readLe (writeLe m a n v) a n = v % 256 ^ n := by
  have : readBytes (writeLe m a n v) a n = leBytes n v := by
    refine readBytes_eq _ n a _ (length_leBytes n v) fun i hi => ?_
    rw [writeLe, readByte_writeBytes, length_leBytes, if_pos (by omega), Nat.add_sub_cancel_left]
  rw [readLe, this, leNat_leBytes]

theorem readBytes_congr {m k : Memory} : ∀ {n a : Nat}, (∀ x, a ≤ x → x < a + n → readByte m x = readByte k x) → readBytes m a n = readBytes k a n
  | 0, _, _ => rfl
  | n + 1, a, h => by
    rw [readBytes, readBytes, h a (by omega) (by omega), readBytes_congr fun x h1 h2 => h x (by omega) (by omega)]

/-- Reading a place apart from the one written. -/
theorem readLe_writeLe_other {m : Memory} {a n v b k : Nat} (h : b + k ≤ a ∨ a + n ≤ b) : readLe (writeLe m a n v) b k = readLe m b k := by
  rw [readLe, readLe, readBytes_congr fun x h1 h2 => readByte_writeLe_other (by omega)]

/-! ## The canonical form -/

theorem cellsWf_cons (l : Option Nat) (a : Nat) (b : Byte) (r : Memory) :
    cellsWf l ((a, b) :: r) = true ↔ (∀ x, l = some x → x < a) ∧ b ≠ 0 ∧ cellsWf (some a) r = true := by
  cases l <;> simp [cellsWf, and_assoc]

theorem cellsWf_mono {l : Option Nat} {x : Nat} : ∀ {m : Memory}, cellsWf (some x) m = true → (∀ y, l = some y → y ≤ x) →
    cellsWf l m = true
  | [], _, _ => by rw [cellsWf]
  | (a, b) :: r, h, hl => by
    rw [cellsWf_cons] at h ⊢
    refine ⟨fun y hy => ?_, h.2⟩
    have := h.1 x rfl
    have := hl y hy
    omega

theorem cellsWf_cellsFrom (a : Nat) : ∀ {l : Option Nat} {m : Memory}, cellsWf l m = true →
    cellsWf l (cellsFrom a m) = true ∧ ∀ x, x < a → cellsWf (some x) (cellsFrom a m) = true
  | l, [], h => ⟨h, fun _ _ => by rw [cellsFrom, cellsWf]⟩
  | l, (k, b) :: r, h => by
    have hc := (cellsWf_cons l k b r).mp h
    rw [cellsFrom]
    split
    · have ih := cellsWf_cellsFrom a hc.2.2
      exact ⟨cellsWf_mono ih.1 fun y hy => Nat.le_of_lt (hc.1 y hy), ih.2⟩
    · exact ⟨h, fun x hx => (cellsWf_cons _ _ _ _).mpr ⟨fun y hy => by cases hy; omega, hc.2⟩⟩

theorem cellsWf_cellsBelow (a : Nat) (t : Memory) : ∀ {l : Option Nat} {m : Memory}, cellsWf l m = true →
    (∀ k, (∀ x, k = some x → x < a ∨ l = some x) → cellsWf k t = true) → cellsWf l (cellsBelow a t m) = true
  | l, [], _, ht => ht l fun x hx => .inr hx
  | l, (k, b) :: r, h, ht => by
    have hc := (cellsWf_cons l k b r).mp h
    rw [cellsBelow]
    split
    · next hk =>
      refine (cellsWf_cons _ _ _ _).mpr ⟨hc.1, hc.2.1, cellsWf_cellsBelow a t hc.2.2 fun j hj => ht j fun x hx => ?_⟩
      rcases hj x hx with h1 | h1
      · exact .inl h1
      · cases h1; exact .inl hk
    · exact ht l fun x hx => .inr hx

theorem cellsWf_layCells (t : Memory) : ∀ (bs : List Byte) (a : Nat) {l : Option Nat}, (∀ x, l = some x → x < a) →
    (∀ {k : Option Nat}, (∀ x, k = some x → x < a + bs.length) → cellsWf k t = true) → cellsWf l (layCells t a bs) = true
  | [], a, l, hl, ht => ht fun x hx => by have := hl x hx; simpa using this
  | b :: bs, a, l, hl, ht => by
    have ht' : ∀ {k : Option Nat}, (∀ x, k = some x → x < a + 1 + bs.length) → cellsWf k t = true :=
      fun hk => ht fun x hx => by have := hk x hx; simp; omega
    rw [layCells]
    split
    · exact cellsWf_layCells t bs (a + 1) (fun x hx => by have := hl x hx; omega) ht'
    · next hb =>
      refine (cellsWf_cons _ _ _ _).mpr ⟨hl, fun h => hb (by simp [h]), ?_⟩
      exact cellsWf_layCells t bs (a + 1) (fun x hx => by cases hx; omega) ht'

/-- Writing keeps the canonical form. -/
theorem writeBytes_wf {m : Memory} (h : m.wf = true) (a : Nat) (bs : List Byte) : (writeBytes m a bs).wf = true := by
  refine cellsWf_cellsBelow a _ h fun k hk => cellsWf_layCells _ bs a (fun x hx => ?_) fun {j} hj => ?_
  · rcases hk x hx with h1 | h1
    · exact h1
    · cases h1
  · have := cellsWf_cellsFrom (a + bs.length) h
    cases j with
    | none => exact this.1
    | some x => exact this.2 x (hj x rfl)
theorem writeLe_wf {m : Memory} (h : m.wf = true) (a n v : Nat) : (writeLe m a n v).wf = true := writeBytes_wf h a _

/-- Zeroing a range keeps the canonical form. -/
theorem zeroRange_wf {m : Memory} (h : m.wf = true) (a n : Nat) : (zeroRange m a n).wf = true := by
  refine cellsWf_cellsBelow a _ h fun k hk => ?_
  have := cellsWf_cellsFrom (a + n) h
  cases k with
  | none => exact this.1
  | some x =>
    refine this.2 x ?_
    rcases hk x rfl with h1 | h1
    · omega
    · cases h1

/-- Laying a saved range back keeps the canonical form. -/
theorem layRange_wf : ∀ (cells : Memory) {m : Memory}, m.wf = true → ∀ base, (layRange m base cells).wf = true
  | [], _, h, _ => h
  | (o, b) :: r, _, h, base => layRange_wf r (writeBytes_wf h (base + o) [b]) base

/-- Dropping entries keeps the canonical form. -/
theorem cellsWf_filter (p : Host.Cell → Bool) : ∀ {l : Option Nat} {m : Memory}, cellsWf l m = true → cellsWf l (m.filter p) = true
  | _, [], h => h
  | l, (k, b) :: r, h => by
    have hc := (cellsWf_cons l k b r).mp h
    rw [List.filter_cons]
    split
    · exact (cellsWf_cons _ _ _ _).mpr ⟨hc.1, hc.2.1, cellsWf_filter p hc.2.2⟩
    · exact cellsWf_mono (cellsWf_filter p hc.2.2) fun y hy => Nat.le_of_lt (hc.1 y hy)
theorem filter_wf {m : Memory} (h : m.wf = true) (p : Host.Cell → Bool) : Memory.wf (m.filter p) = true := cellsWf_filter p h

/-- Memory right after reset has the canonical form. -/
theorem reset_wf : State.reset.m.mem.wf = true := rfl

end Sys2Proof.Machine
end

