-- ==== Sys2Proof/Laws/State.lean ====
section
/-! SUPPORT. What the named updates of the state change and leave alone: tables by key, one lemma per field and update, registers. -/

namespace Sys2Proof.Machine

/-! ## Tables -/

section
variable {α : Type}

theorem mget_mdel_same (d : α) (n : Nat) (m : Map α) : mget d (mdel n m) n = d := by
  induction m with
  | nil => rfl
  | cons e r ih => obtain ⟨k, a⟩ := e; by_cases h : n = k <;> simp [mdel, mget, h] at * <;> assumption

theorem mget_mdel_other (d : α) {n j : Nat} (h : j ≠ n) (m : Map α) : mget d (mdel n m) j = mget d m j := by
  induction m with
  | nil => rfl
  | cons e r ih =>
    obtain ⟨k, a⟩ := e
    by_cases hk : n = k
    · subst hk; simp [mdel, mget, h, ih]
    · simp [mdel, mget, hk, ih]

theorem mget_mput_same (d : α) (n : Nat) (b : α) (m : Map α) : mget d (mput n b m) n = b := by
  induction m with
  | nil => simp [mput, mget]
  | cons e r ih =>
    obtain ⟨k, a⟩ := e
    by_cases hk : n = k
    · simp [mput, mget, hk]
    · by_cases hl : n < k <;> simp [mput, mget, hk, hl, ih]

theorem mget_mput_other (d : α) {n j : Nat} (h : j ≠ n) (b : α) (m : Map α) : mget d (mput n b m) j = mget d m j := by
  induction m with
  | nil => simp [mput, mget, h]
  | cons e r ih =>
    obtain ⟨k, a⟩ := e
    by_cases hk : n = k
    · subst hk; simp [mput, mget, h]
    · by_cases hl : n < k <;> simp [mput, mget, hk, hl, h, ih]

variable [DecidableEq α]

@[simp] theorem mget_mset_same (d : α) (m : Map α) (n : Nat) (b : α) : mget d (mset d m n b) n = b := by
  unfold mset
  split
  · next h => rw [mget_mdel_same, h]
  · exact mget_mput_same d n b m

theorem mget_mset_other (d : α) (m : Map α) {n j : Nat} (h : j ≠ n) (b : α) : mget d (mset d m n b) j = mget d m j := by
  unfold mset
  split
  · exact mget_mdel_other d h m
  · exact mget_mput_other d h b m

/-- Reading a table after one entry was set. -/
theorem mget_mset (d : α) (m : Map α) (n j : Nat) (b : α) : mget d (mset d m n b) j = if j = n then b else mget d m j := by
  split
  · next h => rw [h, mget_mset_same]
  · next h => exact mget_mset_other d m h b

@[simp] theorem mget_mmod_same (d : α) (m : Map α) (n : Nat) (f : α → α) : mget d (mmod d m n f) n = f (mget d m n) :=
  mget_mset_same d m n _
theorem mget_mmod_other (d : α) (m : Map α) {n j : Nat} (h : j ≠ n) (f : α → α) : mget d (mmod d m n f) j = mget d m j :=
  mget_mset_other d m h _
end

/-! ## Fields of the machine -/

section
variable (m : Mach) (c s : Nat) (g : Group)
@[simp] theorem setGrp_mem : (setGrp m c s g).mem = m.mem := rfl
@[simp] theorem setGrp_hist : (setGrp m c s g).hist = m.hist := rfl
@[simp] theorem setGrp_bad : (setGrp m c s g).bad = m.bad := rfl
@[simp] theorem setGrp_l2 : (setGrp m c s g).l2 = m.l2 := rfl
@[simp] theorem setGrp_dirty : (setGrp m c s g).dirty = m.dirty := rfl
@[simp] theorem setGrp_leaseEnd : (setGrp m c s g).leaseEnd = m.leaseEnd := rfl
@[simp] theorem setGrp_tlb : (setGrp m c s g).tlb = m.tlb := rfl
@[simp] theorem setGrp_host : (setGrp m c s g).host = m.host := rfl
@[simp] theorem setGrp_hostData : (setGrp m c s g).hostData = m.hostData := rfl
@[simp] theorem setGrp_sysOut : (setGrp m c s g).sysOut = m.sysOut := rfl
@[simp] theorem setGrp_orphans : (setGrp m c s g).orphans = m.orphans := rfl
@[simp] theorem setGrp_abandoned : (setGrp m c s g).abandoned = m.abandoned := rfl
@[simp] theorem setGrp_cores : (setGrp m c s g).cores = m.cores := rfl
@[simp] theorem setGrp_clusters : (setGrp m c s g).clusters = m.clusters := rfl
@[simp] theorem setGrp_vfst : (setGrp m c s g).vfst = m.vfst := rfl
@[simp] theorem setGrp_saved : (setGrp m c s g).saved = m.saved := rfl
@[simp] theorem setGrp_yards : (setGrp m c s g).yards = m.yards := rfl
@[simp] theorem setGrp_now : (setGrp m c s g).now = m.now := rfl
@[simp] theorem setGrp_rowStart : (setGrp m c s g).rowStart = m.rowStart := rfl
@[simp] theorem setGrp_nextUid : (setGrp m c s g).nextUid = m.nextUid := rfl
@[simp] theorem setGrp_act : (setGrp m c s g).act = m.act := rfl
@[simp] theorem setGrp_tick : (setGrp m c s g).tick = m.tick := rfl
end

section
variable (m : Mach) (c s : Nat) (f : Group → Group)
@[simp] theorem modGrp_mem : (modGrp m c s f).mem = m.mem := rfl
@[simp] theorem modGrp_hist : (modGrp m c s f).hist = m.hist := rfl
@[simp] theorem modGrp_bad : (modGrp m c s f).bad = m.bad := rfl
@[simp] theorem modGrp_l2 : (modGrp m c s f).l2 = m.l2 := rfl
@[simp] theorem modGrp_dirty : (modGrp m c s f).dirty = m.dirty := rfl
@[simp] theorem modGrp_leaseEnd : (modGrp m c s f).leaseEnd = m.leaseEnd := rfl
@[simp] theorem modGrp_tlb : (modGrp m c s f).tlb = m.tlb := rfl
@[simp] theorem modGrp_host : (modGrp m c s f).host = m.host := rfl
@[simp] theorem modGrp_hostData : (modGrp m c s f).hostData = m.hostData := rfl
@[simp] theorem modGrp_sysOut : (modGrp m c s f).sysOut = m.sysOut := rfl
@[simp] theorem modGrp_orphans : (modGrp m c s f).orphans = m.orphans := rfl
@[simp] theorem modGrp_abandoned : (modGrp m c s f).abandoned = m.abandoned := rfl
@[simp] theorem modGrp_cores : (modGrp m c s f).cores = m.cores := rfl
@[simp] theorem modGrp_clusters : (modGrp m c s f).clusters = m.clusters := rfl
@[simp] theorem modGrp_vfst : (modGrp m c s f).vfst = m.vfst := rfl
@[simp] theorem modGrp_saved : (modGrp m c s f).saved = m.saved := rfl
@[simp] theorem modGrp_yards : (modGrp m c s f).yards = m.yards := rfl
@[simp] theorem modGrp_now : (modGrp m c s f).now = m.now := rfl
@[simp] theorem modGrp_rowStart : (modGrp m c s f).rowStart = m.rowStart := rfl
@[simp] theorem modGrp_nextUid : (modGrp m c s f).nextUid = m.nextUid := rfl
@[simp] theorem modGrp_act : (modGrp m c s f).act = m.act := rfl
@[simp] theorem modGrp_tick : (modGrp m c s f).tick = m.tick := rfl
end

section
variable (m : Mach) (f : Group → Group)
@[simp] theorem modMe_mem : (modMe m f).mem = m.mem := rfl
@[simp] theorem modMe_hist : (modMe m f).hist = m.hist := rfl
@[simp] theorem modMe_bad : (modMe m f).bad = m.bad := rfl
@[simp] theorem modMe_l2 : (modMe m f).l2 = m.l2 := rfl
@[simp] theorem modMe_dirty : (modMe m f).dirty = m.dirty := rfl
@[simp] theorem modMe_leaseEnd : (modMe m f).leaseEnd = m.leaseEnd := rfl
@[simp] theorem modMe_tlb : (modMe m f).tlb = m.tlb := rfl
@[simp] theorem modMe_host : (modMe m f).host = m.host := rfl
@[simp] theorem modMe_hostData : (modMe m f).hostData = m.hostData := rfl
@[simp] theorem modMe_sysOut : (modMe m f).sysOut = m.sysOut := rfl
@[simp] theorem modMe_orphans : (modMe m f).orphans = m.orphans := rfl
@[simp] theorem modMe_abandoned : (modMe m f).abandoned = m.abandoned := rfl
@[simp] theorem modMe_cores : (modMe m f).cores = m.cores := rfl
@[simp] theorem modMe_clusters : (modMe m f).clusters = m.clusters := rfl
@[simp] theorem modMe_vfst : (modMe m f).vfst = m.vfst := rfl
@[simp] theorem modMe_saved : (modMe m f).saved = m.saved := rfl
@[simp] theorem modMe_yards : (modMe m f).yards = m.yards := rfl
@[simp] theorem modMe_now : (modMe m f).now = m.now := rfl
@[simp] theorem modMe_rowStart : (modMe m f).rowStart = m.rowStart := rfl
@[simp] theorem modMe_nextUid : (modMe m f).nextUid = m.nextUid := rfl
@[simp] theorem modMe_act : (modMe m f).act = m.act := rfl
@[simp] theorem modMe_tick : (modMe m f).tick = m.tick := rfl
end

section
variable (m : Mach) (c : Nat) (f : Core → Core)
@[simp] theorem modCore_mem : (modCore m c f).mem = m.mem := rfl
@[simp] theorem modCore_hist : (modCore m c f).hist = m.hist := rfl
@[simp] theorem modCore_bad : (modCore m c f).bad = m.bad := rfl
@[simp] theorem modCore_l2 : (modCore m c f).l2 = m.l2 := rfl
@[simp] theorem modCore_dirty : (modCore m c f).dirty = m.dirty := rfl
@[simp] theorem modCore_leaseEnd : (modCore m c f).leaseEnd = m.leaseEnd := rfl
@[simp] theorem modCore_tlb : (modCore m c f).tlb = m.tlb := rfl
@[simp] theorem modCore_host : (modCore m c f).host = m.host := rfl
@[simp] theorem modCore_hostData : (modCore m c f).hostData = m.hostData := rfl
@[simp] theorem modCore_sysOut : (modCore m c f).sysOut = m.sysOut := rfl
@[simp] theorem modCore_orphans : (modCore m c f).orphans = m.orphans := rfl
@[simp] theorem modCore_abandoned : (modCore m c f).abandoned = m.abandoned := rfl
@[simp] theorem modCore_clusters : (modCore m c f).clusters = m.clusters := rfl
@[simp] theorem modCore_groups : (modCore m c f).groups = m.groups := rfl
@[simp] theorem modCore_vfst : (modCore m c f).vfst = m.vfst := rfl
@[simp] theorem modCore_saved : (modCore m c f).saved = m.saved := rfl
@[simp] theorem modCore_yards : (modCore m c f).yards = m.yards := rfl
@[simp] theorem modCore_now : (modCore m c f).now = m.now := rfl
@[simp] theorem modCore_rowStart : (modCore m c f).rowStart = m.rowStart := rfl
@[simp] theorem modCore_nextUid : (modCore m c f).nextUid = m.nextUid := rfl
@[simp] theorem modCore_act : (modCore m c f).act = m.act := rfl
@[simp] theorem modCore_tick : (modCore m c f).tick = m.tick := rfl
end

section
variable (m : Mach) (k : Nat) (f : Cluster → Cluster)
@[simp] theorem modClus_mem : (modClus m k f).mem = m.mem := rfl
@[simp] theorem modClus_hist : (modClus m k f).hist = m.hist := rfl
@[simp] theorem modClus_bad : (modClus m k f).bad = m.bad := rfl
@[simp] theorem modClus_l2 : (modClus m k f).l2 = m.l2 := rfl
@[simp] theorem modClus_dirty : (modClus m k f).dirty = m.dirty := rfl
@[simp] theorem modClus_leaseEnd : (modClus m k f).leaseEnd = m.leaseEnd := rfl
@[simp] theorem modClus_tlb : (modClus m k f).tlb = m.tlb := rfl
@[simp] theorem modClus_host : (modClus m k f).host = m.host := rfl
@[simp] theorem modClus_hostData : (modClus m k f).hostData = m.hostData := rfl
@[simp] theorem modClus_sysOut : (modClus m k f).sysOut = m.sysOut := rfl
@[simp] theorem modClus_orphans : (modClus m k f).orphans = m.orphans := rfl
@[simp] theorem modClus_abandoned : (modClus m k f).abandoned = m.abandoned := rfl
@[simp] theorem modClus_cores : (modClus m k f).cores = m.cores := rfl
@[simp] theorem modClus_groups : (modClus m k f).groups = m.groups := rfl
@[simp] theorem modClus_vfst : (modClus m k f).vfst = m.vfst := rfl
@[simp] theorem modClus_saved : (modClus m k f).saved = m.saved := rfl
@[simp] theorem modClus_yards : (modClus m k f).yards = m.yards := rfl
@[simp] theorem modClus_now : (modClus m k f).now = m.now := rfl
@[simp] theorem modClus_rowStart : (modClus m k f).rowStart = m.rowStart := rfl
@[simp] theorem modClus_nextUid : (modClus m k f).nextUid = m.nextUid := rfl
@[simp] theorem modClus_act : (modClus m k f).act = m.act := rfl
@[simp] theorem modClus_tick : (modClus m k f).tick = m.tick := rfl
end

section
variable (m : Mach) (v : Nat) (f : VfState → VfState)
@[simp] theorem modVf_mem : (modVf m v f).mem = m.mem := rfl
@[simp] theorem modVf_hist : (modVf m v f).hist = m.hist := rfl
@[simp] theorem modVf_bad : (modVf m v f).bad = m.bad := rfl
@[simp] theorem modVf_l2 : (modVf m v f).l2 = m.l2 := rfl
@[simp] theorem modVf_dirty : (modVf m v f).dirty = m.dirty := rfl
@[simp] theorem modVf_leaseEnd : (modVf m v f).leaseEnd = m.leaseEnd := rfl
@[simp] theorem modVf_tlb : (modVf m v f).tlb = m.tlb := rfl
@[simp] theorem modVf_host : (modVf m v f).host = m.host := rfl
@[simp] theorem modVf_hostData : (modVf m v f).hostData = m.hostData := rfl
@[simp] theorem modVf_sysOut : (modVf m v f).sysOut = m.sysOut := rfl
@[simp] theorem modVf_orphans : (modVf m v f).orphans = m.orphans := rfl
@[simp] theorem modVf_abandoned : (modVf m v f).abandoned = m.abandoned := rfl
@[simp] theorem modVf_cores : (modVf m v f).cores = m.cores := rfl
@[simp] theorem modVf_clusters : (modVf m v f).clusters = m.clusters := rfl
@[simp] theorem modVf_groups : (modVf m v f).groups = m.groups := rfl
@[simp] theorem modVf_saved : (modVf m v f).saved = m.saved := rfl
@[simp] theorem modVf_yards : (modVf m v f).yards = m.yards := rfl
@[simp] theorem modVf_now : (modVf m v f).now = m.now := rfl
@[simp] theorem modVf_rowStart : (modVf m v f).rowStart = m.rowStart := rfl
@[simp] theorem modVf_nextUid : (modVf m v f).nextUid = m.nextUid := rfl
@[simp] theorem modVf_act : (modVf m v f).act = m.act := rfl
@[simp] theorem modVf_tick : (modVf m v f).tick = m.tick := rfl
end

section
variable (m : Mach) (y : Nat) (f : YardRun → YardRun)
@[simp] theorem modYrun_mem : (modYrun m y f).mem = m.mem := rfl
@[simp] theorem modYrun_hist : (modYrun m y f).hist = m.hist := rfl
@[simp] theorem modYrun_bad : (modYrun m y f).bad = m.bad := rfl
@[simp] theorem modYrun_l2 : (modYrun m y f).l2 = m.l2 := rfl
@[simp] theorem modYrun_dirty : (modYrun m y f).dirty = m.dirty := rfl
@[simp] theorem modYrun_leaseEnd : (modYrun m y f).leaseEnd = m.leaseEnd := rfl
@[simp] theorem modYrun_tlb : (modYrun m y f).tlb = m.tlb := rfl
@[simp] theorem modYrun_host : (modYrun m y f).host = m.host := rfl
@[simp] theorem modYrun_hostData : (modYrun m y f).hostData = m.hostData := rfl
@[simp] theorem modYrun_sysOut : (modYrun m y f).sysOut = m.sysOut := rfl
@[simp] theorem modYrun_orphans : (modYrun m y f).orphans = m.orphans := rfl
@[simp] theorem modYrun_abandoned : (modYrun m y f).abandoned = m.abandoned := rfl
@[simp] theorem modYrun_cores : (modYrun m y f).cores = m.cores := rfl
@[simp] theorem modYrun_clusters : (modYrun m y f).clusters = m.clusters := rfl
@[simp] theorem modYrun_groups : (modYrun m y f).groups = m.groups := rfl
@[simp] theorem modYrun_vfst : (modYrun m y f).vfst = m.vfst := rfl
@[simp] theorem modYrun_saved : (modYrun m y f).saved = m.saved := rfl
@[simp] theorem modYrun_now : (modYrun m y f).now = m.now := rfl
@[simp] theorem modYrun_rowStart : (modYrun m y f).rowStart = m.rowStart := rfl
@[simp] theorem modYrun_nextUid : (modYrun m y f).nextUid = m.nextUid := rfl
@[simp] theorem modYrun_act : (modYrun m y f).act = m.act := rfl
@[simp] theorem modYrun_tick : (modYrun m y f).tick = m.tick := rfl
end

/-! ## Parts of the machine -/

@[simp] theorem core_setGrp (m : Mach) (c s : Nat) (g : Group) (c' : Nat) : core (setGrp m c s g) c' = core m c' := rfl
@[simp] theorem clus_setGrp (m : Mach) (c s : Nat) (g : Group) (k' : Nat) : clus (setGrp m c s g) k' = clus m k' := rfl
@[simp] theorem vfst_setGrp (m : Mach) (c s : Nat) (g : Group) (v' : Nat) : vfst (setGrp m c s g) v' = vfst m v' := rfl
@[simp] theorem yrun_setGrp (m : Mach) (c s : Nat) (g : Group) (y' : Nat) : yrun (setGrp m c s g) y' = yrun m y' := rfl
@[simp] theorem core_modGrp (m : Mach) (c s : Nat) (f : Group → Group) (c' : Nat) : core (modGrp m c s f) c' = core m c' := rfl
@[simp] theorem clus_modGrp (m : Mach) (c s : Nat) (f : Group → Group) (k' : Nat) : clus (modGrp m c s f) k' = clus m k' := rfl
@[simp] theorem vfst_modGrp (m : Mach) (c s : Nat) (f : Group → Group) (v' : Nat) : vfst (modGrp m c s f) v' = vfst m v' := rfl
@[simp] theorem yrun_modGrp (m : Mach) (c s : Nat) (f : Group → Group) (y' : Nat) : yrun (modGrp m c s f) y' = yrun m y' := rfl
@[simp] theorem core_modMe (m : Mach) (f : Group → Group) (c' : Nat) : core (modMe m f) c' = core m c' := rfl
@[simp] theorem clus_modMe (m : Mach) (f : Group → Group) (k' : Nat) : clus (modMe m f) k' = clus m k' := rfl
@[simp] theorem vfst_modMe (m : Mach) (f : Group → Group) (v' : Nat) : vfst (modMe m f) v' = vfst m v' := rfl
@[simp] theorem yrun_modMe (m : Mach) (f : Group → Group) (y' : Nat) : yrun (modMe m f) y' = yrun m y' := rfl
@[simp] theorem grp_modCore (m : Mach) (c : Nat) (f : Core → Core) (c' s' : Nat) : grp (modCore m c f) c' s' = grp m c' s' := rfl
@[simp] theorem clus_modCore (m : Mach) (c : Nat) (f : Core → Core) (k' : Nat) : clus (modCore m c f) k' = clus m k' := rfl
@[simp] theorem vfst_modCore (m : Mach) (c : Nat) (f : Core → Core) (v' : Nat) : vfst (modCore m c f) v' = vfst m v' := rfl
@[simp] theorem yrun_modCore (m : Mach) (c : Nat) (f : Core → Core) (y' : Nat) : yrun (modCore m c f) y' = yrun m y' := rfl
@[simp] theorem me_modCore (m : Mach) (c : Nat) (f : Core → Core) : me (modCore m c f) = me m := rfl
@[simp] theorem grp_modClus (m : Mach) (k : Nat) (f : Cluster → Cluster) (c' s' : Nat) : grp (modClus m k f) c' s' = grp m c' s' := rfl
@[simp] theorem core_modClus (m : Mach) (k : Nat) (f : Cluster → Cluster) (c' : Nat) : core (modClus m k f) c' = core m c' := rfl
@[simp] theorem vfst_modClus (m : Mach) (k : Nat) (f : Cluster → Cluster) (v' : Nat) : vfst (modClus m k f) v' = vfst m v' := rfl
@[simp] theorem yrun_modClus (m : Mach) (k : Nat) (f : Cluster → Cluster) (y' : Nat) : yrun (modClus m k f) y' = yrun m y' := rfl
@[simp] theorem me_modClus (m : Mach) (k : Nat) (f : Cluster → Cluster) : me (modClus m k f) = me m := rfl
@[simp] theorem grp_modVf (m : Mach) (v : Nat) (f : VfState → VfState) (c' s' : Nat) : grp (modVf m v f) c' s' = grp m c' s' := rfl
@[simp] theorem core_modVf (m : Mach) (v : Nat) (f : VfState → VfState) (c' : Nat) : core (modVf m v f) c' = core m c' := rfl
@[simp] theorem clus_modVf (m : Mach) (v : Nat) (f : VfState → VfState) (k' : Nat) : clus (modVf m v f) k' = clus m k' := rfl
@[simp] theorem yrun_modVf (m : Mach) (v : Nat) (f : VfState → VfState) (y' : Nat) : yrun (modVf m v f) y' = yrun m y' := rfl
@[simp] theorem me_modVf (m : Mach) (v : Nat) (f : VfState → VfState) : me (modVf m v f) = me m := rfl
@[simp] theorem grp_modYrun (m : Mach) (y : Nat) (f : YardRun → YardRun) (c' s' : Nat) : grp (modYrun m y f) c' s' = grp m c' s' := rfl
@[simp] theorem core_modYrun (m : Mach) (y : Nat) (f : YardRun → YardRun) (c' : Nat) : core (modYrun m y f) c' = core m c' := rfl
@[simp] theorem clus_modYrun (m : Mach) (y : Nat) (f : YardRun → YardRun) (k' : Nat) : clus (modYrun m y f) k' = clus m k' := rfl
@[simp] theorem vfst_modYrun (m : Mach) (y : Nat) (f : YardRun → YardRun) (v' : Nat) : vfst (modYrun m y f) v' = vfst m v' := rfl
@[simp] theorem me_modYrun (m : Mach) (y : Nat) (f : YardRun → YardRun) : me (modYrun m y f) = me m := rfl

@[simp] theorem grp_setGrp_same (m : Mach) (c s : Nat) (g : Group) : grp (setGrp m c s g) c s = g := mget_mset_same ..
theorem grp_setGrp_other (m : Mach) {c s c' s' : Nat} (h : gkey c' s' ≠ gkey c s) (g : Group) :
    grp (setGrp m c s g) c' s' = grp m c' s' := mget_mset_other _ _ h _
@[simp] theorem grp_modGrp_same (m : Mach) (c s : Nat) (f : Group → Group) : grp (modGrp m c s f) c s = f (grp m c s) :=
  grp_setGrp_same ..
theorem grp_modGrp_other (m : Mach) {c s c' s' : Nat} (h : gkey c' s' ≠ gkey c s) (f : Group → Group) :
    grp (modGrp m c s f) c' s' = grp m c' s' := grp_setGrp_other _ h _
@[simp] theorem me_modMe (m : Mach) (f : Group → Group) : me (modMe m f) = f (me m) := grp_modGrp_same ..
@[simp] theorem core_modCore_same (m : Mach) (c : Nat) (f : Core → Core) : core (modCore m c f) c = f (core m c) := mget_mset_same ..
theorem core_modCore_other (m : Mach) {c c' : Nat} (h : c' ≠ c) (f : Core → Core) : core (modCore m c f) c' = core m c' :=
  mget_mset_other _ _ h _
@[simp] theorem clus_modClus_same (m : Mach) (k : Nat) (f : Cluster → Cluster) : clus (modClus m k f) k = f (clus m k) :=
  mget_mset_same ..
theorem clus_modClus_other (m : Mach) {k k' : Nat} (h : k' ≠ k) (f : Cluster → Cluster) : clus (modClus m k f) k' = clus m k' :=
  mget_mset_other _ _ h _
@[simp] theorem vfst_modVf_same (m : Mach) (v : Nat) (f : VfState → VfState) : vfst (modVf m v f) v = f (vfst m v) := mget_mset_same ..
theorem vfst_modVf_other (m : Mach) {v v' : Nat} (h : v' ≠ v) (f : VfState → VfState) : vfst (modVf m v f) v' = vfst m v' :=
  mget_mset_other _ _ h _
@[simp] theorem yrun_modYrun_same (m : Mach) (y : Nat) (f : YardRun → YardRun) : yrun (modYrun m y f) y = f (yrun m y) :=
  mget_mset_same ..
theorem yrun_modYrun_other (m : Mach) {y y' : Nat} (h : y' ≠ y) (f : YardRun → YardRun) : yrun (modYrun m y f) y' = yrun m y' :=
  mget_mset_other _ _ h _

/-! ## Registers (R28 to R33) -/

theorem getX_putX (g : Group) (i j : Nat) (v : Word) : getX (putX g i v) j = if j = i ∧ i ≠ 0 then v else getX g j := by
  by_cases hi : i = 0
  · simp [putX, putReg, hi]
  · by_cases hj : j = i
    · subst hj; simp [putX, putReg, getX, hi]
    · simp [putX, putReg, getX, hi, hj, mget_mset_other]
theorem getP_putP (g : Group) (i j : Nat) (b : Bool) : getP (putP g i b) j = if j = i ∧ i ≠ 0 then b else getP g j := by
  by_cases hi : i = 0
  · simp [putP, putReg, hi]
  · by_cases hj : j = i
    · subst hj; cases b <;> simp [putP, putReg, getP, hi]
    · cases b <;> simp [putP, putReg, getP, hi, hj, mget_mset_other]
/-- A write of an x register leaves it full, and every other full bit alone (R33). -/
theorem getFe_putX (g : Group) (i : Nat) (v : Word) (r : Reg) : getFe (putX g i v) r = if r = .x i then .full else getFe g r := by
  by_cases hi : i = 0
  · subst hi; cases r with
    | x j => by_cases hj : j = 0 <;> simp [putX, putReg, getFe, hj]
    | _ => rfl
  · cases r with
    | x j => by_cases hj : j = i <;> simp_all [putX, putReg, getFe, mget_mset_other]
    | _ => simp [putX, putReg, getFe, hi]

end Sys2Proof.Machine
end

