-- ==== Sys2Proof/Laws/Retire.lean ====
section
/-! SUPPORT. What retiring an instruction, suspending a clause and reading sources can do. -/

namespace Sys2Proof.Machine

theorem OnlyActing.refl (m : Mach) : OnlyActing m m := ⟨rfl, fun _ _ => rfl, fun _ => rfl, fun _ => rfl, fun _ => rfl⟩

theorem OnlyActing.act {m n : Mach} (h : OnlyActing m n) : n.act = m.act := by rw [h.parts]

theorem OnlyActing.mem {m n : Mach} (h : OnlyActing m n) : n.mem = m.mem := by rw [h.parts]

theorem OnlyActing.trans {m n p : Mach} (h : OnlyActing m n) (k : OnlyActing n p) : OnlyActing m p where
  parts := by rw [k.parts, h.parts]
  groups j hj := by rw [k.groups j (by rwa [h.act]), h.groups j hj]
  cores c := by rw [k.cores c, h.cores c]
  counts v := by rw [k.counts v, h.counts v]
  bytes a := by rw [k.bytes, h.bytes]

/-- An update of the acting group alone. -/
theorem onlyActing_modMe (m : Mach) (f : Group → Group) : OnlyActing m (modMe m f) where
  parts := rfl
  groups _ hk := mget_mset_other _ _ hk _
  cores _ := rfl
  counts _ := rfl
  bytes _ := rfl

/-- An update of what the core's issue slot issues. -/
theorem onlyActing_modCore (m : Mach) (c : Nat) (f : Core → Core)
    (h : f (core m c) = { core m c with issue := (f (core m c)).issue, last := (f (core m c)).last }) : OnlyActing m (modCore m c f) where
  parts := rfl
  groups _ _ := rfl
  cores d := by
    by_cases hd : d = c
    · subst hd; rw [core_modCore_same]; exact h
    · rw [core_modCore_other m hd]
  counts _ := rfl
  bytes _ := rfl

@[simp] theorem me_countN (m : Mach) (v e n : Nat) : me (countN m v e n) = me m := by unfold countN; dsimp only; split <;> rfl
@[simp] theorem act_countN (m : Mach) (v e n : Nat) : (countN m v e n).act = m.act := by unfold countN; dsimp only; split <;> rfl
@[simp] theorem mem_countN (m : Mach) (v e n : Nat) : (countN m v e n).mem = m.mem := by unfold countN; dsimp only; split <;> rfl
theorem onlyActing_countN (m : Mach) (v e n : Nat) : OnlyActing m (countN m v e n) := by
  unfold countN
  dsimp only
  split
  · exact .refl m
  · refine ⟨rfl, fun _ _ => rfl, fun _ => rfl, fun u => ?_, fun _ => rfl⟩
    by_cases hu : u = v
    · subst hu; rw [vfst_modVf_same]
    · rw [vfst_modVf_other m hu]

/-- Retiring an instruction moves the control stream on, and changes nothing else. -/
theorem retireC_acts (m : Mach) (h : (me m).stepping = false) :
    OnlyActing m (retireC m) ∧ me (retireC m) = afterWord m.act (me m) := by
  unfold retireC advanceC countInstr count1 afterWord
  simp only [act_countN]
  split
  · refine ⟨(onlyActing_countN _ _ _ _).trans ((onlyActing_modMe _ _).trans (onlyActing_modCore _ _ _ rfl)), ?_⟩
    rw [me_modCore, me_modMe, me_countN]
  · unfold gotoC endIssue freeIssue afterClause
    have hs : ∀ (m : Mach) f, (me (modCore m m.act.core f)).stepping = (me m).stepping := fun _ _ => rfl
    rw [if_neg (by rw [hs]; simp [h])]
    refine ⟨(onlyActing_countN _ _ _ _).trans ((onlyActing_modMe _ _).trans (onlyActing_modCore _ _ _ rfl)), ?_⟩
    rw [me_modCore, me_modMe, me_countN]

/-- A suspended clause leaves the issue slot, its instruction without effect (R256). -/
theorem suspendC_acts (m : Mach) (w : Wait) : OnlyActing m (suspendC m w) ∧ me (suspendC m w) = { me m with waitC := some w } := by
  unfold suspendC leaveIssue freeIssue
  exact ⟨(onlyActing_modMe _ _).trans (onlyActing_modCore _ _ _ rfl), by rw [me_modCore, me_modMe]⟩

/-- An update of the acting group changes that group and nothing else. -/
theorem meOnly_modMe (s : State) (f : Group → Group) : MeOnly s { s with m := modMe s.m f } (f (me s.m)) :=
  ⟨rfl, fun _ hk => mget_mset_other _ _ hk _, me_modMe _ _⟩
theorem GroupOnly.trans {s t u : State} {c sl : Nat} {g h : Group} (a : GroupOnly s t c sl g) (b : GroupOnly t u c sl h) : GroupOnly s u c sl h :=
  ⟨by rw [b.1, a.1], fun k hk => by rw [b.2.1 k hk, a.2.1 k hk], b.2.2⟩

theorem withPred_true {s : State} {pn : Bool} {ps : BitVec 3} (h : PredTrue s pn ps) (k : Mach → Mach) : withPred pn ps k s.m = k s.m := by
  unfold withPred
  rcases h with h | ⟨h, hp⟩
  · simp [h]
  · split
    · rfl
    · simp [h, hp]

/-- A false predicate: the instruction has no effect but to move the control stream on (R59). -/
theorem withPred_false {m : Mach} {pn : Bool} {ps : BitVec 3} (h0 : ps ≠ 0) (h : getFe (me m) (.p ps.toNat) = .full)
    (hp : getP (me m) ps.toNat = pn) (k : Mach → Mach) : withPred pn ps k m = retireC m := by
  unfold withPred
  simp_all

theorem withSrcs_full {m : Mach} {srcs : List CSrc} (h : firstEmpty (me m) [] srcs = none) (k : Mach → Mach) :
    withSrcs srcs k m = k (modMe m (absorbSrcs srcs)) := by unfold withSrcs; rw [h]

end Sys2Proof.Machine
end

