-- ==== Sys2Proof/Laws/Operands.lean ====
section
/-! SUPPORT. What reading the sources of an instruction can do, and the scalar instructions' whole effect once each. -/

namespace Sys2Proof.Machine

/-- Reading a register takes on what its fill brought, and changes neither full/empty bits nor the step mark. -/
theorem absorbReg_keep (g : Group) (b r es) : (absorbReg g b r es).stepping = g.stepping ∧ ∀ q, getFe (absorbReg g b r es) q = getFe g q := by
  unfold absorbReg
  have h : ∀ (l : List PendKnow) (g : Group), (l.foldl (fun a k => learn a k.vis) g).stepping = g.stepping ∧ ∀ q, getFe (l.foldl (fun a k => learn a k.vis) g) q = getFe g q := by
    intro l; induction l with
    | nil => intro g; exact ⟨rfl, fun _ => rfl⟩
    | cons a l ih => intro g; exact ⟨(ih _).1, fun q => by rw [List.foldl_cons, (ih _).2]; cases q <;> rfl⟩
  exact h _ g
/-- The same for all sources of an instruction. -/
theorem absorbSrcs_keep (srcs : List CSrc) (g : Group) : (absorbSrcs srcs g).stepping = g.stepping ∧ ∀ q, getFe (absorbSrcs srcs g) q = getFe g q := by
  unfold absorbSrcs
  induction srcs generalizing g with
  | nil => exact ⟨rfl, fun _ => rfl⟩
  | cons a l ih =>
    simp only [List.foldl_cons]
    have h : ∀ g', (g'.stepping = g.stepping ∧ ∀ q, getFe g' q = getFe g q) → ((l.foldl (fun g s => match s with
    | .r c _ => if c.toNat < 0x80 then absorbReg g true c.toNat [] else g
    | .v is es _ => is.foldl (fun g i => absorbReg g false i es) g) g').stepping = g.stepping ∧ ∀ q, getFe (l.foldl (fun g s => match s with
    | .r c _ => if c.toNat < 0x80 then absorbReg g true c.toNat [] else g
    | .v is es _ => is.foldl (fun g i => absorbReg g false i es) g) g') q = getFe g q) := fun g' hg => ⟨(ih g').1.trans hg.1, fun q => ((ih g').2 q).trans (hg.2 q)⟩
    apply h
    cases a with
    | r c t => dsimp only; split
               · exact absorbReg_keep _ _ _ _
               · exact ⟨rfl, fun _ => rfl⟩
    | v is es t =>
      dsimp only
      clear h ih
      induction is generalizing g with
      | nil => exact ⟨rfl, fun _ => rfl⟩
      | cons b r ih2 => exact ⟨(ih2 _).1.trans (absorbReg_keep _ _ _ _).1, fun q => ((ih2 _).2 q).trans ((absorbReg_keep _ _ _ _).2 q)⟩
/-- Taking one source, from a queue too, changes the acting group alone. -/
theorem takeX_acts (mg : Mgmt) (c : BitVec 8) (m : Mach) : OnlyActing m (takeX mg c m).2 ∧ (me (takeX mg c m).2).stepping = (me m).stepping := by
  unfold takeX popK popQout
  dsimp only
  split
  · exact ⟨.refl m, rfl⟩
  split
  · exact ⟨.refl m, rfl⟩
  split
  · split <;> (refine ⟨?_, ?_⟩ <;> dsimp only) <;> first | exact onlyActing_modMe _ _ | simp
  split
  · split <;> (refine ⟨?_, ?_⟩ <;> dsimp only) <;> first | exact onlyActing_modMe _ _ | simp
  · exact ⟨.refl m, rfl⟩
/-- The same for all sources. -/
theorem takeXs_acts (mg : Mgmt) (cs : List (BitVec 8)) (m : Mach) : OnlyActing m (takeXs mg cs m).2 ∧ (me (takeXs mg cs m).2).stepping = (me m).stepping := by
  induction cs generalizing m with
  | nil => exact ⟨.refl m, rfl⟩
  | cons c r ih =>
    have h1 := takeX_acts mg c m
    have h2 := ih (takeX mg c m).2
    exact ⟨h1.1.trans h2.1, h2.2.trans h1.2⟩
/-- A destination below 0x80 is an x register. -/
theorem writeSys_x (mg : Mgmt) (d : BitVec 8) (h : d.toNat < 0x80) (v : Word) (m : Mach) :
    writeSys mg d v m = modMe m fun g => putX g d.toNat v := by
  unfold writeSys
  split <;> first | omega | simp [h]
theorem sysDstWait_x (mg : Mgmt) (d : BitVec 8) (h : d.toNat < 0x80) (v : Word) (m : Mach) (hc : getFe (me m) (.x d.toNat) ≠ .claimed) :
    sysDstWait mg m d v = none := by
  unfold sysDstWait
  dsimp only
  split <;> first | omega | simp [h, hc]
theorem putX_stepping (g : Group) (i v) : (putX g i v).stepping = g.stepping := by
  unfold putX putReg; dsimp only; split <;> rfl
/-- An integer instruction with a true predicate, full sources and an unclaimed destination writes its result and retires. -/
theorem scalarInstr_next {s : State} {pn ps d srcs} {f : List Word → Word} (hp : PredTrue s pn ps) (hs : SrcsFull s srcs) (hu : Unstepped s)
    (hd : d.toNat < 0x80) (hq : srcs.all (fun p => p.1 != 0xC9) = true) (hc : getFe (me s.m) (.x d.toNat) ≠ .claimed) :
    ∃ t, scalarInstr pn ps d srcs f s = .next t ∧ ActsOnly s t
      (afterWord s.m.act (putX (me (readSrcs s srcs).2) d.toNat (f (readSrcs s srcs).1))) := by
  refine ⟨_, rfl, rfl, ?_⟩
  dsimp only
  rw [withPred_true hp, show srcs.map (fun p => CSrc.r p.1 p.2) = fields srcs from rfl, withSrcs_full hs]
  have hq2 : (srcs.any fun p => p.1 == 0xC9) = false := by
    rw [List.any_eq_false]; intro p hp; have := List.all_eq_true.mp hq p hp; simpa using this
  have hw : ∀ v, sysDstWait s.mgmt (modMe s.m (absorbSrcs (fields srcs))) d v = none := fun v =>
    sysDstWait_x s.mgmt d hd v _ (by rw [me_modMe, (absorbSrcs_keep _ _).2]; exact hc)
  simp only [deliver]
  erw [hw]
  simp only [hq2, Bool.false_and, Bool.false_eq_true, if_false, writeSys_x _ _ hd]
  have h0 := onlyActing_modMe s.m (absorbSrcs (fields srcs))
  have h1 := takeXs_acts s.mgmt (srcs.map Prod.fst) (modMe s.m (absorbSrcs (fields srcs)))
  rw [me_modMe, (absorbSrcs_keep _ _).1] at h1
  have h2 := h0.trans h1.1
  have h3 := onlyActing_modMe (readSrcs s srcs).2 (fun g => putX g d.toNat (f (readSrcs s srcs).1))
  have h4 := retireC_acts (modMe (readSrcs s srcs).2 fun g => putX g d.toNat (f (readSrcs s srcs).1)) (by
    rw [me_modMe, putX_stepping]; exact h1.2.trans hu)
  refine ⟨h2.trans (h3.trans h4.1), h4.2.trans ?_⟩
  rw [me_modMe]
  have : (modMe (readSrcs s srcs).2 fun g => putX g d.toNat (f (readSrcs s srcs).1)).act = s.m.act := (h2.trans h3).act
  rw [this]
theorem putReg_stepping (g : Group) (r v) : (putReg g r v).stepping = g.stepping := by
  unfold putReg; cases r <;> dsimp only <;> (try split) <;> rfl
/-- The same for a predicate result. -/
theorem predInstr_next {s : State} {pn ps d srcs} {f : List Word → Bool} (hp : PredTrue s pn ps) (hs : SrcsFull s srcs) (hu : Unstepped s)
    (hc : getFe (me s.m) (.p (d.toNat - 0x80)) ≠ .claimed) :
    ∃ t, predInstr pn ps d srcs f s = .next t ∧ ActsOnly s t
      (afterWord s.m.act (putP (me (readSrcs s srcs).2) (d.toNat - 0x80) (f (readSrcs s srcs).1))) := by
  refine ⟨_, rfl, rfl, ?_⟩
  dsimp only
  rw [withPred_true hp, show srcs.map (fun p => CSrc.r p.1 p.2) = fields srcs from rfl, withSrcs_full hs]
  have hw : dstWait (modMe s.m (absorbSrcs (fields srcs))) [.p (d.toNat - 0x80)] = none := by
    unfold dstWait
    rw [me_modMe]; simp [(absorbSrcs_keep _ _).2, hc]
  unfold withDst
  rw [hw]
  have h0 := onlyActing_modMe s.m (absorbSrcs (fields srcs))
  have h1 := takeXs_acts s.mgmt (srcs.map Prod.fst) (modMe s.m (absorbSrcs (fields srcs)))
  rw [me_modMe, (absorbSrcs_keep _ _).1] at h1
  have h2 := h0.trans h1.1
  have h3 := onlyActing_modMe (readSrcs s srcs).2 (fun g => putP g (d.toNat - 0x80) (f (readSrcs s srcs).1))
  have h4 := retireC_acts (modMe (readSrcs s srcs).2 fun g => putP g (d.toNat - 0x80) (f (readSrcs s srcs).1)) (by
    rw [me_modMe, putP, putReg_stepping]; exact h1.2.trans hu)
  refine ⟨h2.trans (h3.trans h4.1), h4.2.trans ?_⟩
  rw [me_modMe]
  have : (modMe (readSrcs s srcs).2 fun g => putP g (d.toNat - 0x80) (f (readSrcs s srcs).1)).act = s.m.act := (h2.trans h3).act
  rw [this]
/-- The same for a floating-point result, with its flags. -/
theorem scalarFp_next {s : State} {pn ps d srcs} {f : Group → List Word → Word × BitVec 5} (hp : PredTrue s pn ps)
    (hs : SrcsFull s srcs) (hu : Unstepped s) (hc : getFe (me s.m) (.x d.toNat) ≠ .claimed) :
    ∃ t, scalarFp pn ps d srcs f s = .next t ∧ ActsOnly s t
      (let r := f (absorbSrcs (fields srcs) (me s.m)) (readSrcs s srcs).1
       afterWord s.m.act (orFlags (putX (me (readSrcs s srcs).2) d.toNat r.1) r.2)) := by
  refine ⟨_, rfl, rfl, ?_⟩
  dsimp only
  rw [withPred_true hp, show srcs.map (fun p => CSrc.r p.1 p.2) = fields srcs from rfl, withSrcs_full hs]
  have hw : dstWait (modMe s.m (absorbSrcs (fields srcs))) [.x d.toNat] = none := by
    unfold dstWait
    rw [me_modMe]; simp [(absorbSrcs_keep _ _).2, hc]
  unfold withDst
  rw [hw]
  have h0 := onlyActing_modMe s.m (absorbSrcs (fields srcs))
  have h1 := takeXs_acts s.mgmt (srcs.map Prod.fst) (modMe s.m (absorbSrcs (fields srcs)))
  rw [me_modMe, (absorbSrcs_keep _ _).1] at h1
  have h2 := h0.trans h1.1
  have h3 := onlyActing_modMe (readSrcs s srcs).2 fun g => orFlags
    (putX g d.toNat (f (absorbSrcs (fields srcs) (me s.m)) (readSrcs s srcs).1).1)
    (f (absorbSrcs (fields srcs) (me s.m)) (readSrcs s srcs).1).2
  have h4 := retireC_acts (modMe (readSrcs s srcs).2 fun g => orFlags
    (putX g d.toNat (f (absorbSrcs (fields srcs) (me s.m)) (readSrcs s srcs).1).1)
    (f (absorbSrcs (fields srcs) (me s.m)) (readSrcs s srcs).1).2) (by
    rw [me_modMe, orFlags, putX_stepping]; exact h1.2.trans hu)
  simp only [me_modMe]
  refine ⟨h2.trans (h3.trans h4.1), h4.2.trans ?_⟩
  have e := (h2.trans h3).act
  simp only [me_modMe, e]

end Sys2Proof.Machine
end

