-- ==== Sys2Proof/Laws/PerInstr.lean ====
section
/-! SUPPORT. The encoding of each instruction, one lemma per constructor: a well-formed instruction is read back from its word. -/

set_option maxRecDepth 4096

namespace Sys2Proof

theorem extract_high {n k : Nat} (x : BitVec n) (y : BitVec k) {l : Nat} (w : Nat) (h : k ≤ l) :
    (x ++ y).extractLsb' l w = x.extractLsb' (l - k) w := by
  obtain ⟨j, rfl⟩ := Nat.exists_eq_add_of_le h
  ext i hi
  simp only [BitVec.getElem_extractLsb', BitVec.getLsbD_append]
  rw [if_neg (by omega)]
  congr 1
  omega
theorem extract_low {n k w : Nat} (x : BitVec n) (y : BitVec k) {l : Nat} (h : l + w ≤ k) :
    (x ++ y).extractLsb' l w = y.extractLsb' l w := by
  ext i hi
  simp only [BitVec.getElem_extractLsb', BitVec.getLsbD_append]
  rw [if_pos (by omega)]
theorem bit_high {n k : Nat} (x : BitVec n) (y : BitVec k) {l : Nat} (h : k ≤ l) : (x ++ y).getLsbD l = x.getLsbD (l - k) := by
  rw [BitVec.getLsbD_append, if_neg (by omega)]
theorem bit_low {n k : Nat} (x : BitVec n) (y : BitVec k) {l : Nat} (h : l < k) : (x ++ y).getLsbD l = y.getLsbD l := by
  rw [BitVec.getLsbD_append, if_pos h]
theorem extract_whole {n : Nat} (x : BitVec n) : x.extractLsb' 0 n = x := by ext i hi; simp
theorem bit_ofBool (b : Bool) : (BitVec.ofBool b).getLsbD 0 = b := by cases b <;> rfl

theorem FmtA.major_toWord (maj fn : BitVec 6) (f : FmtA) : majorOf (f.toWord maj fn) = maj := by
  unfold majorOf FmtA.toWord
  simp (disch := omega) only [extract_high, extract_low, extract_whole, bit_high, bit_low, bit_ofBool, Nat.reduceSub]
theorem FmtA.func_toWord (maj fn : BitVec 6) (f : FmtA) : funcOf (f.toWord maj fn) = fn := by
  unfold funcOf FmtA.toWord
  simp (disch := omega) only [extract_high, extract_low, extract_whole, bit_high, bit_low, bit_ofBool, Nat.reduceSub]
theorem FmtA.ofWord_toWord (maj fn : BitVec 6) (f : FmtA) : FmtA.ofWord (f.toWord maj fn) = f := by
  unfold FmtA.ofWord FmtA.toWord
  simp (disch := omega) only [extract_high, extract_low, extract_whole, bit_high, bit_low, bit_ofBool, Nat.reduceSub]
/-- A word of this format is read back, when its row of the class's map makes the instruction from its fields. -/
theorem FmtA.decode_toWord {cls : Cls} {maj fn : BitVec 6} {k : Word → Instr} {i : Instr} {f : FmtA}
    (hk : findOp maj.toNat fn.toNat (opsOf cls) = some k) (hi : k (f.toWord maj fn) = i) (h : i.wellFormed = true) :
    decodeWord cls (f.toWord maj fn) = .ok i := by
  unfold decodeWord
  rw [FmtA.major_toWord, FmtA.func_toWord, hk]
  simp only [hi, h, if_true]

theorem FmtI.major_toWord (maj fn : BitVec 6) (f : FmtI) : majorOf (f.toWord maj fn) = maj := by
  unfold majorOf FmtI.toWord
  simp (disch := omega) only [extract_high, extract_low, extract_whole, bit_high, bit_low, bit_ofBool, Nat.reduceSub]
theorem FmtI.func_toWord (maj fn : BitVec 6) (f : FmtI) : funcOf (f.toWord maj fn) = fn := by
  unfold funcOf FmtI.toWord
  simp (disch := omega) only [extract_high, extract_low, extract_whole, bit_high, bit_low, bit_ofBool, Nat.reduceSub]
theorem FmtI.ofWord_toWord (maj fn : BitVec 6) (f : FmtI) : FmtI.ofWord (f.toWord maj fn) = f := by
  unfold FmtI.ofWord FmtI.toWord
  simp (disch := omega) only [extract_high, extract_low, extract_whole, bit_high, bit_low, bit_ofBool, Nat.reduceSub]
/-- A word of this format is read back, when its row of the class's map makes the instruction from its fields. -/
theorem FmtI.decode_toWord {cls : Cls} {maj fn : BitVec 6} {k : Word → Instr} {i : Instr} {f : FmtI}
    (hk : findOp maj.toNat fn.toNat (opsOf cls) = some k) (hi : k (f.toWord maj fn) = i) (h : i.wellFormed = true) :
    decodeWord cls (f.toWord maj fn) = .ok i := by
  unfold decodeWord
  rw [FmtI.major_toWord, FmtI.func_toWord, hk]
  simp only [hi, h, if_true]

theorem FmtM.major_toWord (maj fn : BitVec 6) (f : FmtM) : majorOf (f.toWord maj fn) = maj := by
  unfold majorOf FmtM.toWord
  simp (disch := omega) only [extract_high, extract_low, extract_whole, bit_high, bit_low, bit_ofBool, Nat.reduceSub]
theorem FmtM.func_toWord (maj fn : BitVec 6) (f : FmtM) : funcOf (f.toWord maj fn) = fn := by
  unfold funcOf FmtM.toWord
  simp (disch := omega) only [extract_high, extract_low, extract_whole, bit_high, bit_low, bit_ofBool, Nat.reduceSub]
theorem FmtM.ofWord_toWord (maj fn : BitVec 6) (f : FmtM) : FmtM.ofWord (f.toWord maj fn) = f := by
  unfold FmtM.ofWord FmtM.toWord
  simp (disch := omega) only [extract_high, extract_low, extract_whole, bit_high, bit_low, bit_ofBool, Nat.reduceSub]
/-- A word of this format is read back, when its row of the class's map makes the instruction from its fields. -/
theorem FmtM.decode_toWord {cls : Cls} {maj fn : BitVec 6} {k : Word → Instr} {i : Instr} {f : FmtM}
    (hk : findOp maj.toNat fn.toNat (opsOf cls) = some k) (hi : k (f.toWord maj fn) = i) (h : i.wellFormed = true) :
    decodeWord cls (f.toWord maj fn) = .ok i := by
  unfold decodeWord
  rw [FmtM.major_toWord, FmtM.func_toWord, hk]
  simp only [hi, h, if_true]

theorem FmtB.major_toWord (maj fn : BitVec 6) (f : FmtB) : majorOf (f.toWord maj fn) = maj := by
  unfold majorOf FmtB.toWord
  simp (disch := omega) only [extract_high, extract_low, extract_whole, bit_high, bit_low, bit_ofBool, Nat.reduceSub]
theorem FmtB.func_toWord (maj fn : BitVec 6) (f : FmtB) : funcOf (f.toWord maj fn) = fn := by
  unfold funcOf FmtB.toWord
  simp (disch := omega) only [extract_high, extract_low, extract_whole, bit_high, bit_low, bit_ofBool, Nat.reduceSub]
theorem FmtB.ofWord_toWord (maj fn : BitVec 6) (f : FmtB) : FmtB.ofWord (f.toWord maj fn) = f := by
  unfold FmtB.ofWord FmtB.toWord
  simp (disch := omega) only [extract_high, extract_low, extract_whole, bit_high, bit_low, bit_ofBool, Nat.reduceSub]
/-- A word of this format is read back, when its row of the class's map makes the instruction from its fields. -/
theorem FmtB.decode_toWord {cls : Cls} {maj fn : BitVec 6} {k : Word → Instr} {i : Instr} {f : FmtB}
    (hk : findOp maj.toNat fn.toNat (opsOf cls) = some k) (hi : k (f.toWord maj fn) = i) (h : i.wellFormed = true) :
    decodeWord cls (f.toWord maj fn) = .ok i := by
  unfold decodeWord
  rw [FmtB.major_toWord, FmtB.func_toWord, hk]
  simp only [hi, h, if_true]

theorem FmtE.major_toWord (maj fn : BitVec 6) (f : FmtE) : majorOf (f.toWord maj fn) = maj := by
  unfold majorOf FmtE.toWord
  simp (disch := omega) only [extract_high, extract_low, extract_whole, bit_high, bit_low, bit_ofBool, Nat.reduceSub]
theorem FmtE.func_toWord (maj fn : BitVec 6) (f : FmtE) : funcOf (f.toWord maj fn) = fn := by
  unfold funcOf FmtE.toWord
  simp (disch := omega) only [extract_high, extract_low, extract_whole, bit_high, bit_low, bit_ofBool, Nat.reduceSub]
theorem FmtE.ofWord_toWord (maj fn : BitVec 6) (f : FmtE) : FmtE.ofWord (f.toWord maj fn) = f := by
  unfold FmtE.ofWord FmtE.toWord
  simp (disch := omega) only [extract_high, extract_low, extract_whole, bit_high, bit_low, bit_ofBool, Nat.reduceSub]
/-- A word of this format is read back, when its row of the class's map makes the instruction from its fields. -/
theorem FmtE.decode_toWord {cls : Cls} {maj fn : BitVec 6} {k : Word → Instr} {i : Instr} {f : FmtE}
    (hk : findOp maj.toNat fn.toNat (opsOf cls) = some k) (hi : k (f.toWord maj fn) = i) (h : i.wellFormed = true) :
    decodeWord cls (f.toWord maj fn) = .ok i := by
  unfold decodeWord
  rw [FmtE.major_toWord, FmtE.func_toWord, hk]
  simp only [hi, h, if_true]

theorem FmtL.major_toWord (maj fn : BitVec 6) (f : FmtL) : majorOf (f.toWord maj fn) = maj := by
  unfold majorOf FmtL.toWord
  simp (disch := omega) only [extract_high, extract_low, extract_whole, bit_high, bit_low, bit_ofBool, Nat.reduceSub]
theorem FmtL.func_toWord (maj fn : BitVec 6) (f : FmtL) : funcOf (f.toWord maj fn) = fn := by
  unfold funcOf FmtL.toWord
  simp (disch := omega) only [extract_high, extract_low, extract_whole, bit_high, bit_low, bit_ofBool, Nat.reduceSub]
theorem FmtL.ofWord_toWord (maj fn : BitVec 6) (f : FmtL) : FmtL.ofWord (f.toWord maj fn) = f := by
  unfold FmtL.ofWord FmtL.toWord
  simp (disch := omega) only [extract_high, extract_low, extract_whole, bit_high, bit_low, bit_ofBool, Nat.reduceSub]
/-- A word of this format is read back, when its row of the class's map makes the instruction from its fields. -/
theorem FmtL.decode_toWord {cls : Cls} {maj fn : BitVec 6} {k : Word → Instr} {i : Instr} {f : FmtL}
    (hk : findOp maj.toNat fn.toNat (opsOf cls) = some k) (hi : k (f.toWord maj fn) = i) (h : i.wellFormed = true) :
    decodeWord cls (f.toWord maj fn) = .ok i := by
  unfold decodeWord
  rw [FmtL.major_toWord, FmtL.func_toWord, hk]
  simp only [hi, h, if_true]

theorem eight (k : BitVec 3) : k = 0 ∨ k = 1 ∨ k = 2 ∨ k = 3 ∨ k = 4 ∨ k = 5 ∨ k = 6 ∨ k = 7 := by revert k; decide
theorem conditions (k : BitVec 4) (h : condOk k = true) : k = 0 ∨ k = 1 ∨ k = 2 ∨ k = 3 ∨ k = 4 ∨ k = 5 ∨ k = 8 ∨ k = 9 ∨ k = 10 ∨ k = 11
    ∨ k = 12 ∨ k = 13 := by revert k; decide
theorem formats (k : BitVec 3) (h : (k != 7) = true) : k = 0 ∨ k = 1 ∨ k = 2 ∨ k = 3 ∨ k = 4 ∨ k = 5 ∨ k = 6 := by revert k; decide

end Sys2Proof

namespace Sys2Proof.Laws.Encoding

/-- Decoding the word that encodes a well-formed instruction gives the instruction (R58 to R72). -/
def Statement (i : Instr) : Prop := ∀ k w, encode i = some (k, w) → i.wellFormed = true → decodeWord k w = .ok i

theorem issueChoice (core : Nat) : Statement (.issueChoice core) := fun _ _ h _ => nomatch h
theorem starvationCap (core slot : Nat) (vec : Bool) : Statement (.starvationCap core slot vec) := fun _ _ h _ => nomatch h
theorem clauseWake (core slot : Nat) (vec : Bool) : Statement (.clauseWake core slot vec) := fun _ _ h _ => nomatch h
theorem claimFill (core slot n : Nat) : Statement (.claimFill core slot n) := fun _ _ h _ => nomatch h
theorem lineFill (pa : Nat) : Statement (.lineFill pa) := fun _ _ h _ => nomatch h
theorem logicalClockTick (core : Nat) : Statement (.logicalClockTick core) := fun _ _ h _ => nomatch h
theorem balerWindow (core : Nat) : Statement (.balerWindow core) := fun _ _ h _ => nomatch h
theorem combiningBuffer (cluster entry : Nat) : Statement (.combiningBuffer cluster entry) := fun _ _ h _ => nomatch h
theorem vglLinkDrop (core slot n : Nat) : Statement (.vglLinkDrop core slot n) := fun _ _ h _ => nomatch h
theorem latticeStep (cluster : Nat) : Statement (.latticeStep cluster) := fun _ _ h _ => nomatch h
theorem mloopComplete (core tile : Nat) : Statement (.mloopComplete core tile) := fun _ _ h _ => nomatch h
theorem tileFault (core slot tile : Nat) : Statement (.tileFault core slot tile) := fun _ _ h _ => nomatch h
theorem tileFillComplete (core entry : Nat) : Statement (.tileFillComplete core entry) := fun _ _ h _ => nomatch h
theorem mloadComplete (core slot : Nat) : Statement (.mloadComplete core slot) := fun _ _ h _ => nomatch h
theorem glazeCredit (core tile : Nat) : Statement (.glazeCredit core tile) := fun _ _ h _ => nomatch h
theorem contributionLanding (core tile : Nat) : Statement (.contributionLanding core tile) := fun _ _ h _ => nomatch h
theorem glazeAdd (cluster : Nat) : Statement (.glazeAdd cluster) := fun _ _ h _ => nomatch h
theorem drayCommandStart (core job : Nat) : Statement (.drayCommandStart core job) := fun _ _ h _ => nomatch h
theorem drayChunk (core job : Nat) : Statement (.drayChunk core job) := fun _ _ h _ => nomatch h
theorem drayResult (core job : Nat) : Statement (.drayResult core job) := fun _ _ h _ => nomatch h
theorem pushRegisterMove (core slot n : Nat) : Statement (.pushRegisterMove core slot n) := fun _ _ h _ => nomatch h
theorem packerTimer (cluster stall : Nat) : Statement (.packerTimer cluster stall) := fun _ _ h _ => nomatch h
theorem packedGroupStart (cluster stall : Nat) : Statement (.packedGroupStart cluster stall) := fun _ _ h _ => nomatch h
theorem overflowRefill (cluster vf : Nat) : Statement (.overflowRefill cluster vf) := fun _ _ h _ => nomatch h
theorem launchGroupStart (vf n : Nat) : Statement (.launchGroupStart vf n) := fun _ _ h _ => nomatch h
theorem hostAccess (wr : Bool) (pa size : Nat) (data : Word) : Statement (.hostAccess wr pa size data) := fun _ _ h _ => nomatch h
theorem peerAccess (dev : Nat) (wr : Bool) (pa size : Nat) (data : Word) : Statement (.peerAccess dev wr pa size data) := fun _ _ h _ => nomatch h
theorem flitCrcError (link : Nat) : Statement (.flitCrcError link) := fun _ _ h _ => nomatch h
theorem linkRetrainFailure (link : Nat) : Statement (.linkRetrainFailure link) := fun _ _ h _ => nomatch h
theorem uncorrectable (unit pa : Nat) (grp : Option (Nat × Nat)) : Statement (.uncorrectable unit pa grp) := fun _ _ h _ => nomatch h
theorem slotEdgeGuard (yard : Nat) : Statement (.slotEdgeGuard yard) := fun _ _ h _ => nomatch h
theorem drainComplete (yard : Nat) : Statement (.drainComplete yard) := fun _ _ h _ => nomatch h
theorem incomingStart (yard : Nat) : Statement (.incomingStart yard) := fun _ _ h _ => nomatch h
theorem cfgsemAcquire (port : Nat) : Statement (.cfgsemAcquire port) := fun _ _ h _ => nomatch h
theorem cfgsemRelease (port : Nat) : Statement (.cfgsemRelease port) := fun _ _ h _ => nomatch h
theorem doorbell (port : Nat) : Statement (.doorbell port) := fun _ _ h _ => nomatch h
theorem start (vf rec tsbase : Nat) : Statement (.start vf rec tsbase) := fun _ _ h _ => nomatch h
theorem halt (vf : Nat) (grp : Option (Nat × Nat)) : Statement (.halt vf grp) := fun _ _ h _ => nomatch h
theorem resume (vf core slot : Nat) : Statement (.resume vf core slot) := fun _ _ h _ => nomatch h
theorem resumeVf (vf : Nat) : Statement (.resumeVf vf) := fun _ _ h _ => nomatch h
theorem stepGroup (vf core slot : Nat) : Statement (.stepGroup vf core slot) := fun _ _ h _ => nomatch h
theorem replay (core entry : Nat) : Statement (.replay core entry) := fun _ _ h _ => nomatch h
theorem discard (core entry : Nat) : Statement (.discard core entry) := fun _ _ h _ => nomatch h
theorem getvp (vf core slot first count addr : Nat) : Statement (.getvp vf core slot first count addr) := fun _ _ h _ => nomatch h
theorem setvp (vf core slot first count addr : Nat) : Statement (.setvp vf core slot first count addr) := fun _ _ h _ => nomatch h
theorem wrctx (vf core slot off : Nat) (val : Word) : Statement (.wrctx vf core slot off val) := fun _ _ h _ => nomatch h
theorem clearrec (core vf : Nat) : Statement (.clearrec core vf) := fun _ _ h _ => nomatch h
theorem resetvf (vf : Nat) : Statement (.resetvf vf) := fun _ _ h _ => nomatch h
theorem closechain (vf : Nat) (id : Word) : Statement (.closechain vf id) := fun _ _ h _ => nomatch h
theorem vopenWrite (val : Word) : Statement (.vopenWrite val) := fun _ _ h _ => nomatch h
theorem xopenWrite (val : Word) : Statement (.xopenWrite val) := fun _ _ h _ => nomatch h
theorem qinWrite (val : Word) : Statement (.qinWrite val) := fun _ _ h _ => nomatch h
theorem qoutRead (d : BitVec 8) : Statement (.qoutRead d) := fun _ _ h _ => nomatch h
theorem tileownWrite (val : Word) : Statement (.tileownWrite val) := fun _ _ h _ => nomatch h
theorem fmodeWrite (val : Word) : Statement (.fmodeWrite val) := fun _ _ h _ => nomatch h
theorem vstartWrite (val : Word) : Statement (.vstartWrite val) := fun _ _ h _ => nomatch h
theorem vdirtyClear (val : Word) : Statement (.vdirtyClear val) := fun _ _ h _ => nomatch h
theorem fflagsClear (val : Word) : Statement (.fflagsClear val) := fun _ _ h _ => nomatch h
theorem tileTableWrite (core entry : Nat) (val : Word) : Statement (.tileTableWrite core entry val) := fun _ _ h _ => nomatch h
theorem packerTimerWrite (cluster : Nat) (val : Word) : Statement (.packerTimerWrite cluster val) := fun _ _ h _ => nomatch h
theorem cntselWrite (vf i : Nat) (val : Word) : Statement (.cntselWrite vf i val) := fun _ _ h _ => nomatch h
theorem registerWrite (pa : Nat) (val : Word) : Statement (.registerWrite pa val) := fun _ _ h _ => nomatch h
theorem add (f : FmtA) : Statement (.add f) := fun _ _ h hw => by
  cases h
  exact FmtA.decode_toWord rfl (congrArg Instr.add (FmtA.ofWord_toWord _ _ _)) hw
theorem sub (f : FmtA) : Statement (.sub f) := fun _ _ h hw => by
  cases h
  exact FmtA.decode_toWord rfl (congrArg Instr.sub (FmtA.ofWord_toWord _ _ _)) hw
theorem mul (f : FmtA) : Statement (.mul f) := fun _ _ h hw => by
  cases h
  exact FmtA.decode_toWord rfl (congrArg Instr.mul (FmtA.ofWord_toWord _ _ _)) hw
theorem mulh (f : FmtA) : Statement (.mulh f) := fun _ _ h hw => by
  cases h
  exact FmtA.decode_toWord rfl (congrArg Instr.mulh (FmtA.ofWord_toWord _ _ _)) hw
theorem div (f : FmtA) : Statement (.div f) := fun _ _ h hw => by
  cases h
  exact FmtA.decode_toWord rfl (congrArg Instr.div (FmtA.ofWord_toWord _ _ _)) hw
theorem rem (f : FmtA) : Statement (.rem f) := fun _ _ h hw => by
  cases h
  exact FmtA.decode_toWord rfl (congrArg Instr.rem (FmtA.ofWord_toWord _ _ _)) hw
theorem and (f : FmtA) : Statement (.and f) := fun _ _ h hw => by
  cases h
  exact FmtA.decode_toWord rfl (congrArg Instr.and (FmtA.ofWord_toWord _ _ _)) hw
theorem or (f : FmtA) : Statement (.or f) := fun _ _ h hw => by
  cases h
  exact FmtA.decode_toWord rfl (congrArg Instr.or (FmtA.ofWord_toWord _ _ _)) hw
theorem xor (f : FmtA) : Statement (.xor f) := fun _ _ h hw => by
  cases h
  exact FmtA.decode_toWord rfl (congrArg Instr.xor (FmtA.ofWord_toWord _ _ _)) hw
theorem andn (f : FmtA) : Statement (.andn f) := fun _ _ h hw => by
  cases h
  exact FmtA.decode_toWord rfl (congrArg Instr.andn (FmtA.ofWord_toWord _ _ _)) hw
theorem shl (f : FmtA) : Statement (.shl f) := fun _ _ h hw => by
  cases h
  exact FmtA.decode_toWord rfl (congrArg Instr.shl (FmtA.ofWord_toWord _ _ _)) hw
theorem shr (f : FmtA) : Statement (.shr f) := fun _ _ h hw => by
  cases h
  exact FmtA.decode_toWord rfl (congrArg Instr.shr (FmtA.ofWord_toWord _ _ _)) hw
theorem sra (f : FmtA) : Statement (.sra f) := fun _ _ h hw => by
  cases h
  exact FmtA.decode_toWord rfl (congrArg Instr.sra (FmtA.ofWord_toWord _ _ _)) hw
theorem rot (f : FmtA) : Statement (.rot f) := fun _ _ h hw => by
  cases h
  exact FmtA.decode_toWord rfl (congrArg Instr.rot (FmtA.ofWord_toWord _ _ _)) hw
theorem min (f : FmtA) : Statement (.min f) := fun _ _ h hw => by
  cases h
  exact FmtA.decode_toWord rfl (congrArg Instr.min (FmtA.ofWord_toWord _ _ _)) hw
theorem max (f : FmtA) : Statement (.max f) := fun _ _ h hw => by
  cases h
  exact FmtA.decode_toWord rfl (congrArg Instr.max (FmtA.ofWord_toWord _ _ _)) hw
theorem clz (f : FmtA) : Statement (.clz f) := fun _ _ h hw => by
  cases h
  exact FmtA.decode_toWord rfl (congrArg Instr.clz (FmtA.ofWord_toWord _ _ _)) hw
theorem popc (f : FmtA) : Statement (.popc f) := fun _ _ h hw => by
  cases h
  exact FmtA.decode_toWord rfl (congrArg Instr.popc (FmtA.ofWord_toWord _ _ _)) hw
theorem sext (f : FmtA) : Statement (.sext f) := fun _ _ h hw => by
  cases h
  exact FmtA.decode_toWord rfl (congrArg Instr.sext (FmtA.ofWord_toWord _ _ _)) hw
theorem zext (f : FmtA) : Statement (.zext f) := fun _ _ h hw => by
  cases h
  exact FmtA.decode_toWord rfl (congrArg Instr.zext (FmtA.ofWord_toWord _ _ _)) hw
theorem sel (f : FmtA) : Statement (.sel f) := fun _ _ h hw => by
  cases h
  exact FmtA.decode_toWord rfl (congrArg Instr.sel (FmtA.ofWord_toWord _ _ _)) hw
theorem lea (f : FmtA) : Statement (.lea f) := fun _ _ h hw => by
  cases h
  exact FmtA.decode_toWord rfl (congrArg Instr.lea (FmtA.ofWord_toWord _ _ _)) hw
theorem addImm (f : FmtI) : Statement (.addImm f) := fun _ _ h hw => by
  cases h
  exact FmtI.decode_toWord rfl (congrArg Instr.addImm (FmtI.ofWord_toWord _ _ _)) hw
theorem mulImm (f : FmtI) : Statement (.mulImm f) := fun _ _ h hw => by
  cases h
  exact FmtI.decode_toWord rfl (congrArg Instr.mulImm (FmtI.ofWord_toWord _ _ _)) hw
theorem andImm (f : FmtI) : Statement (.andImm f) := fun _ _ h hw => by
  cases h
  exact FmtI.decode_toWord rfl (congrArg Instr.andImm (FmtI.ofWord_toWord _ _ _)) hw
theorem orImm (f : FmtI) : Statement (.orImm f) := fun _ _ h hw => by
  cases h
  exact FmtI.decode_toWord rfl (congrArg Instr.orImm (FmtI.ofWord_toWord _ _ _)) hw
theorem xorImm (f : FmtI) : Statement (.xorImm f) := fun _ _ h hw => by
  cases h
  exact FmtI.decode_toWord rfl (congrArg Instr.xorImm (FmtI.ofWord_toWord _ _ _)) hw
theorem shlImm (f : FmtI) : Statement (.shlImm f) := fun _ _ h hw => by
  cases h
  exact FmtI.decode_toWord rfl (congrArg Instr.shlImm (FmtI.ofWord_toWord _ _ _)) hw
theorem shrImm (f : FmtI) : Statement (.shrImm f) := fun _ _ h hw => by
  cases h
  exact FmtI.decode_toWord rfl (congrArg Instr.shrImm (FmtI.ofWord_toWord _ _ _)) hw
theorem sraImm (f : FmtI) : Statement (.sraImm f) := fun _ _ h hw => by
  cases h
  exact FmtI.decode_toWord rfl (congrArg Instr.sraImm (FmtI.ofWord_toWord _ _ _)) hw
theorem rotImm (f : FmtI) : Statement (.rotImm f) := fun _ _ h hw => by
  cases h
  exact FmtI.decode_toWord rfl (congrArg Instr.rotImm (FmtI.ofWord_toWord _ _ _)) hw
theorem movi (f : FmtI) : Statement (.movi f) := fun _ _ h hw => by
  cases h
  exact FmtI.decode_toWord rfl (congrArg Instr.movi (FmtI.ofWord_toWord _ _ _)) hw
theorem movhi (f : FmtI) : Statement (.movhi f) := fun _ _ h hw => by
  cases h
  exact FmtI.decode_toWord rfl (congrArg Instr.movhi (FmtI.ofWord_toWord _ _ _)) hw
theorem cmp (cond : BitVec 4) (f : FmtA) : Statement (.cmp cond f) := fun _ _ h hw => by
  cases h
  rcases conditions cond (by unfold Instr.wellFormed wfCmp at hw; simp only [Bool.and_eq_true] at hw; exact hw.1) with rfl | rfl | rfl | rfl | rfl | rfl | rfl | rfl | rfl | rfl | rfl | rfl <;>
    exact FmtA.decode_toWord rfl (congrArg (Instr.cmp _) (FmtA.ofWord_toWord _ _ _)) hw
theorem cmpImm (cond : BitVec 4) (f : FmtI) : Statement (.cmpImm cond f) := fun _ _ h hw => by
  cases h
  rcases conditions cond (by unfold Instr.wellFormed wfCmpImm at hw; simp only [Bool.and_eq_true] at hw; exact hw.1.1.1) with rfl | rfl | rfl | rfl | rfl | rfl | rfl | rfl | rfl | rfl | rfl | rfl <;>
    exact FmtI.decode_toWord rfl (congrArg (Instr.cmpImm _) (FmtI.ofWord_toWord _ _ _)) hw
theorem pand (f : FmtA) : Statement (.pand f) := fun _ _ h hw => by
  cases h
  exact FmtA.decode_toWord rfl (congrArg Instr.pand (FmtA.ofWord_toWord _ _ _)) hw
theorem por (f : FmtA) : Statement (.por f) := fun _ _ h hw => by
  cases h
  exact FmtA.decode_toWord rfl (congrArg Instr.por (FmtA.ofWord_toWord _ _ _)) hw
theorem pxor (f : FmtA) : Statement (.pxor f) := fun _ _ h hw => by
  cases h
  exact FmtA.decode_toWord rfl (congrArg Instr.pxor (FmtA.ofWord_toWord _ _ _)) hw
theorem pnot (f : FmtA) : Statement (.pnot f) := fun _ _ h hw => by
  cases h
  exact FmtA.decode_toWord rfl (congrArg Instr.pnot (FmtA.ofWord_toWord _ _ _)) hw
theorem fadd (f : FmtA) : Statement (.fadd f) := fun _ _ h hw => by
  cases h
  exact FmtA.decode_toWord rfl (congrArg Instr.fadd (FmtA.ofWord_toWord _ _ _)) hw
theorem fmul (f : FmtA) : Statement (.fmul f) := fun _ _ h hw => by
  cases h
  exact FmtA.decode_toWord rfl (congrArg Instr.fmul (FmtA.ofWord_toWord _ _ _)) hw
theorem ffma (f : FmtA) : Statement (.ffma f) := fun _ _ h hw => by
  cases h
  exact FmtA.decode_toWord rfl (congrArg Instr.ffma (FmtA.ofWord_toWord _ _ _)) hw
theorem fcvt (f : FmtA) : Statement (.fcvt f) := fun _ _ h hw => by
  cases h
  exact FmtA.decode_toWord rfl (congrArg Instr.fcvt (FmtA.ofWord_toWord _ _ _)) hw
theorem br (f : FmtB) : Statement (.br f) := fun _ _ h hw => by
  cases h
  exact FmtB.decode_toWord rfl (congrArg Instr.br (FmtB.ofWord_toWord _ _ _)) hw
theorem call (f : FmtB) : Statement (.call f) := fun _ _ h hw => by
  cases h
  exact FmtB.decode_toWord rfl (congrArg Instr.call (FmtB.ofWord_toWord _ _ _)) hw
theorem loop (f : FmtB) : Statement (.loop f) := fun _ _ h hw => by
  cases h
  exact FmtB.decode_toWord rfl (congrArg Instr.loop (FmtB.ofWord_toWord _ _ _)) hw
theorem jmpr (f : FmtA) : Statement (.jmpr f) := fun _ _ h hw => by
  cases h
  exact FmtA.decode_toWord rfl (congrArg Instr.jmpr (FmtA.ofWord_toWord _ _ _)) hw
theorem ret (f : FmtA) : Statement (.ret f) := fun _ _ h hw => by
  cases h
  exact FmtA.decode_toWord rfl (congrArg Instr.ret (FmtA.ofWord_toWord _ _ _)) hw
theorem stop (f : FmtA) : Statement (.stop f) := fun _ _ h hw => by
  cases h
  exact FmtA.decode_toWord rfl (congrArg Instr.stop (FmtA.ofWord_toWord _ _ _)) hw
theorem yield (f : FmtA) : Statement (.yield f) := fun _ _ h hw => by
  cases h
  exact FmtA.decode_toWord rfl (congrArg Instr.yield (FmtA.ofWord_toWord _ _ _)) hw
theorem setvl (f : FmtA) : Statement (.setvl f) := fun _ _ h hw => by
  cases h
  exact FmtA.decode_toWord rfl (congrArg Instr.setvl (FmtA.ofWord_toWord _ _ _)) hw
theorem vregs (f : FmtI) : Statement (.vregs f) := fun _ _ h hw => by
  cases h
  exact FmtI.decode_toWord rfl (congrArg Instr.vregs (FmtI.ofWord_toWord _ _ _)) hw
theorem vf (f : FmtB) : Statement (.vf f) := fun _ _ h hw => by
  cases h
  exact FmtB.decode_toWord rfl (congrArg Instr.vf (FmtB.ofWord_toWord _ _ _)) hw
theorem vfwait (f : FmtA) : Statement (.vfwait f) := fun _ _ h hw => by
  cases h
  exact FmtA.decode_toWord rfl (congrArg Instr.vfwait (FmtA.ofWord_toWord _ _ _)) hw
theorem fork (f : FmtA) : Statement (.fork f) := fun _ _ h hw => by
  cases h
  exact FmtA.decode_toWord rfl (congrArg Instr.fork (FmtA.ofWord_toWord _ _ _)) hw
theorem join (f : FmtA) : Statement (.join f) := fun _ _ h hw => by
  cases h
  exact FmtA.decode_toWord rfl (congrArg Instr.join (FmtA.ofWord_toWord _ _ _)) hw
theorem spawn (f : FmtA) : Statement (.spawn f) := fun _ _ h hw => by
  cases h
  exact FmtA.decode_toWord rfl (congrArg Instr.spawn (FmtA.ofWord_toWord _ _ _)) hw
theorem launch (f : FmtA) : Statement (.launch f) := fun _ _ h hw => by
  cases h
  exact FmtA.decode_toWord rfl (congrArg Instr.launch (FmtA.ofWord_toWord _ _ _)) hw
theorem vld (f : FmtM) : Statement (.vld f) := fun _ _ h hw => by
  cases h
  have hf : f.ff = false := by
    unfold Instr.wellFormed wfM at hw
    simp only [Bool.and_eq_true, beq_iff_eq] at hw
    exact hw.2
  exact FmtM.decode_toWord rfl (by rw [FmtM.ofWord_toWord, hf]; rfl) hw
theorem vldff (f : FmtM) : Statement (.vldff f) := fun _ _ h hw => by
  cases h
  have hf : f.ff = true := by
    unfold Instr.wellFormed wfM at hw
    simp only [Bool.and_eq_true, beq_iff_eq] at hw
    exact hw.2
  exact FmtM.decode_toWord rfl (by rw [FmtM.ofWord_toWord, hf]; rfl) hw
theorem vst (f : FmtM) : Statement (.vst f) := fun _ _ h hw => by
  cases h
  exact FmtM.decode_toWord rfl (congrArg Instr.vst (FmtM.ofWord_toWord _ _ _)) hw
theorem vlds (f : FmtM) : Statement (.vlds f) := fun _ _ h hw => by
  cases h
  exact FmtM.decode_toWord rfl (congrArg Instr.vlds (FmtM.ofWord_toWord _ _ _)) hw
theorem vsts (f : FmtM) : Statement (.vsts f) := fun _ _ h hw => by
  cases h
  exact FmtM.decode_toWord rfl (congrArg Instr.vsts (FmtM.ofWord_toWord _ _ _)) hw
theorem vldx (f : FmtM) : Statement (.vldx f) := fun _ _ h hw => by
  cases h
  exact FmtM.decode_toWord rfl (congrArg Instr.vldx (FmtM.ofWord_toWord _ _ _)) hw
theorem vstx (f : FmtM) : Statement (.vstx f) := fun _ _ h hw => by
  cases h
  exact FmtM.decode_toWord rfl (congrArg Instr.vstx (FmtM.ofWord_toWord _ _ _)) hw
theorem vgl (f : FmtM) : Statement (.vgl f) := fun _ _ h hw => by
  cases h
  exact FmtM.decode_toWord rfl (congrArg Instr.vgl (FmtM.ofWord_toWord _ _ _)) hw
theorem vsc (f : FmtM) : Statement (.vsc f) := fun _ _ h hw => by
  cases h
  exact FmtM.decode_toWord rfl (congrArg Instr.vsc (FmtM.ofWord_toWord _ _ _)) hw
theorem vamo (op : BitVec 3) (f : FmtM) : Statement (.vamo op f) := fun _ _ h hw => by
  cases h
  rcases eight op with rfl | rfl | rfl | rfl | rfl | rfl | rfl | rfl <;>
    exact FmtM.decode_toWord rfl (congrArg (Instr.vamo _) (FmtM.ofWord_toWord _ _ _)) hw
theorem vpush (f : FmtA) : Statement (.vpush f) := fun _ _ h hw => by
  cases h
  exact FmtA.decode_toWord rfl (congrArg Instr.vpush (FmtA.ofWord_toWord _ _ _)) hw
theorem ld (f : FmtM) : Statement (.ld f) := fun _ _ h hw => by
  cases h
  exact FmtM.decode_toWord rfl (congrArg Instr.ld (FmtM.ofWord_toWord _ _ _)) hw
theorem st (f : FmtM) : Statement (.st f) := fun _ _ h hw => by
  cases h
  exact FmtM.decode_toWord rfl (congrArg Instr.st (FmtM.ofWord_toWord _ _ _)) hw
theorem amo (op : BitVec 3) (f : FmtM) : Statement (.amo op f) := fun _ _ h hw => by
  cases h
  rcases eight op with rfl | rfl | rfl | rfl | rfl | rfl | rfl | rfl <;>
    exact FmtM.decode_toWord rfl (congrArg (Instr.amo _) (FmtM.ofWord_toWord _ _ _)) hw
theorem fenceX (f : FmtA) : Statement (.fenceX f) := fun _ _ h hw => by
  cases h
  exact FmtA.decode_toWord rfl (congrArg Instr.fenceX (FmtA.ofWord_toWord _ _ _)) hw
theorem fenceSys (f : FmtA) : Statement (.fenceSys f) := fun _ _ h hw => by
  cases h
  exact FmtA.decode_toWord rfl (congrArg Instr.fenceSys (FmtA.ofWord_toWord _ _ _)) hw
theorem mand (f : FmtA) : Statement (.mand f) := fun _ _ h hw => by
  cases h
  exact FmtA.decode_toWord rfl (congrArg Instr.mand (FmtA.ofWord_toWord _ _ _)) hw
theorem mor (f : FmtA) : Statement (.mor f) := fun _ _ h hw => by
  cases h
  exact FmtA.decode_toWord rfl (congrArg Instr.mor (FmtA.ofWord_toWord _ _ _)) hw
theorem mnot (f : FmtA) : Statement (.mnot f) := fun _ _ h hw => by
  cases h
  exact FmtA.decode_toWord rfl (congrArg Instr.mnot (FmtA.ofWord_toWord _ _ _)) hw
theorem mset (f : FmtA) : Statement (.mset f) := fun _ _ h hw => by
  cases h
  exact FmtA.decode_toWord rfl (congrArg Instr.mset (FmtA.ofWord_toWord _ _ _)) hw
theorem mcount (f : FmtA) : Statement (.mcount f) := fun _ _ h hw => by
  cases h
  exact FmtA.decode_toWord rfl (congrArg Instr.mcount (FmtA.ofWord_toWord _ _ _)) hw
theorem mfirst (f : FmtA) : Statement (.mfirst f) := fun _ _ h hw => by
  cases h
  exact FmtA.decode_toWord rfl (congrArg Instr.mfirst (FmtA.ofWord_toWord _ _ _)) hw
theorem mprefix (f : FmtA) : Statement (.mprefix f) := fun _ _ h hw => by
  cases h
  exact FmtA.decode_toWord rfl (congrArg Instr.mprefix (FmtA.ofWord_toWord _ _ _)) hw
theorem vredAdd (f : FmtA) : Statement (.vredAdd f) := fun _ _ h hw => by
  cases h
  exact FmtA.decode_toWord rfl (congrArg Instr.vredAdd (FmtA.ofWord_toWord _ _ _)) hw
theorem vredMin (f : FmtA) : Statement (.vredMin f) := fun _ _ h hw => by
  cases h
  exact FmtA.decode_toWord rfl (congrArg Instr.vredMin (FmtA.ofWord_toWord _ _ _)) hw
theorem vredMax (f : FmtA) : Statement (.vredMax f) := fun _ _ h hw => by
  cases h
  exact FmtA.decode_toWord rfl (congrArg Instr.vredMax (FmtA.ofWord_toWord _ _ _)) hw
theorem vscan (f : FmtA) : Statement (.vscan f) := fun _ _ h hw => by
  cases h
  exact FmtA.decode_toWord rfl (congrArg Instr.vscan (FmtA.ofWord_toWord _ _ _)) hw
theorem vcompress (f : FmtA) : Statement (.vcompress f) := fun _ _ h hw => by
  cases h
  exact FmtA.decode_toWord rfl (congrArg Instr.vcompress (FmtA.ofWord_toWord _ _ _)) hw
theorem vslideup (f : FmtA) : Statement (.vslideup f) := fun _ _ h hw => by
  cases h
  exact FmtA.decode_toWord rfl (congrArg Instr.vslideup (FmtA.ofWord_toWord _ _ _)) hw
theorem vslidedown (f : FmtA) : Statement (.vslidedown f) := fun _ _ h hw => by
  cases h
  exact FmtA.decode_toWord rfl (congrArg Instr.vslidedown (FmtA.ofWord_toWord _ _ _)) hw
theorem vmexp (f : FmtA) : Statement (.vmexp f) := fun _ _ h hw => by
  cases h
  exact FmtA.decode_toWord rfl (congrArg Instr.vmexp (FmtA.ofWord_toWord _ _ _)) hw
theorem vquant (f : FmtA) : Statement (.vquant f) := fun _ _ h hw => by
  cases h
  exact FmtA.decode_toWord rfl (congrArg Instr.vquant (FmtA.ofWord_toWord _ _ _)) hw
theorem vunion (f : FmtA) : Statement (.vunion f) := fun _ _ h hw => by
  cases h
  exact FmtA.decode_toWord rfl (congrArg Instr.vunion (FmtA.ofWord_toWord _ _ _)) hw
theorem dcopy (f : FmtE) : Statement (.dcopy f) := fun _ _ h hw => by
  cases h
  exact FmtE.decode_toWord rfl (congrArg Instr.dcopy (FmtE.ofWord_toWord _ _ _)) hw
theorem dcopy2d (f : FmtE) : Statement (.dcopy2d f) := fun _ _ h hw => by
  cases h
  exact FmtE.decode_toWord rfl (congrArg Instr.dcopy2d (FmtE.ofWord_toWord _ _ _)) hw
theorem dfill (f : FmtE) : Statement (.dfill f) := fun _ _ h hw => by
  cases h
  exact FmtE.decode_toWord rfl (congrArg Instr.dfill (FmtE.ofWord_toWord _ _ _)) hw
theorem dcompact (f : FmtE) : Statement (.dcompact f) := fun _ _ h hw => by
  cases h
  exact FmtE.decode_toWord rfl (congrArg Instr.dcompact (FmtE.ofWord_toWord _ _ _)) hw
theorem dhalo (f : FmtE) : Statement (.dhalo f) := fun _ _ h hw => by
  cases h
  exact FmtE.decode_toWord rfl (congrArg Instr.dhalo (FmtE.ofWord_toWord _ _ _)) hw
theorem dtile (f : FmtE) : Statement (.dtile f) := fun _ _ h hw => by
  cases h
  exact FmtE.decode_toWord rfl (congrArg Instr.dtile (FmtE.ofWord_toWord _ _ _)) hw
theorem dcopyBar (f : FmtE) : Statement (.dcopyBar f) := fun _ _ h hw => by
  cases h
  exact FmtE.decode_toWord rfl (congrArg Instr.dcopyBar (FmtE.ofWord_toWord _ _ _)) hw
theorem dcopy2dBar (f : FmtE) : Statement (.dcopy2dBar f) := fun _ _ h hw => by
  cases h
  exact FmtE.decode_toWord rfl (congrArg Instr.dcopy2dBar (FmtE.ofWord_toWord _ _ _)) hw
theorem dfillBar (f : FmtE) : Statement (.dfillBar f) := fun _ _ h hw => by
  cases h
  exact FmtE.decode_toWord rfl (congrArg Instr.dfillBar (FmtE.ofWord_toWord _ _ _)) hw
theorem dcompactBar (f : FmtE) : Statement (.dcompactBar f) := fun _ _ h hw => by
  cases h
  exact FmtE.decode_toWord rfl (congrArg Instr.dcompactBar (FmtE.ofWord_toWord _ _ _)) hw
theorem dhaloBar (f : FmtE) : Statement (.dhaloBar f) := fun _ _ h hw => by
  cases h
  exact FmtE.decode_toWord rfl (congrArg Instr.dhaloBar (FmtE.ofWord_toWord _ _ _)) hw
theorem dtileBar (f : FmtE) : Statement (.dtileBar f) := fun _ _ h hw => by
  cases h
  exact FmtE.decode_toWord rfl (congrArg Instr.dtileBar (FmtE.ofWord_toWord _ _ _)) hw
theorem tfill (f : FmtA) : Statement (.tfill f) := fun _ _ h hw => by
  cases h
  exact FmtA.decode_toWord rfl (congrArg Instr.tfill (FmtA.ofWord_toWord _ _ _)) hw
theorem tdrain (f : FmtA) : Statement (.tdrain f) := fun _ _ h hw => by
  cases h
  exact FmtA.decode_toWord rfl (congrArg Instr.tdrain (FmtA.ofWord_toWord _ _ _)) hw
theorem tfree (f : FmtA) : Statement (.tfree f) := fun _ _ h hw => by
  cases h
  exact FmtA.decode_toWord rfl (congrArg Instr.tfree (FmtA.ofWord_toWord _ _ _)) hw
theorem twait (f : FmtA) : Statement (.twait f) := fun _ _ h hw => by
  cases h
  exact FmtA.decode_toWord rfl (congrArg Instr.twait (FmtA.ofWord_toWord _ _ _)) hw
theorem qpop (f : FmtA) : Statement (.qpop f) := fun _ _ h hw => by
  cases h
  exact FmtA.decode_toWord rfl (congrArg Instr.qpop (FmtA.ofWord_toWord _ _ _)) hw
theorem mloop (fmt : BitVec 3) (f : FmtL) : Statement (.mloop fmt f) := fun _ _ h hw => by
  cases h
  rcases formats fmt (by unfold Instr.wellFormed wfMloop at hw; simp only [Bool.and_eq_true] at hw; exact hw.1.1.1.1.1.1.1.1.2) with rfl | rfl | rfl | rfl | rfl | rfl | rfl <;>
    exact FmtL.decode_toWord rfl (congrArg (Instr.mloop _) (FmtL.ofWord_toWord _ _ _)) hw
theorem mload (f : FmtA) : Statement (.mload f) := fun _ _ h hw => by
  cases h
  exact FmtA.decode_toWord rfl (congrArg Instr.mload (FmtA.ofWord_toWord _ _ _)) hw
theorem mzero (f : FmtA) : Statement (.mzero f) := fun _ _ h hw => by
  cases h
  exact FmtA.decode_toWord rfl (congrArg Instr.mzero (FmtA.ofWord_toWord _ _ _)) hw
theorem mread (f : FmtA) : Statement (.mread f) := fun _ _ h hw => by
  cases h
  exact FmtA.decode_toWord rfl (congrArg Instr.mread (FmtA.ofWord_toWord _ _ _)) hw
theorem gchain (f : FmtA) : Statement (.gchain f) := fun _ _ h hw => by
  cases h
  exact FmtA.decode_toWord rfl (congrArg Instr.gchain (FmtA.ofWord_toWord _ _ _)) hw
theorem gopen (f : FmtA) : Statement (.gopen f) := fun _ _ h hw => by
  cases h
  exact FmtA.decode_toWord rfl (congrArg Instr.gopen (FmtA.ofWord_toWord _ _ _)) hw
theorem gsend (f : FmtA) : Statement (.gsend f) := fun _ _ h hw => by
  cases h
  exact FmtA.decode_toWord rfl (congrArg Instr.gsend (FmtA.ofWord_toWord _ _ _)) hw
theorem gwait (f : FmtA) : Statement (.gwait f) := fun _ _ h hw => by
  cases h
  exact FmtA.decode_toWord rfl (congrArg Instr.gwait (FmtA.ofWord_toWord _ _ _)) hw
theorem gclose (f : FmtA) : Statement (.gclose f) := fun _ _ h hw => by
  cases h
  exact FmtA.decode_toWord rfl (congrArg Instr.gclose (FmtA.ofWord_toWord _ _ _)) hw
theorem barr (f : FmtA) : Statement (.barr f) := fun _ _ h hw => by
  cases h
  exact FmtA.decode_toWord rfl (congrArg Instr.barr (FmtA.ofWord_toWord _ _ _)) hw
theorem bwait (f : FmtA) : Statement (.bwait f) := fun _ _ h hw => by
  cases h
  exact FmtA.decode_toWord rfl (congrArg Instr.bwait (FmtA.ofWord_toWord _ _ _)) hw
theorem bsync (f : FmtA) : Statement (.bsync f) := fun _ _ h hw => by
  cases h
  exact FmtA.decode_toWord rfl (congrArg Instr.bsync (FmtA.ofWord_toWord _ _ _)) hw
theorem slotyield (f : FmtA) : Statement (.slotyield f) := fun _ _ h hw => by
  cases h
  exact FmtA.decode_toWord rfl (congrArg Instr.slotyield (FmtA.ofWord_toWord _ _ _)) hw
theorem cntrd (f : FmtA) : Statement (.cntrd f) := fun _ _ h hw => by
  cases h
  exact FmtA.decode_toWord rfl (congrArg Instr.cntrd (FmtA.ofWord_toWord _ _ _)) hw
theorem srseed (f : FmtA) : Statement (.srseed f) := fun _ _ h hw => by
  cases h
  exact FmtA.decode_toWord rfl (congrArg Instr.srseed (FmtA.ofWord_toWord _ _ _)) hw
theorem trap (f : FmtA) : Statement (.trap f) := fun _ _ h hw => by
  cases h
  exact FmtA.decode_toWord rfl (congrArg Instr.trap (FmtA.ofWord_toWord _ _ _)) hw
theorem brk (f : FmtA) : Statement (.brk f) := fun _ _ h hw => by
  cases h
  exact FmtA.decode_toWord rfl (congrArg Instr.brk (FmtA.ofWord_toWord _ _ _)) hw
theorem tlbinv (f : FmtA) : Statement (.tlbinv f) := fun _ _ h hw => by
  cases h
  exact FmtA.decode_toWord rfl (congrArg Instr.tlbinv (FmtA.ofWord_toWord _ _ _)) hw
theorem tlbinvAll (f : FmtA) : Statement (.tlbinvAll f) := fun _ _ h hw => by
  cases h
  exact FmtA.decode_toWord rfl (congrArg Instr.tlbinvAll (FmtA.ofWord_toWord _ _ _)) hw
theorem csrRd (f : FmtI) : Statement (.csrRd f) := fun _ _ h hw => by
  cases h
  exact FmtI.decode_toWord rfl (congrArg Instr.csrRd (FmtI.ofWord_toWord _ _ _)) hw
theorem csrWr (f : FmtI) : Statement (.csrWr f) := fun _ _ h hw => by
  cases h
  exact FmtI.decode_toWord rfl (congrArg Instr.csrWr (FmtI.ofWord_toWord _ _ _)) hw
theorem replack (f : FmtI) : Statement (.replack f) := fun _ _ h hw => by
  cases h
  exact FmtI.decode_toWord rfl (congrArg Instr.replack (FmtI.ofWord_toWord _ _ _)) hw
theorem vadd (f : FmtA) : Statement (.vadd f) := fun _ _ h hw => by
  cases h
  exact FmtA.decode_toWord rfl (congrArg Instr.vadd (FmtA.ofWord_toWord _ _ _)) hw
theorem vsub (f : FmtA) : Statement (.vsub f) := fun _ _ h hw => by
  cases h
  exact FmtA.decode_toWord rfl (congrArg Instr.vsub (FmtA.ofWord_toWord _ _ _)) hw
theorem vmul (f : FmtA) : Statement (.vmul f) := fun _ _ h hw => by
  cases h
  exact FmtA.decode_toWord rfl (congrArg Instr.vmul (FmtA.ofWord_toWord _ _ _)) hw
theorem vmulh (f : FmtA) : Statement (.vmulh f) := fun _ _ h hw => by
  cases h
  exact FmtA.decode_toWord rfl (congrArg Instr.vmulh (FmtA.ofWord_toWord _ _ _)) hw
theorem vmad (f : FmtA) : Statement (.vmad f) := fun _ _ h hw => by
  cases h
  exact FmtA.decode_toWord rfl (congrArg Instr.vmad (FmtA.ofWord_toWord _ _ _)) hw
theorem vand (f : FmtA) : Statement (.vand f) := fun _ _ h hw => by
  cases h
  exact FmtA.decode_toWord rfl (congrArg Instr.vand (FmtA.ofWord_toWord _ _ _)) hw
theorem vor (f : FmtA) : Statement (.vor f) := fun _ _ h hw => by
  cases h
  exact FmtA.decode_toWord rfl (congrArg Instr.vor (FmtA.ofWord_toWord _ _ _)) hw
theorem vxor (f : FmtA) : Statement (.vxor f) := fun _ _ h hw => by
  cases h
  exact FmtA.decode_toWord rfl (congrArg Instr.vxor (FmtA.ofWord_toWord _ _ _)) hw
theorem vshl (f : FmtA) : Statement (.vshl f) := fun _ _ h hw => by
  cases h
  exact FmtA.decode_toWord rfl (congrArg Instr.vshl (FmtA.ofWord_toWord _ _ _)) hw
theorem vshr (f : FmtA) : Statement (.vshr f) := fun _ _ h hw => by
  cases h
  exact FmtA.decode_toWord rfl (congrArg Instr.vshr (FmtA.ofWord_toWord _ _ _)) hw
theorem vsra (f : FmtA) : Statement (.vsra f) := fun _ _ h hw => by
  cases h
  exact FmtA.decode_toWord rfl (congrArg Instr.vsra (FmtA.ofWord_toWord _ _ _)) hw
theorem vmin (f : FmtA) : Statement (.vmin f) := fun _ _ h hw => by
  cases h
  exact FmtA.decode_toWord rfl (congrArg Instr.vmin (FmtA.ofWord_toWord _ _ _)) hw
theorem vmax (f : FmtA) : Statement (.vmax f) := fun _ _ h hw => by
  cases h
  exact FmtA.decode_toWord rfl (congrArg Instr.vmax (FmtA.ofWord_toWord _ _ _)) hw
theorem vclz (f : FmtA) : Statement (.vclz f) := fun _ _ h hw => by
  cases h
  exact FmtA.decode_toWord rfl (congrArg Instr.vclz (FmtA.ofWord_toWord _ _ _)) hw
theorem vpopc (f : FmtA) : Statement (.vpopc f) := fun _ _ h hw => by
  cases h
  exact FmtA.decode_toWord rfl (congrArg Instr.vpopc (FmtA.ofWord_toWord _ _ _)) hw
theorem vsel (f : FmtA) : Statement (.vsel f) := fun _ _ h hw => by
  cases h
  exact FmtA.decode_toWord rfl (congrArg Instr.vsel (FmtA.ofWord_toWord _ _ _)) hw
theorem vmov (f : FmtA) : Statement (.vmov f) := fun _ _ h hw => by
  cases h
  exact FmtA.decode_toWord rfl (congrArg Instr.vmov (FmtA.ofWord_toWord _ _ _)) hw
theorem vmovi (f : FmtI) : Statement (.vmovi f) := fun _ _ h hw => by
  cases h
  exact FmtI.decode_toWord rfl (congrArg Instr.vmovi (FmtI.ofWord_toWord _ _ _)) hw
theorem vfadd (f : FmtA) : Statement (.vfadd f) := fun _ _ h hw => by
  cases h
  exact FmtA.decode_toWord rfl (congrArg Instr.vfadd (FmtA.ofWord_toWord _ _ _)) hw
theorem vfsub (f : FmtA) : Statement (.vfsub f) := fun _ _ h hw => by
  cases h
  exact FmtA.decode_toWord rfl (congrArg Instr.vfsub (FmtA.ofWord_toWord _ _ _)) hw
theorem vfmul (f : FmtA) : Statement (.vfmul f) := fun _ _ h hw => by
  cases h
  exact FmtA.decode_toWord rfl (congrArg Instr.vfmul (FmtA.ofWord_toWord _ _ _)) hw
theorem vfma (f : FmtA) : Statement (.vfma f) := fun _ _ h hw => by
  cases h
  exact FmtA.decode_toWord rfl (congrArg Instr.vfma (FmtA.ofWord_toWord _ _ _)) hw
theorem vfms (f : FmtA) : Statement (.vfms f) := fun _ _ h hw => by
  cases h
  exact FmtA.decode_toWord rfl (congrArg Instr.vfms (FmtA.ofWord_toWord _ _ _)) hw
theorem vfnma (f : FmtA) : Statement (.vfnma f) := fun _ _ h hw => by
  cases h
  exact FmtA.decode_toWord rfl (congrArg Instr.vfnma (FmtA.ofWord_toWord _ _ _)) hw
theorem vfmin (f : FmtA) : Statement (.vfmin f) := fun _ _ h hw => by
  cases h
  exact FmtA.decode_toWord rfl (congrArg Instr.vfmin (FmtA.ofWord_toWord _ _ _)) hw
theorem vfmax (f : FmtA) : Statement (.vfmax f) := fun _ _ h hw => by
  cases h
  exact FmtA.decode_toWord rfl (congrArg Instr.vfmax (FmtA.ofWord_toWord _ _ _)) hw
theorem vfrcp (f : FmtA) : Statement (.vfrcp f) := fun _ _ h hw => by
  cases h
  exact FmtA.decode_toWord rfl (congrArg Instr.vfrcp (FmtA.ofWord_toWord _ _ _)) hw
theorem vfrsq (f : FmtA) : Statement (.vfrsq f) := fun _ _ h hw => by
  cases h
  exact FmtA.decode_toWord rfl (congrArg Instr.vfrsq (FmtA.ofWord_toWord _ _ _)) hw
theorem vfsqrt (f : FmtA) : Statement (.vfsqrt f) := fun _ _ h hw => by
  cases h
  exact FmtA.decode_toWord rfl (congrArg Instr.vfsqrt (FmtA.ofWord_toWord _ _ _)) hw
theorem vfexp2 (f : FmtA) : Statement (.vfexp2 f) := fun _ _ h hw => by
  cases h
  exact FmtA.decode_toWord rfl (congrArg Instr.vfexp2 (FmtA.ofWord_toWord _ _ _)) hw
theorem vflog2 (f : FmtA) : Statement (.vflog2 f) := fun _ _ h hw => by
  cases h
  exact FmtA.decode_toWord rfl (congrArg Instr.vflog2 (FmtA.ofWord_toWord _ _ _)) hw
theorem vfcmp (f : FmtA) : Statement (.vfcmp f) := fun _ _ h hw => by
  cases h
  exact FmtA.decode_toWord rfl (congrArg Instr.vfcmp (FmtA.ofWord_toWord _ _ _)) hw
theorem vfclass (f : FmtA) : Statement (.vfclass f) := fun _ _ h hw => by
  cases h
  exact FmtA.decode_toWord rfl (congrArg Instr.vfclass (FmtA.ofWord_toWord _ _ _)) hw
theorem vcvt (f : FmtA) : Statement (.vcvt f) := fun _ _ h hw => by
  cases h
  exact FmtA.decode_toWord rfl (congrArg Instr.vcvt (FmtA.ofWord_toWord _ _ _)) hw
theorem vpack (f : FmtA) : Statement (.vpack f) := fun _ _ h hw => by
  cases h
  exact FmtA.decode_toWord rfl (congrArg Instr.vpack (FmtA.ofWord_toWord _ _ _)) hw
theorem vunpack (f : FmtA) : Statement (.vunpack f) := fun _ _ h hw => by
  cases h
  exact FmtA.decode_toWord rfl (congrArg Instr.vunpack (FmtA.ofWord_toWord _ _ _)) hw
theorem qput (f : FmtA) : Statement (.qput f) := fun _ _ h hw => by
  cases h
  exact FmtA.decode_toWord rfl (congrArg Instr.qput (FmtA.ofWord_toWord _ _ _)) hw
theorem vfetch (f : FmtB) : Statement (.vfetch f) := fun _ _ h hw => by
  cases h
  exact FmtB.decode_toWord rfl (congrArg Instr.vfetch (FmtB.ofWord_toWord _ _ _)) hw
theorem vbru (f : FmtB) : Statement (.vbru f) := fun _ _ h hw => by
  cases h
  exact FmtB.decode_toWord rfl (congrArg Instr.vbru (FmtB.ofWord_toWord _ _ _)) hw
theorem vStop (f : FmtA) : Statement (.vStop f) := fun _ _ h hw => by
  cases h
  exact FmtA.decode_toWord rfl (congrArg Instr.vStop (FmtA.ofWord_toWord _ _ _)) hw
theorem vSpawn (f : FmtA) : Statement (.vSpawn f) := fun _ _ h hw => by
  cases h
  exact FmtA.decode_toWord rfl (congrArg Instr.vSpawn (FmtA.ofWord_toWord _ _ _)) hw
theorem pld (f : FmtM) : Statement (.pld f) := fun _ _ h hw => by
  cases h
  exact FmtM.decode_toWord rfl (congrArg Instr.pld (FmtM.ofWord_toWord _ _ _)) hw
theorem pst (f : FmtM) : Statement (.pst f) := fun _ _ h hw => by
  cases h
  exact FmtM.decode_toWord rfl (congrArg Instr.pst (FmtM.ofWord_toWord _ _ _)) hw
theorem pamo (op : BitVec 3) (f : FmtM) : Statement (.pamo op f) := fun _ _ h hw => by
  cases h
  rcases eight op with rfl | rfl | rfl | rfl | rfl | rfl | rfl | rfl <;>
    exact FmtM.decode_toWord rfl (congrArg (Instr.pamo _) (FmtM.ofWord_toWord _ _ _)) hw
theorem earlyEdge (yard : Nat) : Statement (.earlyEdge yard) := fun _ _ h _ => nomatch h
theorem accessPerformed (core slot op elem : Nat) : Statement (.accessPerformed core slot op elem) := fun _ _ h _ => nomatch h
theorem systemScopeAck (core slot n : Nat) : Statement (.systemScopeAck core slot n) := fun _ _ h _ => nomatch h
theorem singleBitError (unit pa : Nat) (vf : Option Nat) : Statement (.singleBitError unit pa vf) := fun _ _ h _ => nomatch h
theorem linkDown (link : Nat) : Statement (.linkDown link) := fun _ _ h _ => nomatch h
theorem linkRetrained (link : Nat) (ok : Bool) : Statement (.linkRetrained link ok) := fun _ _ h _ => nomatch h
theorem rowBoundary : Statement (.rowBoundary) := fun _ _ h _ => nomatch h
theorem cfgsemTimeout : Statement (.cfgsemTimeout) := fun _ _ h _ => nomatch h
theorem resync : Statement (.resync) := fun _ _ h _ => nomatch h
theorem telemetry : Statement (.telemetry) := fun _ _ h _ => nomatch h
theorem attest : Statement (.attest) := fun _ _ h _ => nomatch h
theorem yardset : Statement (.yardset) := fun _ _ h _ => nomatch h
theorem vfset : Statement (.vfset) := fun _ _ h _ => nomatch h
theorem slotset : Statement (.slotset) := fun _ _ h _ => nomatch h
theorem slotctl : Statement (.slotctl) := fun _ _ h _ => nomatch h
theorem seedset : Statement (.seedset) := fun _ _ h _ => nomatch h
theorem retire : Statement (.retire) := fun _ _ h _ => nomatch h
theorem powercap : Statement (.powercap) := fun _ _ h _ => nomatch h
theorem fwstage : Statement (.fwstage) := fun _ _ h _ => nomatch h
theorem resetDevice : Statement (.resetDevice) := fun _ _ h _ => nomatch h
theorem farrierRestart : Statement (.farrierRestart) := fun _ _ h _ => nomatch h
theorem clearalert : Statement (.clearalert) := fun _ _ h _ => nomatch h
theorem winbase : Statement (.winbase) := fun _ _ h _ => nomatch h
theorem coldReset : Statement (.coldReset) := fun _ _ h _ => nomatch h
theorem thermalThrottle : Statement (.thermalThrottle) := fun _ _ h _ => nomatch h
theorem thermalTrip : Statement (.thermalTrip) := fun _ _ h _ => nomatch h
theorem powerThrottle : Statement (.powerThrottle) := fun _ _ h _ => nomatch h
theorem farrierReady : Statement (.farrierReady) := fun _ _ h _ => nomatch h

end Sys2Proof.Laws.Encoding
end

