-- ==== Sys2Proof/Tests/Slice0.lean ====
section
/-! SUPPORT. Checks of the model by hand: ill-formed terms are refused, words of the spec's examples decode, single steps on small
states give the spec's values, and for every clause of every statement a state meets its hypotheses. -/

namespace Sys2Proof.Tests

open Sys2Proof.Machine

/-! ## Small states -/

/-- Format A with every field unused. -/
def fa : FmtA := { pn := false, ps := 0, d := 0xFF, a := 0xFF, b := 0xFF, c := 0xFF, ty := 0, rnd := 0, sat := false, ta := false,
                   tb := false, tc := false, md := 0 }
def fi : FmtI := { pn := false, ps := 0, d := 0xFF, a := 0xFF, imm := 0 }
def fm : FmtM := { pn := false, ps := 0, data := 0, base := 0, index := 0xFF, off := 0, scope := 0, sz5 := false, sz := 2, ff := false,
                   tbase := false, nt := false }
def fb : FmtB := { pn := false, ps := 0, a := 0xFF, off := 0 }
def fe : FmtE := { pn := false, ps := 0, queue := 0, acq := false, rel := false, escope := 2, a := 1, b := 2, c := 3, imm := 0 }
def fl : FmtL := { pn := false, ps := 0, tile := 0, rsv := 0, kreg := 0, asrc := 0, baddr := 0, msel := 0, sparse := false, sbyte := 0,
                   bcast := 0, incA := 0, incB := 0 }

/-- A cluster yard of cluster 0, and virtual function 1 with 2 GiB, enabled and privileged. -/
def tables : Mgmt :=
  { yards := [(0, { v := true, cl := 1, wlog := 10 })], vfs := [(1, { en := true, privok := true, linkok := true, sizeg := 4 })] }
/-- Page tables that map the first 512 MiB as they are, for reading, writing and execution. -/
def pages : Memory := [(0x10000, 0x03), (0x10002, 0x02), (0x20000, 0x1D)]
/-- A group of virtual function 1 at word 1 of a clause of two words. -/
def group : Group :=
  { status := .running, vf := 1, priv := true, uid := 1, vlmax := 256, vl := 4, entry := 64, pc := 64,
    x := [(1, 0xFFFFFFFFFFFFFFFB), (2, 3), (3, 0x100000), (4, 8)], p := [(1, true)] }
/-- The device with that group on core 0 in slot 0, acting. -/
def at_ (g : Group) : State :=
  { m := { mem := pages, groups := [(0, g)], vfst := [(1, { home := some 0, ptroot := 0x10000, ptall := 0x10000 })], nextUid := 7,
           yards := [(0, { phase := .running 1, hbm := 1000000000, link := 1000000000 })], act := { clause := 64, word := 1, count := 2 } },
    mgmt := tables }
/-- The same, its v instruction acting for some VPs of a run in lock-step. -/
def run4 : Run :=
  { num := 0, vl := 4, seq := 0, ux := [(5, 7)], uwait := [], uopen := [], upend := [], diverged := false, pc := 64, w := 1, rp := none,
    from_ := 0 }
/-- A group with an access to be performed, at some place. -/
def anOp (kind : AccKind) (loc : Loc) : MemOp :=
  { id := 0, kind := kind, dst := .none, signed := false, size := 8, scope := 0, mask := 0, ff := none, srcs := [],
    elems := [{ e := 0, va := 0x100000, pa := 0x100000, loc := loc, size := 8, uc := false, data := 5, cmp := 0 }], seq := 0, sub := 0,
    div := false, run := 0, live := none, vec := false, clause := 64, word := 1, instr := 0, opA := 0, opB := 0, opC := 0, first := 0,
    prog := 0, logged := false, held := false }
def with_ (op : MemOp) : Group := { group with acc := [op], nextOp := 1, seq := 1 }
def vat (g : Group) (vps : List Nat) : State :=
  let s := at_ { g with run := some run4 }
  { s with m := { s.m with act := { s.m.act with vec := true, cls := .v, vps := vps } } }
/-- What holds of the state an instruction leads to. -/
def after (i : Instr) (s : State) (p : State → Bool) : Bool := match exec i s with | .next t => p t | _ => false

/-! ## Scalar instructions -/

def addI : FmtA := { fa with ps := 1, d := 0, a := 1, b := 2, ty := 3 }
theorem meets_ScalarIntegerResult : ∃ F, scalarForm (.add addI) = some F ∧ (Instr.add addI).wellFormed = true ∧
    PredTrue (at_ group) F.pn F.ps ∧ SrcsFull (at_ group) F.srcs ∧ Unstepped (at_ group) ∧ F.d.toNat < 0x80 ∧
    F.srcs.all (fun p => p.1 != 0xC9) = true ∧ getFe (me (at_ group).m) (.x F.d.toNat) ≠ .claimed :=
  ⟨_, rfl, by simp only [PredTrue, SrcsFull, Unstepped]; decide +kernel⟩
def ltI : FmtA := { fa with d := 0x83, a := 1, b := 2 }
theorem meets_PredicateResult : ∃ F, predForm (.cmp 2 ltI) = some F ∧ (Instr.cmp 2 ltI).wellFormed = true ∧
    PredTrue (at_ group) F.pn F.ps ∧ SrcsFull (at_ group) F.srcs ∧ Unstepped (at_ group) ∧
    getFe (me (at_ group).m) (.p (F.d.toNat - 0x80)) ≠ .claimed :=
  ⟨_, rfl, by simp only [PredTrue, SrcsFull, Unstepped]; decide +kernel⟩
def faddI : FmtA := { fa with d := 5, a := 1, b := 2, ty := 9 }
theorem meets_ScalarFpResult : ∃ F, fpForm (.fadd faddI) = some F ∧ PredTrue (at_ group) F.pn F.ps ∧
    SrcsFull (at_ group) F.srcs ∧ Unstepped (at_ group) ∧ getFe (me (at_ group).m) (.x F.d.toNat) ≠ .claimed :=
  ⟨_, rfl, by simp only [PredTrue, SrcsFull, Unstepped]; decide +kernel⟩

/-! ## System registers -/

theorem meets_SystemRegisterWrite : ∃ g, sysWriteOf (.vstartWrite 1024) = some (0xC2, 1024) ∧
    sysWritten 0xC2 1024 (me (at_ group).m) = some g :=
  ⟨_, rfl, rfl⟩
/-- qin with n entries, beside a run that has diverged. -/
def qinOf (n : Nat) : Group := { group with qin := List.replicate n 9, run := some { run4 with diverged := true } }
theorem meets_SystemRegisterWrite_qin : ∃ g, sysWriteOf (.qinWrite 5) = some (0xC8, 5) ∧
    sysWritten 0xC8 5 (me (at_ (qinOf 15)).m) = some g ∧ QinTakes 0xC8 (me (at_ (qinOf 15)).m) ∧ 16 ≤ (me (at_ (qinOf 16)).m).qin.length :=
  ⟨_, rfl, rfl, fun _ => ⟨by decide, fun _ => by decide⟩, by decide⟩
theorem meets_OpenRegisters_vopen : ∀ i e, i < (me (at_ group).m).nregs → e < (me (at_ group).m).vlmax →
    (8 : Word).getLsbD i = true → getFe (me (at_ group).m) (.v i e) ≠ .claimed :=
  fun _ _ _ _ _ h => nomatch h
theorem meets_OpenRegisters_xopen : ∀ i, i < 64 → (8 : Word).getLsbD i = true → getFe (me (at_ group).m) (.x i) ≠ .claimed := by decide
/-- v63 claimed in the last VP, and x63. -/
def claimed63 : Group := { group with vfe := [(63, [(255, .claimed)])], xfe := [(63, .claimed)] }
theorem meets_OpenRegisters_claimed : (∃ i e, i < (me (at_ claimed63).m).nregs ∧ e < (me (at_ claimed63).m).vlmax ∧
      (0x8000000000000000 : Word).getLsbD i = true ∧ getFe (me (at_ claimed63).m) (.v i e) = .claimed) ∧
    (∃ i, i < 64 ∧ (0x8000000000000000 : Word).getLsbD i = true ∧ getFe (me (at_ claimed63).m) (.x i) = .claimed) :=
  ⟨⟨63, 255, by decide⟩, 63, by decide⟩
def qout1 : Group := { group with qout := [5] }
theorem meets_QoutRead : (me (at_ group).m).qout = [] ∧ (me (at_ qout1).m).qout = 5 :: [] ∧
    (127 : BitVec 8).toNat < 0x80 ∧ (127 : BitVec 8) ≠ 0 ∧ getFe (me (at_ qout1).m) (.x (127 : BitVec 8).toNat) ≠ .claimed ∧
    (sysWritten 0xC2 (BitVec.setWidth 64 (5 : Lane)) { me (at_ qout1).m with qout := [] }).isSome = true ∧
    QinTakes 0xC2 (me (at_ qout1).m) := by
  simp only [QinTakes]; decide

/-! ## Control flow -/

theorem meets_ControlTransfer : Unstepped (at_ group) ∧ PredTrue (at_ group) fb.pn fb.ps ∧
    relTarget (at_ group) { fb with a := 4 } < 2 ^ 55 ∧ XFull (at_ group) 4 ∧ (xVal (at_ group) 4).toNat < 2 ^ 55 ∧
    (xVal (at_ group) 4).toNat % 8 = 0 := by
  simp only [PredTrue, Unstepped, XFull, xVal]; decide
/-- A target eight bytes below address zero. -/
def far : FmtB := { fb with a := 4, off := 0xFFFFFFFFF7 }
theorem meets_BadTargetHalts_br : PredTrue (at_ group) false 0 ∧ 2 ^ 55 ≤ relTarget (at_ group) far ∧ XFull (at_ group) far.a := by
  simp only [PredTrue, XFull]; decide
theorem meets_BadTargetHalts_jmpr : PredTrue (at_ group) false 0 ∧ XFull (at_ group) 1 ∧ 2 ^ 55 ≤ (xVal (at_ group) 1).toNat ∧
    XFull (at_ group) 2 ∧ (xVal (at_ group) 2).toNat < 2 ^ 55 ∧ (xVal (at_ group) 2).toNat % 8 ≠ 0 := by
  simp only [PredTrue, XFull, xVal]; decide
theorem meets_LengthsAndYield : Unstepped (at_ group) ∧ PredTrue (at_ group) false 0 ∧ XFull (at_ group) 2 ∧
    getFe (me (at_ group).m) (.x 5) ≠ .claimed ∧ (me (at_ group).m).parent = none ∧ liveChild (me (at_ group).m) = false ∧
    quiescent (at_ group).m 0 0 = true ∧ (me (at_ group).m).run = none := by
  simp only [PredTrue, Unstepped, XFull]; decide
theorem meets_RunStart : Unstepped (at_ group) ∧ PredTrue (at_ group) false 0 ∧ (me (at_ group).m).run = none ∧
    relTarget (at_ group) fb < 2 ^ 55 := by
  simp only [PredTrue, Unstepped]; decide
/-- All four VPs with c1 true. -/
def allTrue : Group := { group with c := [(1, [(0, true), (1, true), (2, true), (3, true)])] }
theorem meets_LockStepTransfer : let s := vat allTrue [0, 1, 2, 3]
    Unstepped s ∧ (me s.m).run = some run4 ∧ run4.diverged = false ∧ run4.from_ = 0 ∧ s.m.act.vps = List.range run4.vl ∧ 0 < run4.vl ∧
      relTarget s fb < 2 ^ 55 ∧ isC 0x41 = true ∧ (∀ e, e < run4.vl → getFe (me s.m) (.c ((0x41 : BitVec 8).toNat - 0x40) e) = .full) ∧
      ∀ e, e < run4.vl → getC (me s.m) ((0x41 : BitVec 8).toNat - 0x40) e = true := by
  simp only [Unstepped]; decide

/-! ## Groups: ending, splitting, creating -/

theorem meets_StopEndsGroup : PredTrue (at_ group) false 0 ∧ (at_ group).m.act.slot < 64 ∧ mayEnd (me (at_ group).m) = true ∧
    (me (at_ group).m).acc = [] ∧ mayEnd (me (at_ claimed63).m) = false ∧
    let g := with_ (anOp .store .hbm)
    mayEnd (me (at_ g).m) = true ∧ (me (at_ g).m).acc ≠ [] ∧ goneSlot (at_ g).m 0 = 64 := by
  simp only [PredTrue]; decide +kernel
/-- One lane, and sixteen with slot 1 free. -/
def oneLane : Group := { group with laneL := 1 }
theorem meets_ForkSplits : (Unstepped (at_ oneLane) ∧ PredTrue (at_ oneLane) false 0 ∧ quiescent (at_ oneLane).m 0 0 = true ∧
      getFe (me (at_ oneLane).m) (.p ((0x81 : BitVec 8).toNat - 0x80)) ≠ .claimed ∧ (me (at_ oneLane).m).laneL ≤ 1) ∧
    Unstepped (at_ group) ∧ PredTrue (at_ group) false 0 ∧ quiescent (at_ group).m 0 0 = true ∧
      getFe (me (at_ group).m) (.p ((0x81 : BitVec 8).toNat - 0x80)) ≠ .claimed ∧ 1 < (me (at_ group).m).laneL ∧
      liveChild (me (at_ group).m) = false ∧ freeSlot (at_ group).m 0 (yardSlots (groupYardEnt tables 0 group) 64) = some 1 ∧ 1 ≠ 0 ∧
      ctlClear (me (at_ oneLane).m) = true ∧ ctlClear (me (at_ group).m) = true ∧ ctlClear (me (at_ (with_ (anOp .store .hbm))).m) = false ∧
      quiescent (at_ (with_ (anOp .store .hbm))).m 0 0 = true := by
  simp only [PredTrue, Unstepped]; decide
/-- A fork not joined yet. -/
def aFork (done : Bool) : ForkRec :=
  { b := 0, l := 2, vlmax := 8, vl := 3, slot := 1, uid := 2, done := done, v := [(1, [(0, 9)])], c := [], srs := [], vis := [(5, 1)],
    vfe := [], cfe := [], pend := [], saveMap := 2, pcs := [] }
def forked (done : Bool) : Group := { group with laneL := 1, vlmax := 4, vl := 2, forks := [aFork done], v := [(1, [(0, 4), (1, 5)])] }
/-- A child that has ended, with an access to perform. -/
def childGone : State :=
  let s := at_ (forked true)
  { s with m := setGrp s.m 0 64 { with_ (anOp .store .hbm) with status := .gone, uid := 2 } }
theorem meets_JoinReunites : Unstepped (at_ group) ∧ PredTrue (at_ group) false 0 ∧ (me (at_ group).m).parent = none ∧
    (me (at_ group).m).forks = [] ∧ Unstepped (at_ (forked true)) ∧ PredTrue (at_ (forked true)) false 0 ∧
    (me (at_ (forked true)).m).parent = none ∧ (me (at_ (forked true)).m).forks = [aFork true] ∧ (aFork true).done = true ∧
    quiescent (at_ (forked true)).m 0 0 = true ∧ 1 < (aFork true).l ∧ (me (at_ (forked false)).m).forks = [aFork false] ∧
    (aFork false).done = false ∧ goneChild (at_ (forked true)).m (aFork true).uid = false ∧ (me childGone.m).forks = [aFork true] ∧
    goneChild childGone.m (aFork true).uid = true := by
  simp only [PredTrue, Unstepped]; decide
def spawnI : FmtA := { fa with a := 3, b := 2 }
theorem meets_SpawnIntoStall : let s := at_ group
    let m := (readSrcs s [(spawnI.a, spawnI.ta), (spawnI.b, spawnI.tb)]).2
    let it : Item := { entry := (xVal s 3).toNat, arg := xVal s 2, by_ := starterOf s.mgmt m }
    Unstepped s ∧ PredTrue s false 0 ∧ XFull s spawnI.a ∧ XFull s spawnI.b ∧ SrcsFull s [(spawnI.a, false), (spawnI.b, false)] ∧
      (xVal s spawnI.a).toNat < 2 ^ 55 ∧ (xVal s spawnI.a).toNat % 8 = 0 ∧
      findStall (clus s.m 0) (actLaneYard s.mgmt s.m) it = some 0 ∧ ctlClear (me s.m) = true ∧
      ctlClear (me (at_ (with_ (anOp .store .hbm))).m) = false := by
  simp only [PredTrue, Unstepped, XFull, SrcsFull, xVal]; decide
def vspawnI : FmtA := { fa with a := 0x80, b := 0x85 }
/-- The entry of the items is uniform x0. -/
theorem meets_VectorSpawn : let s := vat group [0, 1, 2, 3]
    let its : List Item := s.m.act.vps.map fun _ => { entry := 0, arg := 7, by_ := starterOf s.mgmt s.m }
    Unstepped s ∧ (me s.m).run = some run4 ∧ vspawnI.ps = 0 ∧ 0x80 ≤ vspawnI.a.toNat ∧ 0x80 ≤ vspawnI.b.toNat ∧ run4.uwait = [] ∧
      run4.uopen = [] ∧ s.m.act.vps ≠ [] ∧ (∀ e ∈ s.m.act.vps, vpClear (me s.m) e = true) ∧
      (placeItems s.mgmt (actLaneYard s.mgmt s.m) (modMe s.m fun g => g) its).isSome = true ∧
      spawnWait s.mgmt (actLaneYard s.mgmt s.m) (modMe s.m fun g => g) its = none := by
  simp only [Unstepped]; decide
/-- Every stall of the cluster taken by another entry, and no overflow area. -/
def stallsFull : State :=
  let s := vat group [0, 1, 2, 3]
  let it : Item := { entry := 8, arg := 0, by_ := starterOf s.mgmt s.m }
  { s with m := modClus s.m 0 fun k => { k with stalls := (List.range 32).map fun i => (i, { items := [it], due := i }) } }
theorem meets_VectorSpawn_overflow :
    let its : List Item := stallsFull.m.act.vps.map fun _ => { entry := 0, arg := 7, by_ := starterOf stallsFull.mgmt stallsFull.m }
    placeItems stallsFull.mgmt (actLaneYard stallsFull.mgmt stallsFull.m) (modMe stallsFull.m fun g => g) its = none := by decide +kernel
/-- A launch record of the spec's examples: entry 0x100000, two levels, eight registers. -/
def recordWords (flags : Word) : List Word := [0x100000, 0x10802 ||| flags, 0, 0x11100000100] ++ List.replicate 12 0
def launching (flags : Word) : Group := { group with held := some { op := 0, phase := 0, words := recordWords flags } }
def launchI : FmtA := { fa with d := 0x82, a := 3 }
theorem meets_LaunchAccepts : (Unstepped (at_ group) ∧ PredTrue (at_ group) false 0 ∧ XFull (at_ group) 2 ∧
      getFe (me (at_ group).m) (.p ((0x82 : BitVec 8).toNat - 0x80)) ≠ .claimed ∧ (me (at_ group).m).held = none ∧
      (xVal (at_ group) 2).toNat % 128 ≠ 0) ∧
    let s := at_ (launching 0)
    let y := groupYardEnt s.mgmt 0 (me s.m)
    let r := recordOf (recordWords 0)
    Unstepped s ∧ PredTrue s false 0 ∧ XFull s 3 ∧ getFe (me s.m) (.p ((0x82 : BitVec 8).toNat - 0x80)) ≠ .claimed ∧
      (∀ o ∈ (me s.m).acc, o.id ≠ 0) ∧ recordValid (vfEnt s.mgmt 1) (yardLaneCount y) r = true ∧ (vfst s.m 1).launched.length < 16 ∧
      placeRecord s.mgmt y (fun c => coreQualifies (readSrcs s [(launchI.a, launchI.ta)]).2 y r.ngroups c) r = some [(1, 1)] ∧
      recordValid (vfEnt s.mgmt 1) (yardLaneCount y) (recordOf (recordWords 0x2000000000000)) = false := by
  simp only [PredTrue, Unstepped, XFull, xVal]; decide +kernel

/-! ## Lane instructions and the cross-lane queues -/

def vaddI : FmtA := { fa with ps := 1, d := 3, a := 4, b := 0x85, ty := 2 }
def lanes : Group := { group with c := [(1, [(0, true), (3, true)])], v := [(4, [(0, 1), (3, 0xFFFFFFFF)])] }
theorem meets_LaneResult : ∃ F, laneForm (.vadd vaddI) = some F ∧ (Instr.vadd vaddI).wellFormed = true ∧ F.onRegisters ∧
    LaneReady (vat lanes [0, 1, 2, 3]) F :=
  ⟨_, rfl, by decide, ⟨rfl, (by decide : vaddI.d.toNat < 0x40)⟩, by simp only [LaneReady]; decide⟩
def qputI : FmtA := { fa with d := 0x49, a := 0x85, ty := 7 }
/-- Links and qout with room for one more value of 64 bits, and with one entry too many. -/
def linked (n : Nat) : Group := { group with links := [(1, List.replicate n 1)], qout := List.replicate (n + 12) 2 }
/-- How a lane instruction ends: 0 with every VP done, 1 without room, 2 at an empty queue, 3 at one whose trap bit is set. -/
def endOf (F : LaneForm) (s : State) : Nat :=
  match (queueAll F (vActive s.m F.pn F.ps) (me (lanesRead s F.srcs (vActive s.m F.pn F.ps)))).2 with
  | none => 0 | some (_, .noRoom) => 1 | some (_, .empty q) => if q.trap then 3 else 2 | some (_, .done _) => 4
theorem meets_CrossLaneQueues_push : ∃ F, laneForm (.qput qputI) = some F ∧ (Instr.qput qputI).wellFormed = true ∧ ¬ F.onRegisters ∧
    F.pushes ∧ LaneReady (vat (linked 2) [1, 3]) F ∧ endOf F (vat (linked 2) [1, 3]) = 0 ∧ LaneReady (vat (linked 3) [1]) F ∧
    endOf F (vat (linked 3) [1]) = 1 ∧ LaneReady (vat (linked 3) [3]) F ∧ endOf F (vat (linked 3) [3]) = 1 :=
  ⟨_, rfl, by decide, fun h => absurd (show qputI.d.toNat < 0x40 from h.2) (by decide), (by decide : 0x40 ≤ qputI.d.toNat), by simp only [LaneReady]; decide +kernel⟩
/-- The same beside accesses of the diverged run that VP 3 has not performed: VP 1 may push. -/
def split1 : State :=
  vat { linked 2 with acc := [{ anOp .store .hbm with div := true, run := 0, elems := [elAccess 3 0x100000 8 5 0] }] } [1]
def split2 : State := { split1 with m := modMe split1.m fun g => { g with run := some { run4 with diverged := true } } }
theorem meets_CrossLaneQueues_diverged : (me split2.m).run.any (·.diverged) = true ∧ vpClear (me split2.m) 1 = true ∧
    vpClear (me split2.m) 3 = false ∧ vPredWait split2.m 0 = none := by decide +kernel
def vmovQ (a : BitVec 8) (ta : Bool) : FmtA := { fa with d := 63, a := a, ty := 2, ta := ta }
def queued : Group := { group with qin := [8], links := [(0, [9])] }
theorem meets_CrossLaneQueues_pop : ∃ F G, laneForm (.vmov (vmovQ 0x48 false)) = some F ∧ laneForm (.vmov (vmovQ 0x4B true)) = some G ∧
    (Instr.vmov (vmovQ 0x48 false)).wellFormed = true ∧ (Instr.vmov (vmovQ 0x4B true)).wellFormed = true ∧
    F.srcs.any isQueueSrc = true ∧ G.srcs.any isQueueSrc = true ∧ LaneReady (vat queued [0, 1]) F ∧ endOf F (vat queued [0, 1]) = 0 ∧
    LaneReady (vat queued [2]) F ∧ endOf F (vat queued [2]) = 2 ∧ LaneReady (vat group [0]) F ∧ endOf F (vat group [0]) = 2 ∧
    LaneReady (vat group [1]) G ∧ endOf G (vat group [1]) = 3 :=
  ⟨_, _, rfl, rfl, by simp only [LaneReady]; decide +kernel⟩

/-! ## Masks and control-issued vector operations -/

def mandI : FmtA := { fa with d := 0x8F, a := 0x89, b := 0x8A }
theorem meets_MaskResult : Unstepped (at_ lanes) ∧ (me (at_ lanes).m).run = none ∧ (∃ F, maskForm (.mand mandI) = some F ∧
      PredTrue (at_ lanes) F.pn F.ps ∧ SrcsFull (at_ lanes) F.srcs ∧
      ∀ e, e < (me (at_ lanes).m).vl → getFe (me (at_ lanes).m) (.c (F.d.toNat - 0x88) e) ≠ .claimed) ∧
    PredTrue (at_ lanes) false 0 ∧ SrcsFull (at_ lanes) [(0x89, false)] ∧ getFe (me (at_ lanes).m) (.x 5) ≠ .claimed ∧
    63 < (me (at_ lanes).m).nregs ∧ dstWait (at_ lanes).m (regsAt [63] (List.range (me (at_ lanes).m).vl)) = none := by
  simp only [PredTrue, Unstepped, SrcsFull]
  exact ⟨rfl, rfl, ⟨_, rfl, by decide⟩, by decide⟩
/-- Elements from 1 on, where m1 is true; v62:v63 the destination. -/
def scanI : FmtA := { fa with ps := 1, d := 62, a := 4, ty := 7 }
def strip : Group := { lanes with vstart := 1 }
def redI : FmtA := { fa with ps := 1, d := 6, a := 4, ty := 9 }
theorem meets_VectorOperation : ∃ F, vecForm (.vredAdd redI) = some F ∧ (Instr.vredAdd redI).wellFormed = true ∧ Unstepped (at_ strip) ∧
    (me (at_ strip).m).run = none ∧ (∀ r ∈ F.named, r < (me (at_ strip).m).nregs) ∧ MaskFull (at_ strip) F.ps ∧
    firstEmpty (me (at_ strip).m) [] (F.srcs (me (at_ strip).m) (activeOf (me (at_ strip).m) F.pn F.ps)) = none ∧
    dstWait (at_ strip).m (F.dsts (me (at_ strip).m) (activeOf (me (at_ strip).m) F.pn F.ps)) = none :=
  ⟨_, rfl, by simp only [MaskFull, Unstepped]; decide⟩
theorem meets_VectorScan : let s := at_ strip
    let act := activeOf (me s.m) scanI.pn scanI.ps
    (Instr.vscan scanI).wellFormed = true ∧ Unstepped s ∧ (me s.m).run = none ∧
      (∀ r ∈ regsOf (sixtyFour scanI.ty) scanI.a.toNat ++ regsOf (sixtyFour scanI.ty) scanI.d.toNat, r < (me s.m).nregs) ∧
      MaskFull s scanI.ps ∧ firstEmpty (me s.m) [] [vAt (sixtyFour scanI.ty) scanI.a act scanI.ta] = none ∧
      dstWait s.m (regsAt (regsOf (sixtyFour scanI.ty) scanI.d.toNat) act) = none ∧ vecInFlight (me s.m) < 8 := by
  simp only [MaskFull, Unstepped]; decide

/-! ## Memory instructions -/

/-- A group with no access yet, of a clause in mapped memory; x3 points at 1 MiB. -/
def vldI : FmtM := { fm with ps := 1, data := 62, base := 3, sz := 3 }
theorem meets_MemoryInstructionEnters_vector : ∃ F els, vectorMemory (.vld vldI) = some F ∧ (Instr.vld vldI).wellFormed = true ∧
    Unstepped (at_ lanes) ∧ NoLockStep (at_ lanes) ∧ (∀ r ∈ F.named, r < (me (at_ lanes).m).nregs) ∧ MaskFull (at_ lanes) F.ps ∧
    let act := activeOf (me (at_ lanes).m) F.pn F.ps
    let m := modMe (at_ lanes).m (absorbSrcs (F.srcs act))
    act ≠ [] ∧ firstEmpty (me (at_ lanes).m) [] (F.srcs act) = none ∧ dstWait m (opClaims (F.op m act)) = none ∧
      vecInFlight (me m) < 8 ∧ (checkOp tables m 0 (me m) (F.op m act)).1 = .ok els [] ∧ els ≠ [] :=
  ⟨_, [{ e := 0, va := 0x100000, pa := 0x100000, loc := .hbm, size := 8, uc := false, data := 0, cmp := 0 },
       { e := 3, va := 0x100018, pa := 0x100018, loc := .hbm, size := 8, uc := false, data := 0, cmp := 0 }],
   rfl, by simp only [MaskFull, Unstepped, NoLockStep]; decide +kernel⟩
/-- The eighth byte from the end of the mapped memory. -/
def stI : FmtM := { fm with data := 2, base := 3, sz := 3 }
def high : Group := { group with x := [(2, 3), (3, 0x1FFFFFF8)] }
theorem meets_MemoryInstructionEnters_scalar : ∃ F els, scalarMemory (.st stI) = some F ∧ (Instr.st stI).wellFormed = true ∧
    Unstepped (at_ high) ∧ PredTrue (at_ high) F.pn F.ps ∧ firstEmpty (me (at_ high).m) [] (F.srcs []) = none ∧
    let m := modMe (at_ high).m (absorbSrcs (F.srcs []))
    dstWait m (opClaims (F.op m [])) = none ∧ (checkOp tables m 0 (me m) (F.op m [])).1 = .ok els [] ∧
      mayRecord (me m) { F.op m [] with elems := els } = false ∧ els ≠ [] :=
  ⟨_, [{ e := 0, va := 0x1FFFFFF8, pa := 0x1FFFFFF8, loc := .hbm, size := 8, uc := false, data := 3, cmp := 0 }],
   rfl, by simp only [PredTrue, Unstepped]; decide +kernel⟩
def pstI : FmtM := { fm with ps := 1, data := 4, base := 0x85, off := 2 }
/-- Uniform x5 holds a multiple of four. -/
def vlanes : State :=
  let s := vat lanes [0, 1, 2, 3]
  { s with m := modMe s.m fun g => { g with run := some { run4 with ux := [(5, 0x1000)] } } }
theorem meets_VpMemoryEnters : ∃ F els, vpMemory (.pst pstI) = some F ∧ (Instr.pst pstI).wellFormed = true ∧
    (∀ r ∈ F.named, r < (me vlanes.m).nregs) ∧ vPredWait vlanes.m F.ps = none ∧
    let act := vActive vlanes.m F.pn F.ps
    let m := lanesRead vlanes F.srcs act
    vFirstEmpty (me vlanes.m) act (F.srcs.filter fun q => !isQueueSrc q) = none ∧ dstWait vlanes.m (vDstFe F.d act) = none ∧ act ≠ [] ∧
      (checkOp tables m 0 (me m) (F.op m act)).1 = .ok els [] ∧ vecInFlight (me m) < 8 ∧ els ≠ [] :=
  ⟨_, [{ e := 0, va := 0x1008, pa := 0x1008, loc := .hbm, size := 4, uc := false, data := 1, cmp := 0 },
       { e := 3, va := 0x1008, pa := 0x1008, loc := .hbm, size := 4, uc := false, data := 0xFFFFFFFF, cmp := 0 }], rfl, by decide +kernel⟩

/-! ## Pushes -/

/-- The acting group and a group of its virtual function in slot 63 of core 3. -/
def sender : Group := { group with x := [(3, 0x33E3F)] }
def receiver : Group := { group with uid := 2, nregs := 64, vlmax := 4 }
def two (g h : Group) : State := let s := at_ g; { s with m := setGrp s.m 3 63 h }
/-- Four registers, the last of them v63 at both ends; one register too many. -/
def pushI (n : BitVec 5) : FmtA := { fa with a := 3, b := 61, md := n }
theorem meets_PushEnters : let s := two sender receiver
    let srcs : List CSrc := [.r 3 false, .v [61, 62] (activeOf (me s.m) false 0) false]
    Unstepped s ∧ PredTrue s false 0 ∧ NoLockStep s ∧ (xVal s 3).toNat = 3 * 65536 + 62 * 256 + 63 ∧
      (∀ v ∈ [61, 62], v < (me s.m).nregs) ∧ firstEmpty (me s.m) [] srcs = none ∧ (me s.m).pushes.length < 4 ∧
      pushInYard (groupYardEnt s.mgmt 0 (me s.m)) { core := 3, dreg := 62, slot := 63 } = true ∧ (grp s.m 3 63).status ≠ .free ∧
      (grp s.m 3 63).vf = 1 ∧ (3, 63) ≠ (s.m.act.core, s.m.act.slot) ∧ 62 + 2 ≤ (grp s.m 3 63).nregs ∧ (me s.m).vl ≤ (grp s.m 3 63).vlmax ∧
      (grp s.m 3 63).nregs < 62 + 3 ∧ (grp (two sender { receiver with vlmax := 3 }).m 3 63).vlmax < (me s.m).vl ∧
      (grp (at_ sender).m 3 63).here = false ∧ (grp s.m 3 63).here = true := by
  simp only [PredTrue, Unstepped, NoLockStep, xVal]; decide
def push63 : Push :=
  { core := 3, slot := 63, uid := 2, dreg := 63, src := 63, count := 1, moved := 0, first := 0, vl := 1,
    at_ := { seq := 0, opId := 0, live := none } }
def pushing : State :=
  two { sender with pushes := [push63], v := [(63, [(0, 5)])] } { receiver with vfe := [(63, [(0, .opened)])] }
theorem meets_PushMovesRegister : groupOk 0 0 = true ∧ (grp pushing.m 0 0).pushes = push63 :: [] ∧
    pushInTurn (grp pushing.m 0 0) push63 = true ∧ (grp pushing.m 3 63).here = true ∧ (grp pushing.m 3 63).uid = push63.uid ∧
    gkey 3 63 ≠ gkey 0 0 ∧ push63.first < push63.vl ∧
    (∀ e, e < push63.vl → push63.first ≤ e → getFe (grp pushing.m 3 63) (.v (push63.dreg + push63.moved) e) = .opened) ∧
    getFe (grp (modGrp pushing.m 0 0 fun g => { g with vfe := [(63, [(0, .failing)])] }) 0 0) (.v (push63.src + push63.moved) 0) = .failing := by decide

/-! ## Fences, counters, seeds, traps, privileged instructions -/

theorem meets_Fences : Unstepped (at_ group) ∧ PredTrue (at_ group) false 0 ∧ writesPending (at_ group).m = false ∧
    mloadPending (at_ group).m = false ∧ systemPending (at_ group).m = false ∧
    writesPending (at_ (with_ (anOp .load .system))).m = false ∧ mloadPending (at_ (with_ (anOp .load .system))).m = false ∧
    systemPending (at_ (with_ (anOp .load .system))).m = true ∧ writesPending (at_ (with_ (anOp .store .hbm))).m = true := by
  simp only [PredTrue, Unstepped]; decide
theorem meets_CounterReadAndSeed : Unstepped (at_ group) ∧ PredTrue (at_ group) false 0 ∧ XFull (at_ group) 2 ∧
    getFe (me (at_ group).m) (.x 5) ≠ .claimed ∧ (me (at_ group).m).run = none ∧ (me (vat group []).m).run.isSome = true := by
  simp only [PredTrue, Unstepped, XFull]; decide
theorem meets_TrapsHalt : Unstepped (at_ group) ∧ PredTrue (at_ group) false 0 := by simp only [PredTrue, Unstepped]; decide
/-- Two cached leaves, of 64 KiB and of 512 MiB, and one of another virtual function. -/
def cached : State :=
  let s := at_ group
  let t : TlbEnt := { vf := 1, root := 0x10000, va := 0x100000, big := false, pte := 0x1D }
  { s with m := { s.m with tlb := [t, { t with va := 0, big := true }, { t with vf := 2 }] } }
theorem meets_TranslationsRemoved : Unstepped cached ∧ PredTrue cached false 0 ∧ (me cached.m).held = none ∧ writesPending cached.m = false ∧
    XFull cached 3 ∧ translatedOps cached.m 1 cached.m.tlb = [] ∧ (cached.m.tlb.filter fun t => t.vf == 1).length = 2 := by
  simp only [PredTrue, Unstepped, XFull]; decide
theorem meets_PrivilegedRegisters : Unstepped (at_ group) ∧ PredTrue (at_ group) false 0 ∧ getFe (me (at_ group).m) (.x 5) ≠ .claimed ∧
    Instr.wellFormed (.csrRd { fi with d := 5, imm := 0x40 }) = true ∧ Instr.wellFormed (.csrRd { fi with d := 5, imm := 0x5F }) = true ∧ XFull (at_ group) 2 ∧
    Instr.wellFormed (.csrWr { fi with a := 2, imm := 0x40 }) = true ∧ Instr.wellFormed (.csrWr { fi with a := 2, imm := 0x5F }) = true := by
  simp only [PredTrue, Unstepped, XFull]; decide
/-- Entry 15 of the log in use. -/
def logged15 : State :=
  let s := at_ { group with x := [(2, 15)] }
  { s with m := modCore s.m 0 fun k => { k with log := [(15, { used := true, vf := 1, slot := 5 })] } }
theorem meets_ReplayRequest : Unstepped logged15 ∧ PredTrue logged15 false 0 ∧ XFull logged15 2 ∧ (xVal logged15 2).toNat < 16 ∧
    (mget {} (Machine.core logged15.m 0).log 15).used = true ∧ (mget {} (Machine.core logged15.m 0).log 15).rpl = false ∧
    (mget {} (Machine.core logged15.m 0).log 15).vf = (me logged15.m).vf ∧ (xVal (at_ group) 2).toNat < 16 ∧
    (mget {} (Machine.core (at_ group).m 0).log 3).used = false ∧ 16 ≤ (xVal (at_ group) 1).toNat := by
  simp only [PredTrue, Unstepped, XFull, xVal]; decide

/-! ## Barriers -/

/-- A barrier instruction that has read its words. -/
def answered (ws : List Word) : State := at_ { group with held := some { op := 0, phase := 0, words := ws } }
theorem meets_Barriers : Unstepped (answered [0x100000000]) ∧ PredTrue (answered [0x100000000]) false 0 ∧ XFull (answered [0x100000000]) 3 ∧
    XFull (answered [0x100000000]) 2 ∧ getFe (me (answered [0x100000000]).m) (.x 5) ≠ .claimed ∧ (me (answered []).m).acc = [] ∧
    (me (answered []).m).recs = [] ∧ (0x300000000 : Word).toNat / 4294967296 = (xVal (answered []) 2).toNat % 4294967296 ∧
    (0x200000000 : Word).toNat / 4294967296 ≠ (xVal (answered []) 2).toNat % 4294967296 := by
  simp only [PredTrue, Unstepped, XFull, xVal]; decide +kernel
def barrI : FmtA := { fa with d := 5, a := 3, md := 2 }
theorem meets_Barriers_arrival : ∃ els, let s := at_ group
    let m := (readSrcs s [(barrI.a, barrI.ta)]).2
    let op := { ctlOp m .arrive with scope := 2, elems := [elAccess 0 (xVal s barrI.a).toNat 8 0 0], opA := xVal s barrI.a }
    Unstepped s ∧ PredTrue s false 0 ∧ XFull s barrI.a ∧ getFe (me s.m) (.x barrI.d.toNat) ≠ .claimed ∧ (me s.m).held = none ∧
      (checkOp s.mgmt m 0 (me m) op).1 = .ok els [] ∧ els ≠ [] ∧ vecInFlight (me m) < 8 :=
  ⟨[{ e := 0, va := 0x100000, pa := 0x100000, loc := .hbm, size := 8, uc := false, data := 0, cmp := 0 }],
   by simp only [PredTrue, Unstepped, XFull, xVal]; decide +kernel⟩
def bwaitI : FmtA := { fa with a := 3, b := 2, md := 2 }
theorem meets_Barriers_poll : ∃ els, let s := answered [0x100000000]
    let m := (readSrcs s [(bwaitI.a, bwaitI.ta), (bwaitI.b, bwaitI.tb)]).2
    let one := (readSrcs s [(bwaitI.a, bwaitI.ta)]).2
    let op := { ctlOp m .poll with scope := 2, elems := [elAccess 0 (xVal s bwaitI.a).toNat 8 0 0], opA := xVal s bwaitI.a, opB := xVal s 2 }
    XFull s bwaitI.b ∧ (me (at_ group).m).held = none ∧ (checkOp s.mgmt m 0 (me m) op).1 = .ok els [] ∧ els ≠ [] ∧
      (checkOp s.mgmt one 0 (me one) { op with opB := 0 }).1 = .ok els [] ∧ vecInFlight (me m) < 8 :=
  ⟨[{ e := 0, va := 0x100000, pa := 0x100000, loc := .hbm, size := 8, uc := false, data := 0, cmp := 0 }],
   by simp only [XFull, xVal]; decide +kernel⟩

/-! ## The Dray engine -/

/-- A command of the acting group: 4,128 bytes to 0x100FE0. -/
def job (kind : JobKind) (st : JobState) : Job :=
  { id := 5, vf := 1, slot := 0, uid := 1, queue := 0, kind := kind, acq := false, rel := false, escope := 2, bar := false, a := 0x100FE0,
    b := 0x0807060504030201, c := 0x1020, barAddr := 0, tag := 255, clause := 0, word := 0, st := st,
    at_ := { seq := 0, opId := 0, live := none }, fence := none, floor := [], hfloor := [],
    dst := (if st = .queued then 0 else 0x100FE0) }
def jobs (js : List Job) : State := let s := at_ group; { s with m := modCore s.m 0 fun k => { k with jobs := js } }
def seven : State := jobs (List.replicate 7 { job .copy .queued with id := 9 })
def eight : State := jobs (List.replicate 8 { job .copy .queued with id := 9 })
theorem meets_EngineCommandQueued : drayForm (.dcopyBar { fe with imm := 0x40A }) = some (.copy, true, { fe with imm := 0x40A }) ∧
    (Instr.dcopyBar { fe with imm := 0x40A }).wellFormed = true ∧ Unstepped seven ∧ PredTrue seven false 0 ∧
    SrcsFull seven (drayFields true { fe with imm := 0x40A }) ∧ queuedIn seven.m 0 1 0 < 8 ∧ 8 ≤ queuedIn eight.m 0 1 0 := by
  simp only [PredTrue, Unstepped, SrcsFull]; decide
/-- dhalo within the local stores of cores 0 and 3; dtile of entry 31, a tile of 512 bytes. -/
def haloG : Group := { group with x := [(1, 0x30007FFF8), (2, 0x7FFF8), (3, 0x10008)] }
def tileG : Group := { group with x := [(1, 31), (2, 0x100000), (3, 64)] }
def tiled : State :=
  let s := at_ tileG
  { s with m := modCore s.m 0 fun k => { k with tiles := [(31, { st := .ready, ty := 9, rows := 1, cols := 128, lsoff := 0x7FE00 })] } }
theorem meets_EngineCommandQueued_halo : drayForm (.dhalo fe) = some (.halo, false, fe) ∧
    haloOk (groupYardEnt tables 0 haloG) 0 (xVal (at_ haloG) 1) (xVal (at_ haloG) 2) (xVal (at_ haloG) 3) = true ∧
    haloOk (groupYardEnt tables 0 group) 0 (xVal (at_ group) 1) (xVal (at_ group) 2) (xVal (at_ group) 3) = false ∧
    drayForm (.dtile fe) = some (.tile, false, fe) ∧ (xVal tiled 1).toNat = 31 ∧ (xVal tiled 3).toNat < 2 ^ 32 ∧
    lsTileValid (groupYardEnt tables 0 tileG) (tileEnt tiled.m 0 31) = true ∧ tileSt tiled.m 0 31 = .ready ∧
    ¬ (8 ≤ (xVal (at_ group) 2).toNat) := by
  simp only [xVal]; decide
def popI (ta : Bool) : FmtA := { fa with d := 127, a := 0x9F, ta := ta }
def resulted : Group := { group with res := [(15, [{ val := 7, rel := [(3, 1)], writes := [(3, 1)] }])] }
theorem meets_ResultPopped : Unstepped (at_ resulted) ∧ PredTrue (at_ resulted) false 0 ∧ (popI false).a.toNat = 0x90 + 15 ∧
    (popI false).d.toNat < 0x80 ∧ mget [] (me (at_ resulted).m).res 15 = { val := 7, rel := [(3, 1)], writes := [(3, 1)] } :: [] ∧
    (popI false).d ≠ 0 ∧ getFe (me (at_ resulted).m) (.x (popI false).d.toNat) ≠ .claimed ∧ Unstepped (at_ group) ∧
    PredTrue (at_ group) true 0 ∧ mget [] (me (at_ group).m).res 15 = [] := by
  simp only [PredTrue, Unstepped]; decide
/-- A copy of 2^48 − 1 bytes, one of 2^48, and one of none. -/
def copyJob (n : Word) : Job := { job .copy .queued with b := 0x200000, c := n }
theorem meets_CopyStarts : coreOk 0 = true ∧ findJob (jobs [copyJob 0xFFFFFFFFFFFF]).m 0 5 = some (copyJob 0xFFFFFFFFFFFF) ∧
    enginesRun (jobs [copyJob 0xFFFFFFFFFFFF]).m tables 0 1 = some (yardEnt tables 0) ∧
    mayStart (jobs [copyJob 0xFFFFFFFFFFFF]).m 0 (copyJob 0xFFFFFFFFFFFF) = true ∧ (copyJob 0).a.getLsbD 63 = false ∧
    (copyJob 0).b.getLsbD 63 = false ∧ (copyJob 0xFFFFFFFFFFFF).c.toNat < 2 ^ 48 ∧ (copyJob 0).a.toNat < 2 ^ 55 ∧
    (copyJob 0).b.toNat < 2 ^ 55 ∧ (copyJob 0).desc = 0 ∧ 2 ^ 48 ≤ (copyJob 0x1000000000000).c.toNat := by decide +kernel
theorem meets_FillChunk : let s := jobs [job .fill .running]
    findJob s.m 0 5 = some (job .fill .running) ∧ enginesRun s.m tables 0 1 = some (yardEnt tables 0) ∧ runningYard s.m 1 = some 0 ∧
      (job .fill .running).c.toNat ≠ 0 ∧ (engXlate s.mgmt s.m 1 1 (yardEnt tables 0) .write 0x100FE0).1 = .ok 0x100FE0 .hbm .hbm ∧
      0x100FE0 % 4096 = (job .fill .running).dst % 4096 ∧
      (takeTokens s.mgmt (engXlate s.mgmt s.m 1 1 (yardEnt tables 0) .write 0x100FE0).2 0 true 32).isSome = true := by decide +kernel
def ended : Job := { job .copy .stopped with status := 255, done := 281474976710655, rel := true, writes := [(3, 1)] }
theorem meets_ResultPlaced : let s := jobs [ended]
    findJob s.m 0 5 = some ended ∧ ended.st = .stopped ∧ ended.ended = false ∧ ended.bar = false ∧ ended.kind ≠ .tile ∧
      enginesRun s.m tables 0 1 = some (yardEnt tables 0) ∧ earlierJobs s.m 0 ended = [] ∧ ended.slot < 64 ∧ (grp s.m 0 0).status ≠ .free ∧
      (grp s.m 0 0).uid = ended.uid ∧ (mget [] (grp s.m 0 0).res 0).length < 8 ∧ ended.status < 256 ∧ ended.tag < 256 ∧
      ended.done < 2 ^ 48 := by decide +kernel

/-! ## Tiles -/

/-- Accumulator tile 7 held by the acting group, in some state. -/
def own7 (g : Group) (st : TState) : State :=
  let s := at_ g
  let h : Ctx := { vf := 1, slot := 0, uid := 1 }
  { s with m := modCore s.m 0 fun k => { k with own := [(7, { owner := some h, holder := some h })], tiles := [(7, { st := st })] } }
theorem meets_TileFreeWaitZero : Unstepped (own7 group .ready) ∧ PredTrue (own7 group .ready) false 0 ∧ TileUsable (own7 group .ready) 7 ∧
    tileIdle (own7 group .ready) 7 ∧ tileInLoop (own7 group .ready).m 0 0 7 = false ∧ TileUsable tiled 31 ∧ tileIdle tiled 31 ∧
    TileUsable (own7 group .filling) 7 ∧ ¬ tileIdle (own7 group .filling) 7 ∧ Unstepped (own7 group .draining) ∧
    PredTrue (own7 group .draining) false 0 ∧ TileUsable (own7 group .draining) 7 ∧ ¬ tileIdle (own7 group .draining) 7 := by
  simp only [Unstepped, PredTrue, TileUsable, tileIdle]; decide
def mreadI : FmtA := { fa with d := 63, a := 0xA7, b := 2 }
theorem meets_AccumulatorRead : Unstepped (own7 group .ready) ∧ PredTrue (own7 group .ready) false 0 ∧ XFull (own7 group .ready) 2 ∧
    NoLockStep (own7 group .ready) ∧ mreadI.d.toNat < (me (own7 group .ready).m).nregs ∧ mreadI.d.toNat < 64 ∧
    TileUsable (own7 group .ready) 7 ∧ tileSt (own7 group .ready).m 0 7 = .ready ∧
    dstWait (own7 group .ready).m ((activeOf group false 0).map (Reg.v 63)) = none ∧ tileSt (own7 group .empty).m 0 7 = .empty ∧ badIn (own7 group .ready).m (tileAddr 0 7) 4096 = none := by
  refine ⟨rfl, .inl rfl, ?_⟩
  simp only [XFull, TileUsable, NoLockStep]; decide
theorem meets_TileCopiesAndLoads : let s := own7 group .ready
    let f : FmtA := { fa with a := 3, md := 7 }
    let m := (readSrcs s [(f.a, f.ta)]).2
    let at_ := (List.range 512).map fun i => elAccess i ((0x100000 + 8 * i) % 18446744073709551616) 8 0 0
    let op := { ctlOp m (.tdrain 7) with elems := at_, opA := 0x100000 }
    Unstepped s ∧ PredTrue s false 0 ∧ XFull s f.a ∧ (xVal s f.a).toNat % 64 = 0 ∧ TileUsable s 7 ∧ tileSt s.m 0 7 = .ready ∧
      tileInLoop s.m 0 0 7 = false ∧ XFull s 2 ∧ (xVal s 2).toNat % 64 ≠ 0 ∧ vecInFlight (me m) < 8 ∧
      (match (checkOp s.mgmt m 0 (me m) op).1 with | .ok els [] => els.length == 512 | _ => false) = true := by
  refine ⟨rfl, .inl rfl, ?_⟩
  simp only [XFull, xVal, TileUsable]; decide +kernel
/-- The last 64 bytes of the Hayloft. -/
def mloadI : FmtA := { fa with a := 3, b := 1, c := 2, ty := 11 }
def mloadG : Group := { group with x := [(1, 0x1FFFC0), (2, 64), (3, 0x100000)] }
theorem meets_TileCopiesAndLoads_mload : let s := at_ mloadG
    let m := (readSrcs s [(mloadI.a, mloadI.ta), (mloadI.b, mloadI.tb), (mloadI.c, mloadI.tc)]).2
    let at_ := (List.range 8).map fun i => elAccess i ((0x100000 + 8 * i) % 18446744073709551616) 8 0 0
    let op := { ctlOp m (.mload 0x1FFFC0 false) with elems := at_, opA := 0x100000, opB := 0x1FFFC0, opC := 64 }
    Unstepped s ∧ PredTrue s false 0 ∧ XFull s 3 ∧ XFull s 1 ∧ XFull s 2 ∧
      (hayPart (groupYardEnt s.mgmt 0 (me s.m)) 0).1 ≤ 0x1FFFC0 ∧
      0x1FFFC0 + 64 ≤ (hayPart (groupYardEnt s.mgmt 0 (me s.m)) 0).1 + (hayPart (groupYardEnt s.mgmt 0 (me s.m)) 0).2 ∧
      (groupLoops s.m 0 0).any (fun l => l.uid == (me s.m).uid) = false ∧ vecInFlight (me m) < 8 ∧
      (match (checkOp s.mgmt m 0 (me m) op).1 with | .ok els [] => els.length == 8 | _ => false) = true := by
  refine ⟨rfl, .inl rfl, ?_⟩
  simp only [XFull]; decide +kernel
def zeroI : FmtA := { fa with d := 0xA7 }
def other : Ctx := { vf := 1, slot := 63, uid := 2 }
def lost7 : State := let s := at_ group; { s with m := modCore s.m 0 fun k => { k with own := [(7, { owner := some other, holder := some other })] } }
theorem meets_TileFirstUse : PredTrue (at_ group) false 0 ∧ Unstepped (at_ group) ∧ (tileOwnOf (at_ group).m 0 7).holder = none ∧
    (me (at_ group).m).tsaved.getLsbD 7 = false ∧ PredTrue lost7 false 0 ∧ Unstepped lost7 ∧ (tileOwnOf lost7.m 0 7).holder = some other ∧
    other ≠ ctxOf lost7.m 0 0 := by
  simp only [PredTrue, Unstepped]; decide
theorem meets_TileFaultServed : let g := { group with waitC := some (.tileFault 7) }
    groupOk 0 0 = true ∧ (grp (at_ g).m 0 0).waitC = some (.tileFault 7) ∧ tileBusy (at_ g).mgmt (at_ g).m 0 7 = false ∧
      (tileOwnOf (at_ g).m 0 7).holder = none ∧ (grp (at_ g).m 0 0).tsaved.getLsbD 7 = false ∧ tileBusy (at_ g).mgmt (own7 g .filling).m 0 7 = true := by
  decide
theorem meets_TileOwnership : tileownWait tables (own7 group .ready).m 0x7F = none ∧
    ∀ t, t < 8 → (0x7F : Word).getLsbD t = false → (tileOwnOf (own7 group .ready).m 0 t).owner = some (ctxOf (own7 group .ready).m 0 0) →
      (tileOwnOf (own7 group .ready).m 0 t).holder = none ∨
      (tileOwnOf (own7 group .ready).m 0 t).holder = some (ctxOf (own7 group .ready).m 0 0) := by decide

/-! ## The Lattice unit -/

/-- A loop in tile 7 over v4 and the start of the Hayloft: one step of INT8 contraction, 32 × 32 × 32. -/
def loop7 (done : Nat) : Loop :=
  { id := 3, core := 0, slot := 0, uid := 1, vf := 1, tile := 7, fmt := 3, steps := 1, done := done, a := .regs 4, baddr := 0,
    sparse := false, mask := 0, sbyte := 0, bcast := 0, incA := 0, incB := 0, rowK := 0, colK := 0, rowP := [], colP := [], clause := 64,
    word := 1, seq := 0, nregs := 64, left := none }
/-- Loops of clusters 0 and 1 on one row bus, the second with another format. -/
def mismatched : State :=
  let s := own7 group .filling
  let l := { loop7 0 with bcast := 1, rowP := [0, 1] }
  let m := modClus s.m 0 fun k => { k with loops := [l], rowN := 1 }
  { s with mgmt := { s.mgmt with yards := [(0, { v := true, cl := 3, wlog := 10 })] },
           m := modClus m 1 fun k => { k with loops := [{ l with id := 4, core := 4, fmt := 2 }], rowN := 1 } }
def looped (done : Nat) (bad : List Nat) : State :=
  let s := own7 group .filling
  { s with m := modClus s.m 0 fun k => { k with loops := [loop7 done], hayInvalid := bad } }
/-- One step of E2M1 contraction: steps in x2, the Hayloft offset, its last 1024 bytes, in x5, A in the last eight registers. -/
def mloopI : FmtL := { fl with tile := 7, kreg := 2, asrc := 56, baddr := 5, incB := 1 }
def mloopG : Group := { group with x := [(2, 1), (5, 0x1FFC00)], vlmax := 32 }
theorem meets_MatrixLoopAccepted : let s := own7 mloopG .ready
    let part := hayPart (groupYardEnt s.mgmt 0 (me s.m)) 0
    Instr.wellFormed (.mloop 4 mloopI) = true ∧ Unstepped s ∧ PredTrue s false 0 ∧ NoLockStep s ∧ XFull s mloopI.kreg ∧
      XFull s mloopI.baddr ∧ TileUsable s mloopI.tile.toNat ∧ tileSt s.m 0 7 = .ready ∧ (xVal s 2).toNat % 4294967296 = 1 ∧
      32 ≤ (me s.m).vlmax ∧ mloopI.asrc.toNat + (1 * positions 4 + 32 / aWidth 4 - 1) / (32 / aWidth 4) ≤ (me s.m).nregs ∧
      (1 * positions 4 - 1) / 32 < (me s.m).vlmax ∧ (xVal s 5).toNat < 2097152 ∧ part.1 ≤ (xVal s 5).toNat ∧
      (xVal s 5).toNat + 1 * positions 4 * rowBytes 4 ≤ part.1 + part.2 ∧ ((loopsOf s.m 0).filter fun q => q.core == 0).length < 4 := by
  refine ⟨by decide, rfl, .inl rfl, ?_⟩
  simp only [XFull, xVal, TileUsable, NoLockStep]; decide
theorem meets_LatticeStep : chooseLoop tables (looped 0 []).m 0 = some (loop7 0, [loop7 0]) ∧ clusterOf (loop7 0).core = 0 ∧
    bFrom tables (looped 0 []).m 0 (loop7 0) = loop7 0 ∧ aFrom tables (looped 0 []).m 0 (loop7 0) = loop7 0 ∧
    badLine (looped 0 []).m (loop7 0) ((List.range (loopK (loop7 0).fmt)).map ((loop7 0).done * loopK (loop7 0).fmt + ·)) = none ∧
    chooseLoop tables (looped 0 [1]).m 0 = some (loop7 0, [loop7 0]) ∧
    badLine (looped 0 [1]).m (loop7 0) ((List.range (loopK (loop7 0).fmt)).map ((loop7 0).done * loopK (loop7 0).fmt + ·)) = some 64 ∧
    stepBad tables (looped 0 []).m (loop7 0) = none ∧
    (grp (looped 0 [1]).m 0 0).status = .running ∧ chooseLoop tables (at_ group).m 0 = none := by decide +kernel
theorem meets_LatticeStep_mismatch : (let s := mismatched
      let l := { loop7 0 with bcast := 1, rowP := [0, 1] }
      ((loopsOf s.m 0).find? fun l => l.done == 0 && (runningYard s.m l.vf).isSome && castMismatch s.mgmt s.m l) = some l ∧
      clusterOf l.core = 0 ∧ (∀ q ∈ loopsOf s.m 0, q.id = l.id → q = l) ∧ (grp s.m 0 0).status = .running) ∧
    ((loopsOf (looped 0 []).m 0).find? fun l =>
      l.done == 0 && (runningYard (looped 0 []).m l.vf).isSome && castMismatch tables (looped 0 []).m l) = none := by decide +kernel
/-- Copies of entries 7 and 31, and an mload of two lines, that have moved their last doubleword. -/
def moved (kind : AccKind) : State :=
  at_ { group with acc := [{ anOp kind .hbm with elems := [], opC := 128 }] }
theorem meets_TileWorkCompletes : (loopsOf (looped 1 []).m 0).find? (fun l => l.core == 0 && l.tile == 7) = some (loop7 1) ∧
    (loop7 1).steps ≤ (loop7 1).done ∧ (enginesRun (looped 1 []).m tables 0 1).isSome = true ∧
    castIn tables (looped 1 []).m true (loop7 1) = true ∧ castIn tables (looped 1 []).m false (loop7 1) = true ∧
    (finished (moved (.tfill 7)).m 0 fun k => k = .tfill 7 || k = .tdrain 7).isSome = true ∧
    (finished (moved (.tdrain 31)).m 0 fun k => k = .tfill 31 || k = .tdrain 31).isSome = true ∧
    ((grp (moved (.mload 64 false)).m 0 0).acc.find? fun o => o.elems.isEmpty && !o.logged && isMload o.kind).isSome = true := by
  decide +kernel

/-! ## Glaze -/

/-- Chain 63 of two members, generation 65535: the root on tile 7 of core 0, its child on tile 7 of core 3. -/
def root_ : Member := { core := 0, tile := 7, rank := 0, parent := 0, expect := 1, slots := 1 }
def child_ : Member := { core := 3, tile := 7, rank := 1, parent := 0, expect := 0, slots := 0 }
def chain63 (ms : List Member) : Chain := { gen := 65535, used := true, root := 0, members := ms }
def chained (s : State) (ms : List Member) : State := { s with m := modVf s.m 1 fun v => { v with chains := [(63, chain63 ms)] } }
def id63 : Word := 0xFFFF0000003F
def glazeG : Group := { group with x := [(1, id63), (2, 0xFFFE0000003F)] }
def opening (st : TState) (ms : List Member) : State := chained (own7 glazeG st) ms
def gopenI : FmtA := { fa with d := 0xA7, a := 1 }
def gsendI : FmtA := { fa with a := 0xA7, b := 1, tb := true }
def recvFull : State :=
  let s := opening .ready [root_, child_]
  { s with m := modClus s.m 0 fun k => { k with recv := (List.range 8).map fun j => (j, .reserved 1 0) } }
theorem meets_GlazeOpenAndSend_open : let s := opening .ready [root_, child_]
    Unstepped s ∧ PredTrue s false 0 ∧ XFull s 1 ∧ TileUsable s 7 ∧ GlazeMember s id63 7 0 ∧ (memberOf s.m 1 63 0).expect ≠ 0 ∧
      tileOpen s.m 1 0 7 = false ∧ (memberOf s.m 1 63 0).slots ≤ (freeRecv (clus s.m 0)).length ∧ tileIdle s 7 ∧
      tileIdle (opening .empty [root_, child_]) 7 ∧ (freeRecv (clus recvFull.m 0)).length < (memberOf recvFull.m 1 63 0).slots ∧ XFull s 2 ∧
      idCurrent (vfst s.m 1) (xVal s 2) = false ∧
      tileOpen (opening .ready [{ root_ with open_ := some other }, child_]).m 1 0 7 = true := by
  refine ⟨rfl, .inl rfl, ?_⟩
  simp only [XFull, xVal, TileUsable, GlazeMember, tileIdle]; decide
theorem meets_GlazeOpenAndSend_send : let s := opening .ready [{ root_ with core := 3 }, { child_ with core := 0 }]
    Unstepped s ∧ PredTrue s false 0 ∧ XFull s 1 ∧ TileUsable s 7 ∧ GlazeMember s id63 7 1 ∧ tileSt s.m 0 7 = .ready ∧
      1 ≠ (chainOf (vfst s.m 1) 63).root ∧ GlazeMember (opening .ready [root_, child_]) id63 7 0 ∧
      0 = (chainOf (vfst (opening .ready [root_, child_]).m 1) 63).root ∧
      tileSt (opening .empty [{ root_ with core := 3 }, { child_ with core := 0 }]).m 0 7 = .empty := by
  refine ⟨rfl, .inl rfl, ?_⟩
  simp only [XFull, TileUsable, GlazeMember]; decide
/-- A gchain that has read the descriptor of the spec's four-member example. -/
def gchainI : FmtA := { fa with d := 5, a := 3 }
def described : State :=
  let s := at_ { group with held := some { op := 0, phase := 0, words := [0x10002, 0x2201C00, 0x3C03] } }
  s
theorem meets_ChainsMadeAndClosed_make : Unstepped described ∧ PredTrue described false 0 ∧ XFull described 3 ∧
    (me described.m).held = some { op := 0, phase := 0, words := 0x10002 :: [0x2201C00, 0x3C03] } ∧
    [(0x2201C00 : Word), 0x3C03].length = (0x10002 : Word).toNat % 32 ∧ (me described.m).acc = [] ∧
    getFe (me described.m) (.x 5) ≠ .claimed ∧
    chainRule tables (groupYardEnt tables 0 (me described.m)) 0x10002 [0x2201C00, 0x3C03] = none ∧
    (List.range 64).find? (fun n => !(chainOf (vfst described.m 1) n).used) = some 0 := by
  refine ⟨rfl, .inl rfl, ?_⟩
  simp only [XFull]; decide
/-- Every chain number in use. -/
def allChains : State :=
  { described with m := modVf described.m 1 fun v => { v with chains := (List.range 64).map fun n => (n, { used := true }) } }
theorem meets_ChainsMadeAndClosed_full : (List.range 64).find? (fun n => !(chainOf (vfst allChains.m 1) n).used) = none := by decide
theorem meets_ChainsMadeAndClosed_close : let s := opening .ready [root_, child_]
    XFull s 1 ∧ (me s.m).held = none ∧ idCurrent (vfst s.m 1) (xVal s 1) = true ∧
      (chainOf (vfst s.m 1) (idChain (xVal s 1))).closing = false ∧ (vfst s.m 1).sends = [] ∧
      ∀ p ∈ (chainOf (vfst s.m 1) (idChain (xVal s 1))).members, p.open_ = none := by
  simp only [XFull, xVal]; decide
def gwaitI : FmtA := { fa with d := 5, a := 0xA7 }
def outcome (o : GOut) : State := own7 { group with gout := [(7, o)] } .ready
theorem meets_GlazeWait : Unstepped (outcome {}) ∧ PredTrue (outcome {}) false 0 ∧ getFe (me (outcome {}).m) (.x 5) ≠ .claimed ∧
    TileUsable (outcome {}) 7 ∧ (mget {} (me (own7 group .ready).m).gout 7).kind = 0 ∧
    (mget {} (me (outcome { kind := 2, done := true, status := 0x102 }).m).gout 7).done = true ∧
    (mget {} (me (outcome { kind := 1 }).m).gout 7).done = false := by
  refine ⟨rfl, .inl rfl, ?_⟩
  simp only [TileUsable]; decide
/-- The child on core 0 sends to the root on core 3, whose group is open in slot 63. -/
def send7 (moving : Bool) : Send :=
  { core := 0, tile := 7, slot := 0, uid := 1, chain := 63, member := 1, tb := false, moving := moving, clause := 64, word := 1 }
def parent_ (granted : List Nat) : Member :=
  { root_ with core := 3, open_ := some other, reserved := [0], granted := granted, credited := [1] }
def sending (moving : Bool) (granted : List Nat) : State :=
  let s := chained (own7 glazeG .draining) [parent_ granted, { child_ with core := 0 }]
  let m := modCore s.m 3 fun k => { k with own := [(7, { owner := some other, holder := some other })] }
  { s with m := setGrp (modVf m 1 fun v => { v with sends := [send7 moving] }) 3 63 { group with uid := 2 } }
/-- The same with nobody owning the parent's tile. -/
def orphaned : State :=
  let s := sending false []
  { s with m := modCore s.m 3 fun k => { k with own := [] } }
theorem meets_ContributionsTravel : sendAt (sending false [1]).m 0 7 false = some (1, send7 false) ∧
    hasCredit (sending false [1]).m 1 (send7 false) = true ∧ sendAt orphaned.m 0 7 false = some (1, send7 false) ∧
    hasCredit orphaned.m 1 (send7 false) = false ∧ (runningYard orphaned.m 1).isSome = true ∧
    parentAbsent orphaned.m 1 (send7 false) = true ∧ (chainOf (vfst orphaned.m 1) 63).closing = false ∧
    sendAt (sending true []).m 0 7 true = some (1, send7 true) ∧
    (memberOf (sending true []).m 1 63 (parentOf (sending true []).m 1 (send7 true))).reserved = [0] ∧
    badIn (sending true []).m (tileAddr 0 7) 4096 = none ∧ findUid (sending true []).m (send7 true).uid = some (0, 0) := by decide
/-- A contribution of member 1 that has landed in slot 7. -/
def landed_ : State :=
  let r : Member := { root_ with open_ := some { vf := 1, slot := 0, uid := 1 }, reserved := [7], credited := [1], landed := [(1, 7)] }
  let s := chained (own7 glazeG .filling) [r, child_]
  { s with m := modClus s.m 0 fun k => { k with adds := [(0, 7, 1)] } }
theorem meets_ContributionAdded : (clus (refreshAdds landed_.m 0) 0).adds = (0, 7, 1) :: [] ∧
    receiveAt (refreshAdds landed_.m 0) 0 0 7 = some (1, 63, 0) ∧ (runningYard landed_.m 1).isSome = true ∧
    (memberOf (refreshAdds landed_.m 0) 1 63 0).landed.find? (fun l => l.1 == 1) = some (1, 7) ∧
    badIn landed_.m (tileAddr 0 7) 4096 = none ∧ badIn landed_.m (recvAddr 0 7) 4096 = none := by decide

/-! ## Events of the memory system, the host and peers -/

/-- An access to some place, its line at home. -/
def perf (kind : AccKind) (loc : Loc) (pa : Nat) : State :=
  let op := anOp kind loc
  let s := at_ { group with acc := [{ op with dst := .v 63, elems := op.elems.map fun el => { el with e := 3, pa := pa } }] }
  { s with m := { s.m with l2 := [homeOf s.mgmt s.m pa] } }
def opAt (s : State) : MemOp := ((grp s.m 0 0).acc.head?).getD (anOp .store .hbm)
def elAt (s : State) : Elem := ((opAt s).elems.head?).getD (elAccess 0 0 0 0 0)
theorem meets_AccessPerformed : ∀ kind, kind ∈ [AccKind.store, .load, .amo 1 true] →
    let s := perf kind .hbm 0x1FFFFFF8
    groupOk 0 0 = true ∧ Performable s 0 0 0 3 (opAt s) (elAt s) ∧ Stores (elAt s) ∧ (elAt s).pa % (elAt s).size = 0 ∧
      (elAt s).size = 8 ∧ (∀ x ∈ sameLoc (opAt s) (elAt s), x.size = 8) ∧ (elAt s).loc ≠ .system ∧ histOf s.m ((elAt s).pa / 8) = [] ∧ (opAt s).kind = kind := by
  simp only [Performable, Stores]; decide +kernel
/-- The last doubleword of the local store of core 0, through the window. -/
theorem meets_AccessPerformed_window : let s := perf .store .window (coreBase 0 + 0x17FFF8)
    Performable s 0 0 0 3 (opAt s) (elAt s) ∧ Stores (elAt s) := by simp only [Performable, Stores]; decide +kernel
/-- A store on its way to host memory. -/
def sent : State :=
  let s := perf .store .system 0xD000000000000
  let a : SysAcc := { core := 0, slot := 0, uid := 1, vf := 1, op := 0, dest := 64, vp := none, link := linkFor s.mgmt 64, kind := .store, el := elAt s }
  { s with m := { s.m with sysOut := [a] } }
/-- Two links at time 2,049, one of them 2,049 cycles old and one 2,048. -/
def linked2 : State :=
  let l : Link := { e := 0, line := 0x1FFFFF, scope := 2, intact := true, since := 0 }
  let s := at_ { group with linkset := [l, { l with e := 1, since := 1 }] }
  { s with m := { s.m with now := 2049 } }
/-- Fills of x127, of v63 in VP 255 and of the pair v0:v1 in VP 0. -/
def filling3 : State :=
  at_ { group with xfe := [(127, .claimed)], vfe := [(0, [(0, .claimed)]), (1, [(0, .claimed)]), (63, [(255, .claimed)])],
                   fills := [{ reg := .x 127, val := 7 }, { reg := .v 63 255, val := 8 }, { reg := .v 0 0, val := 9, hi := some (.v 1 0, 10) }] }
theorem meets_MemorySystemEvents : (let s := perf .store .system 0xD000000000000
      groupOk 0 0 = true ∧ Performable s 0 0 0 3 (opAt s) (elAt s) ∧ (elAt s).loc = .system) ∧
    (∃ a op, sent.m.sysOut = a :: [] ∧ a.core = 0 ∧ a.slot = 0 ∧ findAcc (grp sent.m 0 0) a.op = some op ∧ op.kind = .store ∧
      a.el.loc = .system ∧ a.el.size = 8 ∧ unsupportedAt a.el.pa = false ∧ (grp sent.m 0 0).status ≠ .gone ∧
      ∀ l, a.link = some l → (linkOf sent.mgmt l).st = 0) ∧
    (∃ f1 f2 f3, (grp filling3.m 0 0).fills[0]? = some f1 ∧ f1.reg = .x 127 ∧ f1.hi = none ∧ (grp filling3.m 0 0).fills[1]? = some f2 ∧
      f2.reg = .v 63 255 ∧ f2.hi = none ∧ (grp filling3.m 0 0).fills[2]? = some f3 ∧ f3.reg = .v 0 0 ∧ f3.hi = some (.v (0 + 1) 0, 10)) ∧
    lineWanted (perf .store .hbm 0x1FFFFFF8).m (0x1FFFFFF8 / 128) = some 1 ∧ coreOk 383 = true ∧ clusterOk 95 = true ∧
    groupOk 383 63 = true ∧ (grp linked2.m 0 0).linkset.map (fun l => decide (l.since + 2048 < linked2.m.now)) = [true, false] := by
  refine ⟨by simp only [Performable]; decide +kernel, ⟨_, _, rfl, rfl, rfl, rfl, rfl, rfl, rfl, rfl, by decide, fun _ h => nomatch h⟩, ⟨_, _, _, rfl, rfl, rfl, rfl, rfl, rfl, rfl, rfl, rfl⟩, by decide +kernel⟩
/-- The last 64 GiB of device memory in the host's window, device 63 over link 17, and device 62 over link 16, which is down. -/
def routed : Mgmt :=
  { tables with winbase := hbmBytes - 2 ^ 36, routes := [(62, some { link := 16, via := some 62 }), (63, some { link := 17, via := some 63 })],
                links := [(16, { st := 1 })] }
theorem meets_HostAndPeers_host : (sizeOk 1 = true ∧ sizeOk 8 = true ∧ (hbmBytes - 8) % 8 = 0 ∧ hostReach (hbmBytes - 8) = true ∧
    unsupportedAt (hbmBytes - 8) = false ∧ hostReach 0xD000000000007 = true ∧ hostReach 0xEFC0000000000 = true ∧ hostReach 0xEF80000000000 = true ∧
    unsupportedAt (0xEFC0000000000 + hbmBytes) = true ∧ hostReach hbmBytes = false) ∧ HostPath routed (hbmBytes - 8) ∧
    HostPath routed 0xD000000000007 ∧ HostPath routed 0xEFC0000000000 ∧ ¬ HostPath routed 0xEF80000000000 ∧ ¬ HostPath routed 0 ∧
    ¬ HostPath routed (hbmBytes - 2 ^ 36 - 8) := by
  refine ⟨by decide, ?_, ?_, ?_, ?_, ?_, ?_⟩ <;> simp only [HostPath] <;> decide +kernel
theorem meets_HostAndPeers_peer : peerReach 63 (hbmBytes - 8) = true ∧ 63 ≠ routed.device ∧ routeUp routed 63 = true ∧
    peerReach 63 0xEFC0000000000 = true ∧ peerReach 62 0 = true ∧ routeUp routed 62 = false ∧ peerReach 0 0 = true ∧ 0 = routed.device ∧
    peerReach 62 0xEFC0000000000 = false ∧ peerReach 64 0 = false ∧ peerReach 63 0xD000000000000 = false := by decide +kernel

/-! ## Groups that the device starts, and the issue slot -/

def anItem : Item := { entry := 128, arg := 0x0000000500000006, by_ := starterOf tables (at_ group).m }
def stalled (n : Nat) (timed : Bool) : State :=
  let s := at_ group
  { s with m := modClus s.m 0 fun k => { k with stalls := [(31, { items := List.replicate n anItem, due := 0, timed := timed })] } }
def spilled : State := let s := at_ group; { s with m := modVf s.m 1 fun v => { v with overflow := [anItem] } }
theorem meets_PackedGroupsStart : clusterOk 0 = true ∧ stallFull anItem.by_ ≤ 64 ∧
    (mget {} (clus (stalled 64 false).m 0).stalls 31).items = anItem :: List.replicate 63 anItem ∧
    packCore tables (stalled 64 false).m 0 64 anItem.by_ = some (1, 0) ∧ (mget {} (clus (stalled 1 true).m 0).stalls 31).items = [anItem] ∧
    (mget {} (clus (stalled 1 true).m 0).stalls 31).timed = true ∧ packCore tables (stalled 1 true).m 0 1 anItem.by_ = some (1, 0) ∧
    (mget {} (clus (stalled 1 false).m 0).stalls 31).due ≤ (stalled 1 false).m.now ∧ (runningYard spilled.m 1).isSome = true ∧
    (vfst spilled.m 1).overflow = anItem :: [] ∧ clusterOf anItem.by_.core = 0 ∧
    findStall (clus spilled.m 0) (yardEnt tables ((yardAt tables 0 anItem.by_.laneB).getD 0)).lane anItem = some 0 := by decide +kernel
def aLaunch (n : Nat) : Launched :=
  { entry := 128, nregs := 8, gcount := 1, ntiles := 8, vlreq := 3, priv := true, frame := {}, xs := [1, 2, 3, 4, 5, 6, 7, 8], places := [(3, n)],
    ftz := false, drm := 0, vis := [] }
def launched1 (n : Nat) : State := let s := at_ group; { s with m := modVf s.m 1 fun v => { v with launched := [aLaunch n] } }
theorem meets_LaunchedGroupStarts : vfOk 1 = true ∧ (vfst (launched1 1).m 1).launched[0]? = some (aLaunch 1) ∧
    runningYard (launched1 1).m 1 = some 0 ∧ (aLaunch 1).places = (3, 1) :: [] ∧ sameG (launched1 1).m (yardEnt tables 0) 3 1 = true ∧
    freeSlot (launched1 1).m 3 (yardSlots (yardEnt tables 0) 1) = some 0 ∧ (aLaunch 1).xs.length = 8 := by decide
/-- A clause of one instruction at 64, for the group's control stream. -/
def coded (g : Group) (hdr w : Word) : State :=
  let s := at_ g
  { s with m := { s.m with mem := writeLe (writeLe s.m.mem 64 8 hdr.toNat) 72 8 w.toNat } }
/-- An addition of an immediate in a clause of class C; a word without meaning; an S clause in a group without PRIV. -/
def codeOk : State := coded group 0x0000FFFFFFFFFFFF 0x0800010100000001
def cand (g : Group) : Cand := { slot := 0, vec := false, g := g, at_ := { pc := 64, w := 1, vps := [], begun := false } }
/-- The clause's page is read where it stands, and nothing there is in error or has earlier versions. -/
def fetchesAt (s : State) (k : Cand) : Bool :=
  let m := served s.mgmt s.m 0 0 k
  match fetchPage s.mgmt m 0 (grp m 0 k.slot) k.at_.pc with
  | (.ok (pa, loc), n) => pa == 64 && decide (loc = .hbm) && n.bad.isEmpty && n.hist.isEmpty
  | _ => false
theorem meets_ClauseChosen : choose codeOk.mgmt codeOk.m 0 = some (0, cand (grp codeOk.m 0 0)) ∧ coreOk 0 = true ∧
    (Machine.core codeOk.m 0).issue = none ∧ fetchesAt codeOk (cand (grp codeOk.m 0 0)) = true ∧
    readLe codeOk.m.mem 64 8 = 0x0000FFFFFFFFFFFF ∧ readLe codeOk.m.mem 72 8 = 0x0800010100000001 := ⟨rfl, by decide +kernel⟩
theorem meets_ClauseChosen_decode : (decodeClause (fun k => k == .c || k == .s) 0x0000FFFFFFFFFFFF [0x0800010100000001]).isOk = true ∧
    (decodeClause (fun k => k == .c || k == .s) 0x0000FFFFFFFFFFFF [0xFFFFFFFFFFFFFFFF]).isOk = false := by decide
/-- A group whose control stream has waited 4,096 cycles, and groups that wait. -/
def starving : State := coded { group with cntC := 4096 } 0x0000FFFFFFFFFFFF 0x0800010100000001
def waiting (w : Wait) : Group := { group with waitC := some w, waitV := some w, run := some run4 }
theorem meets_ClauseChosen_cap : choose starving.mgmt starving.m 0 = some (0, cand (grp starving.m 0 0)) ∧ 4096 ≤ (grp starving.m 0 0).cntC ∧
    (grp (at_ (waiting .quiescent)).m 0 0).recs = [] ∧ (grp (at_ (waiting .quiescent)).m 0 0).active = true ∧
    (grp (at_ (waiting .quiescent)).m 0 0).waitC = some .quiescent ∧ waitCleared (at_ (waiting .quiescent)).m 0 0 .quiescent = false ∧
    waitCleared (at_ (waiting .replayed)).m 0 0 .replayed = true ∧ run4.diverged = false := ⟨rfl, by decide⟩
def stepping1 : State :=
  let s := at_ group
  let i : Issue := { key := 0, slot := 0, vec := false, cls := .c, clause := 64, y := false, words := [0x0800010100000001], next := 1, vps := [],
                     back := false }
  { s with m := modCore s.m 383 fun k => { k with issue := some i }, agenda := [.issue 383, .issue 0] }
theorem meets_StepRunsInstruction : stepping1.agenda = .issue 383 :: [.issue 0] ∧ coreOk 383 = true ∧
    (∃ i, (Machine.core stepping1.m 383).issue = some i ∧ i.words[i.next - 1]? = some 0x0800010100000001 ∧
      decodeWord i.cls 0x0800010100000001 = .ok (.addImm { pn := false, ps := 0, d := 1, a := 1, imm := 1 })) ∧
    { stepping1 with agenda := [.issue 0] }.agenda = .issue 0 :: [] ∧ (Machine.core stepping1.m 0).issue = none :=
  ⟨rfl, by decide, ⟨_, rfl, rfl, rfl⟩, by decide⟩

/-! ## Driver commands -/

/-- A launch record, its levels for three domains, in host memory at 0x80. -/
def recordMem (ws : List Word) (s : State) : State := { s with m := hostWrites s.m 0x80 ws }
/-- Of the third level, the extent in cores. -/
def placedWords (n : Word) : List Word := [0x100000, 0x10803, 0, 0x11100000100, 0x22 + n * 256] ++ List.replicate 11 0
/-- A START that has read all but the last. -/
def starting (s : State) (n : Word) : State :=
  let t := recordMem (placedWords n) s
  { t with mgmt := { t.mgmt with got := (placedWords n).take 15 } }
def many : State := let s := at_ group; { s with m := modVf s.m 1 fun v => { v with launched := List.replicate 16 (aLaunch 1) } }
/-- A device that reaches the bridging one over links, all of which are retired. -/
def cutOff : Mgmt := { tables with bridging := 1, links := (List.range 18).map fun l => (l, { st := 2 }) }
/-- Virtual function 1 absent, its context of one halted group saved in place 3 of yard 0. -/
def savedGroup : Group := { group with status := .halted, rep := { cls := 2, code := 0x31 } }
def absent : State :=
  let s := at_ group
  { s with m := { s.m with groups := [], vfst := [], yards := [], saved := [(1, { yard := 0, groups := [(3, savedGroup)] })] } }
def recOf (s : State) : LaunchRec := recordOf (s.mgmt.got ++ [hostRead s.m (0x80 + 8 * s.mgmt.got.length)])
def placesOf (s : State) : Option (List (Nat × Nat)) :=
  let y := yardEnt s.mgmt 0
  placeRecord s.mgmt y (fun c => coreQualifies s.m y (recOf s).ngroups c) (recOf s)
def savedPlaces (s : State) : Option (List (Nat × Nat)) :=
  let y := yardEnt s.mgmt 0
  placeRecord s.mgmt y (fun c => savedQualifies s.mgmt s.m 1 y (recOf s).ngroups c) (recOf s)
def validOf (s : State) : Bool := recordValid (vfEnt s.mgmt 1) (yardLaneCount (yardEnt s.mgmt 0)) (recOf s)
theorem meets_StartCommand : (vfEnt tables 2).en = false ∧ (vfEnt tables 1).en = true ∧ 0x80 % 128 = 0 ∧ 0x88 % 128 ≠ 0 ∧ (at_ group).mgmt.got.length < 15 ∧
    (starting (at_ group) 3).mgmt.got.length = 15 ∧ (starting absent 3).mgmt.got.length = 15 ∧
    shapeYard tables (starting (at_ group) 3).m 1 = some 0 ∧ validOf (starting (at_ group) 3) = true ∧ validOf (at_ group) = false ∧
    placesOf (starting (at_ group) 3) = some [(1, 1), (2, 1), (3, 1)] ∧ placesOf (starting (at_ group) 5) = none ∧
    hostUp tables = true ∧ hostUp cutOff = false ∧ validOf (starting (at_ group) 5) = true ∧ 16 ≤ (vfst many.m 1).launched.length ∧ (vfst absent.m 1).home = none := by decide +kernel
theorem meets_StartCommand_absent : validOf (starting absent 3) = true ∧ (vfst absent.m 1).launched.length < 16 ∧
    shapeYard tables (starting absent 3).m 1 = some 0 ∧ (savedPlaces (starting absent 3)).isSome = true ∧ validOf (starting absent 4) = true ∧
    savedPlaces (starting absent 4) = none ∧ shapeYard tables { (at_ group).m with vfst := [], yards := [] } 1 = none := by decide +kernel
/-- A group that halted in class 2; one of the driver's; one of class 3; one with a load to issue again. -/
def haltedG (r : Report) : Group := { group with status := .halted, rep := r }
def aRec : Rec := { op := { anOp .load .hbm with vec := true }, prog := 0 }
theorem meets_HaltAndResume : Named (at_ group) 1 0 0 ∧ (grp (at_ group).m 0 0).active = true ∧
    (grp (at_ (haltedG { cls := 3, code := 0x30 })).m 0 0).active = false ∧ (grp (at_ (haltedG { cls := 2, code := 0x31 })).m 0 0).rep.cls = 2 ∧
    (grp (at_ (haltedG { code := 0x3E })).m 0 0).rep.code = 0x3E ∧ (grp (at_ (haltedG { code := 0x3E })).m 0 0).recs = [] ∧
    (grp (at_ (haltedG { code := 0x3E })).m 0 0).spill = none := by
  refine ⟨⟨⟨by decide, by decide, 0, 1, rfl, rfl⟩, by decide, by decide, rfl⟩, by decide⟩
def recG : Group := { haltedG { cls := 2, code := 0x31 } with recs := [aRec] }
theorem meets_HaltAndResume_record : Named (at_ recG) 1 0 0 ∧ (grp (at_ recG).m 0 0).recs = [aRec] ∧ (grp (at_ recG).m 0 0).acc = [] ∧
    (∀ o ∈ (grp (at_ recG).m 0 0).acc, o.logged = true ∨ o.kind.isUse = true → aRec.op.id ≤ o.id) ∧
    (runningYard (at_ recG).m 1).isSome = true ∧ let back := { resumed recG false with stepping := recG.stepping }
    (checkOp tables (setGrp (at_ recG).m 0 0 back) 0 back aRec.op).1 =
      .ok [{ e := 0, va := 0x100000, pa := 0x100000, loc := .hbm, size := 8, uc := false, data := 5, cmp := 0 }] [] := by
  refine ⟨⟨⟨by decide, by decide, 0, 1, rfl, rfl⟩, by decide, by decide, rfl⟩, rfl, rfl, by decide, by decide, by decide +kernel⟩
/-- The canonical form of a small state. -/
def canonB (s : State) : Bool :=
  let rise := fun (l : List Nat) => (l.zip (l.drop 1)).all fun p => p.1 < p.2
  s.m.mem.wf && rise (s.m.groups.map Prod.fst) && rise (s.m.cores.map Prod.fst) && rise (s.mgmt.vfs.map Prod.fst)
theorem canonical_at (g : Group) : Canonical (at_ g) where
  mem := rfl
  groups := by simp [RisingKeys, at_]
  cores := by simp [RisingKeys, at_]
  cntsel := fun v => by
    show RisingKeys (mget ({} : VfState) [(1, { home := some 0, ptroot := 0x10000, ptall := 0x10000 })] v).cntsel
    by_cases h : v = 1 <;> simp [mget, h, RisingKeys]
  vfs := by simp [RisingKeys, at_, tables]
theorem meets_HaltAndResume_all : Settled (at_ (haltedG { cls := 3, code := 0x30 })) 1 ∧ Canonical (at_ (haltedG { cls := 3, code := 0x30 })) ∧
    ∀ k, (mget {} (at_ (haltedG { cls := 3, code := 0x30 })).m.groups k).recs = [] ∧
      (mget {} (at_ (haltedG { cls := 3, code := 0x30 })).m.groups k).spill = none := by
  refine ⟨⟨by decide, by decide, 0, 1, rfl, rfl⟩, canonical_at _, fun k => ?_⟩
  show (mget ({} : Group) [(0, haltedG { cls := 3, code := 0x30 })] k).recs = [] ∧ _
  by_cases h : k = 0 <;> simp [mget, h, haltedG, group, at_]
/-- A load in entry 15 of the log, its page mapped again, or not mapped yet. -/
def loggedG (va : Nat) : Group :=
  let op := anOp .load .hbm
  { group with acc := [{ op with logged := true, elems := op.elems.map fun el => { el with va := va } }], log := some 15, nextOp := 1, seq := 1 }
def logged (va : Nat) (rpl : Bool) : State :=
  let s := at_ (loggedG va)
  { s with m := modCore s.m 0 fun k => { k with log := [(15, { used := true, rpl := rpl, vf := 1, uid := 1, op := 0, faultVa := va, cause := 1 })] } }
theorem meets_ReplayAndDiscard : coreOk 0 = true ∧ (mget {} (Machine.core (logged 0 false).m 0).log 14).used = false ∧
    savedEntry tables (logged 0 false).m 0 14 = none ∧ (mget {} (Machine.core (logged 0 false).m 0).log 15).used = true ∧
    Settled (logged 0 false) 1 ∧ (mget {} (Machine.core (logged 0 true).m 0).log 15).rpl = true ∧ (loggedG 0x100000).uid = 1 ∧
    (∃ op, (loggedG 0x100000).acc.find? (fun o => o.id == 0) = some op ∧ (loggedG 0x100000).acc = [op] ∧ op.id = 0) ∧
    (checkOp tables (logged 0x100000 false).m 0 (loggedG 0x100000) ((loggedG 0x100000).acc.headD (anOp .load .hbm))).1 =
      .ok [{ e := 0, va := 0x100000, pa := 0x100000, loc := .hbm, size := 8, uc := false, data := 5, cmp := 0 }] [] ∧
    (match (checkOp tables (logged 0x7FFFFFFFFFFFF8 false).m 0 (loggedG 0x7FFFFFFFFFFFF8)
        ((loggedG 0x7FFFFFFFFFFFF8).acc.headD (anOp .load .hbm))).1 with | .fault _ _ _ _ => true | _ => false) = true := by
  refine ⟨by decide, by decide, by decide, by decide, ⟨by decide, by decide, 0, 1, rfl, rfl⟩, by decide, rfl, ⟨_, rfl, rfl, rfl⟩, by decide +kernel⟩
/-- A halted group in a diverged run. -/
def vpG : Group :=
  { haltedG { cls := 2, code := 0x31 } with
    run := some { run4 with diverged := true }, vps := (List.range 4).map fun e => (e, { pc := 64, w := 1, idle := false, parked := none }) }
theorem meets_VpRecords : Named (at_ vpG) 1 0 0 ∧ (grp (at_ vpG).m 0 0).vlmax < 253 + 4 ∧ 252 + 4 ≤ (grp (at_ vpG).m 0 0).vlmax ∧
    0xFFFFFFFFFFC0 + 16 * 4 ≤ 2 ^ 48 ∧ (grp (at_ vpG).m 0 0).status = .halted ∧ (grp (at_ group).m 0 0).status ≠ .halted ∧
    (∀ r, (grp (at_ vpG).m 0 0).run = some r → r.diverged = true) ∧ (grp (at_ (haltedG {})).m 0 0).run = none ∧ 0 + 0 < run4.vl ∧
    (hostRead (at_ vpG).m 0).getLsbD 58 = false ∧ (grp (at_ vpG).m 0 0).run.any (fun r => decide (0 < r.vl)) = true ∧
    hostUp (at_ vpG).mgmt = true ∧ Named { at_ vpG with mgmt := cutOff } 1 0 0 ∧ hostUp cutOff = false := by
  refine ⟨⟨⟨by decide, by decide, 0, 1, rfl, rfl⟩, by decide, by decide, rfl⟩, by decide, by decide, by decide, rfl, by decide, ?_, rfl, by decide, by decide,
    by decide, by decide, ⟨⟨by decide, by decide, 0, 1, rfl, rfl⟩, by decide, by decide, rfl⟩, by decide⟩
  intro r h; cases h; rfl
def chained1 (open_ : Bool) : State := chained (at_ group) [if open_ then { root_ with open_ := some other } else root_, child_]
theorem meets_ContextWrites : Named (at_ (haltedG {})) 1 0 0 ∧ (grp (at_ (haltedG {})).m 0 0).status = .halted ∧
    (grp (at_ group).m 0 0).status ≠ .halted ∧ (0x18 : Nat) ∉ [0x20, 0x28, 0x30, 0x38, 0x40, 0x48, 0x68] ∧ coreOk 383 = true ∧
    Settled (chained1 false) 1 ∧ idCurrent (vfst (chained1 false).m 1) id63 = true ∧
    (chainOf (vfst (chained1 false).m 1) (idChain id63)).closing = false ∧ (vfst (chained1 false).m 1).sends = [] ∧
    (∀ p ∈ (chainOf (vfst (chained1 false).m 1) (idChain id63)).members, p.open_ = none) ∧
    idCurrent (vfst (chained1 false).m 1) 63 = false := by
  refine ⟨⟨⟨by decide, by decide, 0, 1, rfl, rfl⟩, by decide, by decide, rfl⟩, rfl, by decide, by decide, by decide, ⟨by decide, by decide, 0, 1, rfl, rfl⟩, by decide⟩
theorem meets_VirtualFunctionReset : vfOk 511 = true ∧ (vfEnt tables 511).en = false ∧ vfOk 1 = true ∧ (vfEnt tables 1).en = true ∧
    (vfst (at_ group).m 1).cmds = [] ∧ shapeYard tables (at_ group).m 1 = some 0 ∧ (∀ c t, (tileOwnOf (at_ group).m c t).owner = none) ∧ Canonical (at_ group) ∧ (∀ k, (mget {} (at_ group).m.groups k).acc = []) ∧
    (vfst (at_ group).m 1).home = some 0 ∧ 383 ∉ storeCores (yardEnt tables 0) ∧ 3 ∈ storeCores (yardEnt tables 0) := by
  refine ⟨by decide, by decide, by decide, by decide, by decide, by decide, fun _ _ => rfl, canonical_at _, fun k => ?_, by decide +kernel⟩
  show (mget ({} : Group) [(0, group)] k).acc = []
  by_cases h : k = 0 <;> simp [mget, h, group]
def drainingAt (g : Group) (e : Nat) (early : Option (Option Nat)) : State :=
  let s := at_ g
  { s with m := modYrun s.m 0 fun q => { q with phase := .draining 1 e, early := early } }
theorem meets_CommandsAtEdges : vfOk 1 = true ∧ (vfEnt tables 1).en = true ∧ (vfEnt tables 2).en = false ∧ groupOk 383 63 = true ∧ (vfst absent.m 1).home = none ∧
    (vfst (drainingAt group 28000 none).m 1).home = some 0 ∧ (yrun (drainingAt group 28000 none).m 0).phase = .draining 1 28000 := by decide

/-! ## The management ports and the Farrier -/

def held_ (p e due : Nat) : State := let s := at_ group; { s with mgmt := { s.mgmt with holder := p, epoch := e, semDue := due } }
/-- The sideband has just written CFGSEM and rung its doorbell, at a time. -/
def sameCycle (now : Nat) : State :=
  let s := at_ group
  let side : SemWrite := { at_ := now, acquire := true, holder := 0, epoch := 65535, due := 0 }
  let mg := { s.mgmt with ports := [(2, { busy := true, rang := now })], semSide := some side, holder := 2, semDue := now + 1400000000 }
  { s with m := { s.m with now := now }, mgmt := { mg with queue := [2] } }
def unanswering : State := let s := at_ group; { s with mgmt := { s.mgmt with up := false } }
def ringing (busy : Bool) : State := let s := at_ group; { s with mgmt := { s.mgmt with ports := [(2, { busy := busy })] } }
theorem meets_SemaphoreAndDoorbells : portOk 1 = true ∧ portOk 2 = true ∧ (at_ group).mgmt.holder = 0 ∧ (held_ 2 65535 0).mgmt.holder = 2 ∧
    (held_ 2 65535 0).mgmt.holder ≠ 1 ∧ (held_ 2 65535 0).mgmt.semDue ≤ (held_ 2 65535 0).m.now ∧
    (held_ 2 65535 1).m.now < (held_ 2 65535 1).mgmt.semDue ∧ (portOf (ringing true).mgmt 2).busy = true ∧
    (portOf (ringing false).mgmt 2).busy = false ∧ portUp (ringing false).mgmt 2 = true ∧ portUp unanswering.mgmt 1 = false ∧
    portUp (held_ 2 65535 1).mgmt 1 = true ∧ (held_ 2 65535 1).mgmt.semSide = none ∧ (31 : Nat) < 32 ∧
    portUp (sameCycle 7).mgmt 1 = true ∧ (sameCycle 7).mgmt.semSide.map (·.at_) = some (sameCycle 7).m.now ∧
    (portOf (sameCycle 7).mgmt 1).busy = false ∧ (sameCycle 7).mgmt.queue = [2] ∧
    (portOf (sameCycle 7).mgmt 2).rang = (sameCycle 7).m.now := by decide
/-- A request of the in-band port, first in the queue. -/
def asking (h : Word) (holder : Nat) : State :=
  let s := at_ group
  { s with agenda := [.farrier], mgmt := { s.mgmt with holder := holder, epoch := 7, semDue := 1, queue := [1], ports := [(1, { req := [h], busy := true })] } }
theorem meets_RequestsAnswered : (asking 0x3A 1).agenda = .farrier :: [] ∧ (asking 0x3A 1).mgmt.queue = 1 :: [] ∧
    (asking 0x3A 1).mgmt.up = true ∧ (asking 0x3A 1).mgmt.recovery = false ∧ 0x3B ≤ (0x3B : Word).toNat % 256 ∧
    (0x8000000000001 : Word).toNat / 2 ^ 48 ≠ 0 ∧ 31 < (0x2001 : Word).toNat / 256 % 256 ∧ (0x60000003A : Word).toNat / 2 ^ 48 = 0 ∧
    (0x60000003A : Word).toNat % 256 = 0x3A ∧ (expire 0 (asking 0x60000003A 2).mgmt).holder = 2 ∧
    (expire 0 (asking 0x60000003A 1).mgmt).holder = 1 ∧ (asking 0x3A 1).mgmt.cur = none ∧ justRang (asking 0x3A 1) 1 = false ∧
    (let s := asking 0x3A 1; { s with mgmt := { s.mgmt with recovery := true } }).mgmt.recovery = true ∧
    (0x60000003A : Word).toNat / 2 ^ 32 % 65536 ≠ (asking 0x60000003A 1).mgmt.epoch := by decide
def withArgs (ws : List Word) : State := let s := at_ group; { s with mgmt := { s.mgmt with args := ws } }
theorem meets_YardsAndSeeds : (withArgs [31, 0x8000000000000000, 0x8000000000000000, 0x80000000, 0x500E0]).mgmt.args =
      [31, 0x8000000000000000, 0x8000000000000000, 0x80000000, 0x500E0] ∧
    yardTableOk tables (mset {} tables.yards 31 { v := true, cl := 0x800000008000000000000000, wlog := 5, wbase := 0xE0 }) = false ∧
    yardTableOk tables (mset {} tables.yards 0 { v := true, cl := 0x800000008000000000000000, wlog := 5, wbase := 0x3E0 }) = true ∧
    (yrun (at_ group).m 0).phase ≠ .idle ∧ (yrun (at_ group).m 31).phase = .idle ∧
    yardTableOk { tables with yards := [] } [(31, { v := true, lane := true, core := 383, b := 8, l := 8, wlog := 10 })] = true ∧
    (vfst (at_ group).m 1).home ≠ none ∧ (vfst (at_ group).m 511).home = none := by decide +kernel
/-- The segment of virtual function 1 grows, moves or goes. -/
def entry1 (en : Word) (size base : Word) : List Word := [1, en <<< 63, size * 65536 + base, 0, 0xFFFFFFFFFF000]
theorem meets_VirtualFunctionTable : 1536 < 1 + 1536 ∧ 1535 + 1 ≤ 1536 ∧ segTaken tables 1 1 1535 = false ∧ tables.pendSeg = [] ∧
    (1 : Nat) ≠ 2 ∧ 3 < (vfEnt tables 1).baseg + (vfEnt tables 1).sizeg ∧ (vfEnt tables 1).baseg < 3 + 1 ∧
    (∀ yn x, yn < 32 → (yrun absent.m yn).phase = .running x → x ≠ 1) ∧ (vfst absent.m 1).home = none ∧ (vfst (at_ group).m 1).home ≠ none ∧
    (yrun (at_ group).m 0).phase = .running 1 ∧ (entry1 1 4 0).length = 5 ∧ (entry1 0 4 0)[1]? = some 0 := by
  refine ⟨by decide, by decide, by decide, rfl, by decide, by decide, by decide, fun yn x h hx => ?_, rfl, by decide, rfl, rfl, rfl⟩
  exact Phase.noConfusion hx
/-- Rows for yard 0 with virtual function 1. -/
def slotRow (len : Nat) : Row := { rv := true, len := len, ents := [(0, { run := true, vf := 1, hbmsh := 256, slack := true })] }
def rowArgs (len : Word) : List Word := [63, 0x8000000000000000 + len, 0x8001FF0080000000]
def ruled (en : Bool) (rows : Map Row) (args : List Word) : State :=
  let s := at_ group
  let v : VfEnt := { en := true, privok := true, sizeg := 4, ctx := 0x100000000 }
  { s with mgmt := { s.mgmt with enable := en, rows := rows, args := args, nrows := 64, vfs := [(1, v)] } }
theorem meets_SlotTable : rowOk (ruled false [] []).mgmt [(63, slotRow 50)] 63 = true ∧ rowOk (ruled false [] []).mgmt [(63, slotRow 49)] 63 = false ∧
    lensOk (ruled false [] []).mgmt 20 64 [(63, slotRow 50)] = true ∧
    lensOk (ruled false [] []).mgmt 20 64 [(62, { rv := true, len := 70 }), (63, slotRow 69)] = false ∧ (ruled false [] []).mgmt.pendRows = [] ∧
    (slotOf ((rowArgs 50)[2]?.getD 0).toNat) = { run := true, vf := 1, hbmsh := 255, slack := true } ∧
    (nextTable (ruled true [] []).mgmt).guard = 20 ∧ (ruled true [] []).mgmt.enable = true ∧ (5 : Nat) ≤ 1000 ∧
    rowLenOk (ruled false [(63, slotRow 50)] []).mgmt 1000 [(63, slotRow 50)] 63 = true ∧
    ((List.range 64).find? fun j => (mget {} (ruled false [(63, slotRow 50)] []).mgmt.rows j).rv) = some 63 ∧
    (yrun (ruled false [(63, slotRow 50)] []).m 1).phase = .idle := by decide +kernel
/-- The tables, with a lane retired in the lower half of core 383. -/
def worn : State := let s := at_ group; { s with mgmt := { s.mgmt with retLanes := [6128] } }
theorem meets_Retirement : unitExists 3 18 = false ∧ unitExists 1 384 = false ∧ coreInUse tables worn.m 383 = false ∧ coreInUse tables worn.m 4 = false ∧
    coreInUse tables worn.m 3 = true ∧ coreInUse worn.mgmt worn.m (6143 / 16) = false ∧
    (∃ l ∈ worn.mgmt.retLanes, l / 16 = 6143 / 16 ∧ ¬ (8 ≤ l % 16 ↔ 8 ≤ 6143 % 16)) ∧
    (∀ l ∈ worn.mgmt.retLanes, l / 16 = 6135 / 16 → (8 ≤ l % 16 ↔ 8 ≤ 6135 % 16)) ∧ worn.m.sysOut = [] ∧
    ∀ kv ∈ worn.m.vfst, kv.2.cmds = [] := by decide
/-- A thousand corrected errors of bank 0 within the hour. -/
def wearing : State := let s := at_ group; { s with mgmt := { s.mgmt with recent := [(16384 + 31, List.replicate 1000 0)] } }
theorem meets_MemoryErrors_units : mget false (at_ group).m.dirty (0x400000 / 128) = false ∧ failingUnit tables (at_ group).m 2 0x400000 = some (2, 32) ∧
    ((mget [] wearing.mgmt.recent (8192 * 2 + 31)).filter fun t => wearing.m.now < t + 5040000000000).length = 1000 ∧
    ((mget [] tables.recent (8192 * 2 + 32)).filter fun t => (at_ group).m.now < t + 5040000000000).length < 1000 ∧
    failingUnit tables (at_ group).m 5 (coreBase 383 + 0xF0000) = some (0, 6143) ∧
    mget false { (at_ group).m with dirty := [(0x400000 / 128, true)] }.dirty (0x400000 / 128) = true := by decide +kernel
theorem meets_MemoryErrors : dataOwner tables (at_ group).m 1 0x7FFFFFFF = some 1 ∧ dataOwner tables (at_ group).m 1 0x80000000 = none ∧
    failingUnit tables (at_ group).m 1 0x7FFFFFFF = none ∧ Canonical (at_ group) ∧ (grp (at_ group).m 0 0).vf = 1 ∧
    (grp (at_ group).m 0 0).active = true ∧ gkey 0 1 ≠ gkey 0 0 ∧ dataOwner tables (at_ group).m 5 (coreBase 0 + 0x1000) = some 1 := by
  refine ⟨by decide, by decide, by decide, canonical_at _, by decide⟩
def linked1 (st fails : Nat) : State := let s := at_ group; { s with mgmt := { s.mgmt with links := [(17, { st := st, fails := fails })] } }
/-- The commands that wait on virtual functions that run. -/
def parkedIn (m : Mach) : Map VfState := m.vfst.filter fun kv => decide (kv.2.cmds ≠ []) && (runningYard m kv.1).isSome
/-- A GETVP that waits at a device whose one link left is down. -/
def rejoining : State :=
  let s := at_ group
  let q : Deferred := { port := none, cmd := .getvp 1 0 0 0 4 0 }
  let m := modVf s.m 1 fun v => { v with cmds := [q] }
  { s with m := m, mgmt := { cutOff with links := mset {} cutOff.links 17 { st := 1 }, routes := [(1, some { link := 17, via := some 1 })] } }
theorem meets_Links : linkOk 17 = true ∧ (linkOf (linked1 0 0).mgmt 17).st = 0 ∧ (linkOf (linked1 1 2).mgmt 17).st = 1 ∧
    (linkOf (linked1 1 2).mgmt 17).fails = 2 ∧ (linked1 1 2).m.sysOut = [] ∧ (linkOf (linked1 2 2).mgmt 17).st ≠ 1 ∧
    ¬ ((linkOf (linked1 1 1).mgmt 17).st = 1 ∧ (linkOf (linked1 1 1).mgmt 17).fails = 2) ∧ parkedIn (linked1 1 2).m = [] ∧
    hostUp (rejoining).mgmt = false ∧ (linkOf rejoining.mgmt 17).st = 1 ∧ parkedIn rejoining.m ≠ [] ∧
    hostUp { rejoining.mgmt with links := mset {} rejoining.mgmt.links 17 {} } = true := by decide +kernel
theorem meets_DeviceReports : (withArgs [0xFFFFFFFF2000]).mgmt.args = [0xFFFFFFFF2000] ∧ (0xFFFFFFFF2000 : Word).toNat + 0xE000 ≤ 2 ^ 48 ∧
    (∀ kv ∈ (withArgs [0xFFFFFFFF2000]).mgmt.rows, kv.1 < 64) ∧ (∀ kv ∈ (withArgs [0xFFFFFFFF2000]).mgmt.vfs, kv.1 < 512) ∧
    (∀ kv ∈ (withArgs [0xFFFFFFFF2000]).mgmt.pendRows, kv.1 < 64) ∧ (∀ kv ∈ (withArgs [0xFFFFFFFF2000]).mgmt.pendSeg, kv.1 < 512) ∧
    hostUp (withArgs [0xFFFFFFFF2000]).mgmt = true ∧ hostUp { cutOff with args := [0xFFFFFFFF2000] } = false ∧
    Canonical (withArgs [0xFFFFFFFF2000]) := by
  refine ⟨rfl, by decide, by decide, by decide, by decide, by decide, by decide, by decide, ?_⟩
  exact { mem := rfl, groups := (canonical_at group).groups, cores := (canonical_at group).cores, cntsel := (canonical_at group).cntsel,
          vfs := (canonical_at group).vfs }
theorem meets_LimitsAndResets : 1200 ≤ (1200 : Word).toNat ∧ (2200 : Word).toNat ≤ 2200 ∧ ¬ (1200 ≤ (2201 : Word).toNat ∧ (2201 : Word).toNat ≤ 2200) ∧
    (0xFFFFFF : Word).toNat < 2 ^ 24 ∧ hostUp tables = true ∧ hostUp cutOff = false ∧ (yrun (at_ group).m 0).phase = .running 1 ∧
    Canonical (at_ group) :=
  ⟨by decide, by decide, by decide, by decide, by decide, by decide, rfl, canonical_at _⟩

/-! ## Slot edges and mapped registers -/

/-- Virtual function 1 in a table of one row of 50 µs, at a time. -/
def timed (now : Nat) : State := let s := ruled true [(63, slotRow 50)] []; { s with m := { s.m with now := now }, mgmt := { s.mgmt with row := 63 } }
theorem meets_DrainAndSave_guard : yardOk 31 = true ∧ Canonical (at_ group) ∧
    edgeTime { (timed 0).mgmt with rows := [(62, { rv := true, len := 99 }), (63, slotRow 50)] } (timed 0).m 0 = some 70000 := by
  refine ⟨by decide, canonical_at _, by decide⟩
/-- The drain of virtual function 1, whose group stands on core 3, slot 63. -/
def outgoing (early : Option (Option Nat)) : State :=
  let s := at_ group
  let m := setGrp { s.m with groups := [] } 3 63 { group with status := .halted }
  { s with m := modYrun m 0 fun q => { q with phase := .draining 1 28000, early := early } }
theorem meets_DrainAndSave : drained (outgoing none).m 1 = true ∧ (yrun (outgoing none).m 0).phase = .draining 1 28000 ∧
    targetAt tables (outgoing none).m 0 28000 = none ∧ (yrun (outgoing (some none)).m 0).early = some none ∧
    (yrun (outgoing (some (some 2))).m 0).early = some (some 2) ∧ (grp (outgoing none).m 3 63).fills = [] ∧
    (grp (outgoing none).m 3 63).active = false ∧ (grp (at_ group).m 0 0).active = true ∧ drained (drainingAt group 28000 none).m 1 = true ∧
    (grp (at_ { group with recs := [aRec] }).m 0 0).recs.find? (·.op.vec) = some aRec ∧ (grp (at_ group).m 0 0).vkept = none ∧
    mget none tables.pendSeg 1 = none ∧ tables.pendCores = [] ∧ tables.pendLanes = [] ∧
    drained (at_ { group with acc := [anOp .store .hbm] }).m 1 = false ∧ (∀ t ∈ vfAll (outgoing none).m 1, t.2.2.fills = []) ∧
    (vfGroups (outgoing none).m 1)[0]?.isSome = true ∧ (vfEnt tables 1).ctx + 1024 * (vfGroups (outgoing none).m 1).length ≤ 824633720832 ∧
    savedError (yardEnt tables 0) 1 (outgoing none).m = none ∧
    savedError (yardEnt tables 0) 1 { (drainingAt group 28000 none).m with bad := [((coreBase 0 + 0x17FFF8) / 8, 4)] } = some (4, coreBase 0 + 0x17FFF8) := by
  decide +kernel
/-- Virtual function 1 on its way in: already there, or from its saved context. -/
def incoming (s : State) : State := { s with m := modYrun s.m 0 fun q => { q with phase := .switching (some 1) 0 } }
theorem meets_IncomingStarts : let slotted := (mget {} (incoming absent).m.saved 1).groups.filter fun kg => keySlot kg.1 < 64
    yardOk 0 = true ∧ (yrun (incoming (at_ group)).m 0).phase = .switching (some 1) 0 ∧
    0 ≤ (incoming (at_ group)).m.now ∧ (vfEnt tables 1).en = true ∧ (vfst (incoming (at_ group)).m 1).cmds = [] ∧
    (vfst (incoming (at_ group)).m 1).home = some 0 ∧ (vfst (incoming absent).m 1).home = none ∧
    contextFits tables (incoming absent).m 0 1 = true ∧
    (∀ kg ∈ (mget {} (incoming absent).m.saved 1).groups, kg.2.acc = [] ∧ kg.2.recs = [] ∧ kg.2.spill = none) ∧
    (∀ k ∈ (mget {} (incoming absent).m.saved 1).cores, k.2.log = []) ∧
    slotted ≠ [] ∧ (∀ kg ∈ slotted, keySlot kg.1 + yardSlot0 (yardEnt tables 0) < 64) ∧
    (slotted.map fun kg => gkey (posCore (yardEnt tables 0) (keyCore kg.1)) (keySlot kg.1 + yardSlot0 (yardEnt tables 0))).Nodup ∧
    (∀ q ∈ (vfst (incoming absent).m 1).chains, q.2.closing = false) ∧ (incoming absent).m.cores = [] ∧ savedGroup.active = false := by decide
theorem meets_IncomingStarts_canonical : Canonical (incoming absent) ∧ Canonical (incoming (at_ group)) := by
  refine ⟨⟨rfl, List.Pairwise.nil, List.Pairwise.nil, fun _ => List.Pairwise.nil, (canonical_at group).vfs⟩, ?_⟩
  exact { mem := rfl, groups := (canonical_at group).groups, cores := (canonical_at group).cores, cntsel := (canonical_at group).cntsel,
          vfs := (canonical_at group).vfs }
def yielding (now : Nat) : State :=
  let s := timed now
  { s with m := { s.m with act := { s.m.act with word := 1 } }, mgmt := { s.mgmt with rows := [(62, { rv := true, len := 200 }), (63, slotRow 200)] } }
def yieldI : FmtA := { fa with a := 1 }
theorem meets_RowsAndDonations : (timed 69999).m.now < (timed 69999).m.rowStart + (mget {} (timed 0).mgmt.rows 63).len * 1400 ∧
    (timed 70000).mgmt.enable = true ∧ (applyTable (timed 70000).mgmt).enable = true ∧ rowsAfter (applyTable (timed 70000).mgmt) = [63] ∧
    (yrun (timed 70000).m 0).gift = none ∧ rowTarget (applyTable (timed 70000).mgmt) 63 0 = some 1 ∧ (yrun (timed 70000).m 0).phase = .running 1 ∧
    Unstepped (yielding 0) ∧ PredTrue (yielding 0) false 0 ∧ XFull (yielding 0) 1 ∧
    (20 + 40 + 10) * 1400 * 100 / 100 ≤ slotLeft (yielding 0).mgmt (yielding 0).m 0 ∧
    slotLeft (yielding 182001).mgmt (yielding 182001).m 0 < (20 + 40 + 10) * 1400 * 100 / 100 ∧ groupYard tables 0 group = 0 := by
  simp only [Unstepped, PredTrue, XFull]; decide
theorem meets_RowsAndDonations_early : (yrun (drainingAt group 0 (some none)).m 0).phase = .draining 1 0 ∧
    0 ≤ (drainingAt group 0 (some none)).m.now ∧ (yrun (drainingAt group 0 (some none)).m 0).early = some none ∧
    (drainingAt group 1 none).m.now < 1 ∧ issuing (drainingAt group 0 (some none)).m 1 = false ∧
    issuing (modCore (drainingAt group 0 none).m 0 fun k => { k with issue := (Machine.core stepping1.m 383).issue }) 1 = true := by decide
theorem meets_MappedRegisters : coreOk 383 = true ∧ (31 : Nat) < 32 ∧ (mget {} (Machine.core tiled.m 0).tiles 31).st ≠ .empty ∧
    (mget {} (Machine.core tiled.m 0).tiles 8).st = .empty ∧ clusterOk 95 = true ∧ vfOk 511 = true ∧ groupOk 0 0 = true ∧
    (grp (at_ group).m 0 0).here = true ∧ getFe (grp filling3.m 0 0) (.x 127) = .claimed ∧ getFe (grp (at_ group).m 0 0) (.x 127) ≠ .claimed ∧
    (0x8000000000000000 : Word).getLsbD 63 = true := by decide

/-! ## Sources, predicates and address checks -/

def clzI : FmtA := { fa with ps := 7, d := 127, a := 126, ty := 7 }
def emptyG (t : FE) : Group := { group with p := [(7, true)], xfe := [(126, t)] }
def claimedD : Group := { group with p := [(7, true)], xfe := [(127, .claimed)] }
theorem meets_SourcesAndPredicates : (Instr.clz clzI).wellFormed = true ∧
    scalarParts (.clz clzI) = some (false, 7, .x 127, [(126, false)]) ∧ getFe (me (at_ group).m) (.p 7) = .full ∧
    getP (me (at_ group).m) 7 = false ∧ Unstepped (at_ group) ∧ getFe (me (at_ { group with pfe := [(7, .opened)] }).m) (.p 7) ≠ .full ∧
    PredTrue (at_ (emptyG .opened)) false 7 ∧ (firstEmpty (me (at_ (emptyG .opened)).m) [] (fields [(126, false)])).isSome = true ∧
    PredTrue (at_ claimedD) false 7 ∧ SrcsFull (at_ claimedD) [(126, false)] ∧ getFe (me (at_ claimedD).m) (.x 127) = .claimed := by
  simp only [PredTrue, SrcsFull, Unstepped]; decide
/-- A base above bit 54, and one off by one. -/
def ldI : FmtM := { fm with data := 5, base := 3, sz := 3 }
theorem meets_AddressChecks : ∀ b : Word, b = 0x80000000000000 ∨ b = 0x7FFFFFFFFFFFFF →
    let s := at_ { group with x := [(3, b)] }
    ∃ F, scalarMemory (.ld ldI) = some F ∧ (Instr.ld ldI).wellFormed = true ∧ Unstepped s ∧ PredTrue s F.pn F.ps ∧
      firstEmpty (me s.m) [] (F.srcs []) = none ∧
      let m := modMe s.m (absorbSrcs (F.srcs []))
      dstWait m (opClaims (F.op m [])) = none ∧
        (b = 0x80000000000000 → ((F.op m []).elems.find? fun el => 2 ^ 55 ≤ el.va).isSome = true) ∧
        (b = 0x7FFFFFFFFFFFFF → (∀ x ∈ (F.op m []).elems, x.va < 2 ^ 55) ∧
          ((F.op m []).elems.find? fun el => el.va % el.size != 0).isSome = true) := by
  rintro b (rfl | rfl) <;> exact ⟨_, rfl, by simp only [PredTrue, Unstepped]; decide⟩
theorem meets_AddressChecks_vector : let s := at_ { lanes with x := [(3, 0x7FFFFFFFFFFFE8)] }
    ∃ F, vectorMemory (.vld vldI) = some F ∧ (Instr.vld vldI).wellFormed = true ∧ Unstepped s ∧ NoLockStep s ∧
      (∀ r ∈ F.named, r < (me s.m).nregs) ∧ MaskFull s F.ps ∧
      let act := activeOf (me s.m) F.pn F.ps
      let m := modMe s.m (absorbSrcs (F.srcs act))
      act ≠ [] ∧ vecInFlight (me m) < 8 ∧ firstEmpty (me s.m) [] (F.srcs act) = none ∧ dstWait m (opClaims (F.op m act)) = none ∧
        ((F.op m act).elems.find? fun el => 2 ^ 55 ≤ el.va).isSome = true :=
  ⟨_, rfl, by simp only [MaskFull, Unstepped, NoLockStep]; decide +kernel⟩

/-! ## Encodings and invariants -/

def castI : FmtL := { mloopI with sparse := true, msel := 7, bcast := 3, incB := 0 }
theorem meets_DecodeEncode : (encode (.mloop 6 castI)).map Prod.fst = some .c ∧ Instr.wellFormed (.mloop 6 castI) = true := by decide
def turning : State := { at_ group with agenda := [.issue 0] }
theorem meets_YardsStaySeparate : YardsSeparate tables ∧ ∃ t, step turning = .next t := by
  refine ⟨fun i j h hi hj => absurd ?_ h, _, rfl⟩
  have zero : ∀ k, (yardEnt tables k).v = true → k = 0 := fun k hk => by
    by_cases h0 : k = 0
    · exact h0
    · simp [yardEnt, tables, mget, h0] at hk
  rw [zero i hi, zero j hj]
theorem meets_TablesStayCanonical : Canonical turning ∧ ∃ t, step turning = .next t := 
  ⟨{ mem := rfl, groups := (canonical_at group).groups, cores := (canonical_at group).cores, cntsel := (canonical_at group).cntsel,
     vfs := (canonical_at group).vfs }, _, rfl⟩

/-! ## Ill-formed instructions: one for each check -/

theorem illFormed_formatA : [Instr.add { fa with pn := true, d := 1, a := 1, b := 1, ty := 3 }, .add { fa with d := 1, a := 1, b := 1, ty := 2 },
    .add { fa with d := 0xC0, a := 1, b := 1, ty := 3 }, .add { fa with d := 1, a := 0xC8, b := 1, ty := 3 },
    .add { fa with d := 1, a := 1, b := 0xD2, ty := 3 }, .add { fa with d := 1, a := 1, b := 1, c := 0, ty := 3 },
    .add { fa with d := 1, a := 1, b := 1, ty := 3, rnd := 1 }, .mulh { fa with d := 1, a := 1, b := 1, ty := 3, sat := true },
    .clz { fa with d := 1, a := 1, ty := 7, tb := true }, .add { fa with d := 1, a := 1, b := 1, ty := 3, tc := true },
    .lea { fa with d := 1, a := 1, b := 1, md := 8 }, .sext { fa with d := 1, a := 1, ty := 3 }, .zext { fa with d := 1, a := 1, ty := 7 },
    .sel { fa with d := 1, a := 1, b := 1, c := 1 }, .pand { fa with d := 0x88, a := 0x80, b := 0x80 }, .pnot { fa with d := 0x80, a := 1 },
    .fadd { fa with d := 1, a := 1, b := 0xC3, ty := 9 }, .fadd { fa with d := 1, a := 1, b := 1, ty := 9, rnd := 5 },
    .ffma { fa with d := 1, a := 1, b := 1, ty := 9 }, .stop { fa with d := 0 }, .jmpr { fa with a := 0x80 }].all (!·.wellFormed) = true := by
  decide
theorem illFormed_conversions : [Instr.fcvt { fa with d := 1, a := 1, c := 0x49, ty := 9 }, .fcvt { fa with d := 1, a := 1, c := 9, ty := 15, md := 24 },
    .fcvt { fa with d := 1, a := 1, c := 9, ty := 9, md := 1 }, .fcvt { fa with d := 1, a := 1, c := 0x19, ty := 9 },
    .fcvt { fa with d := 1, a := 1, c := 9, ty := 9, md := 8 }, .fcvt { fa with d := 1, a := 1, c := 9, ty := 2, sat := true },
    .vcvt { fa with d := 3, a := 4, c := 9, ty := 8 }, .vcvt { fa with d := 4, a := 3, c := 8, ty := 9 },
    .vpack { fa with d := 4, a := 3, c := 10, ty := 9 }, .vunpack { fa with d := 4, a := 3, c := 9, ty := 10 },
    .vcvt { fa with d := 4, a := 4, c := 9, ty := 15, md := 16, sat := true }].all (!·.wellFormed) = true := by decide
theorem illFormed_immediates : [Instr.addImm { fi with d := 0xC1, a := 1 }, .movi { fi with d := 1, a := 1 }, .cmp 6 { fa with d := 0x80, a := 1, b := 1 },
    .cmpImm 0 { fi with d := 1, a := 1 }, .vmovi { fi with d := 0x48 }, .vregs { fi with imm := 12 }, .csrRd { fi with d := 1, imm := 0x45 },
    .csrWr { fi with a := 1, imm := 0x44 }, .replack { fi with a := 1, imm := 1 }, .br { fb with a := 1 }, .loop { fb with a := 0xC5 },
    .vbru { fb with a := 0x48 }, .fork { fa with d := 1 }, .spawn { fa with a := 1, b := 0x80 }, .launch { fa with d := 1, a := 1 }].all
    (!·.wellFormed) = true := by decide
theorem illFormed_memory : [Instr.vld { fm with data := 3, sz := 3 }, .vld { fm with data := 0x40 }, .vld { fm with index := 1 }, .vld { fm with ff := true },
    .vldff fm, .vst { fm with base := 0x80 }, .vlds fm, .vldx { fm with index := 0x40 }, .vld { fm with scope := 1 }, .vgl { fm with index := 1, scope := 3 },
    .vld { fm with sz5 := true }, .vsc { fm with index := 1 }, .vsc { fm with index := 1, ps := 1, pn := true }, .ld { fm with data := 0x80 },
    .amo 0 { fm with sz := 1 }, .amo 3 { fm with sz5 := true }, .amo 7 fm, .amo 0 { fm with index := 1 }, .pld { fm with base := 1 },
    .pamo 7 { fm with index := 0x80 }, .vpush { fa with a := 0x80, b := 1 }].all (!·.wellFormed) = true := by decide
theorem illFormed_vectors : [Instr.mand { fa with d := 0x88, a := 0x88, b := 0x80 }, .mnot { fa with d := 0x87, a := 0x88 }, .mset { fa with d := 0x88, a := 0x88 },
    .mcount { fa with d := 0x88, a := 0x88 }, .mprefix { fa with d := 0x40, a := 0x88 }, .vredAdd { fa with d := 1, a := 1, ty := 3 },
    .vredAdd { fa with d := 1, a := 1, ty := 2, rnd := 1 }, .vredMin { fa with d := 1, a := 1, ty := 9, rnd := 1 }, .vscan { fa with d := 1, a := 2, ty := 8 },
    .vcompress { fa with d := 1, a := 2, b := 1, ty := 2 }, .vslideup { fa with d := 1, a := 2, b := 0x88, ty := 2 },
    .vmexp { fa with d := 1, a := 2, ty := 9 }, .vmexp { fa with d := 1, a := 2, ty := 12, md := 4 }, .vunion { fa with d := 2, a := 2, b := 2, c := 1, ty := 9 },
    .vunion { fa with d := 4, a := 2, b := 2, c := 1, ty := 9, md := 2 }, .vquant { fa with d := 1, a := 2, b := 3, c := 8, ty := 12 },
    .vquant { fa with d := 1, a := 2, b := 3, c := 9, ty := 0, sat := true }, .vquant { fa with d := 1, a := 2, b := 3, c := 9, ty := 15, md := 16 },
    .vadd { fa with d := 3, a := 4, b := 4, ty := 3 }, .vadd { fa with d := 3, a := 0x49, b := 4, ty := 2 }, .vadd { fa with d := 3, a := 4, b := 4, ty := 8 },
    .vmad { fa with d := 3, a := 4, b := 4, ty := 2 }, .vsel { fa with d := 3, a := 4, b := 4, c := 1, ty := 2 }, .vmov { fa with d := 3, a := 4, ty := 0 },
    .vfadd { fa with d := 3, a := 4, b := 4, ty := 9, rnd := 6 }, .vfmin { fa with d := 3, a := 4, b := 4, ty := 9, rnd := 1 },
    .vfcmp { fa with d := 0x40, a := 4, b := 4, ty := 9, md := 7 }, .vfclass { fa with d := 3, a := 4, ty := 9, sat := true },
    .qput { fa with d := 3, a := 4, ty := 2 }, .vSpawn { fa with a := 3, b := 4 }].all (!·.wellFormed) = true := by decide
theorem illFormed_engines : [Instr.dcopy { fe with imm := 0x100 }, .dcopyBar { fe with imm := 0x8000 }, .dcopy { fe with a := 0x80 }, .qpop { fa with d := 1, a := 0xA0 },
    .tfill { fa with a := 0x80 }, .tfree { fa with a := 1 }, .mload { fa with a := 1, b := 1, c := 1, ty := 9 }, .mload { fa with a := 1, b := 1, c := 1, ty := 15 },
    .mzero { fa with d := 0xA8 }, .mread { fa with d := 1, a := 0xA0, b := 1, ty := 3 }, .mloop 7 fl, .mloop 0 { fl with rsv := 1 },
    .mloop 0 { fl with asrc := 0x40 }, .mloop 0 { fl with msel := 1 }, .mloop 0 { fl with sbyte := 1 }, .mloop 0 { fl with incA := 3 },
    .mloop 0 { fl with incB := 2 }, .gopen { fa with d := 0xA8, a := 1 }, .gsend { fa with a := 1, b := 1 }, .gwait { fa with d := 1, a := 0xA0, ta := true },
    .barr { fa with d := 1, a := 1, md := 3 }, .bwait { fa with a := 1, b := 1, md := 3 }, .bsync { fa with a := 1, md := 3 }, .trap { fa with a := 0 }].all
    (!·.wellFormed) = true := by decide
theorem illFormed_events : [Instr.issueChoice 384, .starvationCap 0 64 false, .lineFill (2 ^ 52), .latticeStep 96, .mloopComplete 0 8, .tileFault 0 64 0,
    .tileFillComplete 0 32, .mloadComplete 384 0, .drayChunk 384 0, .packedGroupStart 0 32, .overflowRefill 0 512, .launchGroupStart 512 0,
    .hostAccess true 0 3 0, .hostAccess true 1 2 0, .linkDown 18, .uncorrectable 0 0 none, .singleBitError 8 0 none, .uncorrectable 1 0 (some (384, 0)),
    .slotEdgeGuard 32, .cfgsemAcquire 3, .start 512 0 0, .halt 0 (some (0, 64)), .resume 0 384 0, .replay 0 16, .clearrec 384 0, .qoutRead 0xC9,
    .cntselWrite 0 16 0, .registerWrite (2 ^ 52) 0, .accessPerformed 384 0 0 0].all (!·.wellFormed) = true := by decide

/-! ## Words of the spec's examples (R58 to R73 and the sections' own) -/

def reads (k : Cls) (w : Word) (i : Instr) : Bool := match decodeWord k w with | .ok j => j == i | .error _ => false
theorem decode_scalar : reads .c 0x08000909_00000100 (.addImm { fi with d := 9, a := 9, imm := 256 }) = true ∧
    reads .c 0x0C20_8109_0AFF_0000 (.cmp 2 { fa with d := 0x81, a := 9, b := 10 }) = true ∧
    reads .c 0x0A00_05FF_FFFF_FFF8 (.movi { fi with d := 5, imm := 0xFFFFFFF8 }) = true ∧
    reads .c 0x1000_8104_0000_0001 (.cmpImm 0 { fi with d := 0x81, a := 4, imm := 1 }) = true ∧
    reads .c 0x0550_1204_10FF_0002 (.lea { fa with d := 0x12, a := 4, b := 0x10, md := 2 }) = true ∧
    reads .c 0x0400_0F0F_0EFF_3000 (.add { fa with d := 15, a := 15, b := 14, ty := 3 }) = true ∧
    reads .c 0x04F0_1111_0CFF_3000 (.max { fa with d := 17, a := 17, b := 12, ty := 3 }) = true ∧
    reads .c 0x0420_0C0A_0BFF_3000 (.mul { fa with d := 12, a := 10, b := 11, ty := 3 }) = true ∧
    reads .c 0x0860_14CC_0000_003F (.andImm { fi with d := 0x14, a := 0xCC, imm := 0x3F }) = true ∧
    reads .c 0x08A0_1414_0000_0005 (.shlImm { fi with d := 0x14, a := 0x14, imm := 5 }) = true ∧
    reads .c 0x08B0_0BCC_0000_0010 (.shrImm { fi with d := 11, a := 0xCC, imm := 16 }) = true := by decide
theorem decode_predicates : reads .c 0x1410_8585_81FF_0000 (.por { fa with d := 0x85, a := 0x85, b := 0x81 }) = true ∧
    reads .c 0x0804_0A0A_0000_0001 (.addImm { fi with ps := 4, d := 10, a := 10, imm := 1 }) = true ∧
    reads .c 0x500A_0202_0103_0001 (.dcopy { fe with pn := true, ps := 2, a := 2, b := 1, c := 3, imm := 1 }) = true := by decide
theorem decode_control : reads .c 0x2000_FF00_0000_0002 (.br { fb with off := 2 }) = true ∧
    reads .c 0x2010_0100_0000_0010 (.call { fb with a := 1, off := 16 }) = true ∧
    reads .c 0x2020_09FF_FFFF_FFFD (.loop { fb with a := 9, off := 0xFFFFFFFFFD }) = true ∧ reads .c 0x2400_FF05_FFFF_0000 (.jmpr { fa with a := 5 }) = true ∧
    reads .c 0x2410_FF01_FFFF_0000 (.ret { fa with a := 1 }) = true ∧ reads .c 0x2420_FFFF_FFFF_0000 (.stop fa) = true ∧
    reads .c 0x2430_FFFF_FFFF_0000 (.yield fa) = true ∧ reads .c 0x2800_0002_FFFF_0000 (.setvl { fa with d := 0, a := 2 }) = true ∧
    reads .c 0x2810_FFFF_0000_0020 (.vregs { fi with imm := 32 }) = true ∧ reads .c 0x2820_FF00_0000_0006 (.vf { fb with off := 6 }) = true ∧
    reads .c 0x2830_FFFF_FFFF_0000 (.vfwait fa) = true ∧ reads .c 0x2840_81FF_FFFF_0000 (.fork { fa with d := 0x81 }) = true ∧
    reads .c 0x2850_FFFF_FFFF_0000 (.join fa) = true ∧ reads .c 0x2860_FF05_06FF_0000 (.spawn { fa with a := 5, b := 6 }) = true ∧
    reads .c 0x2870_8205_FFFF_0000 (.launch { fa with d := 0x82, a := 5 }) = true := by decide
theorem decode_memory : reads .c 0x3000_0409_FF00_0010 (.vld { fm with data := 4, base := 9, sz := 2 }) = true ∧
    reads .c 0x3010_0C0A_FF00_0110 (.vst { fm with data := 12, base := 10, off := 1, sz := 2 }) = true ∧
    reads .c 0x3020_0401_0000_1810 (.vlds { fm with data := 4, base := 1, index := 0, off := 24, sz := 2 }) = true ∧
    reads .c 0x3061_030A_0200_0090 (.vgl { fm with ps := 1, data := 3, base := 10, index := 2, sz := 2, scope := 2 }) = true ∧
    reads .c 0x3071_050A_0200_0090 (.vsc { fm with ps := 1, data := 5, base := 10, index := 2, sz := 2, scope := 2 }) = true ∧
    reads .c 0x3400_FF14_08FF_0003 (.vpush { fa with a := 0x14, b := 8, md := 3 }) = true ∧
    reads .c 0x3800_0A01_FF00_0010 (.ld { fm with data := 10, base := 1, sz := 2 }) = true ∧
    reads .c 0x3810_0F14_FF00_0118 (.st { fm with data := 15, base := 0x14, off := 1, sz := 3 }) = true ∧
    reads .c 0x3C02_FFFF_FFFF_0000 (.fenceX { fa with ps := 2 }) = true ∧ reads .c 0x3C10_FFFF_FFFF_0000 (.fenceSys fa) = true := by decide
theorem decode_vectors : reads .c 0x4030_8918_FFFF_0000 (.mset { fa with d := 0x89, a := 0x18 }) = true ∧
    reads .c 0x4430_0C0C_FFFF_6000 (.vscan { fa with d := 12, a := 12, ty := 6 }) = true ∧
    reads .c 0x4480_0804_061E_9001 (.vunion { fa with d := 8, a := 4, b := 6, c := 30, ty := 9, md := 1 }) = true := by decide
theorem decode_engines : reads .c 0x5000_2A04_0506_0005 (.dcopy { fe with queue := 2, acq := true, a := 4, b := 5, c := 6, imm := 5 }) = true ∧
    reads .c 0x5030_0E0B_0D0E_0000 (.dcompact { fe with acq := true, rel := true, a := 11, b := 13, c := 14 }) = true ∧
    reads .c 0x5042_0D15_0016_0003 (.dhalo { fe with ps := 2, acq := true, rel := true, escope := 1, a := 0x15, b := 0, c := 0x16, imm := 3 }) = true ∧
    reads .c 0x5800_0792_FFFF_0000 (.qpop { fa with d := 7, a := 0x92 }) = true ∧
    reads .c 0x5400_FF0F_FFFF_0008 (.tfill { fa with a := 15, md := 8 }) = true ∧
    reads .c 0x5410_FF05_FFFF_0000 (.tdrain { fa with a := 5 }) = true ∧ reads .c 0x5430_FFFF_FFFF_0008 (.twait { fa with md := 8 }) = true ∧
    reads .c 0x6400_FF10_1418_F010 (.mload { fa with a := 0x10, b := 0x14, c := 0x18, ty := 15, md := 16 }) = true ∧
    reads .c 0x6410_A1FF_FFFF_0000 (.mzero { fa with d := 0xA1 }) = true ∧
    reads .c 0x6000_2004_0006_5001 (.mloop 0 { fl with tile := 1, kreg := 4, baddr := 6, msel := 2, sparse := true, incB := 1 }) = true ∧
    reads .c 0x6060_0012_1314_0010 (.mloop 6 { fl with kreg := 0x12, asrc := 0x13, baddr := 0x14, incA := 1 }) = true := by decide
theorem decode_glaze : reads .c 0x6800_0A0B_FFFF_0000 (.gchain { fa with d := 10, a := 11 }) = true ∧
    reads .c 0x6810_A20A_FFFF_0000 (.gopen { fa with d := 0xA2, a := 10 }) = true ∧
    reads .c 0x6820_FFA3_14FF_0040 (.gsend { fa with a := 0xA3, b := 0x14, tb := true }) = true ∧
    reads .c 0x6830_0CA2_FFFF_0000 (.gwait { fa with d := 12, a := 0xA2 }) = true ∧ reads .c 0x6840_FF0A_FFFF_0000 (.gclose { fa with a := 10 }) = true := by decide
theorem decode_barriers_and_system : reads .c 0x6C00_0506_FFFF_0002 (.barr { fa with d := 5, a := 6, md := 2 }) = true ∧
    reads .c 0x6C10_FF06_05FF_0002 (.bwait { fa with a := 6, b := 5, md := 2 }) = true ∧ reads .c 0x6C20_FF06_FFFF_0001 (.bsync { fa with a := 6, md := 1 }) = true ∧
    reads .c 0x7000_FF05_FFFF_0000 (.slotyield { fa with a := 5 }) = true ∧ reads .c 0x7010_0506_FFFF_0000 (.cntrd { fa with d := 5, a := 6 }) = true ∧
    reads .c 0x7020_FF05_FFFF_0000 (.srseed { fa with a := 5 }) = true ∧ reads .c 0x7030_FFFF_FFFF_0001 (.trap { fa with md := 1 }) = true ∧
    reads .c 0x7040_FFFF_FFFF_0000 (.brk fa) = true ∧ reads .s 0xF000_FF05_FFFF_0000 (.tlbinv { fa with a := 5 }) = true ∧
    reads .s 0xF010_FFFF_FFFF_0000 (.tlbinvAll fa) = true ∧ reads .s 0xF400_05FF_0000_0041 (.csrRd { fi with d := 5, imm := 0x41 }) = true ∧
    reads .s 0xF410_FF06_0000_0041 (.csrWr { fi with a := 6, imm := 0x41 }) = true ∧ reads .s 0xF800_FF05_0000_0000 (.replack { fi with a := 5 }) = true ∧
    reads .c 0xF010_FFFF_FFFF_0000 (.tlbinvAll fa) = false := by decide
theorem decode_lanes : reads .v 0x1030_0304_0506_9020 (.vfma { fa with d := 3, a := 4, b := 5, c := 6, ty := 9, tc := true }) = true ∧
    reads .v 0x1010_0402_01FF_9000 (.vfsub { fa with d := 4, a := 2, b := 1, ty := 9 }) = true ∧
    reads .v 0x0500_0506_FFFF_2000 (.vmov { fa with d := 5, a := 6, ty := 2 }) = true ∧
    reads .v 0x0400_044A_8CFF_6000 (.vadd { fa with d := 4, a := 0x4A, b := 0x8C, ty := 6 }) = true ∧
    reads .v 0x1800_4B04_FFFF_7000 (.qput { fa with d := 0x4B, a := 4, ty := 7 }) = true ∧ reads .v 0x2001_FF00_0000_000C (.vfetch { fb with ps := 1, off := 12 }) = true ∧
    reads .v 0x2010_4200_0000_0000 (.vbru { fb with a := 0x42 }) = true ∧ reads .v 0x2400_FFFF_FFFF_0000 (.vStop fa) = true ∧
    reads .v 0x2410_FF04_06FF_0000 (.vSpawn { fa with a := 4, b := 6 }) = true := by decide
/-- The headers of the examples: class, number of instructions, W0. -/
theorem decode_headers : (decodeHeader 0x0C00_09FF_FFFF_FFFF).map (fun h => (h.cls, h.count, h.y, h.waits.head?)) = some (.c, 3, false, some 9) ∧
    (decodeHeader 0x2E00_FFFF_FFFF_FFFF).map (fun h => (h.cls, h.count, h.y)) = some (.c, 11, true) ∧
    (decodeHeader 0x4C00_FFFF_FFFF_FFFF).map (fun h => (h.cls, h.count, h.y)) = some (.v, 3, false) := by decide

/-! ## Effects, on the spec's own examples -/

/-- x register, flags and vector values after a step. -/
def xIs (i : Instr) (s : State) (r : Nat) (v : Word) : Bool := after i s fun t => getX (me t.m) r == v
def flIs (i : Instr) (s : State) (fl : BitVec 5) : Bool := after i s fun t => (me t.m).fflags == fl
def vIs (i : Instr) (s : State) (r : Nat) (vs : List Lane) : Bool :=
  after i s fun t => (List.range vs.length).map (getV (me t.m) r) == vs
def withX (x : Map Word) : State := at_ { group with x := x }
/-- A vector register's values from VP 0 on. -/
def vals (vs : List Lane) : Map Lane := (List.range vs.length).zip vs
def withV (v : Map (Map Lane)) (vps : List Nat) : State := vat { group with v := v } vps

/-! The worked example of 05_scalar after R80: movi, movhi, div.i64, rem.n64, mulh.n64. -/
theorem test_movi : xIs (.movi { fi with d := 5, imm := 0xFFFFFFF8 }) (withX []) 5 0xFFFFFFFFFFFFFFF8 = true := by decide +kernel
theorem test_movhi : xIs (.movhi { fi with d := 5, a := 5, imm := 0x1234 }) (withX [(5, 0xFFFFFFFFFFFFFFF8)]) 5 0x1234FFFFFFF8 = true := by
  decide +kernel
theorem test_div_zero : xIs (.div { fa with d := 6, a := 5, b := 1, ty := 3 }) (withX [(5, 0x1234FFFFFFF8)]) 6 0xFFFFFFFFFFFFFFFF = true := by
  decide +kernel
theorem test_rem_zero : xIs (.rem { fa with d := 7, a := 5, b := 1, ty := 7 }) (withX [(5, 0x1234FFFFFFF8)]) 7 0x1234FFFFFFF8 = true := by
  decide +kernel
theorem test_mulh : xIs (.mulh { fa with d := 8, a := 5, b := 5, ty := 7 }) (withX [(5, 0x1234FFFFFFF8)]) 8 0x14B7EF8 = true := by
  decide +kernel

/-! The conversion table after R98. Source type in C, result type in TYPE. -/
def conv (dst : BitVec 4) (src : BitVec 8) (rnd : BitVec 3) (ext : BitVec 5) : Instr :=
  .fcvt { fa with d := 6, a := 5, c := src, ty := dst, rnd := rnd, md := ext }
def convIs (i : Instr) (a v : Word) (fl : BitVec 5) : Bool := xIs i (withX [(5, a)]) 6 v && flIs i (withX [(5, a)]) fl
theorem test_fcvt_overflow : convIs (conv 10 9 0 0) 0x477FF000 0x7C00 (flOF ||| flNX) && convIs (conv 10 9 1 0) 0x477FF000 0x7BFF flNX = true := by
  decide +kernel
theorem test_fcvt_narrow : (convIs (conv 12 9 0 0) 0x43E80000 0x7E flNX && convIs (conv 14 9 0 0) 0x40A00000 6 flNX &&
    convIs (conv 2 9 0 0) 0x4F32D05E 0x7FFFFFFF (flNV ||| flNX) && convIs (conv 9 2 0 0) 16777217 0x4B800000 flNX &&
    convIs (conv 15 9 0 0) 0x40400000 0x80 flNX) = true := by decide +kernel
/-- The worked example of R93: 1 + 2^(−9) to BF16 under SR from state 1. -/
theorem test_vcvt_sr : after (.vcvt { fa with d := 6, a := 5, c := 9, ty := 11, rnd := 5 }) (withV [(5, vals [0x3F804000])] [0]) fun t =>
    getV (me t.m) 6 0 == 0x3F81 && mget 1 (me t.m).srs 0 == 0x42021 := by decide +kernel

/-! Lane arithmetic, reductions and merges: the examples of R119, R101 and R102, R136, R137. -/
theorem test_vfma : vIs (.vfma { fa with d := 7, a := 4, b := 5, c := 6, ty := 9 })
    (withV [(4, vals [0x4B800000]), (5, vals [0x3F800000]), (6, vals [0x3F800000])] [0]) 7 [0x4B800000] = true := by decide +kernel
def fiveOf : State :=
  let s := at_ { group with vl := 5, v := [(4, vals [0x4B800000, 0x3F800000, 0x3F800000, 0x3F800000, 0x3F800000])] }
  s
theorem test_vredAdd : xIs (.vredAdd { fa with d := 6, a := 4, ty := 9 }) fiveOf 6 0x4B800002 = true := by decide +kernel
theorem test_vscan : vIs (.vscan { fa with d := 6, a := 4, ty := 9 }) fiveOf 6 (List.replicate 5 0x4B800000) = true := by decide +kernel
def blocks : State :=
  let row := (vals (List.replicate 5 0x3F800000)) ++ [(5, 0x40400000), (33, 0x3F400000), (45, 0x447A0000)]
  at_ { group with vl := 40, v := [(8, row), (20, [(0, 0xAABBCCDD)])] }
theorem test_vmexp : vIs (.vmexp { fa with d := 20, a := 8, ty := 12, md := 1 }) blocks 20 [0xAABB78DD, 0x7600] = true := by decide +kernel
def scaled : State := at_ { group with vl := 40, v := [(8, [(5, 0x40400000), (33, 0x3F400000)]), (20, [(0, 0x7800), (1, 0x7600)])] }
theorem test_vquant : after (.vquant { fa with d := 21, a := 8, b := 20, c := 9, ty := 12, md := 1 }) scaled (fun t =>
    getV (me t.m) 21 5 == 0x7C && getV (me t.m) 21 33 == 0x7C && (me t.m).fflags == 0) = true := by decide +kernel
def streams : State :=
  at_ { group with vl := 4, v := [(4, vals [1, 3, 5, 0xFFFFFFFF]), (5, vals [0x3F800000, 0x40000000, 0x40800000, 7]),
                                  (6, vals [0, 3, 5, 6]), (7, vals [0x3F000000, 0xC0000000, 0x3F800000, 0x41000000])] }
def unionI : Instr := .vunion { fa with d := 8, a := 4, b := 6, c := 9, ty := 9, md := 1 }
theorem test_vunion : (vIs unionI streams 8 [0, 1, 5, 6] && vIs unionI streams 9 [0x3F000000, 0x3F800000, 0x40A00000, 0x41000000] &&
    xIs unionI streams 9 4 && flIs unionI streams 0) = true := by decide +kernel
/-- The fused step after R100: 2^24 + 1 − 2^24 on c = 1.0. -/
theorem test_dotAdd : dotAdd 0x3F800000 false ([(0x4B80, 0x3F80), (0x3F80, 0x3F80), (0xCB80, 0x3F80)].map fun t =>
    (bf16.decode t.1, bf16.decode t.2, 0)) = 0x40000000 := by decide +kernel

/-! The home of a line: the example after R23, shed 1 or, with another seed, shed 5. -/
def seeded (n : Nat) : Mgmt :=
  { yards := [(0, { v := true, cl := 1, wlog := 10 })], vfs := [(1, { en := true, sizeg := 4, seed := n })] }
theorem test_homeOf : (let l := homeOf (seeded 0) (at_ group).m 0x400000; (l.shed, l.bank, l.set_) = (1, 1, 33)) ∧
    (homeOf (seeded 4) (at_ group).m 0x400000).shed = 5 := by decide +kernel

/-! PTROOT after R315: the writer sees it at once, other groups after tlbinv.all. -/
theorem test_csrWr_ptroot : after (.csrWr { fi with a := 3, imm := 0x41 }) (at_ group) (fun t =>
    rootOf t.m 1 1 == 0x100000 && rootOf t.m 1 2 == 0x10000 && (vfst t.m 1).ptroot == 0x100000) = true := by decide +kernel
theorem test_tlbinvAll : (match exec (.csrWr { fi with a := 3, imm := 0x41 }) (at_ group) with
    | .next t => after (.tlbinvAll fa) t fun u => rootOf u.m 1 2 == 0x100000 && (vfst u.m 1).roots == [] && u.m.tlb == []
    | _ => false) = true := by decide +kernel
/-- R335: a step whose tile holds an error halts the virtual function, each group with code 0x3F and INFO 0x30; mzero ends the error. -/
theorem test_latticeStep_error : (let s := looped 0 []
    after (.latticeStep 0) { s with m := { s.m with bad := [((tileAddr 0 7 + 4088) / 8, 7)] } } fun t =>
      (grp t.m 0 0).status == .halted && (grp t.m 0 0).rep == { cls := 3, code := 0x3F, addr := tileAddr 0 7 + 4088, info := 0x30 } && (loopsOf t.m 0).map (·.done) == [0])
    = true := by decide +kernel
theorem test_mzero_error : (let s := own7 group .ready
    after (.mzero { fa with d := 0xA7 }) { s with m := { s.m with bad := [((tileAddr 0 7 + 4088) / 8, 7)] } } fun t => t.m.bad == []) = true := by
  decide +kernel
/-- The example after R23: the chunk of 0x400000 is chunk 1,024, in stack 4, which is attached to shed 3; and the rule's table. -/
theorem test_shedOfStack : stackOf 0x400000 = 4 ∧ shedOfStack 4 = 3 ∧ (List.range 12).map shedOfStack = [0, 0, 1, 2, 3, 3, 4, 4, 5, 6, 7, 7] := by
  decide

end Sys2Proof.Tests
end

/-! PROOF. Writes of the registers that the address map holds (R12, R51, R146, R277, R312, R315). -/

namespace Sys2Proof.Machine

/-! ## Events that name a unit -/

/-- An event whose unit exists applies its effect to the machine. -/
theorem onUnit_true {ok : Bool} (h : ok = true) (f : Mgmt → Mach → Mach) (s : State) :
    onUnit ok f s = .next { s with m := f s.mgmt s.m } := if_pos h

theorem groupOk_iff {c sl : Nat} : groupOk c sl = true ↔ c < 384 ∧ sl < 64 := by
  simp [groupOk, coreOk, slotOk]

/-- An update of one group changes that group and nothing else. -/
theorem groupOnly_modGrp (s : State) (c sl : Nat) (f : Group → Group) :
    GroupOnly s { s with m := modGrp s.m c sl f } c sl (f (grp s.m c sl)) :=
  ⟨rfl, fun _ hk => mget_mset_other _ _ hk _, grp_modGrp_same ..⟩

/-! ## The tile table (R146) -/

theorem exec_tileTableWrite {c e : Nat} (hc : coreOk c = true) (he : e < 32) (v : Word) (s : State) :
    exec (.tileTableWrite c e v) s = .next { s with m := setTileEnt s.m c e v } :=
  onUnit_true (by simp [hc, he]) _ s

/-- The definition of a tile that a word written to its entry gives. -/
def tileDefinition (v : Word) : TileEnt :=
  { st := .empty, ty := v.extractLsb' 58 4, text := v.extractLsb' 56 2, rows := v.toNat / 2 ^ 45 % 2 ^ 11,
    cols := v.toNat / 2 ^ 34 % 2 ^ 11, lsoff := v.toNat % 2 ^ 19 }

/-- A fixed entry, or one whose tile is in use, stays. -/
theorem setTileEnt_fixed {m : Mach} {c e : Nat} (h : e < 8 ∨ (mget {} (core m c).tiles e).st ≠ .empty) (v : Word) :
    setTileEnt m c e v = m := by
  unfold setTileEnt
  refine if_pos ?_
  rcases h with h | h
  · simp [h]
  · simp only [Bool.or_eq_true, bne_iff_ne]
    exact .inr h

theorem setTileEnt_empty {m : Mach} {c e : Nat} (h8 : 8 ≤ e) (h32 : e < 32) (h : (mget {} (core m c).tiles e).st = .empty)
    (v : Word) : setTileEnt m c e v = modCore m c fun k => { k with tiles := mset {} k.tiles e (tileDefinition v) } := by
  unfold setTileEnt
  have hno : ¬ (decide (e < 8) || decide (32 ≤ e) || (mget {} (core m c).tiles e).st != .empty) = true := by
    simp only [h, bne_self_eq_false, Bool.or_false, Bool.or_eq_true, decide_eq_true_eq]
    omega
  rw [if_neg hno]
  simp only [tileDefinition, bitsOf, Nat.reduceAdd, Nat.reduceSub, Nat.pow_zero, Nat.div_one]

/-! ## Counters (R312, R315) -/

theorem exec_cntselWrite {vf i : Nat} (hv : vfOk vf = true) (hi : i < 16) (v : Word) (s : State) :
    exec (.cntselWrite vf i v) s = .next { s with m := setCntsel s.m vf i v } :=
  onUnit_true (by simp [hv, hi]) _ s

theorem setCntsel_entries (m : Mach) (vf i : Nat) (v : Word) :
    (vfst (setCntsel m vf i v) vf).cntsel = mset 0 (vfst m vf).cntsel i (v.toNat % 256) ∧
      (vfst (setCntsel m vf i v) vf).cnt = mset 0 (vfst m vf).cnt i 0 := by
  unfold setCntsel
  rw [vfst_modVf_same]
  exact ⟨rfl, rfl⟩

/-! ## The on-chip map (R48) -/

/-- A register write at an address of the window waits for the end of a claim, and else is a window write (R51). -/
theorem exec_registerWrite_window {pa : Nat} (hlo : winBase ≤ pa) (hhi : pa < 2 ^ 52) (ha : pa % 8 = 0) (v : Word) (s : State) :
    exec (.registerWrite pa v) s =
      .next { s with m := if rangeBlocked s.m pa 8 then s.m else winWrite s.m 0 pa 8 v.toNat [] } := by
  have hport : ¬ (pa < 0x2000 && pa % 0x1000 < 0x100 && pa % 8 == 0) = true := by
    have : ¬ pa < 0x2000 := by unfold winBase at hlo; omega
    simp [this]
  have hok : (decide (winBase ≤ pa) && decide (pa < 2 ^ 52) && pa % 8 == 0) = true := by
    simp only [hlo, hhi, ha, decide_true, beq_self_eq_true, Bool.and_self]
  have hexec : exec (.registerWrite pa v) s = execRegisterWrite pa v s := rfl
  rw [hexec, execRegisterWrite, if_neg hport, onUnit_true hok]

theorem winLoc_coreBase {c o : Nat} (hc : c < 384) (ho : o < 0x400000) : winLoc (coreBase c + o) = .core c o := by
  have hoff : coreBase c + o - winBase = c * 0x400000 + o := by unfold coreBase; omega
  unfold winLoc
  rw [hoff]
  dsimp only
  rw [if_pos (by omega), show (c * 0x400000 + o) / 0x400000 = c by omega, show (c * 0x400000 + o) % 0x400000 = o by omega]

/-- A whole doubleword written leaves nothing of the old value. -/
theorem patch_whole (old v : Word) : patch old.toNat 0 8 v.toNat = v.toNat := by
  have ho := old.isLt
  have hv := v.isLt
  unfold patch
  omega

/-! What the window functions do at a place of the map that is known. Each unfolds its function before it is applied: with the address
there, the kernel would evaluate the match on winLoc of a variable address, and its large literals, instead of comparing terms. -/

section
variable {m : Mach} {pa c o : Nat}

theorem winReg_xWindow (h : winLoc pa = .core c o) (hlo : 0x190000 ≤ o) (hhi : o < 0x1A0000) :
    winReg m pa = if (grp m c ((o - 0x190000) / 0x400)).status != .free && (o - 0x190000) % 0x400 / 8 < 128 then
      some (c, (o - 0x190000) / 0x400, .x ((o - 0x190000) % 0x400 / 8)) else none := by
  generalize hdef : winReg = f
  delta winReg at hdef
  subst hdef
  have hlanes : ¬ o < 0x100000 := by omega
  simp only [h, if_neg hlanes, hlo, hhi, decide_true, Bool.and_self, if_true]

theorem winReg_beyondX (h : winLoc pa = .core c o) (hlo : 0x1A0000 ≤ o) : winReg m pa = none := by
  generalize hdef : winReg = f
  delta winReg at hdef
  subst hdef
  have hlanes : ¬ o < 0x100000 := by omega
  have hx : ¬ o < 0x1A0000 := by omega
  simp only [h, if_neg hlanes, hx, decide_false, Bool.and_false, Bool.false_eq_true, if_false]

theorem winBlocked_some {s : Nat} {r : Reg} (h : winReg m pa = some (c, s, r)) :
    winBlocked m pa = (getFe (grp m c s) r == .claimed) := by
  generalize hdef : winBlocked = f
  delta winBlocked at hdef
  subst hdef
  simp only [h]

theorem winBlocked_none (h : winReg m pa = none) : winBlocked m pa = false := by
  generalize hdef : winBlocked = f
  delta winBlocked at hdef
  subst hdef
  simp only [h]

/-- A range all of whose bytes wait for the same claim, or none of them for any. -/
theorem rangeBlocked_const {n : Nat} {b : Bool} (hn : 0 < n) (h : ∀ j, j < n → winBlocked m (pa + j) = b) :
    rangeBlocked m pa n = b := by
  unfold rangeBlocked
  rw [Bool.eq_iff_iff, List.any_eq_true]
  constructor
  · rintro ⟨j, hj, hb⟩
    rwa [h j (List.mem_range.mp hj)] at hb
  · intro hb
    exact ⟨0, List.mem_range.mpr hn, by rw [h 0 hn, hb]⟩

theorem winWrite_xWindow (h : winLoc pa = .core c o) (hlo : 0x190000 ≤ o) (hhi : o < 0x1A0000) (vf size val : Nat) (vis : Vis) :
    winWrite m vf pa size val vis = winWriteX m c ((o - 0x190000) / 0x400) ((o - 0x190000) % 0x400 / 8) (o % 8) size val vis := by
  generalize hdef : winWrite = f
  delta winWrite at hdef
  subst hdef
  have hlanes : ¬ o < 0x100000 := by omega
  simp only [h, if_neg hlanes, hlo, hhi, decide_true, Bool.and_self, if_true]

theorem winWrite_ctl (h : winLoc pa = .core c o) (hlo : 0x1B0000 ≤ o) (hhi : o < 0x1C0000) (vf size val : Nat) (vis : Vis) :
    winWrite m vf pa size val vis = winWriteCtl m vf pa size val := by
  generalize hdef : winWrite = f
  delta winWrite at hdef
  subst hdef
  have hlanes : ¬ o < 0x100000 := by omega
  have hx : ¬ o < 0x1A0000 := by omega
  simp only [h, if_neg hlanes, hx, hlo, hhi, decide_true, decide_false, Bool.and_false, Bool.and_self, Bool.false_eq_true, if_false,
    if_true]

theorem winWriteCtl_hayErr (h : winLoc pa = .core c o) (hlo : 0x1B0400 ≤ o) (hhi : o < 0x1B0600) (vf size val : Nat) :
    winWriteCtl m vf pa size val = if bitAt (val * 2 ^ (8 * (pa % 8)) % 2 ^ (8 * (pa % 8 + size))) 63 then
      modGrp m c ((o - 0x1B0000 - 0x400) / 8) fun g => { g with hayErr := false } else m := by
  generalize hdef : winWriteCtl = f
  delta winWriteCtl at hdef
  subst hdef
  have htile : ¬ o - 0x1B0000 < 0x200 := by omega
  have hhay : 0x400 ≤ o - 0x1B0000 ∧ o - 0x1B0000 < 0x600 := by omega
  simp only [h, htile, hhay, decide_true, decide_false, Bool.and_false, Bool.and_self, Bool.false_eq_true, if_false, if_true]

end

/-! ## The general-register window (R51) -/

/-- The group after a write of its x register i through the window by a party with the visible set vis. -/
def windowFillX (i : Nat) (v : Word) (vis : Vis) (g : Group) : Group :=
  let k : PendKnow := { isX := true, reg := i, e := 0, vis := vis }
  let h := captureOpen (putX g i v) i v k
  if i = 0 then h else { h with pend := k :: h.pend }

theorem winWriteX_whole {m : Mach} {c sl i : Nat} (h : (grp m c sl).here = true) (hi : i < 128) (v : Word) (vis : Vis) :
    winWriteX m c sl i 0 8 v.toNat vis = modGrp m c sl (windowFillX i v vis) := by
  unfold winWriteX
  rw [if_pos (by simp [h, hi])]
  simp only [patch_whole, BitVec.ofNat_toNat, BitVec.setWidth_eq, beq_iff_eq]
  rfl

theorem Group.here_not_free {g : Group} (h : g.here = true) : g.status ≠ .free := by
  unfold Group.here at h
  rw [Bool.and_eq_true, bne_iff_ne] at h
  exact h.1

/-- Offset in its core's part of the map of x register i of the group in slot sl. -/
def xRegOffset (sl i : Nat) : Nat := 0x190000 + 0x400 * sl + 8 * i

section
variable {c sl i : Nat} (hc : c < 384) (hsl : sl < 64) (hi : i < 128)
include hsl hi

/-- A byte of the register lies in the window, and its place gives the slot and the register back. -/
theorem xRegOffset_parts {j : Nat} (hj : j < 8) :
    0x190000 ≤ xRegOffset sl i + j ∧ xRegOffset sl i + j < 0x1A0000 ∧ (xRegOffset sl i + j - 0x190000) / 0x400 = sl ∧
      (xRegOffset sl i + j - 0x190000) % 0x400 / 8 = i ∧ (xRegOffset sl i + j) % 8 = j := by
  unfold xRegOffset
  omega

include hc

theorem winLoc_xReg {j : Nat} (hj : j < 8) : winLoc (coreBase c + xRegOffset sl i + j) = .core c (xRegOffset sl i + j) := by
  obtain ⟨-, hhi, -⟩ := xRegOffset_parts hsl hi hj
  rw [Nat.add_assoc, winLoc_coreBase hc (by omega)]

/-- The write waits exactly while the register is claimed. -/
theorem rangeBlocked_xReg {m : Mach} (h : (grp m c sl).here = true) :
    rangeBlocked m (coreBase c + xRegOffset sl i) 8 = (getFe (grp m c sl) (.x i) == .claimed) := by
  refine rangeBlocked_const (by omega) fun j hj => winBlocked_some ?_
  obtain ⟨hlo, hhi, hslot, hreg, -⟩ := xRegOffset_parts hsl hi hj
  rw [winReg_xWindow (winLoc_xReg hc hsl hi hj) hlo hhi, hslot, hreg, if_pos (by simp [Group.here_not_free h, hi])]

theorem winWrite_xReg {m : Mach} (h : (grp m c sl).here = true) (v : Word) (vis : Vis) :
    winWrite m 0 (coreBase c + xRegOffset sl i) 8 v.toNat vis = modGrp m c sl (windowFillX i v vis) := by
  obtain ⟨hlo, hhi, hslot, hreg, hbyte⟩ := xRegOffset_parts (j := 0) hsl hi (by omega)
  have hloc := winLoc_xReg hc hsl hi (j := 0) (by omega)
  simp only [Nat.add_zero] at hlo hhi hslot hreg hbyte hloc
  rw [winWrite_xWindow hloc hlo hhi, hslot, hreg, hbyte, winWriteX_whole h hi]

theorem exec_registerWrite_xReg {s : State} (h : (grp s.m c sl).here = true) (v : Word) :
    exec (.registerWrite (coreBase c + 0x190000 + 0x400 * sl + 8 * i) v) s =
      .next { s with m := if getFe (grp s.m c sl) (.x i) = .claimed then s.m else modGrp s.m c sl (windowFillX i v []) } := by
  have hat : coreBase c + 0x190000 + 0x400 * sl + 8 * i = coreBase c + xRegOffset sl i := by unfold xRegOffset; omega
  rw [exec_registerWrite_window (by unfold coreBase; omega) (by unfold coreBase winBase; omega) (by unfold coreBase winBase; omega),
    hat, rangeBlocked_xReg hc hsl hi h, winWrite_xReg hc hsl hi h]
  simp only [beq_iff_eq]

end

/-! What the fill through the window leaves in the group. -/

section
variable (i : Nat) (v : Word) (vis : Vis) (g : Group)

theorem putX_frame : putX g i v = { g with x := (putX g i v).x, xfe := (putX g i v).xfe, pend := (putX g i v).pend } := by
  unfold putX putReg
  dsimp only
  split <;> rfl

theorem windowFillX_frame : windowFillX i v vis g =
    { g with x := (windowFillX i v vis g).x, xfe := (windowFillX i v vis g).xfe, pend := (windowFillX i v vis g).pend,
             run := (windowFillX i v vis g).run } := by
  unfold windowFillX
  rw [putX_frame]
  dsimp only
  split <;> rfl

theorem windowFillX_run : (windowFillX i v vis g).run = (captureOpen g i v { isX := true, reg := i, e := 0, vis := vis }).run := by
  unfold windowFillX
  rw [putX_frame]
  dsimp only
  split <;> rfl

theorem getX_windowFillX (j : Nat) : getX (windowFillX i v vis g) j = getX (putX g i v) j := by
  unfold windowFillX; dsimp only; split <;> rfl

theorem getFe_windowFillX (j : Nat) : getFe (windowFillX i v vis g) (.x j) = getFe (putX g i v) (.x j) := by
  unfold windowFillX; dsimp only; split <;> rfl

end

/-! ## The register that reports a failed load of the Hayloft (R154) -/

/-- A register write to it clears HAYERR where bit 63 is 1. -/
theorem exec_registerWrite_hayErr {c sl : Nat} (hc : c < 384) (hsl : sl < 64) {v : Word} (h63 : v.getLsbD 63 = true) (s : State) :
    exec (.registerWrite (coreBase c + 0x1B0400 + 8 * sl) v) s =
      .next { s with m := modGrp s.m c sl fun g => { g with hayErr := false } } := by
  have hloc : ∀ j, j < 8 → winLoc (coreBase c + 0x1B0400 + 8 * sl + j) = .core c (0x1B0400 + 8 * sl + j) := by
    intro j hj
    rw [show coreBase c + 0x1B0400 + 8 * sl + j = coreBase c + (0x1B0400 + 8 * sl + j) by omega, winLoc_coreBase hc (by omega)]
  have hfree : rangeBlocked s.m (coreBase c + 0x1B0400 + 8 * sl) 8 = false :=
    rangeBlocked_const (by omega) fun j hj => winBlocked_none (winReg_beyondX (hloc j hj) (by omega))
  have halign : (coreBase c + 0x1B0400 + 8 * sl) % 8 = 0 := by unfold coreBase winBase; omega
  have hbit : bitAt (v.toNat * 2 ^ (8 * 0) % 2 ^ (8 * (0 + 8))) 63 = true := by
    rw [BitVec.getLsbD, Nat.testBit_eq_decide_div_mod_eq] at h63
    rw [Nat.mul_zero, Nat.pow_zero, Nat.mul_one, Nat.mod_eq_of_lt v.isLt]
    simpa [bitAt] using h63
  have hloc0 := hloc 0 (by omega)
  simp only [Nat.add_zero] at hloc0
  have hslot : (0x1B0400 + 8 * sl - 0x1B0000 - 0x400) / 8 = sl := by omega
  rw [exec_registerWrite_window (by unfold coreBase; omega) (by unfold coreBase winBase; omega) halign, hfree,
    if_neg Bool.false_ne_true, winWrite_ctl hloc0 (by omega) (by omega),
    winWriteCtl_hayErr hloc0 (by omega) (by omega), halign, if_pos hbit, hslot]

/-! ## The obligation -/

theorem tileTableWrite_sets {s : State} {c e : Nat} (hc : coreOk c = true) (he : e < 32) (h8 : 8 ≤ e)
    (hst : (mget {} (core s.m c).tiles e).st = .empty) (v : Word) :
    Goes (.tileTableWrite c e v) s fun t => t.mgmt = s.mgmt ∧ t.m = { s.m with cores := t.m.cores } ∧
      mget {} (core t.m c).tiles e = tileDefinition v ∧
      (∀ j, j ≠ e → mget {} (core t.m c).tiles j = mget {} (core s.m c).tiles j) ∧
      core t.m c = { core s.m c with tiles := (core t.m c).tiles } ∧ ∀ d, d ≠ c → core t.m d = core s.m d := by
  have hexec := exec_tileTableWrite hc he v s
  rw [setTileEnt_empty h8 he hst] at hexec
  refine ⟨_, hexec, rfl, rfl, ?_, fun j hj => ?_, ?_, fun d hd => ?_⟩
  · rw [core_modCore_same, mget_mset_same]
  · rw [core_modCore_same, mget_mset_other _ _ hj]
  · rw [core_modCore_same]
  · exact core_modCore_other _ hd _

theorem packerTimerWrite_sets {k : Nat} (hk : clusterOk k = true) (v : Word) (s : State) :
    Goes (.packerTimerWrite k v) s fun t => t.mgmt = s.mgmt ∧ t.m = { s.m with clusters := t.m.clusters } ∧
      clus t.m k = { clus s.m k with timer := max 64 (v.toNat % 65536) } ∧ ∀ j, j ≠ k → clus t.m j = clus s.m j :=
  ⟨_, onUnit_true hk _ s, rfl, rfl, clus_modClus_same .., fun _ hj => clus_modClus_other _ hj _⟩

theorem cntselWrite_sets {vf i : Nat} (hv : vfOk vf = true) (hi : i < 16) (v : Word) (s : State) :
    Goes (.cntselWrite vf i v) s fun t => t.mgmt = s.mgmt ∧ t.m = { s.m with vfst := t.m.vfst } ∧
      mget 0 (vfst t.m vf).cntsel i = v.toNat % 256 ∧ mget 0 (vfst t.m vf).cnt i = 0 ∧
      (∀ j, j ≠ i → mget 0 (vfst t.m vf).cntsel j = mget 0 (vfst s.m vf).cntsel j ∧
        mget 0 (vfst t.m vf).cnt j = mget 0 (vfst s.m vf).cnt j) ∧ ∀ w, w ≠ vf → vfst t.m w = vfst s.m w := by
  obtain ⟨hsel, hcnt⟩ := setCntsel_entries s.m vf i v
  refine ⟨_, exec_cntselWrite hv hi v s, rfl, rfl, ?_, ?_, fun j hj => ⟨?_, ?_⟩, fun w hw => vfst_modVf_other _ hw _⟩
  · rw [hsel, mget_mset_same]
  · rw [hcnt, mget_mset_same]
  · rw [hsel, mget_mset_other _ _ hj]
  · rw [hcnt, mget_mset_other _ _ hj]

/-- Settles O52: each row is the update of one core, cluster, virtual function or group, whose parts are read back one by one. -/
theorem mappedRegisters : Obligations.MappedRegisters := by
  unfold Obligations.MappedRegisters
  refine fun s v => ⟨fun c e hc he => ⟨fun hfix => ?_, fun h8 hst => tileTableWrite_sets hc he h8 hst v⟩,
    fun k hk => packerTimerWrite_sets hk v s, fun vf i hv hi => cntselWrite_sets hv hi v s,
    fun c sl i hg hi hhere => ⟨fun hclaim => ?_, fun hfree => ?_⟩, fun c sl hg h63 => ?_⟩
  · rw [exec_tileTableWrite hc he, setTileEnt_fixed hfix]
  · obtain ⟨hc, hsl⟩ := groupOk_iff.mp hg
    rw [exec_registerWrite_xReg hc hsl hi hhere, if_pos hclaim]
  · obtain ⟨hc, hsl⟩ := groupOk_iff.mp hg
    refine ⟨_, by rw [exec_registerWrite_xReg hc hsl hi hhere, if_neg hfree], _, groupOnly_modGrp s c sl _,
      windowFillX_frame .., windowFillX_run .., ?_, ?_, fun j hj => ⟨?_, ?_⟩⟩
    · rw [getX_windowFillX, getX_putX]
      by_cases h0 : i = 0
      · simp [h0, getX]
      · simp [h0]
    · rw [getFe_windowFillX, getFe_putX, if_pos rfl]
    · rw [getX_windowFillX, getX_putX, if_neg fun h => hj h.1]
    · rw [getFe_windowFillX, getFe_putX, if_neg fun h => hj (Reg.x.inj h)]
  · obtain ⟨hc, hsl⟩ := groupOk_iff.mp hg
    exact ⟨_, exec_registerWrite_hayErr hc hsl h63 s, groupOnly_modGrp ..⟩

end Sys2Proof.Machine
